-- ==== Sys2Proof/Word.lean ====
section
/-! DEFINITION. The words of the machine and the plain names of its units (00 R2-R4, 02 R22, 10 R230). -/

namespace Sys2Proof

/-- A 64-bit scalar, a fat pointer (R31) or a code pointer (R159). -/
abbrev Word := BitVec 64
/-- A 128-bit vector register (R22). -/
abbrev Vec := BitVec 128
/-- A 16-bit halfword of an instruction line (R156), or a predicate register (R22). -/
abbrev Half := BitVec 16
/-- One byte of memory (R4). -/
abbrev Byte := BitVec 8

/-- A place (R230) as a number: CORE [2:0], CLUSTER [8:3], DIE [9], PKG [21:10]. -/
abbrev Place := Nat
/-- A hardware context: 4 times its core's place, plus its context number (R2). -/
abbrev CtxId := Nat
/-- A cluster: the place of its cores divided by 8. -/
abbrev ClusterId := Nat
/-- A die: the place of its cores divided by 512. -/
abbrev DieId := Nat
/-- A package number (R372). -/
abbrev PkgId := Nat
/-- The part of a partition that lies on one package (R339): 16 times the package, plus the partition bank. -/
abbrev PartId := Nat

/-- A sparse map from numbers: strictly rising keys, an absent key standing for the unit's default. -/
abbrev SMap (α : Type) := List (Nat × α)

end Sys2Proof
end

