-- ==== Sys2Proof/Machine/Maps.lean ====
section
/-! DEFINITION. Sparse maps and lists of numbers kept in rising order, and bytes as numbers. -/

namespace Sys2Proof

/-- The entry of key k, or the default. -/
def SMap.look {α : Type} (m : SMap α) (k : Nat) (d : α) : α :=
  match m with
  | [] => d
  | (j, v) :: t => if j = k then v else SMap.look t k d

/-- Key k stands for v; rising keys stay rising. -/
def SMap.put {α : Type} (m : SMap α) (k : Nat) (v : α) : SMap α :=
  match m with
  | [] => [(k, v)]
  | (j, w) :: t => if j < k then (j, w) :: SMap.put t k v else if j = k then (k, v) :: t else (k, v) :: (j, w) :: t

/-- No entry of key k. -/
def SMap.drop {α : Type} (m : SMap α) (k : Nat) : SMap α := m.filter fun e => e.1 != k

def SMap.upd {α : Type} (m : SMap α) (k : Nat) (d : α) (f : α → α) : SMap α := SMap.put m k (f (SMap.look m k d))

/-- Strictly rising keys. -/
def SMap.rising {α : Type} : SMap α → Bool
  | [] => true
  | [_] => true
  | (j, _) :: (k, w) :: t => decide (j < k) && SMap.rising ((k, w) :: t)

/-- A set of numbers as a rising list. -/
def natInsert (l : List Nat) (k : Nat) : List Nat :=
  match l with
  | [] => [k]
  | j :: t => if j < k then j :: natInsert t k else if j = k then j :: t else k :: j :: t
def natErase (l : List Nat) (k : Nat) : List Nat := l.filter (· != k)

/-- Bytes as one little-endian number (R4). -/
def natOfBytes : List Byte → Nat
  | [] => 0
  | b :: t => b.toNat + 256 * natOfBytes t

/-- The n low bytes of a number, lowest first (R4). -/
def bytesOfNat : Nat → Nat → List Byte
  | 0, _ => []
  | n + 1, x => BitVec.ofNat 8 x :: bytesOfNat n (x / 256)

/-- Bits [lo + n - 1 : lo] of a number. -/
def bitsOf (x lo n : Nat) : Nat := x / 2 ^ lo % 2 ^ n
def bitOf (x i : Nat) : Bool := x / 2 ^ i % 2 == 1

/-- A two's-complement reading of the low w bits. -/
def signedOf (w x : Nat) : Int := if x % 2 ^ w < 2 ^ (w - 1) then (x % 2 ^ w : Nat) else ((x % 2 ^ w : Nat) : Int) - 2 ^ w
/-- The w-bit pattern of an integer. -/
def wrapTo (w : Nat) (x : Int) : Nat := (x % (2 ^ w : Int)).toNat

def ceilDiv (a b : Nat) : Nat := (a + b - 1) / b
/-- a rounded up to a multiple of b. -/
def roundUp (a b : Nat) : Nat := ceilDiv a b * b

/-- Elements i with lists' n-th replaced. -/
def listSet {α : Type} (l : List α) (n : Nat) (x : α) : List α := l.set n x
def listDrop {α : Type} (l : List α) (n : Nat) : List α := l.eraseIdx n

/-- A word of bytes, zero beyond the list. -/
def wordOfBytes (l : List Byte) : Word := BitVec.ofNat 64 (natOfBytes (l.take 8))
def vecOfBytes (l : List Byte) : Vec := BitVec.ofNat 128 (natOfBytes (l.take 16))
/-- n bytes of a list from an offset, zeros beyond its end. -/
def bytesAt (l : List Byte) (off n : Nat) : List Byte := (List.range n).map fun i => l.getD (off + i) 0
def fieldAt (l : List Byte) (off n : Nat) : Nat := natOfBytes (bytesAt l off n)

/-- Bits j to j + w - 1 of a little-endian bit stream (R51). -/
def streamBits (l : List Byte) (j w : Nat) : Nat :=
  bitsOf (natOfBytes (bytesAt l (j / 8) ((j % 8 + w + 7) / 8))) (j % 8) w

/-- Elements of w bits as a little-endian bit stream, padded to whole bytes (R51). -/
def packStream (w : Nat) (l : List Nat) : List Byte :=
  let n := l.foldr (fun e acc => e % 2 ^ w + 2 ^ w * acc) 0
  bytesOfNat ((w * l.length + 7) / 8) n

end Sys2Proof
end

