-- ==== Sys2Proof/Machine/Flags.lean ====
section
/-! DEFINITION. Number formats, rounding and the status flags it sets (R50-R70), O4 (R53), the divider (R67, R68). -/

namespace Sys2Proof.Machine

/-! ## Status flags (R24) -/

abbrev SW := BitVec 7
def fIX : SW := 1
def fOF : SW := 2
def fUF : SW := 4
def fNV : SW := 8
def fDZ : SW := 16
def fSAT : SW := 32
def fOTR : SW := 64
def flagIf (c : Bool) (f : SW) : SW := if c then f else 0

/-! ## Formats (R50, R54, R55) -/

/-- A floating format: exponent and fraction bits, bias, and whether it is F8A or F8B. -/
structure Fmt where
  eb : Nat
  fb : Nat
  bias : Nat
  f8 : Bool
  deriving DecidableEq, Repr

def fp16 : Fmt := { eb := 5, fb := 10, bias := 15, f8 := false }
def bf16 : Fmt := { eb := 8, fb := 7, bias := 127, f8 := false }
def fp32 : Fmt := { eb := 8, fb := 23, bias := 127, f8 := false }
def f8a : Fmt := { eb := 4, fb := 3, bias := 8, f8 := true }
def f8b : Fmt := { eb := 5, fb := 2, bias := 16, f8 := true }

def Fmt.width (f : Fmt) : Nat := 1 + f.eb + f.fb
/-- Exponent of the smallest normal. -/
def Fmt.emin (f : Fmt) : Int := 1 - (f.bias : Int)
/-- Largest finite code without its sign (R55, R57). -/
def Fmt.maxCode (f : Fmt) : Nat := if f.f8 then 2 ^ (f.eb + f.fb) - 1 else (2 ^ f.eb - 1) * 2 ^ f.fb - 1
def Fmt.infCode (f : Fmt) : Nat := (2 ^ f.eb - 1) * 2 ^ f.fb
/-- The default NaN (R60). -/
def Fmt.nanCode (f : Fmt) : Nat := if f.f8 then 0x80 else (2 ^ f.eb - 1) * 2 ^ f.fb + 2 ^ (f.fb - 1)
def Fmt.signBit (f : Fmt) (neg : Bool) : Nat := if neg then 2 ^ (f.eb + f.fb) else 0

/-- A floating value: finite values are m·2^e with a sign. -/
inductive FVal where
  | nan (signalling : Bool)
  | inf (neg : Bool)
  | fin (neg : Bool) (m : Nat) (e : Int)
  deriving DecidableEq, Repr

/-- The value of a code (R54, R55). -/
def Fmt.value (f : Fmt) (bits : Nat) : FVal :=
  let neg := bitOf bits (f.eb + f.fb)
  let ex := bitsOf bits f.fb f.eb
  let fr := bitsOf bits 0 f.fb
  if f.f8 && bits % 256 == 0x80 then .nan false
  else if !f.f8 && ex == 2 ^ f.eb - 1 then (if fr = 0 then .inf neg else .nan (!bitOf fr (f.fb - 1)))
  else if ex = 0 then .fin neg fr (f.emin - f.fb)
  else .fin neg (2 ^ f.fb + fr) ((ex : Int) - f.bias - f.fb)

def FVal.isNan : FVal → Bool
  | .nan _ => true
  | _ => false
def FVal.isSnan : FVal → Bool
  | .nan s => s
  | _ => false
def FVal.isZero : FVal → Bool
  | .fin _ m _ => m == 0
  | _ => false
def FVal.isFinite : FVal → Bool
  | .fin .. => true
  | _ => false
def FVal.neg : FVal → Bool
  | .nan _ => false
  | .inf n => n
  | .fin n _ _ => n
def FVal.negate : FVal → FVal
  | .nan s => .nan s
  | .inf n => .inf !n
  | .fin n m e => .fin (!n) m e

/-! ## Rounding (R58, R59) -/

/-- Rounding mode codes: 0 RNE, 1 RTZ, 2 RUP, 3 RDN, 4 RNA. -/
abbrev Mode := Nat
def rne : Mode := 0
def rtz : Mode := 1

/-- Whether to add one to the truncated magnitude q: r over d is the part cut off, `more` a further part below it. -/
def roundUpP (mode : Mode) (neg : Bool) (q r d : Nat) (more : Bool) : Bool :=
  let inexact := decide (r ≠ 0) || more
  match mode with
  | 0 => decide (d < 2 * r) || (decide (d = 2 * r) && (more || q % 2 == 1))
  | 1 => false
  | 2 => inexact && !neg
  | 3 => inexact && neg
  | _ => decide (d ≤ 2 * r)

/-- The magnitude m·2^e (plus less than one unit of it where `more`) as a multiple of 2^q, rounded; and whether inexact. -/
def roundAt (mode : Mode) (neg : Bool) (m : Nat) (e q : Int) (more : Bool) : Nat × Bool :=
  if q ≤ e then (m * 2 ^ (e - q).toNat + (if more && roundUpP mode neg 0 0 1 more then 1 else 0), more)
  else
    let d := 2 ^ (q - e).toNat
    let t := m / d
    let r := m % d
    (if roundUpP mode neg t r d more then t + 1 else t, decide (r ≠ 0) || more)

/-- Exponent of the leading bit of m·2^e. -/
def msb (m : Nat) (e : Int) : Int := e + (Nat.log2 m : Int)

/-- Overflow codes by mode (R59), and into F8 (R63). -/
def overflowCode (f : Fmt) (mode : Mode) (neg nanOvf : Bool) : Nat × SW :=
  if f.f8 then
    if nanOvf then (0x80, fOF ||| fIX) else (f.signBit neg + f.maxCode, fOF ||| fIX ||| fSAT)
  else
    let inf := match mode with | 0 => true | 1 => false | 2 => !neg | 3 => neg | _ => true
    (f.signBit neg + (if inf then f.infCode else f.maxCode), fOF ||| fIX)

/-- A finite magnitude rounded into a format once, with the flags of R59. -/
def roundFin (f : Fmt) (mode : Mode) (neg : Bool) (m : Nat) (e : Int) (more nanOvf : Bool) : Nat × SW :=
  if m = 0 ∧ more = false then (if f.f8 then 0 else f.signBit neg, 0)
  else
    let top := msb m e
    let qu := top - f.fb
    let q := if qu < f.emin - f.fb then f.emin - f.fb else qu
    let (sig, ix) := roundAt mode neg m e q more
    let (sigU, _) := roundAt mode neg m e qu more
    -- tiny after rounding to the precision with an unbounded exponent
    let tiny := decide (msb sigU qu < f.emin)
    let code :=
      if sig < 2 ^ f.fb then sig
      else
        let (sg, qq) := if sig = 2 ^ (f.fb + 1) then (2 ^ f.fb, q + 1) else (sig, q)
        ((qq + f.fb + f.bias).toNat) * 2 ^ f.fb + (sg - 2 ^ f.fb)
    if f.maxCode < code then overflowCode f mode neg nanOvf
    else
      let out := if f.f8 && code == 0 then 0 else f.signBit neg + code
      (out, flagIf ix fIX ||| flagIf (ix && tiny) fUF)

/-- A value rounded into a format (R59-R63). -/
def roundVal (f : Fmt) (mode : Mode) (nanOvf : Bool) : FVal → Nat × SW
  | .nan s => (f.nanCode, flagIf s fNV)
  | .inf n => if f.f8 then (if nanOvf then (0x80, 0) else (f.signBit n + f.maxCode, fSAT)) else (f.signBit n + f.infCode, 0)
  | .fin n m e => roundFin f mode n m e false nanOvf

/-! ## Exact arithmetic on values (R60, R61) -/

/-- A signed significand at an exponent at or below its own. -/
def scaled (n : Bool) (m : Nat) (e q : Int) : Int :=
  let x : Int := m * 2 ^ (e - q).toNat
  if n then -x else x
def finOf (z : Int) (e : Int) (zeroNeg : Bool) : FVal := if z = 0 then .fin zeroNeg 0 e else .fin (decide (z < 0)) z.natAbs e

/-- The exact sum, with NV where it is invalid. -/
def addVal (mode : Mode) (a b : FVal) : FVal × SW :=
  match a, b with
  | .nan s, x => (.nan false, flagIf (s || x.isSnan) fNV)
  | x, .nan s => (.nan false, flagIf (s || x.isSnan) fNV)
  | .inf n, .inf k => if n = k then (.inf n, 0) else (.nan false, fNV)
  | .inf n, _ => (.inf n, 0)
  | _, .inf n => (.inf n, 0)
  | .fin n m e, .fin k l g =>
    let q := min e g
    let z := scaled n m e q + scaled k l g q
    (finOf z q (if m = 0 ∧ l = 0 ∧ n = k then n else decide (mode = 3)), 0)

/-- The exact product. -/
def mulVal (a b : FVal) : FVal × SW :=
  match a, b with
  | .nan s, x => (.nan false, flagIf (s || x.isSnan) fNV)
  | x, .nan s => (.nan false, flagIf (s || x.isSnan) fNV)
  | .inf n, x => if x.isZero then (.nan false, fNV) else (.inf (n != x.neg), 0)
  | x, .inf n => if x.isZero then (.nan false, fNV) else (.inf (n != x.neg), 0)
  | .fin n m e, .fin k l g => (.fin (n != k) (m * l) (e + g), 0)

/-- d + a·b: an invalid product sets NV whatever d holds (R60, R252). -/
def fmaVal (mode : Mode) (d a b : FVal) : FVal × SW :=
  let (p, fp) := mulVal a b
  let (r, fr) := addVal mode d p
  (r, fp ||| fr)

def roundRes (f : Fmt) (mode : Mode) (r : FVal × SW) : Nat × SW :=
  let (c, fl) := roundVal f mode false r.1
  (c, r.2 ||| fl)

/-- Order of two values that are no NaN: a < b; -0 and +0 are equal. -/
def ltVal (a b : FVal) : Bool :=
  match a, b with
  | .inf n, .inf k => n && !k
  | .inf n, _ => n
  | _, .inf n => !n
  | .fin n m e, .fin k l g => decide (scaled n m e (min e g) < scaled k l g (min e g))
  | _, _ => false
def eqVal (a b : FVal) : Bool := !a.isNan && !b.isNan && !ltVal a b && !ltVal b a
/-- Order with -0 below +0 (R252). -/
def ltZero (a b : FVal) : Bool := ltVal a b || (a.isZero && b.isZero && a.neg && !b.neg)

/-- Minimum or maximum of two operands (R252). -/
def minmaxVal (wantMax : Bool) (a b : FVal) : FVal × SW :=
  if a.isSnan || b.isSnan then (.nan false, fNV)
  else if a.isNan && b.isNan then (.nan false, 0)
  else if a.isNan then (b, 0)
  else if b.isNan then (a, 0)
  else if wantMax then (if ltZero a b then b else a, 0) else (if ltZero b a then b else a, 0)

/-- The exact sum of finite terms m·2^e with signs. -/
def sumFin : List (Int × Int) → Int × Int
  | [] => (0, 0)
  | (z, e) :: t =>
    let (w, g) := sumFin t
    let q := min e g
    (z * 2 ^ (e - q).toNat + w * 2 ^ (g - q).toNat, q)

def FVal.signed : FVal → Int × Int
  | .fin n m e => (if n then -(m : Int) else m, e)
  | _ => (0, 0)

/-- The exact sum of values (R21, R257): its special case, or its finite sum. Both infinities among the values raise NV even
beside a NaN (R60). -/
def sumVals (mode : Mode) (l : List FVal) : FVal × SW :=
  let p := l.any fun x => x == .inf false
  let n := l.any fun x => x == .inf true
  if l.any FVal.isNan then (.nan false, flagIf (l.any FVal.isSnan || p && n) fNV)
  else
    if p && n then (.nan false, fNV)
    else if p then (.inf false, 0)
    else if n then (.inf true, 0)
    else
      let (z, e) := sumFin (l.map FVal.signed)
      let allNegZero := !l.isEmpty && l.all fun x => x.isZero && x.neg
      let anyNeg := l.any FVal.neg
      let anyPos := l.any fun x => !x.neg
      (finOf z e (allNegZero || (decide (mode = 3) && anyNeg && anyPos)), 0)

/-! ## Integer formats (R52) and conversions (R62-R66) -/

/-- A value of any format. -/
inductive Val where
  | int (z : Int)
  | flt (v : FVal)
  deriving DecidableEq, Repr

/-- What a format code names (R50): an integer format by width and signedness, a floating format, or O4. -/
inductive Kind where
  | int (w : Nat) (signed : Bool)
  | flt (f : Fmt)
  | o4
  deriving DecidableEq, Repr

def kindOf (code : Nat) : Option Kind :=
  match code with
  | 0x01 => some (.int 2 true) | 0x02 => some (.int 4 true) | 0x03 => some (.int 4 false) | 0x04 => some .o4
  | 0x05 => some (.int 6 true) | 0x06 => some (.int 6 false) | 0x07 => some (.int 8 true) | 0x08 => some (.int 8 false)
  | 0x09 => some (.flt f8a) | 0x0A => some (.flt f8b) | 0x0B => some (.flt bf16) | 0x0C => some (.flt fp16)
  | 0x0D => some (.int 16 true) | 0x0E => some (.int 16 false) | 0x0F => some (.flt fp32) | 0x10 => some (.int 32 true)
  | 0x11 => some (.int 64 true)
  | _ => none

/-- Lane types by TIDX (R223). -/
def tidxKind (t : Nat) : Kind :=
  match t with
  | 0 => .flt fp32 | 1 => .flt fp16 | 2 => .flt bf16 | 3 => .flt f8a | 4 => .flt f8b | 5 => .int 8 true | 6 => .int 8 false
  | 7 => .int 16 true | 8 => .int 16 false | 9 => .int 32 true | _ => .int 64 true

def Kind.width : Kind → Nat
  | .int w _ => w
  | .flt f => f.width
  | .o4 => 4

def Kind.value (k : Kind) (bits : Nat) : Val :=
  match k with
  | .int w true => .int (signedOf w bits)
  | .int w false => .int (bits % 2 ^ w : Nat)
  | .flt f => .flt (f.value bits)
  | .o4 => .int (signedOf 4 bits)

def intMin (w : Nat) (signed : Bool) : Int := if signed then -(2 ^ (w - 1)) else 0
def intMax (w : Nat) (signed : Bool) : Int := if signed then 2 ^ (w - 1) - 1 else 2 ^ w - 1
def clampInt (w : Nat) (signed : Bool) (z : Int) : Int := max (intMin w signed) (min (intMax w signed) z)
def inInt (w : Nat) (signed : Bool) (z : Int) : Bool := decide (intMin w signed ≤ z) && decide (z ≤ intMax w signed)

/-- A value rounded to an integer, and whether inexactly. -/
def roundInt (mode : Mode) (n : Bool) (m : Nat) (e : Int) : Int × Bool :=
  let (t, ix) := roundAt mode n m e 0 false
  (if n then -(t : Int) else t, ix)

/-- Floating to integer (R64). -/
def fltToInt (w : Nat) (signed : Bool) (mode : Mode) : FVal → Nat × SW
  | .nan _ => (0, fNV)
  | .inf n => (wrapTo w (if n then intMin w signed else intMax w signed), fNV)
  | .fin n m e =>
    let (z, ix) := roundInt mode n m e
    if inInt w signed z then (wrapTo w z, flagIf ix fIX) else (wrapTo w (clampInt w signed z), fNV)

/-- Integer to integer (R66). -/
def intToInt (w : Nat) (signed sat : Bool) (z : Int) : Nat × SW :=
  if sat && !inInt w signed z then (wrapTo w (clampInt w signed z), fSAT) else (wrapTo w z, 0)

/-- Conversion of a value into a format; `ovf` is .sat or .nan (R62-R66). -/
def convert (mode : Mode) (ovf : Bool) (target : Kind) (v : Val) : Nat × SW :=
  match target, v with
  | .int w sg, .int z => intToInt w sg ovf z
  | .int w sg, .flt x => fltToInt w sg mode x
  | .flt f, .int z => roundFin f mode (decide (z < 0)) z.natAbs 0 false ovf
  | .flt f, .flt x => roundVal f mode ovf x
  | .o4, _ => (0, 0)

/-! ## O4 (R53): an odd number of elements, which R53 does not speak of, lies in the bytes that R51 gives it (log 77) -/

/-- One element after another: bytes taken as outliers, the values so far with the last first, and OTR. -/
def o4Step (b : List Byte) (n : Nat) (st : List Nat × List Val × Bool) (i : Nat) : List Nat × List Val × Bool :=
  let (used, vals, otr) := st
  let e := bitsOf (b.getD (i / 2) 0).toNat (4 * (i % 2)) 4
  if used.contains (i / 2) then (used, .int 0 :: vals, otr)
  else if e ≠ 8 then (used, .int (signedOf 4 e) :: vals, otr)
  else
    match ((List.range ((n + 1) / 2)).filter (i / 2 < ·)).find? fun j => !used.contains j with
    | none => (used, .int 0 :: vals, true)
    | some j => (j :: used, .flt (f8a.value (b.getD j 0).toNat) :: vals, otr)

/-- The n elements of an O4 row and whether OTR is set. -/
def o4Decode (b : List Byte) (n : Nat) : List Val × Bool :=
  let (_, vals, otr) := (List.range n).foldl (o4Step b n) ([], [], false)
  (vals.reverse, otr)

/-- The bytes of a row of n elements of a format (R51, R53). -/
def rowBytes (k : Kind) (n : Nat) : Nat := (n * k.width + 7) / 8

/-- The n elements of a row in a format. -/
def rowValues (k : Kind) (b : List Byte) (n : Nat) : List Val × Bool :=
  match k with
  | .o4 => o4Decode b n
  | _ => ((List.range n).map fun i => k.value (streamBits b (i * k.width) k.width), false)

def valF : Val → FVal
  | .int z => .fin (decide (z < 0)) z.natAbs 0
  | .flt v => v

/-- The F8A code of an O4 element's value, which is exact (R107). -/
def o4Code (v : Val) : Nat := (convert rne false (.flt f8a) v).1

/-! ## The divider (R67, R68) -/

/-- Quotient and remainder of w-bit operands with their flags. -/
def divide (w : Nat) (signed : Bool) (a b : Nat) : Nat × Nat × SW :=
  if b % 2 ^ w = 0 then (2 ^ w - 1, a % 2 ^ w, fDZ)
  else if signed then
    let x := signedOf w a
    let y := signedOf w b
    if x = -(2 ^ (w - 1)) ∧ y = -1 then (a % 2 ^ w, 0, fOF)
    else
      let q : Int := Int.tdiv x y
      (wrapTo w q, wrapTo w (x - q * y), 0)
  else (a % 2 ^ w / (b % 2 ^ w), a % 2 ^ w % (b % 2 ^ w), 0)

def bitlen (n : Nat) : Nat := if n = 0 then 0 else Nat.log2 n + 1

/-- Latency of one division in cycles (R68). -/
def divideCycles (w : Nat) (signed : Bool) (a b : Nat) : Nat :=
  if b % 2 ^ w = 0 then 3
  else
    let x := if signed then (signedOf w a).natAbs else a % 2 ^ w
    let y := if signed then (signedOf w b).natAbs else b % 2 ^ w
    if signed ∧ signedOf w a = -(2 ^ (w - 1)) ∧ signedOf w b = -1 then 3
    else 2 + (max 1 (bitlen x + 1 - bitlen y) + 1) / 2

/-! ## Special functions (R69, R70) -/

/-- The integer square root, bit by bit from bit k down. -/
def isqrtFrom (n : Nat) : Nat → Nat → Nat
  | 0, r => r
  | k + 1, r => isqrtFrom n k (if (r + 2 ^ k) * (r + 2 ^ k) ≤ n then r + 2 ^ k else r)
def isqrt (n : Nat) : Nat := isqrtFrom n (bitlen n / 2 + 1) 0

/-- Fraction bits of the working values of the transcendental functions. -/
def wp : Nat := 400

/-- atanh of p/q as a working value: the sum of (p/q)^(2i+1)/(2i+1). -/
def atanhSum (p q : Nat) : Nat → Nat → Nat → Nat
  | 0, _, _ => 0
  | fuel + 1, i, term => term / (2 * i + 1) + atanhSum p q fuel (i + 1) (term * p * p / (q * q))
def atanhW (p q : Nat) : Nat := atanhSum p q 260 0 (2 ^ wp * p / q)

/-- ln 2 = 2·atanh(1/3). -/
def ln2W : Nat := 2 * atanhW 1 3

/-- e^x of a working value below 1: the sum of x^i/i!. -/
def expSum (x : Nat) : Nat → Nat → Nat → Nat
  | 0, _, _ => 0
  | fuel + 1, i, term => term + expSum x fuel (i + 1) (term * x / (2 ^ wp * (i + 1)))
def expW (x : Nat) : Nat := expSum x 110 0 (2 ^ wp)

/-- floor(m·2^e·2^k). -/
def shiftTo (m : Nat) (e : Int) (k : Nat) : Nat :=
  let t := e + k
  if 0 ≤ t then m * 2 ^ t.toNat else m / 2 ^ (-t).toNat

/-- 2^x of a finite x that is no integer or an integer of moderate size: RTZ, with the flags of R69 and R70. -/
def exp2Fin (f : Fmt) (n : Bool) (m : Nat) (e : Int) : Nat × SW :=
  if m = 0 then roundFin f rtz false 1 0 false false
  else if 9 ≤ msb m e then (if n then (0, fUF ||| fIX) else (f.infCode, fOF ||| fIX))
  else
    -- x = whole + frac with 0 ≤ frac < 1
    let z := scaled n m e (min e 0)
    let d : Int := 2 ^ (-(min e 0)).toNat
    let whole := z / d
    let frac := (z % d).toNat
    if f.bias < whole then (f.infCode, fOF ||| fIX)
    else if frac = 0 then roundFin f rtz false 1 whole false false
    else
      let y := expW (2 ^ wp * frac / d.toNat * ln2W / 2 ^ wp)
      roundFin f rtz false y (whole - wp) true false

/-- log2 of a positive finite value. -/
def log2Fin (f : Fmt) (m : Nat) (e : Int) : Nat × SW :=
  let top := msb m e
  let one := 2 ^ Nat.log2 m
  if m = one then roundFin f rtz (decide (top < 0)) top.natAbs 0 false false
  else
    let fr := 2 * atanhW (m - one) (m + one) * 2 ^ wp / ln2W
    let z : Int := top * 2 ^ wp + fr
    roundFin f rtz (decide (z < 0)) (if z < 0 then z.natAbs - 1 else z.natAbs) (-(wp : Int)) true false

/-- tanh of a finite value. -/
def tanhFin (f : Fmt) (n : Bool) (m : Nat) (e : Int) : Nat × SW :=
  if m = 0 then (f.signBit n, 0)
  else if msb m e < -40 then roundFin f rtz n (m * 2 ^ 64 - 1) (e - 64) true false
  else if 6 ≤ msb m e then roundFin f rtz n (2 ^ 64 - 1) (-64) true false
  else
    -- e^(-2|x|) = 2^(-whole)·e^(-frac): reduce by halving until the argument is below 1
    let x := shiftTo m (e + 1 - 8) wp
    let t := expW x
    let sq (v : Nat) : Nat := v * v / 2 ^ wp
    let y := sq (sq (sq (sq (sq (sq (sq (sq t)))))))
    roundFin f rtz n ((y - 2 ^ wp) * 2 ^ 200 / (y + 2 ^ wp)) (-200) true false

/-- 1/x of a finite non-zero value; an overflow gives an infinity in spite of RTZ (R70). -/
def rcpFin (f : Fmt) (n : Bool) (m : Nat) (e : Int) : Nat × SW :=
  let k := bitlen m + 64
  let q := 2 ^ k / m
  let (c, fl) := roundFin f rtz n q (-e - k) (decide (2 ^ k % m ≠ 0)) false
  if fl &&& fOF ≠ 0 then (f.signBit n + f.infCode, fOF ||| fIX) else (c, fl)

/-- A finite value with an even exponent. -/
def evenExp (m : Nat) (e : Int) : Nat × Int := if e % 2 = 0 then (m, e) else (2 * m, e - 1)

def rsqrtFin (f : Fmt) (m : Nat) (e : Int) : Nat × SW :=
  let (m, e) := evenExp m e
  let k := bitlen m + 64
  let r := isqrt (2 ^ (2 * k) / m)
  roundFin f rtz false r (-(e / 2) - k) (decide (r * r * m ≠ 2 ^ (2 * k))) false

def sqrtFin (f : Fmt) (mode : Mode) (m : Nat) (e : Int) : Nat × SW :=
  let (m, e) := evenExp m e
  let r := isqrt (m * 2 ^ 128)
  roundFin f mode false r (e / 2 - 64) (decide (r * r ≠ m * 2 ^ 128)) false

/-- The special-function heads by F: 0 exp2, 1 log2, 2 rcp, 3 rsqrt, 4 sqrt, 5 tanh (R263, R70). -/
def special (f : Fmt) (fn : Nat) (mode : Mode) (x : FVal) : Nat × SW :=
  match x with
  | .nan s => (f.nanCode, flagIf s fNV)
  | .inf n =>
    match fn with
    | 0 => (if n then 0 else f.infCode, 0)
    | 2 => (f.signBit n, 0)
    | 3 => if n then (f.nanCode, fNV) else (0, 0)
    | 5 => roundFin f rtz n 1 0 false false
    | _ => if n then (f.nanCode, fNV) else (f.infCode, 0)
  | .fin n m e =>
    match fn with
    | 0 => exp2Fin f n m e
    | 1 => if m = 0 then (f.signBit true + f.infCode, fDZ) else if n then (f.nanCode, fNV) else log2Fin f m e
    | 2 => if m = 0 then (f.signBit n + f.infCode, fDZ) else rcpFin f n m e
    | 3 => if m = 0 then (f.signBit n + f.infCode, fDZ) else if n then (f.nanCode, fNV) else rsqrtFin f m e
    | 4 => if m = 0 then (f.signBit n, 0) else if n then (f.nanCode, fNV) else sqrtFin f mode m e
    | _ => tanhFin f n m e

/-! ## Magnitudes (R82, R83) -/

/-- |v| < θ, exactly. -/
def dropped (theta v : FVal) : Bool :=
  match v with
  | .fin _ m e => ltVal (.fin false m e) theta
  | _ => false
/-- floor(|v|·2^40). -/
def dropAmount : FVal → Nat
  | .fin _ m e => shiftTo m e 40
  | _ => 0
/-- DROPMAG plus t, saturating. -/
def dropAdd (d : Word) (t : Nat) : Word := if 2 ^ 64 - 1 < d.toNat + t then BitVec.allOnes 64 else d + BitVec.ofNat 64 t

/-- A legal θ: finite and not negative; -0 acts as +0 (R82, R262). -/
def thetaOk (bits : Nat) : Bool :=
  match fp16.value bits with
  | .fin n m _ => !n || m == 0
  | _ => false

/-! ## Real roundings by name (R20) -/

def rn32 (z : Int) (e : Int) : Nat := (roundFin fp32 rne (decide (z < 0)) z.natAbs e false false).1
def rn16 (z : Int) (e : Int) : Nat := (roundFin fp16 rne (decide (z < 0)) z.natAbs e false false).1

/-! ## CRCs (R112, R247) -/

/-- One bit of a CRC-64 with the ECMA-182 polynomial, not reflected. -/
def crc64Bit (c : Nat) (b : Bool) : Nat :=
  let top := bitOf c 63 != b
  let sh := c * 2 % 2 ^ 64
  if top then sh ^^^ 0x42F0E1EBA9EA3693 else sh
def crc64Byte (c : Nat) (v : Byte) : Nat := ((List.range 8).map fun i => bitOf v.toNat (7 - i)).foldl crc64Bit c
def crc64 (l : List Byte) : Word := BitVec.ofNat 64 (l.foldl crc64Byte 0)

/-- One bit of the reflected CRC-32. -/
def crc32Step (c : Nat) : Nat := if c % 2 = 1 then c / 2 ^^^ 0xEDB88320 else c / 2
def crc32Byte (c : Nat) (v : Byte) : Nat := (List.range 8).foldl (fun x _ => crc32Step x) (c ^^^ v.toNat)
def crc32 (l : List Byte) : Nat := l.foldl crc32Byte 0xFFFFFFFF ^^^ 0xFFFFFFFF

end Sys2Proof.Machine
end

