-- ==== Sys2Proof/Config.lean ====
section
/-! DEFINITION. The values the spec leaves open (opaque, without a body) and the figures an NGC-2 fixes. -/

namespace Sys2Proof.Config

/-- A free value: what the spec leaves open at the n-th open point of a run. Nothing constrains it. log 5. -/
opaque freeWord : Nat → BitVec 64
/-- The stack that the address hash H of R346 gives a 64-byte line of physical addresses; the spec does not state H. log 66. -/
opaque hbmStack : Nat → Nat

/-- The verdict of ECDSA P-384 on an image of a TYPE, by the key whose hash the fuses hold (R365). log 30. -/
opaque ecdsaOk : Nat → List (BitVec 8) → Bool
/-- The verdict of LMS on it, by the tree whose hash the fuses hold (R365). log 30. -/
opaque lmsOk : Nat → List (BitVec 8) → Bool

/-- Cores in a package (R1). -/
def coresPerPackage : Nat := 1024
/-- Bytes of one core's local memory: 12 banks of 16 KiB (R26). -/
def localBytes : Nat := 196608
/-- Bytes of one cluster's scratchpad (R26). -/
def scratchBytes : Nat := 2097152
/-- Bytes of one die's store (R26). -/
def dieStoreBytes : Nat := 67108864
/-- Slots of an inbox (R36). -/
def inboxSlots : Nat := 64
/-- Entries of a core's outgoing message queue (R232). -/
def outQueueSlots : Nat := 8
/-- Operations a handler's send buffer holds (R235). -/
def sendBufferSlots : Nat := 16
/-- Commands one copy-engine port has in flight at most (R243). -/
def portCommands : Nat := 32
/-- Bytes one copy-engine port has in transit at most (R243). -/
def portBytes : Nat := 32768
/-- Requests the divider's and the special-function unit's queue each hold (R264). -/
def unitQueueSlots : Nat := 8
/-- Commands of a core's array queue (R90). -/
def arrayQueueSlots : Nat := 16
/-- Requests of a core's Pilot queue (R84). -/
def pilotQueueSlots : Nat := 4
/-- Forwarded heads a gang follower holds (R43). -/
def forwardSlots : Nat := 64
/-- Waves of a launch queue (R311). -/
def queueWaves : Nat := 32
/-- Cycles a message waits at a locked entry (R233). -/
def lockedLimit : Nat := 4096
/-- Entries of a micro-TLB and of a cluster TLB (R322). -/
def microTlbEntries : Nat := 32
def clusterTlbEntries : Nat := 1024
/-- Entries the Breakwater holds (R99). -/
def breakwaterEntries : Nat := 1024
/-- Dumps a dump engine holds pending (R363). -/
def dumpSlots : Nat := 4
/-- Bytes of one array frame (R330) and of the image in it (R107). -/
def frameBytes : Nat := 139264
def frameImageBytes : Nat := 135744

end Sys2Proof.Config
end

