-- ==== Sys2Proof/Syntax.lean ====
section
/-! DEFINITION. The instructions and events of spec/opcode_table.json, one constructor a row, with their operands as the
slots of R11 and R161 carry them. -/

namespace Sys2Proof

abbrev SReg := Fin 32
abbrev VReg := Fin 32
abbrev PReg := Fin 8
abbrev BReg := Fin 4
/-- A literal as written: 32 bits, sign-extended to 64 (R11, R12). -/
abbrev Lit := BitVec 32

/-- Slot code X (R183): a scalar register, a constant-bank entry or a literal. -/
inductive XOp where
  | reg (r : SReg)
  | cst (n : Fin 64)
  | lit (k : Lit)
  deriving DecidableEq, Repr

/-- Slot code SC (R183): a scalar register or a constant-bank entry. -/
inductive SCOp where
  | reg (r : SReg)
  | cst (n : Fin 64)
  deriving DecidableEq, Repr

/-- Slot code O (R217): the offset of a memory operand. -/
inductive OOp where
  | cst (n : Fin 64)
  | lit (k : Lit)
  deriving DecidableEq, Repr

/-- The optional literal slot of penc (R281). -/
inductive SlotSel where
  | none
  | lit (k : Lit)
  deriving DecidableEq, Repr

/-- Modifier MF (R164): FTY 0 FP16, 1 BF16, 2 FP32; RND by the codes of R58. -/
structure MF where
  pred : PReg
  fty : BitVec 2
  rnd : BitVec 3
  deriving DecidableEq, Repr

/-- Modifier MI (R164). -/
structure MI where
  pred : PReg
  wid : BitVec 2
  uns : Bool
  satm : Bool
  deriving DecidableEq, Repr

/-- Modifier MO (R218). -/
structure MO where
  size : BitVec 2
  ord : BitVec 2
  scope : BitVec 3
  deriving DecidableEq, Repr

/-- The conversion modifier of ldf, stf (R223) and vcvt (R259). -/
structure MC where
  tidx : BitVec 4
  rnd : BitVec 3
  ovf : Bool
  deriving DecidableEq, Repr

/-- The modifier of the bit-granular heads (R222). -/
structure MB where
  b : BReg
  inc : Bool
  sx : Bool
  deriving DecidableEq, Repr

/-- A host request through a virtual function's BARs (R370, R371), or through function 0 in recovery: an image for a flash copy of
the system firmware (R366). -/
inductive HostAccess where
  | bar2Read (off len : Nat)
  | bar2Write (off : Nat) (bytes : List Byte)
  | slotWrite (q : Nat) (off : Nat) (bytes : List Byte)
  | statusRead (q : Nat)
  | flashWrite (copy : Fin 2) (image : List Byte)
  deriving DecidableEq, Repr

/-- What the boot firmware meets in one start (R365-R368): which attempts of each step succeed, the fuses' and self-test's bad
units, the number the journal gives the package, the Zavik Link ports that train (port, far package, far port), the images of the
hypervisor (step 8) and of the partitions (step 9 + p), and the cluster sets PCL0 and PCL1 that the hypervisor gives each partition
before it boots (R338). A step's list holds the outcomes of its attempts, in order; further attempts succeed unless the step's own
check fails. -/
structure BootInput where
  attempts : List (Nat × List Bool)
  badCores : List Nat
  failedCores : List Nat
  badClusters : List Nat
  pkgid : BitVec 12
  links : List (Nat × PkgId × Nat)
  images : List (Nat × List Byte)
  sets : List (Nat × Word × Word) := []
  deriving DecidableEq, Repr

/-- Every row of the table: the heads in the order of R174, then the events of the part. -/
inductive Instr where
  -- 0x00
  | add (d : SReg) (a b : XOp) | sub (d : SReg) (a b : XOp) | mul (d : SReg) (a b : XOp) | mulh (d : SReg) (a b : XOp)
  | mulhn (d : SReg) (a b : XOp) | min (d : SReg) (a b : XOp) | max (d : SReg) (a b : XOp) | minn (d : SReg) (a b : XOp)
  | maxn (d : SReg) (a b : XOp)
  -- 0x01
  | div (d : SReg) (a b : XOp) | divn (d : SReg) (a b : XOp) | rem (d : SReg) (a b : XOp) | remn (d : SReg) (a b : XOp)
  -- 0x02
  | and (d : SReg) (a b : XOp) | or (d : SReg) (a b : XOp) | xor (d : SReg) (a b : XOp) | andn (d : SReg) (a b : XOp)
  | shl (d : SReg) (a b : XOp) | shr (d : SReg) (a b : XOp) | sra (d : SReg) (a b : XOp) | rotl (d : SReg) (a b : XOp)
  -- 0x03
  | clz (d : SReg) (a : XOp) | ctz (d : SReg) (a : XOp) | popc (d : SReg) (a : XOp) | sext (d : SReg) (a b : XOp)
  | zext (d : SReg) (a b : XOp) | bfx (d : SReg) (a b : XOp) (n : Fin 64) | bfi (d : SReg) (a b : XOp) (n : Fin 64)
  -- 0x04
  | li (d : SReg) (k : Lit) | lih (d : SReg) (k : Lit) | mov (d : SReg) (a : XOp) | sel (d : SReg) (n : PReg) (a b : XOp)
  -- 0x05
  | cmp (pd : PReg) (cond : BitVec 4) (a b : XOp) | plAnd (pd pa : PReg) | plOr (pd pa : PReg) | plNot (pd pa : PReg)
  -- 0x06
  | ptradd (d : SReg) (a b : XOp) | ptrfmt (d : SReg) (a b : XOp) | ptrtag (d : SReg) (a b : XOp)
  | ptrfld (d : SReg) (a b : XOp)
  -- 0x07
  | gtc (d : SReg) | ctxid (d : SReg)
  -- 0x10
  | br (n : PReg) (t : Lit) | bra (t : Lit) | jmp (a : SCOp) | jmpr (a : SCOp) (b : XOp) | call (t : Lit) | callr (a : SCOp)
  | ret | jtab (a : XOp) (b : SCOp) (c : XOp) (d : SCOp) | lp (a : XOp) (t : Lit)
  -- 0x11
  | halt | haltR (a : SCOp) | trap (a : XOp) | nop | sigchk (k : Lit) | msgdone
  -- 0x12
  | gform (a b : XOp) | gleave | gjoin (t : Lit) | gbar | sbar
  -- 0x13
  | launch (d : SReg) (a : SCOp) (b : XOp) | qdone (a b : XOp)
  -- 0x14
  | csrr (d : SReg) (k : Lit) | csrw (k : Lit) (a : XOp) | csrset (k : Lit) (a : XOp) | csrclr (k : Lit) (a : XOp) | ifence
  -- 0x18
  | eret | tlbinv (a b : XOp) | msave (a : XOp) (b : SCOp) | mrest (a : XOp) (b : SCOp) | htset (a : XOp) (b : SCOp)
  -- 0x20-0x25
  | ld (d : SReg) (a : SReg) (o : OOp) (size : BitVec 2) (sx : Bool) | st (a : SReg) (o : OOp) (b : XOp) (size : BitVec 2)
  | ldv (d : VReg) (a : SReg) (o : OOp) (n : PReg) | stv (a : SReg) (o : OOp) (v : VReg) (n : PReg)
  | ldbit (d : SReg) (a : XOp) (m : MB) | stbit (a b : XOp) (m : MB) | bset (n : BReg) (a : XOp)
  | ldf (d : VReg) (a : SReg) (o : OOp) (m : MC) | stf (a : SReg) (o : OOp) (v : VReg) (m : MC)
  | pf (a : SReg) (o : OOp) | tagset (a : SReg) (o : OOp) (b : XOp)
  -- 0x30-0x33
  | fence (kind : BitVec 2) (scope : BitVec 3) | ldacq (d : SReg) (a : SReg) (o : OOp) (m : MO)
  | strel (a : SReg) (o : OOp) (b : XOp) (m : MO)
  | amoAdd (d : SReg) (a : SReg) (o : OOp) (b : XOp) (m : MO) | amoAnd (d : SReg) (a : SReg) (o : OOp) (b : XOp) (m : MO)
  | amoOr (d : SReg) (a : SReg) (o : OOp) (b : XOp) (m : MO) | amoXor (d : SReg) (a : SReg) (o : OOp) (b : XOp) (m : MO)
  | amoMin (d : SReg) (a : SReg) (o : OOp) (b : XOp) (m : MO) | amoMax (d : SReg) (a : SReg) (o : OOp) (b : XOp) (m : MO)
  | amoMinn (d : SReg) (a : SReg) (o : OOp) (b : XOp) (m : MO) | amoMaxn (d : SReg) (a : SReg) (o : OOp) (b : XOp) (m : MO)
  | amoSwap (d : SReg) (a : SReg) (o : OOp) (b : XOp) (m : MO)
  | cas (d : SReg) (a : SReg) (o : OOp) (b c : XOp) (m : MO)
  | ldfe (d : SReg) (a : SReg) (o : OOp) | ldfeE (d : SReg) (a : SReg) (o : OOp) | stfe (a : SReg) (o : OOp) (b : XOp)
  | stfeW (a : SReg) (o : OOp) (b : XOp) | feSet (a : SReg) (o : OOp) | feClr (a : SReg) (o : OOp)
  | feTst (pd : PReg) (a : SReg) (o : OOp)
  -- 0x38-0x3C
  | send (a : SCOp) (b : XOp) (c : VReg) | inb (d : VReg) (q : Lit) | sendl (d : SReg) (a b c e f : XOp)
  | get (a b c d e : XOp) | put (a b c d e : XOp) | getx (a b c d e f : XOp) (size : BitVec 2)
  | putx (a b c d e f : XOp) (size : BitVec 2)
  | ccSet (a b : XOp) (scope : BitVec 3) | ccRd (d : SReg) (a : XOp) (w : Lit) | ccWait (d : SReg) (a b : XOp) (nt : Bool)
  | cbCfg (a b c d : XOp) (eng : Bool) | cbAcq (d : SReg) (a : XOp) (t : Bool) | cbPub (a : XOp)
  | cbTake (d : SReg) (a : XOp) (t : Bool) | cbRel (a : XOp)
  | cpy (a b c d : XOp) (cb : Bool) | cpyz (a b c d e : XOp) (dir : Bool)
  -- 0x40-0x4B
  | vaddInt (d a b : VReg) (m : MI) | vsubInt (d a b : VReg) (m : MI) | vmulInt (d a b : VReg) (m : MI)
  | vmulh (d a b : VReg) (m : MI) | vminInt (d a b : VReg) (m : MI) | vmaxInt (d a b : VReg) (m : MI)
  | vabsInt (d a : VReg) (m : MI) | vnegInt (d a : VReg) (m : MI)
  | vaddFloat (d a b : VReg) (m : MF) | vsubFloat (d a b : VReg) (m : MF) | vmulFloat (d a b : VReg) (m : MF)
  | vfma (d a b : VReg) (m : MF) | vfms (d a b : VReg) (m : MF) | vminFloat (d a b : VReg) (m : MF)
  | vmaxFloat (d a b : VReg) (m : MF) | vabsFloat (d a : VReg) (m : MF) | vnegFloat (d a : VReg) (m : MF)
  | vdiv (d a b : VReg) (m : MI) | vrem (d a b : VReg) (m : MI)
  | vand (d a b : VReg) (n : PReg) | vor (d a b : VReg) (n : PReg) | vxor (d a b : VReg) (n : PReg)
  | vandn (d a b : VReg) (n : PReg) | vnot (d a : VReg) (n : PReg)
  | vshl (d a b : VReg) (m : MI) | vshr (d a b : VReg) (m : MI) | vsra (d a b : VReg) (m : MI)
  | vclz (d a : VReg) (m : MI) | vpopc (d a : VReg) (m : MI)
  | vcmpInt (a b : VReg) (cond : Lit) (m : MI) | vcmpFloat (a b : VReg) (cond : Lit) (m : MF)
  | vsel (d a b : VReg) (n : PReg) | vperm (d a b : VReg) (n : PReg) | vext (d a b : VReg) (k : Fin 16)
  | vmov (d a : VReg) (n : PReg) | vbcast (d : VReg) (a : XOp) (size : BitVec 2)
  | vins (d : VReg) (a b : XOp) (size : BitVec 2) | vget (d : SReg) (a : VReg) (b : XOp) (size : BitVec 2) (sx : Bool)
  | vrsumInt (d : SReg) (a : VReg) (m : MI) | vrmaxInt (d : SReg) (a : VReg) (m : MI) | vrminInt (d : SReg) (a : VReg) (m : MI)
  | vdot4 (d a b : VReg) (m : MI)
  | vrsumFloat (d : SReg) (a : VReg) (m : MF) | vrmaxFloat (d : SReg) (a : VReg) (m : MF)
  | vrminFloat (d : SReg) (a : VReg) (m : MF)
  | vcvt (d a : VReg) (src : Lit) (m : MC) | vpack (d a : VReg) (k : Lit) (dst : BitVec 3) (satm : Bool)
  | vunpk (d a : VReg) (k : Lit) (src : BitVec 3) (tgt : Bool) | vo4p (d a b : VReg) (rnd : BitVec 3)
  | vthr (d a : VReg) (b : XOp) (m : MF)
  | vexp2 (d a : VReg) (m : MF) | vlog2 (d a : VReg) (m : MF) | vrcp (d a : VReg) (m : MF) | vrsqrt (d a : VReg) (m : MF)
  | vsqrt (d a : VReg) (m : MF) | vtanh (d a : VReg) (m : MF)
  -- 0x60
  | mcfg (a : SCOp) | mlds (a b c d : XOp) (cmp : Bool) | mswap | mstrm (a b c d e : XOp) | mdrain (a b c d e f : XOp)
  | mzero | mwait | mstat (d : SReg) (a : XOp) | mmask (a : SCOp) (b c : XOp)
  -- 0x70-0x72
  | dload (a : XOp) (b : SCOp) (c : XOp) | dsel (k : Lit) | pcfg (a b c : XOp) | penc (a b : SCOp) (s : SlotSel)
  | pdec (a b : SCOp) | aimg (d : SReg) (v : VReg) (a : SCOp) (b : XOp) | kvcommit (a b : SCOp) (c d e : XOp)
  | wdenter (d : SReg) (a : XOp) (b : SCOp) (w : Lit) | wdstat (d : SReg)
  -- events of contexts and cores
  | waitSatisfied (c : CtxId) | sfuService (p : Place) | sfuResult (p : Place) | dividerService (p : Place)
  | dividerResult (p : Place)
  -- events of the array and the Pilot
  | arrayArbitration (k : ClusterId) | auRestore (k : ClusterId) | dloadService (k : ClusterId) | pencService (k : ClusterId)
  | pdecService (k : ClusterId) | kvcommitService (p : Place) (n : Nat)
  -- fetch, gangs, traps, messages
  | wdeBlockFetch (c : CtxId) | lineFetch (c : CtxId) | gangForward (c : CtxId) | takeTrap (c : CtxId) | watchdog (c : CtxId)
  | gjtoExpiry (g : Nat) | messageDelivery (n : Nat) | handlerStart (p : Place) | lockedEntryTimeout (p : Place)
  | releasedOpEnqueue (c : CtxId) | fabricDelivery (p : Place) (n : Nat)
  -- the copy engine
  | engineCommandStart (p : Place) | engineDataPiece (p : Place) (n : Nat) | engineElementWrite (p : Place) (n : Nat)
  | sendlEntry (p : Place) (n : Nat) | cpyCbSlotTake (p : Place) (n : Nat) | cpyzBlock (p : Place) (n : Nat)
  | counterIncrement (p : Place) (n : Nat) | counterError (p : Place) (n : Nat)
  -- the dispatcher
  | launchEnqueue (q : PartId) | dispatch (q : PartId) | checkedRunCompare (q : PartId) (n : Nat) | killctx (q : PartId)
  | killgrp (q : PartId) | drainq (q : PartId) | reside (q : PartId) | release (q : PartId)
  | inboxRepresent (p : Place) | inboxDiscard (p : Place) | decodeTableLoad (q : PartId) | delayTableClear (p : Place)
  -- reliability and debug
  | unfence (q : PartId) (k : Fin 16) | reset (q : PartId) (k : Fin 16) | bankDrop (g : PkgId) (v : Word)
  | tugUnitMove (g : PkgId) | traceSample (p : Place) | dumpWrite (d : DieId)
  -- units of weight-driven execution and commands of the array
  | wdeNoOp (c : CtxId) | loadStationary (c : CtxId) | wdeSwap (c : CtxId)
  | wdeStream (c : CtxId) | wdeDrain (c : CtxId) | accumulateAtoms (c : CtxId) | branchOnFlag (c : CtxId)
  | callTensor (c : CtxId) | wdeReturn (c : CtxId) | tail (c : CtxId) | exit (c : CtxId)
  | mldsService (k : ClusterId) | mswapService (k : ClusterId) | mstrmService (k : ClusterId)
  | mdrainService (k : ClusterId) | mzeroService (k : ClusterId) | mmaskService (k : ClusterId) | aimgService (k : ClusterId)
  -- errors and the outside
  | uncorrectableConsumption (c : CtxId) (va : Word) (pa : Nat) | tableWalk (k : ClusterId) (q : PartId) (va : Nat)
  | correctedErrorWindow (k : ClusterId) (count : Nat)
  | hostDoorbell (g : PkgId) (vf q : Fin 16) (v : BitVec 32) | hostMemoryAccess (g : PkgId) (vf : Fin 16) (a : HostAccess)
  | functionLevelReset (g : PkgId) (vf : Fin 16) | powerOn (g : PkgId) (b : BootInput) | powerLoss (g : PkgId) (step : Nat)
  | linkPortDown (g : PkgId) (n : Fin 16) | functionEnable (g : PkgId) (vf : Fin 16)
  | voltageControllerRequest (k : ClusterId) (mv : Nat) | clusterUnfreeze (k : ClusterId)
  | clockSlowing (k : ClusterId) (n : Nat) | flitRetransmission (g : PkgId) (n : Fin 16) | portDegraded (g : PkgId) (n : Fin 16)
  deriving DecidableEq, Repr

end Sys2Proof
end

