-- ==== Sys2Proof/WellFormed.lean ====
section
/-! DEFINITION. Which instruction terms some head of R174 encodes: the limits of the encoding (R161-R164), not the limits
that an instruction's own description sets on the values of its operands. -/

namespace Sys2Proof

/-- A literal that fits a slot: -31 to 31 (R11). -/
def Lit.short (k : Lit) : Bool := decide (-31 ≤ k.toInt) && decide (k.toInt ≤ 31)

/-- The long literal of an operand, if it needs one (R12). -/
def XOp.long : XOp → Option Lit
  | .lit k => if Lit.short k then none else some k
  | _ => none

def OOp.long : OOp → Option Lit
  | .lit k => if Lit.short k then none else some k
  | _ => none

def Lit.long (k : Lit) : Option Lit := if Lit.short k then none else some k

/-- At most one of the operands is a long literal (R12, R162). -/
def oneLong (l : List (Option Lit)) : Bool := decide ((l.filterMap id).length ≤ 1)

/-- No operand is a long literal (forms U and W, R161, R162). -/
def noLong (l : List (Option Lit)) : Bool := (l.filterMap id).isEmpty

def MF.wf (m : MF) : Bool := decide (m.fty ≠ 3) && decide (m.rnd.toNat ≤ 4)
def MF.wfNoRnd (m : MF) : Bool := decide (m.fty ≠ 3) && decide (m.rnd = 0)
/-- The special functions take no BF16 (R263). -/
def MF.wfSfu (m : MF) : Bool := m.wf && decide (m.fty ≠ 1)
def MI.wf (m : MI) : Bool := !m.uns || decide (m.wid.toNat ≤ 1)
def MI.wfNoSat (m : MI) : Bool := m.wf && !m.satm
def MI.wfSigned (m : MI) : Bool := !m.uns
def MI.wfShift (m : MI) : Bool := !m.uns && !m.satm
def MO.wfPlain (m : MO) : Bool := decide (m.ord = 0) && decide (m.scope.toNat ≤ 5)
def MO.wfAtomic (m : MO) : Bool := decide (2 ≤ m.size.toNat) && decide (m.scope.toNat ≤ 5)

/-- TIDX of the integer lane types (R223): 5 to 10. -/
def tidxInt (t : BitVec 4) : Bool := decide (5 ≤ t.toNat) && decide (t.toNat ≤ 10)
/-- TIDX of F8A and F8B. -/
def tidxF8 (t : BitVec 4) : Bool := decide (t = 3) || decide (t = 4)

/-- The conversion modifier where the target is T (ldf, vcvt: R223, R259). -/
def MC.wfTarget (m : MC) : Bool :=
  decide (m.tidx.toNat ≤ 10) && decide (m.rnd.toNat ≤ 4) && (!m.ovf || tidxInt m.tidx || tidxF8 m.tidx)
/-- The conversion modifier of stf, whose target is known only from the pointer (R223). -/
def MC.wfSource (m : MC) : Bool := decide (m.tidx.toNat ≤ 10) && decide (m.rnd.toNat ≤ 4)

/-- A term that some head encodes. Events are no heads. -/
def Instr.wf : Instr → Bool
  | .add _ a b | .sub _ a b | .mul _ a b | .mulh _ a b | .mulhn _ a b | .min _ a b | .max _ a b | .minn _ a b | .maxn _ a b
  | .div _ a b | .divn _ a b | .rem _ a b | .remn _ a b | .and _ a b | .or _ a b | .xor _ a b | .andn _ a b | .shl _ a b
  | .shr _ a b | .sra _ a b | .rotl _ a b | .sext _ a b | .zext _ a b | .bfx _ a b _ | .bfi _ a b _ | .sel _ _ a b
  | .ptradd _ a b | .ptrfmt _ a b | .ptrtag _ a b | .ptrfld _ a b | .gform a b => oneLong [a.long, b.long]
  | .clz .. | .ctz .. | .popc .. | .li .. | .lih .. | .mov .. | .plAnd .. | .plOr .. | .plNot .. | .gtc .. | .ctxid ..
  | .br .. | .bra .. | .jmp .. | .call .. | .callr .. | .ret | .halt | .haltR .. | .nop | .msgdone | .gleave | .gjoin ..
  | .gbar | .sbar | .launch .. | .ifence | .eret | .ldv .. | .stv .. | .bset .. | .pf .. | .ldfe .. | .ldfeE .. | .feSet ..
  | .feClr .. | .feTst .. | .send .. | .inb .. | .cbAcq .. | .cbPub .. | .cbTake .. | .cbRel .. | .vand .. | .vor .. | .vxor ..
  | .vandn .. | .vnot .. | .vsel .. | .vperm .. | .vext .. | .vmov .. | .vbcast .. | .mcfg .. | .mswap | .mzero | .mwait
  | .pdec .. | .penc .. | .wdstat .. | .htset .. => true
  | .cmp _ c a b => decide (c.toNat ≤ 11) && oneLong [a.long, b.long]
  | .jmpr _ b => noLong [b.long]
  | .jtab a _ c _ => noLong [a.long, c.long]
  | .lp a t => oneLong [a.long, Lit.long t]
  | .trap a => noLong [a.long]
  | .sigchk _ => true
  | .qdone a b | .tlbinv a b => noLong [a.long, b.long]
  | .csrr .. => true
  | .csrw k a | .csrset k a | .csrclr k a => oneLong [Lit.long k, a.long]
  | .msave a _ | .mrest a _ => noLong [a.long]
  | .ld _ _ _ size sx => !(decide (size = 3) && sx)
  | .st _ o b _ => oneLong [o.long, b.long]
  | .ldbit .. => true
  | .stbit a b m => !m.sx && oneLong [a.long, b.long]
  | .ldf _ _ _ m => m.wfTarget
  | .stf _ _ _ m => m.wfSource
  | .tagset _ o b | .stfe _ o b | .stfeW _ o b => oneLong [o.long, b.long]
  | .fence kind scope => decide (kind ≠ 3) && decide (scope.toNat ≤ 5)
  | .ldacq _ _ _ m => m.wfPlain
  | .strel _ o b m => m.wfPlain && oneLong [o.long, b.long]
  | .amoAdd _ _ o b m | .amoAnd _ _ o b m | .amoOr _ _ o b m | .amoXor _ _ o b m | .amoMin _ _ o b m | .amoMax _ _ o b m
  | .amoMinn _ _ o b m | .amoMaxn _ _ o b m | .amoSwap _ _ o b m => m.wfAtomic && noLong [o.long, b.long]
  | .cas _ _ o b c m => m.wfAtomic && noLong [o.long, b.long, c.long]
  | .sendl _ a b c e f => noLong [a.long, b.long, c.long, e.long, f.long]
  | .get a b c d e | .put a b c d e => noLong [a.long, b.long, c.long, d.long, e.long]
  | .getx a b c d e f _ | .putx a b c d e f _ => noLong [a.long, b.long, c.long, d.long, e.long, f.long]
  | .ccSet a b scope => decide (scope.toNat ≤ 5) && oneLong [a.long, b.long]
  | .ccRd _ a w => oneLong [a.long, Lit.long w]
  | .ccWait _ a b _ => oneLong [a.long, b.long]
  | .cbCfg a b c d _ => noLong [a.long, b.long, c.long, d.long]
  | .cpy a b c d _ => noLong [a.long, b.long, c.long, d.long]
  | .cpyz a b c d e dir => noLong [a.long, b.long, c.long, d.long, e.long] && (dir || decide (e = .lit 0))
  | .vaddInt _ _ _ m | .vsubInt _ _ _ m | .vmulInt _ _ _ m | .vrsumInt _ _ m => m.wf
  | .vmulh _ _ _ m | .vminInt _ _ _ m | .vmaxInt _ _ _ m | .vdiv _ _ _ m | .vrem _ _ _ m | .vcmpInt _ _ _ m
  | .vrmaxInt _ _ m | .vrminInt _ _ m => m.wfNoSat
  | .vabsInt _ _ m | .vnegInt _ _ m => m.wfSigned
  | .vaddFloat _ _ _ m | .vsubFloat _ _ _ m | .vmulFloat _ _ _ m | .vfma _ _ _ m | .vfms _ _ _ m | .vrsumFloat _ _ m => m.wf
  | .vminFloat _ _ _ m | .vmaxFloat _ _ _ m | .vabsFloat _ _ m | .vnegFloat _ _ m | .vcmpFloat _ _ _ m | .vrmaxFloat _ _ m
  | .vrminFloat _ _ m | .vthr _ _ _ m => m.wfNoRnd
  | .vshl _ _ _ m | .vshr _ _ _ m | .vsra _ _ _ m | .vclz _ _ m | .vpopc _ _ m => m.wfShift
  | .vins _ a b _ => oneLong [a.long, b.long]
  | .vget _ _ _ size sx => !(decide (size = 3) && sx)
  | .vdot4 _ _ _ m => m.wf && decide (m.wid.toNat ≤ 1)
  | .vcvt _ _ _ m => m.wfTarget
  | .vpack _ _ _ dst _ => decide (dst ≠ 3) && decide (dst.toNat ≤ 5)
  | .vunpk _ _ _ src tgt => decide (src.toNat ≤ 5) && (tgt || decide (src ≠ 3))
  | .vo4p _ _ _ rnd => decide (rnd.toNat ≤ 4)
  | .vexp2 _ _ m | .vlog2 _ _ m | .vrcp _ _ m | .vrsqrt _ _ m | .vsqrt _ _ m | .vtanh _ _ m => m.wfSfu
  | .mlds a b c d z => noLong [a.long, b.long, c.long, d.long] && (z || decide (d = .lit 0))
  | .mstrm a b c d e => noLong [a.long, b.long, c.long, d.long, e.long]
  | .mdrain a b c d e f => noLong [a.long, b.long, c.long, d.long, e.long, f.long]
  | .mstat _ a => noLong [a.long]
  | .mmask _ b c => oneLong [b.long, c.long]
  | .dload a _ c => noLong [a.long, c.long]
  | .dsel k => Lit.short k
  | .pcfg a b c => oneLong [a.long, b.long, c.long]
  | .aimg _ _ _ b => noLong [b.long]
  | .kvcommit _ _ c d e => noLong [c.long, d.long, e.long]
  | .wdenter _ a _ w => noLong [a.long] && Lit.short w
  | .waitSatisfied .. | .sfuService .. | .sfuResult .. | .dividerService .. | .dividerResult ..
  | .arrayArbitration .. | .mldsService .. | .mswapService .. | .mstrmService .. | .mdrainService ..
  | .mzeroService .. | .mmaskService .. | .auRestore .. | .dloadService .. | .pencService .. | .pdecService ..
  | .aimgService .. | .kvcommitService .. | .wdeBlockFetch .. | .wdeNoOp .. | .loadStationary .. | .wdeSwap ..
  | .wdeStream .. | .wdeDrain .. | .accumulateAtoms .. | .branchOnFlag .. | .callTensor .. | .wdeReturn .. | .tail ..
  | .exit .. | .lineFetch .. | .gangForward .. | .takeTrap .. | .watchdog .. | .gjtoExpiry .. | .messageDelivery ..
  | .handlerStart .. | .lockedEntryTimeout .. | .releasedOpEnqueue .. | .engineCommandStart .. | .engineDataPiece ..
  | .engineElementWrite .. | .sendlEntry .. | .cpyCbSlotTake .. | .cpyzBlock .. | .counterIncrement ..
  | .counterError .. | .launchEnqueue .. | .dispatch .. | .checkedRunCompare .. | .killctx .. | .killgrp ..
  | .drainq .. | .reside .. | .release .. | .inboxRepresent .. | .inboxDiscard .. | .decodeTableLoad ..
  | .delayTableClear .. | .unfence .. | .reset .. | .uncorrectableConsumption .. | .bankDrop .. | .tugUnitMove ..
  | .tableWalk .. | .correctedErrorWindow .. | .traceSample .. | .dumpWrite .. | .hostDoorbell ..
  | .hostMemoryAccess .. | .functionLevelReset .. | .powerOn .. | .powerLoss .. | .linkPortDown ..
  | .fabricDelivery .. | .functionEnable .. | .voltageControllerRequest .. | .clusterUnfreeze .. | .clockSlowing ..
  | .flitRetransmission .. | .portDegraded .. => false

end Sys2Proof
end

