-- ==== Sys2Proof/Decode.lean ====
section
/-! DEFINITION. Heads, tails and lines (R156-R164, R174): the decoder, total on any bits, and after it the encoder. -/

namespace Sys2Proof

/-- What a check of the encoding answers: a value, a breach that traps ILLEGAL_OP, or one that traps ILLEGAL_OPERAND (R165). -/
inductive Dec (α : Type) where
  | ok (a : α)
  | op
  | operand
  deriving DecidableEq, Repr

/-- Both parts are checked; ILLEGAL_OP comes before ILLEGAL_OPERAND (R165). -/
def Dec.app {α β : Type} (f : Dec (α → β)) (a : Dec α) : Dec β :=
  match f, a with
  | .ok g, .ok x => .ok (g x)
  | .op, _ => .op
  | _, .op => .op
  | _, _ => .operand

/-- The value of the first, if the second holds too. -/
def Dec.also {α : Type} (a : Dec α) (b : Dec Unit) : Dec α :=
  match a, b with
  | .ok x, .ok _ => .ok x
  | .op, _ => .op
  | _, .op => .op
  | _, _ => .operand

/-- A head with its tail, taken apart (R160, R161). -/
structure Raw where
  maj : Nat
  tl : Nat
  f : Nat
  s0 : Byte
  s1 : Byte
  s2 : Byte
  md : Byte
  s4 : Byte
  s5 : Byte
  s6 : Byte
  s7 : Byte
  deriving DecidableEq, Repr

/-- Tail lengths in halfwords by the TL field (R160). -/
def tailLength (tl : Nat) : Nat := match tl with | 0 => 0 | 1 => 1 | 2 => 2 | _ => 4

/-- The TL field of a head halfword. -/
def headTl (h : Half) : Nat := (h.toNat / 128) % 4
/-- The stall count field of a head halfword. -/
def headSc (h : Half) : Nat := (h.toNat / 16) % 8

/-- Slot 2i is bits [7:0] of tail halfword i and slot 2i + 1 is bits [15:8] (R161). -/
def Raw.ofWords (h : Half) (t : List Half) : Raw :=
  let t0 := t.getD 0 0
  let t1 := t.getD 1 0
  let t2 := t.getD 2 0
  let t3 := t.getD 3 0
  { maj := h.toNat / 512, tl := headTl h, f := h.toNat % 16
    s0 := t0.extractLsb' 0 8, s1 := t0.extractLsb' 8 8, s2 := t1.extractLsb' 0 8, md := t1.extractLsb' 8 8
    s4 := t2.extractLsb' 0 8, s5 := t2.extractLsb' 8 8, s6 := t3.extractLsb' 0 8, s7 := t3.extractLsb' 8 8 }

/-- The long literal of a form B head with TL 4: tail halfwords 2 and 3 (R162). -/
def Raw.ext (r : Raw) : Lit := (r.s7 ++ r.s6) ++ (r.s5 ++ r.s4)

/-! ## Slots -/

/-- The kind tag of a slot (R11). -/
def slotTag (b : Byte) : Nat := b.toNat / 64
/-- A register number: bits [4:0]. -/
def slotReg (b : Byte) : Fin 32 := ⟨b.toNat % 32, Nat.mod_lt _ (by decide)⟩
def slotCst (b : Byte) : Fin 64 := ⟨b.toNat % 64, Nat.mod_lt _ (by decide)⟩
/-- A short literal: bits [5:0] in two's complement. -/
def slotLit (b : Byte) : Lit := (b.extractLsb' 0 6).signExtend 32
/-- The long-literal marker 0xE0. -/
def isMarker (b : Byte) : Bool := b == 0xE0#8
/-- A register slot with bit 5 set traps ILLEGAL_OP (R11). -/
def slotBad (b : Byte) : Bool := decide (slotTag b ≤ 1) && b.getLsbD 5

/-- The literal of a slot: short, or the head's long literal `e` where it carries one (R162). -/
def decLitSlot (e : Option Lit) (b : Byte) : Dec Lit :=
  if isMarker b then (match e with | some k => .ok k | none => .operand) else .ok (slotLit b)

def decV (b : Byte) : Dec VReg :=
  if slotBad b then .op else if slotTag b = 0 then .ok (slotReg b) else .operand
/-- Slot codes D and B (R183, R217). -/
def decD (b : Byte) : Dec SReg :=
  if slotBad b then .op else if slotTag b = 1 then .ok (slotReg b) else .operand
def decX (e : Option Lit) (b : Byte) : Dec XOp :=
  if slotBad b then .op
  else match slotTag b with
    | 0 => .operand
    | 1 => .ok (.reg (slotReg b))
    | 2 => .ok (.cst (slotCst b))
    | _ => match decLitSlot e b with | .ok k => .ok (.lit k) | .op => .op | .operand => .operand
def decSC (b : Byte) : Dec SCOp :=
  if slotBad b then .op
  else match slotTag b with
    | 1 => .ok (.reg (slotReg b))
    | 2 => .ok (.cst (slotCst b))
    | _ => .operand
def decO (e : Option Lit) (b : Byte) : Dec OOp :=
  if slotBad b then .op
  else match slotTag b with
    | 2 => .ok (.cst (slotCst b))
    | 3 => match decLitSlot e b with | .ok k => .ok (.lit k) | .op => .op | .operand => .operand
    | _ => .operand
/-- Slot codes L and T (R183). -/
def decL (e : Option Lit) (b : Byte) : Dec Lit :=
  if slotBad b then .op else if slotTag b = 3 then decLitSlot e b else .operand
/-- An unused slot, or a modifier byte that must be zero (R163). -/
def decZ (b : Byte) : Dec Unit := if b = 0 then .ok () else .op
/-- A condition whose breach traps ILLEGAL_OP. -/
def decNeed (c : Bool) : Dec Unit := if c then .ok () else .op

/-! ## Modifier bytes -/

def bitsAt (b : Byte) (lo n : Nat) : Nat := (b.toNat / 2 ^ lo) % 2 ^ n
def predAt (b : Byte) (lo : Nat) : PReg := ⟨bitsAt b lo 3, Nat.mod_lt _ (by decide)⟩

/-- A modifier byte `m` that is legal when `c` holds. -/
def decMod {α : Type} (c : Bool) (m : α) : Dec α := if c then .ok m else .op

/-- [2:0] a predicate, the rest zero. -/
def decPred (b : Byte) : Dec PReg := decMod (decide (bitsAt b 3 5 = 0)) (predAt b 0)
def mfOf (b : Byte) : MF := { pred := predAt b 0, fty := b.extractLsb' 3 2, rnd := b.extractLsb' 5 3 }
def miOf (b : Byte) : MI := { pred := predAt b 0, wid := b.extractLsb' 3 2, uns := b.getLsbD 5, satm := b.getLsbD 6 }
def moOf (b : Byte) : MO := { size := b.extractLsb' 0 2, ord := b.extractLsb' 2 2, scope := b.extractLsb' 4 3 }
def mcOf (b : Byte) : MC := { tidx := b.extractLsb' 0 4, rnd := b.extractLsb' 4 3, ovf := b.getLsbD 7 }
def mbOf (b : Byte) : MB :=
  { b := ⟨bitsAt b 0 2, Nat.mod_lt _ (by decide)⟩, inc := b.getLsbD 2, sx := b.getLsbD 3 }
def decMF (p : MF → Bool) (b : Byte) : Dec MF := decMod (p (mfOf b)) (mfOf b)
def decMI (p : MI → Bool) (b : Byte) : Dec MI := decMod (p (miOf b) && !b.getLsbD 7) (miOf b)
def decMO (p : MO → Bool) (b : Byte) : Dec MO := decMod (p (moOf b) && !b.getLsbD 7) (moOf b)
def decMC (p : MC → Bool) (b : Byte) : Dec MC := decMod (p (mcOf b)) (mcOf b)
/-- [1:0] SIZE, the rest zero. -/
def decSize (b : Byte) : Dec (BitVec 2) := decMod (decide (bitsAt b 2 6 = 0)) (b.extractLsb' 0 2)
/-- [0] a flag, the rest zero. -/
def decFlag (b : Byte) : Dec Bool := decMod (decide (bitsAt b 1 7 = 0)) (b.getLsbD 0)

/-! ## Forms (R161) -/

def Raw.markers (r : Raw) : Nat := ([r.s0, r.s1, r.s2].filter isMarker).length

def formN (r : Raw) (k : Dec Instr) : Dec Instr := if r.tl = 0 then k else .op
def formU (r : Raw) (k : Dec Instr) : Dec Instr := if r.tl = 1 then k else .op
def formW (r : Raw) (k : Dec Instr) : Dec Instr := if r.tl = 3 then k else .op
/-- Form B: TL 2 without, TL 4 with exactly one long literal (R162). -/
def formB (r : Raw) (k : Option Lit → Dec Instr) : Dec Instr :=
  if r.tl = 2 then k none
  else if r.tl = 3 then (k (some r.ext)).also (if r.markers = 1 then .ok () else .operand)
  else .op

/-- Slots D, X, X and a modifier of zero. -/
def decDXX (r : Raw) (c : SReg → XOp → XOp → Instr) : Dec Instr :=
  formB r fun e => ((((Dec.ok c).app (decD r.s0)).app (decX e r.s1)).app (decX e r.s2)).also (decZ r.md)
/-- Slots D, X, Z and a modifier of zero. -/
def decDX (r : Raw) (c : SReg → XOp → Instr) : Dec Instr :=
  formB r fun e => ((((Dec.ok c).app (decD r.s0)).app (decX e r.s1)).also (decZ r.s2)).also (decZ r.md)
/-- Slots V, V, V with a modifier read by `m`. -/
def decVVV {μ : Type} (r : Raw) (m : Byte → Dec μ) (c : VReg → VReg → VReg → μ → Instr) : Dec Instr :=
  formB r fun _ => ((((Dec.ok c).app (decV r.s0)).app (decV r.s1)).app (decV r.s2)).app (m r.md)
/-- Slots V, V, Z with a modifier read by `m`. -/
def decVV {μ : Type} (r : Raw) (m : Byte → Dec μ) (c : VReg → VReg → μ → Instr) : Dec Instr :=
  formB r fun _ => ((((Dec.ok c).app (decV r.s0)).app (decV r.s1)).app (m r.md)).also (decZ r.s2)
/-- Slots D, V, Z with a modifier read by `m`. -/
def decDV {μ : Type} (r : Raw) (m : Byte → Dec μ) (c : SReg → VReg → μ → Instr) : Dec Instr :=
  formB r fun _ => ((((Dec.ok c).app (decD r.s0)).app (decV r.s1)).app (m r.md)).also (decZ r.s2)
/-- Form W atomics: D, B, O, MO, X, Z, Z, Z (R227). -/
def decAmo (r : Raw) (c : SReg → SReg → OOp → XOp → MO → Instr) : Dec Instr :=
  formW r (((((((((Dec.ok c).app (decD r.s0)).app (decD r.s1)).app (decO none r.s2)).app (decX none r.s4)).app
    (decMO MO.wfAtomic r.md)).also (decZ r.s5)).also (decZ r.s6)).also (decZ r.s7))
/-- CSR heads with slots L, X, Z (R210). -/
def decCsr (r : Raw) (c : Lit → XOp → Instr) : Dec Instr :=
  formB r fun e => ((((Dec.ok c).app (decL e r.s0)).app (decX e r.s1)).also (decZ r.s2)).also (decZ r.md)

/-! ## The opcode map (R174) -/

def decArith (r : Raw) : Dec Instr :=
  match r.f with
  | 0 => decDXX r .add | 1 => decDXX r .sub | 2 => decDXX r .mul | 3 => decDXX r .mulh | 4 => decDXX r .mulhn
  | 5 => decDXX r .min | 6 => decDXX r .max | 7 => decDXX r .minn | 8 => decDXX r .maxn | _ => .op

def decDivider (r : Raw) : Dec Instr :=
  match r.f with
  | 0 => decDXX r .div | 1 => decDXX r .divn | 2 => decDXX r .rem | 3 => decDXX r .remn | _ => .op

def decLogic (r : Raw) : Dec Instr :=
  match r.f with
  | 0 => decDXX r .and | 1 => decDXX r .or | 2 => decDXX r .xor | 3 => decDXX r .andn | 4 => decDXX r .shl
  | 5 => decDXX r .shr | 6 => decDXX r .sra | 7 => decDXX r .rotl | _ => .op

/-- A length n carried as n - 1 in [5:0] (R189). -/
def decLen (b : Byte) : Dec (Fin 64) := decMod (decide (bitsAt b 6 2 = 0)) ⟨bitsAt b 0 6, Nat.mod_lt _ (by decide)⟩

def decBits (r : Raw) : Dec Instr :=
  match r.f with
  | 0 => decDX r .clz | 1 => decDX r .ctz | 2 => decDX r .popc | 3 => decDXX r .sext | 4 => decDXX r .zext
  | 5 => formB r fun e => ((((Dec.ok Instr.bfx).app (decD r.s0)).app (decX e r.s1)).app (decX e r.s2)).app (decLen r.md)
  | 6 => formB r fun e => ((((Dec.ok Instr.bfi).app (decD r.s0)).app (decX e r.s1)).app (decX e r.s2)).app (decLen r.md)
  | _ => .op

def decMoves (r : Raw) : Dec Instr :=
  match r.f with
  | 0 => formB r fun e => ((((Dec.ok Instr.li).app (decD r.s0)).app (decL e r.s1)).also (decZ r.s2)).also (decZ r.md)
  | 1 => formB r fun e => ((((Dec.ok Instr.lih).app (decD r.s0)).app (decL e r.s1)).also (decZ r.s2)).also (decZ r.md)
  | 2 => decDX r .mov
  | 3 => formB r fun e => ((((Dec.ok Instr.sel).app (decD r.s0)).app (decPred r.md)).app (decX e r.s1)).app (decX e r.s2)
  | _ => .op

/-- The modifier of pl.and, pl.or and pl.not (R192). -/
def decPl (r : Raw) (c : PReg → PReg → Instr) : Dec Instr :=
  formB r fun _ => ((((decMod (decide (bitsAt r.md 6 2 = 0)) (c (predAt r.md 0) (predAt r.md 3))).also (decZ r.s0)).also
    (decZ r.s1)).also (decZ r.s2))

def decCompare (r : Raw) : Dec Instr :=
  match r.f with
  | 0 => formB r fun e => (((decMod (decide (bitsAt r.md 3 4 ≤ 11) && !r.md.getLsbD 7)
      (Instr.cmp (predAt r.md 0) (r.md.extractLsb' 3 4))).app (decX e r.s0)).app (decX e r.s1)).also (decZ r.s2)
  | 1 => decPl r .plAnd | 2 => decPl r .plOr | 3 => decPl r .plNot | _ => .op

def decPointer (r : Raw) : Dec Instr :=
  match r.f with
  | 0 => decDXX r .ptradd | 1 => decDXX r .ptrfmt | 2 => decDXX r .ptrtag | 3 => decDXX r .ptrfld | _ => .op

/-- Form U with slots D, Z. -/
def decUD (r : Raw) (c : SReg → Instr) : Dec Instr := formU r (((Dec.ok c).app (decD r.s0)).also (decZ r.s1))

def decTime (r : Raw) : Dec Instr :=
  match r.f with
  | 0 => decUD r .gtc | 1 => decUD r .ctxid | _ => .op

/-- Slots T, Z, Z with a modifier of zero. -/
def decTarget (r : Raw) (c : Lit → Instr) : Dec Instr :=
  formB r fun e => ((((Dec.ok c).app (decL e r.s0)).also (decZ r.s1)).also (decZ r.s2)).also (decZ r.md)

def decTransfer (r : Raw) : Dec Instr :=
  match r.f with
  | 0 => formB r fun e => ((((Dec.ok Instr.br).app (decPred r.md)).app (decL e r.s0)).also (decZ r.s1)).also (decZ r.s2)
  | 1 => decTarget r .bra
  | 2 => formB r fun _ => ((((Dec.ok Instr.jmp).app (decSC r.s0)).also (decZ r.s1)).also (decZ r.s2)).also (decZ r.md)
  | 3 => formU r (((Dec.ok Instr.jmpr).app (decSC r.s0)).app (decX none r.s1))
  | 4 => decTarget r .call
  | 5 => formU r (((Dec.ok Instr.callr).app (decSC r.s0)).also (decZ r.s1))
  | 6 => formN r (.ok .ret)
  | 7 => formW r (((((((((Dec.ok Instr.jtab).app (decX none r.s0)).app (decSC r.s1)).app (decX none r.s2)).app
      (decSC r.s4)).also (decZ r.s5)).also (decZ r.s6)).also (decZ r.s7)).also (decZ r.md))
  | 8 => formB r fun e => ((((Dec.ok Instr.lp).app (decX e r.s0)).app (decL e r.s1)).also (decZ r.s2)).also (decZ r.md)
  | _ => .op

def decEnds (r : Raw) : Dec Instr :=
  match r.f with
  | 0 => formN r (.ok .halt)
  | 1 => formU r (((Dec.ok Instr.haltR).app (decSC r.s0)).also (decZ r.s1))
  | 2 => formU r (((Dec.ok Instr.trap).app (decX none r.s0)).also (decZ r.s1))
  | 3 => formN r (.ok .nop)
  | 4 => if r.tl = 3 then formB r fun e =>
      (((((Dec.ok Instr.sigchk).app (decL e r.s0)).also (if isMarker r.s0 then .ok () else .operand)).also (decZ r.s1)).also
        (decZ r.s2)).also (decZ r.md) else .op
  | 5 => formN r (.ok .msgdone)
  | _ => .op

def decGang (r : Raw) : Dec Instr :=
  match r.f with
  | 0 => formB r fun e => ((((Dec.ok Instr.gform).app (decX e r.s0)).app (decX e r.s1)).also (decZ r.s2)).also (decZ r.md)
  | 1 => formN r (.ok .gleave)
  | 2 => decTarget r .gjoin
  | 3 => formN r (.ok .gbar)
  | 4 => formN r (.ok .sbar)
  | _ => .op

def decLaunch (r : Raw) : Dec Instr :=
  match r.f with
  | 0 => formB r fun e => ((((Dec.ok Instr.launch).app (decD r.s0)).app (decSC r.s1)).app (decX e r.s2)).also (decZ r.md)
  | 1 => formU r (((Dec.ok Instr.qdone).app (decX none r.s0)).app (decX none r.s1))
  | _ => .op

def decControl (r : Raw) : Dec Instr :=
  match r.f with
  | 0 => formB r fun e => ((((Dec.ok Instr.csrr).app (decD r.s0)).app (decL e r.s1)).also (decZ r.s2)).also (decZ r.md)
  | 1 => decCsr r .csrw | 2 => decCsr r .csrset | 3 => decCsr r .csrclr
  | 4 => formN r (.ok .ifence)
  | _ => .op

def decPrivileged (r : Raw) : Dec Instr :=
  match r.f with
  | 0 => formN r (.ok .eret)
  | 1 => formU r (((Dec.ok Instr.tlbinv).app (decX none r.s0)).app (decX none r.s1))
  | 2 => formU r (((Dec.ok Instr.msave).app (decX none r.s0)).app (decSC r.s1))
  | 3 => formU r (((Dec.ok Instr.mrest).app (decX none r.s0)).app (decSC r.s1))
  | 4 => formB r fun e => ((((Dec.ok Instr.htset).app (decX e r.s0)).app (decSC r.s1)).also (decZ r.s2)).also (decZ r.md)
  | _ => .op

/-- [1:0] SIZE and [2] SX (R221, R256): SX with SIZE 0b11 traps ILLEGAL_OP. -/
def decSizeSx (b : Byte) : Dec (BitVec 2 × Bool) :=
  decMod (decide (bitsAt b 3 5 = 0) && !(decide (bitsAt b 0 2 = 3) && b.getLsbD 2)) (b.extractLsb' 0 2, b.getLsbD 2)

def decPlain (r : Raw) : Dec Instr :=
  match r.f with
  | 0 => formB r fun e => (((((Dec.ok fun d a o m => Instr.ld d a o (Prod.fst m) (Prod.snd m)).app (decD r.s0)).app
      (decD r.s1)).app (decO e r.s2)).app (decSizeSx r.md))
  | 1 => formB r fun e => ((((Dec.ok Instr.st).app (decD r.s0)).app (decO e r.s1)).app (decX e r.s2)).app (decSize r.md)
  | _ => .op

def decVectorMem (r : Raw) : Dec Instr :=
  match r.f with
  | 0 => formB r fun e => ((((Dec.ok Instr.ldv).app (decV r.s0)).app (decD r.s1)).app (decO e r.s2)).app (decPred r.md)
  | 1 => formB r fun e => ((((Dec.ok Instr.stv).app (decD r.s0)).app (decO e r.s1)).app (decV r.s2)).app (decPred r.md)
  | _ => .op

def decBitMem (r : Raw) : Dec Instr :=
  match r.f with
  | 0 => formB r fun e => ((((Dec.ok Instr.ldbit).app (decD r.s0)).app (decX e r.s1)).app
      (decMod (decide (bitsAt r.md 4 4 = 0)) (mbOf r.md))).also (decZ r.s2)
  | 1 => formB r fun e => ((((Dec.ok Instr.stbit).app (decX e r.s0)).app (decX e r.s1)).app
      (decMod (decide (bitsAt r.md 3 5 = 0)) (mbOf r.md))).also (decZ r.s2)
  | 2 => formB r fun e => ((((Dec.ok Instr.bset).app (decMod (decide (bitsAt r.md 2 6 = 0)) (mbOf r.md).b)).app
      (decX e r.s0)).also (decZ r.s1)).also (decZ r.s2)
  | _ => .op

def decFormatMem (r : Raw) : Dec Instr :=
  match r.f with
  | 0 => formB r fun e => ((((Dec.ok Instr.ldf).app (decV r.s0)).app (decD r.s1)).app (decO e r.s2)).app
      (decMC MC.wfTarget r.md)
  | 1 => formB r fun e => ((((Dec.ok Instr.stf).app (decD r.s0)).app (decO e r.s1)).app (decV r.s2)).app
      (decMC MC.wfSource r.md)
  | _ => .op

def decPrefetch (r : Raw) : Dec Instr :=
  match r.f with
  | 0 => formB r fun e => ((((Dec.ok Instr.pf).app (decD r.s0)).app (decO e r.s1)).also (decZ r.s2)).also (decZ r.md)
  | _ => .op

def decTagset (r : Raw) : Dec Instr :=
  match r.f with
  | 0 => formB r fun e => ((((Dec.ok Instr.tagset).app (decD r.s0)).app (decO e r.s1)).app (decX e r.s2)).also (decZ r.md)
  | _ => .op

def decFences (r : Raw) : Dec Instr :=
  match r.f with
  | 0 => if r.tl = 1 then
      (decMod (decide (bitsAt r.s1 0 2 ≠ 3) && decide (bitsAt r.s1 2 2 = 0) && decide (bitsAt r.s1 4 3 ≤ 5) &&
        !r.s1.getLsbD 7) (Instr.fence (r.s1.extractLsb' 0 2) (r.s1.extractLsb' 4 3))).also (decZ r.s0)
    else .op
  | 1 => formB r fun e => ((((Dec.ok Instr.ldacq).app (decD r.s0)).app (decD r.s1)).app (decO e r.s2)).app
      (decMO MO.wfPlain r.md)
  | 2 => formB r fun e => ((((Dec.ok Instr.strel).app (decD r.s0)).app (decO e r.s1)).app (decX e r.s2)).app
      (decMO MO.wfPlain r.md)
  | _ => .op

def decAtomics (r : Raw) : Dec Instr :=
  match r.f with
  | 0 => decAmo r .amoAdd | 1 => decAmo r .amoAnd | 2 => decAmo r .amoOr | 3 => decAmo r .amoXor | 4 => decAmo r .amoMin
  | 5 => decAmo r .amoMax | 6 => decAmo r .amoMinn | 7 => decAmo r .amoMaxn | 8 => decAmo r .amoSwap | _ => .op

def decCas (r : Raw) : Dec Instr :=
  match r.f with
  | 0 => formW r ((((((((((Dec.ok Instr.cas).app (decD r.s0)).app (decD r.s1)).app (decO none r.s2)).app (decX none r.s4)).app
      (decX none r.s5)).app (decMO MO.wfAtomic r.md)).also (decZ r.s6)).also (decZ r.s7)))
  | _ => .op

/-- Slots D, B, O with a modifier of zero. -/
def decDBO (r : Raw) (c : SReg → SReg → OOp → Instr) : Dec Instr :=
  formB r fun e => ((((Dec.ok c).app (decD r.s0)).app (decD r.s1)).app (decO e r.s2)).also (decZ r.md)
/-- Slots B, O, X with a modifier of zero. -/
def decBOX (r : Raw) (c : SReg → OOp → XOp → Instr) : Dec Instr :=
  formB r fun e => ((((Dec.ok c).app (decD r.s0)).app (decO e r.s1)).app (decX e r.s2)).also (decZ r.md)
/-- Slots B, O, Z with a modifier of zero. -/
def decBO (r : Raw) (c : SReg → OOp → Instr) : Dec Instr :=
  formB r fun e => ((((Dec.ok c).app (decD r.s0)).app (decO e r.s1)).also (decZ r.s2)).also (decZ r.md)

def decFullEmpty (r : Raw) : Dec Instr :=
  match r.f with
  | 0 => decDBO r .ldfe | 1 => decDBO r .ldfeE | 2 => decBOX r .stfe | 3 => decBOX r .stfeW | 4 => decBO r .feSet
  | 5 => decBO r .feClr
  | 6 => formB r fun e => ((((Dec.ok Instr.feTst).app (decPred r.md)).app (decD r.s0)).app (decO e r.s1)).also (decZ r.s2)
  | _ => .op

def decMessages (r : Raw) : Dec Instr :=
  match r.f with
  | 0 => formB r fun e => ((((Dec.ok Instr.send).app (decSC r.s0)).app (decX e r.s1)).app (decV r.s2)).also (decZ r.md)
  | 1 => formB r fun e => ((((Dec.ok Instr.inb).app (decV r.s0)).app (decL e r.s1)).also (decZ r.s2)).also (decZ r.md)
  | 2 => formW r ((((((((((Dec.ok Instr.sendl).app (decD r.s0)).app (decX none r.s1)).app (decX none r.s2)).app
      (decX none r.s4)).app (decX none r.s5)).app (decX none r.s6)).also (decZ r.s7)).also (decZ r.md)))
  | _ => .op

def dec5X (r : Raw) (c : XOp → XOp → XOp → XOp → XOp → Instr) : Dec Instr :=
  formW r ((((((((((Dec.ok c).app (decX none r.s0)).app (decX none r.s1)).app (decX none r.s2)).app (decX none r.s4)).app
    (decX none r.s5)).also (decZ r.s6)).also (decZ r.s7)).also (decZ r.md)))
def dec6X (r : Raw) (c : XOp → XOp → XOp → XOp → XOp → XOp → BitVec 2 → Instr) : Dec Instr :=
  formW r (((((((((Dec.ok c).app (decX none r.s0)).app (decX none r.s1)).app (decX none r.s2)).app (decX none r.s4)).app
    (decX none r.s5)).app (decX none r.s6)).app (decSize r.md)).also (decZ r.s7))

def decOneSided (r : Raw) : Dec Instr :=
  match r.f with
  | 0 => dec5X r .get | 1 => dec5X r .put | 2 => dec6X r .getx | 3 => dec6X r .putx | _ => .op

/-- [6:4] SCOPE, the rest zero (R239). -/
def decScope (b : Byte) : Dec (BitVec 3) :=
  decMod (decide (bitsAt b 0 4 = 0) && decide (bitsAt b 4 3 ≤ 5) && !b.getLsbD 7) (b.extractLsb' 4 3)

def decCounters (r : Raw) : Dec Instr :=
  match r.f with
  | 0 => formB r fun e => ((((Dec.ok Instr.ccSet).app (decX e r.s0)).app (decX e r.s1)).app (decScope r.md)).also (decZ r.s2)
  | 1 => formB r fun e => ((((Dec.ok Instr.ccRd).app (decD r.s0)).app (decX e r.s1)).app (decL e r.s2)).also (decZ r.md)
  | 2 => formB r fun e => ((((Dec.ok Instr.ccWait).app (decD r.s0)).app (decX e r.s1)).app (decX e r.s2)).app (decFlag r.md)
  | _ => .op

def decBuffers (r : Raw) : Dec Instr :=
  match r.f with
  | 0 => formW r (((((((((Dec.ok Instr.cbCfg).app (decX none r.s0)).app (decX none r.s1)).app (decX none r.s2)).app
      (decX none r.s4)).app (decFlag r.md)).also (decZ r.s5)).also (decZ r.s6)).also (decZ r.s7))
  | 1 => formB r fun e => ((((Dec.ok Instr.cbAcq).app (decD r.s0)).app (decX e r.s1)).app (decFlag r.md)).also (decZ r.s2)
  | 2 => formB r fun e => ((((Dec.ok Instr.cbPub).app (decX e r.s0)).also (decZ r.s1)).also (decZ r.s2)).also (decZ r.md)
  | 3 => formB r fun e => ((((Dec.ok Instr.cbTake).app (decD r.s0)).app (decX e r.s1)).app (decFlag r.md)).also (decZ r.s2)
  | 4 => formB r fun e => ((((Dec.ok Instr.cbRel).app (decX e r.s0)).also (decZ r.s1)).also (decZ r.s2)).also (decZ r.md)
  | _ => .op

def decCopies (r : Raw) : Dec Instr :=
  match r.f with
  | 0 => formW r (((((((((Dec.ok Instr.cpy).app (decX none r.s0)).app (decX none r.s1)).app (decX none r.s2)).app
      (decX none r.s4)).app (decFlag r.md)).also (decZ r.s5)).also (decZ r.s6)).also (decZ r.s7))
  | 1 => formW r (((((((((Dec.ok Instr.cpyz).app (decX none r.s0)).app (decX none r.s1)).app (decX none r.s2)).app
      (decX none r.s4)).app (if r.md.getLsbD 0 then decX none r.s5 else (Dec.ok (XOp.lit 0)).also (decZ r.s5))).app
      (decFlag r.md)).also (decZ r.s6)).also (decZ r.s7))
  | _ => .op

def decVint (r : Raw) : Dec Instr :=
  match r.f with
  | 0 => decVVV r (decMI MI.wf) .vaddInt | 1 => decVVV r (decMI MI.wf) .vsubInt | 2 => decVVV r (decMI MI.wf) .vmulInt
  | 3 => decVVV r (decMI MI.wfNoSat) .vmulh | 4 => decVVV r (decMI MI.wfNoSat) .vminInt
  | 5 => decVVV r (decMI MI.wfNoSat) .vmaxInt | 6 => decVV r (decMI MI.wfSigned) .vabsInt
  | 7 => decVV r (decMI MI.wfSigned) .vnegInt | _ => .op

def decVfloat (r : Raw) : Dec Instr :=
  match r.f with
  | 0 => decVVV r (decMF MF.wf) .vaddFloat | 1 => decVVV r (decMF MF.wf) .vsubFloat | 2 => decVVV r (decMF MF.wf) .vmulFloat
  | 3 => decVVV r (decMF MF.wf) .vfma | 4 => decVVV r (decMF MF.wf) .vfms | 5 => decVVV r (decMF MF.wfNoRnd) .vminFloat
  | 6 => decVVV r (decMF MF.wfNoRnd) .vmaxFloat | 7 => decVV r (decMF MF.wfNoRnd) .vabsFloat
  | 8 => decVV r (decMF MF.wfNoRnd) .vnegFloat | _ => .op

def decVdivider (r : Raw) : Dec Instr :=
  match r.f with
  | 0 => decVVV r (decMI MI.wfNoSat) .vdiv | 1 => decVVV r (decMI MI.wfNoSat) .vrem | _ => .op

def decVlogic (r : Raw) : Dec Instr :=
  match r.f with
  | 0 => decVVV r decPred .vand | 1 => decVVV r decPred .vor | 2 => decVVV r decPred .vxor | 3 => decVVV r decPred .vandn
  | 4 => decVV r decPred .vnot | 5 => decVVV r (decMI MI.wfShift) .vshl | 6 => decVVV r (decMI MI.wfShift) .vshr
  | 7 => decVVV r (decMI MI.wfShift) .vsra | _ => .op

def decVcompare (r : Raw) : Dec Instr :=
  match r.f with
  | 0 => formB r fun e => ((((Dec.ok Instr.vcmpInt).app (decV r.s0)).app (decV r.s1)).app (decL e r.s2)).app
      (decMI MI.wfNoSat r.md)
  | 1 => formB r fun e => ((((Dec.ok Instr.vcmpFloat).app (decV r.s0)).app (decV r.s1)).app (decL e r.s2)).app
      (decMF MF.wfNoRnd r.md)
  | 2 => decVVV r decPred .vsel
  | _ => .op

def decVmove (r : Raw) : Dec Instr :=
  match r.f with
  | 0 => decVVV r decPred .vperm
  | 1 => formB r fun e => ((((Dec.ok Instr.vbcast).app (decV r.s0)).app (decX e r.s1)).app (decSize r.md)).also (decZ r.s2)
  | 2 => decVVV r (fun b => decMod (decide (bitsAt b 4 4 = 0)) (⟨bitsAt b 0 4, Nat.mod_lt _ (by decide)⟩ : Fin 16)) .vext
  | 3 => formB r fun e => ((((Dec.ok Instr.vins).app (decV r.s0)).app (decX e r.s1)).app (decX e r.s2)).app (decSize r.md)
  | 4 => decVV r decPred .vmov
  | 5 => formB r fun e => ((((Dec.ok fun d a b m => Instr.vget d a b (Prod.fst m) (Prod.snd m)).app (decD r.s0)).app
      (decV r.s1)).app (decX e r.s2)).app (decSizeSx r.md)
  | _ => .op

def decVreduceInt (r : Raw) : Dec Instr :=
  match r.f with
  | 0 => decDV r (decMI MI.wf) .vrsumInt | 1 => decDV r (decMI MI.wfNoSat) .vrmaxInt
  | 2 => decDV r (decMI MI.wfNoSat) .vrminInt
  | 3 => decVVV r (decMI fun m => m.wf && decide (m.wid.toNat ≤ 1)) .vdot4 | _ => .op

def decVreduceFloat (r : Raw) : Dec Instr :=
  match r.f with
  | 0 => decDV r (decMF MF.wf) .vrsumFloat | 1 => decDV r (decMF MF.wfNoRnd) .vrmaxFloat
  | 2 => decDV r (decMF MF.wfNoRnd) .vrminFloat | _ => .op

def decVconvert (r : Raw) : Dec Instr :=
  match r.f with
  | 0 => formB r fun e => ((((Dec.ok Instr.vcvt).app (decV r.s0)).app (decV r.s1)).app (decL e r.s2)).app
      (decMC MC.wfTarget r.md)
  | 1 => formB r fun e => ((((Dec.ok fun d a k (m : BitVec 3 × Bool) => Instr.vpack d a k m.1 m.2).app (decV r.s0)).app
      (decV r.s1)).app (decL e r.s2)).app
      (decMod (decide (bitsAt r.md 0 3 ≠ 3) && decide (bitsAt r.md 0 3 ≤ 5) && decide (bitsAt r.md 3 3 = 0) && !r.md.getLsbD 7)
        (r.md.extractLsb' 0 3, r.md.getLsbD 6))
  | 2 => formB r fun e => ((((Dec.ok fun d a k (m : BitVec 3 × Bool) => Instr.vunpk d a k m.1 m.2).app (decV r.s0)).app
      (decV r.s1)).app (decL e r.s2)).app
      (decMod (decide (bitsAt r.md 0 3 ≤ 5) && decide (bitsAt r.md 4 4 = 0) &&
        (r.md.getLsbD 3 || decide (bitsAt r.md 0 3 ≠ 3))) (r.md.extractLsb' 0 3, r.md.getLsbD 3))
  | 3 => decVVV r (fun b => decMod (decide (bitsAt b 0 5 = 0) && decide (bitsAt b 5 3 ≤ 4)) (b.extractLsb' 5 3)) .vo4p
  | _ => .op

def decVspecial (r : Raw) : Dec Instr :=
  match r.f with
  | 0 => decVV r (decMF MF.wfSfu) .vexp2 | 1 => decVV r (decMF MF.wfSfu) .vlog2 | 2 => decVV r (decMF MF.wfSfu) .vrcp
  | 3 => decVV r (decMF MF.wfSfu) .vrsqrt | 4 => decVV r (decMF MF.wfSfu) .vsqrt | 5 => decVV r (decMF MF.wfSfu) .vtanh
  | _ => .op

def decVcount (r : Raw) : Dec Instr :=
  match r.f with
  | 0 => formB r fun e => ((((Dec.ok Instr.vthr).app (decV r.s0)).app (decV r.s1)).app (decX e r.s2)).app
      (decMF MF.wfNoRnd r.md)
  | 1 => decVV r (decMI MI.wfShift) .vclz | 2 => decVV r (decMI MI.wfShift) .vpopc | _ => .op

def decMatrix (r : Raw) : Dec Instr :=
  match r.f with
  | 0 => formU r (((Dec.ok Instr.mcfg).app (decSC r.s0)).also (decZ r.s1))
  | 1 => formW r ((((((((((Dec.ok Instr.mlds).app (decX none r.s0)).app (decX none r.s1)).app (decX none r.s2)).app
      (if r.md.getLsbD 0 then decX none r.s4 else (Dec.ok (XOp.lit 0)).also (decZ r.s4))).app (decFlag r.md)).also
      (decZ r.s5)).also (decZ r.s6)).also (decZ r.s7)))
  | 2 => formN r (.ok .mswap)
  | 3 => dec5X r .mstrm
  | 4 => formW r ((((((((((Dec.ok Instr.mdrain).app (decX none r.s0)).app (decX none r.s1)).app (decX none r.s2)).app
      (decX none r.s4)).app (decX none r.s5)).app (decX none r.s6)).also (decZ r.s7)).also (decZ r.md)))
  | 5 => formN r (.ok .mzero)
  | 6 => formN r (.ok .mwait)
  | 7 => formU r (((Dec.ok Instr.mstat).app (decD r.s0)).app (decX none r.s1))
  | 8 => formB r fun e => ((((Dec.ok Instr.mmask).app (decSC r.s0)).app (decX e r.s1)).app (decX e r.s2)).also (decZ r.md)
  | _ => .op

def decCoding (r : Raw) : Dec Instr :=
  match r.f with
  | 0 => formW r ((((((((((Dec.ok Instr.dload).app (decX none r.s0)).app (decSC r.s1)).app (decX none r.s2)).also
      (decZ r.s4)).also (decZ r.s5)).also (decZ r.s6)).also (decZ r.s7)).also (decZ r.md)))
  | 1 => formU r (((Dec.ok Instr.dsel).app (decL none r.s0)).also (decZ r.s1))
  | 2 => formB r fun e => ((((Dec.ok Instr.pcfg).app (decX e r.s0)).app (decX e r.s1)).app (decX e r.s2)).also (decZ r.md)
  | 3 => formB r fun e => ((((Dec.ok Instr.penc).app (decSC r.s0)).app (decSC r.s1)).app
      (if r.s2 = 0 then .ok SlotSel.none else (Dec.ok SlotSel.lit).app (decL e r.s2))).also (decZ r.md)
  | 4 => formB r fun _ => ((((Dec.ok Instr.pdec).app (decSC r.s0)).app (decSC r.s1)).also (decZ r.s2)).also (decZ r.md)
  | 5 => formW r (((((((((Dec.ok Instr.aimg).app (decD r.s0)).app (decV r.s1)).app (decSC r.s2)).app (decX none r.s4)).also
      (decZ r.s5)).also (decZ r.s6)).also (decZ r.s7)).also (decZ r.md))
  | _ => .op

def decKv (r : Raw) : Dec Instr :=
  match r.f with
  | 0 => formW r ((((((((((Dec.ok Instr.kvcommit).app (decSC r.s0)).app (decSC r.s1)).app (decX none r.s2)).app
      (decX none r.s4)).app (decX none r.s5)).also (decZ r.s6)).also (decZ r.s7)).also (decZ r.md)))
  | _ => .op

def decWde (r : Raw) : Dec Instr :=
  match r.f with
  | 0 => formW r ((((((((((Dec.ok Instr.wdenter).app (decD r.s0)).app (decX none r.s1)).app (decSC r.s2)).app
      (decL none r.s4)).also (decZ r.s5)).also (decZ r.s6)).also (decZ r.s7)).also (decZ r.md)))
  | 1 => decUD r .wdstat
  | _ => .op

/-- The instruction of a head and its tail, by MAJ (R173, R174). -/
def decodeRaw (r : Raw) : Dec Instr :=
  match r.maj with
  | 0x00 => decArith r | 0x01 => decDivider r | 0x02 => decLogic r | 0x03 => decBits r | 0x04 => decMoves r
  | 0x05 => decCompare r | 0x06 => decPointer r | 0x07 => decTime r | 0x10 => decTransfer r | 0x11 => decEnds r
  | 0x12 => decGang r | 0x13 => decLaunch r | 0x14 => decControl r | 0x18 => decPrivileged r | 0x20 => decPlain r
  | 0x21 => decVectorMem r | 0x22 => decBitMem r | 0x23 => decFormatMem r | 0x24 => decPrefetch r | 0x25 => decTagset r
  | 0x30 => decFences r | 0x31 => decAtomics r | 0x32 => decCas r | 0x33 => decFullEmpty r | 0x38 => decMessages r
  | 0x39 => decOneSided r | 0x3A => decCounters r | 0x3B => decBuffers r | 0x3C => decCopies r | 0x40 => decVint r
  | 0x41 => decVfloat r | 0x42 => decVdivider r | 0x43 => decVlogic r | 0x44 => decVcompare r | 0x46 => decVmove r
  | 0x47 => decVreduceInt r | 0x48 => decVreduceFloat r | 0x49 => decVconvert r | 0x4A => decVspecial r | 0x4B => decVcount r
  | 0x60 => decMatrix r | 0x70 => decCoding r | 0x71 => decKv r | 0x72 => decWde r
  | _ => .op

/-- The instruction of a head halfword with its tail halfwords, tail halfword 0 first. -/
def decodeHead (h : Half) (t : List Half) : Dec Instr := decodeRaw (Raw.ofWords h t)

/-- The control register that a csrr, csrw, csrset or csrclr head names, and whether the head writes it (R210): PRIV is
decided before ILLEGAL_OPERAND (R165), so it is read even where another slot is bad. -/
def csrOfRaw (r : Raw) : Option (Lit × Bool) :=
  if r.maj = 0x14 ∧ r.f ≤ 3 then
    let b := if r.f = 0 then r.s1 else r.s0
    match decL (if r.tl = 3 then some r.ext else none) b with
    | .ok k => some (k, r.f != 0)
    | _ => none
  else none

/-! ## Lines (R156-R158) -/

/-- The halfwords h0 to h31 of a line. -/
abbrev Line := List Half

/-- HC, the head count: bits [4:0] of h0. -/
def lineHc (l : Line) : Nat := (l.getD 0 0).toNat % 32

/-- The tail lengths of heads 1 to n. -/
def tailSum (l : Line) : Nat → Nat
  | 0 => 0
  | n + 1 => tailSum l n + tailLength (headTl (l.getD (n + 1) 0))

/-- The tail of head k: T_k = 31 less the tails before it, halfword i at h_(T_k - i) (R157). -/
def headTail (l : Line) (k : Nat) : List Half :=
  let t := 31 - tailSum l (k - 1)
  (List.range (tailLength (headTl (l.getD k 0)))).map fun i => l.getD (t - i) 0

/-- The halfwords between the last head and the lowest tail halfword are zero. -/
def gapZero (l : Line) : Bool :=
  (List.range 32).all fun i => !(decide (lineHc l < i) && decide (i + tailSum l (lineHc l) ≤ 31)) || (l.getD i 0 == 0#16)

/-- A line that R156 does not call malformed. -/
def lineFormed (l : Line) : Bool :=
  decide (lineHc l ≠ 0) && decide ((l.getD 0 0).toNat / 32 % 8 = 0) &&
    decide (1 + lineHc l + tailSum l (lineHc l) ≤ 32) && gapZero l

def rotl16 (x : Half) (n : Nat) : Half := x.rotateLeft (n % 16)

/-- The signature sum over h1 to h31 and its byte (R158). -/
def lineSum (l : Line) : Half :=
  (List.range 31).foldl (fun s i => s ^^^ rotl16 (l.getD (i + 1) 0) ((i + 1) % 16)) 0#16
def lineSig (l : Line) : Byte := (lineSum l).extractLsb' 8 8 ^^^ (lineSum l).extractLsb' 0 8
def lineSigOk (l : Line) : Bool := (l.getD 0 0).extractLsb' 8 8 == lineSig l

/-! ## The encoder -/

def encV (r : VReg) : Byte := BitVec.ofNat 8 r.val
def encD (r : SReg) : Byte := BitVec.ofNat 8 (64 + r.val)
def encCst (n : Fin 64) : Byte := BitVec.ofNat 8 (128 + n.val)
/-- A literal's slot: in two's complement where it is short, else the marker (R11, R12). -/
def encLit (k : Lit) : Byte := if Lit.short k then 0xC0#8 ||| ((k.extractLsb' 0 6).setWidth 8) else 0xE0#8
def encX : XOp → Byte
  | .reg r => encD r
  | .cst n => encCst n
  | .lit k => encLit k
def encSC : SCOp → Byte
  | .reg r => encD r
  | .cst n => encCst n
def encO : OOp → Byte
  | .cst n => encCst n
  | .lit k => encLit k
def encSel : SlotSel → Byte
  | .none => 0
  | .lit k => encLit k

def modByte (n : Nat) : Byte := BitVec.ofNat 8 n
def encMF (m : MF) : Byte := (m.rnd ++ m.fty) ++ BitVec.ofNat 3 m.pred.val
def encMI (m : MI) : Byte := ((0#1 ++ BitVec.ofBool m.satm) ++ (BitVec.ofBool m.uns ++ m.wid)) ++ BitVec.ofNat 3 m.pred.val
def encMO (m : MO) : Byte := (0#1 ++ m.scope) ++ (m.ord ++ m.size)
def encMC (m : MC) : Byte := (BitVec.ofBool m.ovf ++ m.rnd) ++ m.tidx
def encMB (m : MB) : Byte := (0#4 ++ BitVec.ofBool m.sx) ++ (BitVec.ofBool m.inc ++ BitVec.ofNat 2 m.b.val)
def encSizeSx (size : BitVec 2) (sx : Bool) : Byte := (0#5 ++ BitVec.ofBool sx) ++ size

/-- Form N. -/
def rawN (maj f : Nat) : Raw :=
  { maj := maj, tl := 0, f := f, s0 := 0, s1 := 0, s2 := 0, md := 0, s4 := 0, s5 := 0, s6 := 0, s7 := 0 }
/-- Forms U and M. -/
def rawU (maj f : Nat) (a b : Byte) : Raw := { rawN maj f with tl := 1, s0 := a, s1 := b }
/-- Form B: TL 4 with the first operand that needs a long literal (R162, R176). -/
def rawB (maj f : Nat) (a b c md : Byte) (long : List (Option Lit)) : Raw :=
  match (long.filterMap id).head? with
  | none => { rawN maj f with tl := 2, s0 := a, s1 := b, s2 := c, md := md }
  | some k => { rawN maj f with
      tl := 3, s0 := a, s1 := b, s2 := c, md := md
      s4 := k.extractLsb' 0 8, s5 := k.extractLsb' 8 8, s6 := k.extractLsb' 16 8, s7 := k.extractLsb' 24 8 }
/-- Form W. -/
def rawW (maj f : Nat) (a b c md d e g h : Byte) : Raw :=
  { maj := maj, tl := 3, f := f, s0 := a, s1 := b, s2 := c, md := md, s4 := d, s5 := e, s6 := g, s7 := h }

def rawDXX (maj f : Nat) (d : SReg) (a b : XOp) (md : Byte) : Raw := rawB maj f (encD d) (encX a) (encX b) md [a.long, b.long]
def rawDX (maj f : Nat) (d : SReg) (a : XOp) : Raw := rawB maj f (encD d) (encX a) 0 0 [a.long]
def rawVVV (maj f : Nat) (d a b : VReg) (md : Byte) : Raw := rawB maj f (encV d) (encV a) (encV b) md []
def rawVV (maj f : Nat) (d a : VReg) (md : Byte) : Raw := rawB maj f (encV d) (encV a) 0 md []
def rawDV (maj f : Nat) (d : SReg) (a : VReg) (md : Byte) : Raw := rawB maj f (encD d) (encV a) 0 md []
def rawAmo (f : Nat) (d a : SReg) (o : OOp) (b : XOp) (m : MO) : Raw :=
  rawW 0x31 f (encD d) (encD a) (encO o) (encMO m) (encX b) 0 0 0

/-- The head and tail of an instruction, written from R174 and the tables of 09 to 12; no event has one. -/
def Instr.toRaw : Instr → Option Raw
  | .add d a b => some (rawDXX 0x00 0 d a b 0) | .sub d a b => some (rawDXX 0x00 1 d a b 0)
  | .mul d a b => some (rawDXX 0x00 2 d a b 0) | .mulh d a b => some (rawDXX 0x00 3 d a b 0)
  | .mulhn d a b => some (rawDXX 0x00 4 d a b 0) | .min d a b => some (rawDXX 0x00 5 d a b 0)
  | .max d a b => some (rawDXX 0x00 6 d a b 0) | .minn d a b => some (rawDXX 0x00 7 d a b 0)
  | .maxn d a b => some (rawDXX 0x00 8 d a b 0)
  | .div d a b => some (rawDXX 0x01 0 d a b 0) | .divn d a b => some (rawDXX 0x01 1 d a b 0)
  | .rem d a b => some (rawDXX 0x01 2 d a b 0) | .remn d a b => some (rawDXX 0x01 3 d a b 0)
  | .and d a b => some (rawDXX 0x02 0 d a b 0) | .or d a b => some (rawDXX 0x02 1 d a b 0)
  | .xor d a b => some (rawDXX 0x02 2 d a b 0) | .andn d a b => some (rawDXX 0x02 3 d a b 0)
  | .shl d a b => some (rawDXX 0x02 4 d a b 0) | .shr d a b => some (rawDXX 0x02 5 d a b 0)
  | .sra d a b => some (rawDXX 0x02 6 d a b 0) | .rotl d a b => some (rawDXX 0x02 7 d a b 0)
  | .clz d a => some (rawDX 0x03 0 d a) | .ctz d a => some (rawDX 0x03 1 d a) | .popc d a => some (rawDX 0x03 2 d a)
  | .sext d a b => some (rawDXX 0x03 3 d a b 0) | .zext d a b => some (rawDXX 0x03 4 d a b 0)
  | .bfx d a b n => some (rawDXX 0x03 5 d a b (modByte n.val)) | .bfi d a b n => some (rawDXX 0x03 6 d a b (modByte n.val))
  | .li d k => some (rawB 0x04 0 (encD d) (encLit k) 0 0 [Lit.long k])
  | .lih d k => some (rawB 0x04 1 (encD d) (encLit k) 0 0 [Lit.long k])
  | .mov d a => some (rawDX 0x04 2 d a)
  | .sel d n a b => some (rawDXX 0x04 3 d a b (modByte n.val))
  | .cmp pd c a b => some (rawB 0x05 0 (encX a) (encX b) 0 (modByte (pd.val + 8 * c.toNat)) [a.long, b.long])
  | .plAnd pd pa => some (rawB 0x05 1 0 0 0 (modByte (pd.val + 8 * pa.val)) [])
  | .plOr pd pa => some (rawB 0x05 2 0 0 0 (modByte (pd.val + 8 * pa.val)) [])
  | .plNot pd pa => some (rawB 0x05 3 0 0 0 (modByte (pd.val + 8 * pa.val)) [])
  | .ptradd d a b => some (rawDXX 0x06 0 d a b 0) | .ptrfmt d a b => some (rawDXX 0x06 1 d a b 0)
  | .ptrtag d a b => some (rawDXX 0x06 2 d a b 0) | .ptrfld d a b => some (rawDXX 0x06 3 d a b 0)
  | .gtc d => some (rawU 0x07 0 (encD d) 0) | .ctxid d => some (rawU 0x07 1 (encD d) 0)
  | .br n t => some (rawB 0x10 0 (encLit t) 0 0 (modByte n.val) [Lit.long t])
  | .bra t => some (rawB 0x10 1 (encLit t) 0 0 0 [Lit.long t])
  | .jmp a => some (rawB 0x10 2 (encSC a) 0 0 0 [])
  | .jmpr a b => some (rawU 0x10 3 (encSC a) (encX b))
  | .call t => some (rawB 0x10 4 (encLit t) 0 0 0 [Lit.long t])
  | .callr a => some (rawU 0x10 5 (encSC a) 0)
  | .ret => some (rawN 0x10 6)
  | .jtab a b c d => some (rawW 0x10 7 (encX a) (encSC b) (encX c) 0 (encSC d) 0 0 0)
  | .lp a t => some (rawB 0x10 8 (encX a) (encLit t) 0 0 [a.long, Lit.long t])
  | .halt => some (rawN 0x11 0) | .haltR a => some (rawU 0x11 1 (encSC a) 0) | .trap a => some (rawU 0x11 2 (encX a) 0)
  | .nop => some (rawN 0x11 3)
  | .sigchk k => some { rawB 0x11 4 0xE0#8 0 0 0 [some k] with tl := 3 }
  | .msgdone => some (rawN 0x11 5)
  | .gform a b => some (rawB 0x12 0 (encX a) (encX b) 0 0 [a.long, b.long])
  | .gleave => some (rawN 0x12 1)
  | .gjoin t => some (rawB 0x12 2 (encLit t) 0 0 0 [Lit.long t])
  | .gbar => some (rawN 0x12 3) | .sbar => some (rawN 0x12 4)
  | .launch d a b => some (rawB 0x13 0 (encD d) (encSC a) (encX b) 0 [b.long])
  | .qdone a b => some (rawU 0x13 1 (encX a) (encX b))
  | .csrr d k => some (rawB 0x14 0 (encD d) (encLit k) 0 0 [Lit.long k])
  | .csrw k a => some (rawB 0x14 1 (encLit k) (encX a) 0 0 [Lit.long k, a.long])
  | .csrset k a => some (rawB 0x14 2 (encLit k) (encX a) 0 0 [Lit.long k, a.long])
  | .csrclr k a => some (rawB 0x14 3 (encLit k) (encX a) 0 0 [Lit.long k, a.long])
  | .ifence => some (rawN 0x14 4)
  | .eret => some (rawN 0x18 0)
  | .tlbinv a b => some (rawU 0x18 1 (encX a) (encX b))
  | .msave a b => some (rawU 0x18 2 (encX a) (encSC b))
  | .mrest a b => some (rawU 0x18 3 (encX a) (encSC b))
  | .htset a b => some (rawB 0x18 4 (encX a) (encSC b) 0 0 [a.long])
  | .ld d a o size sx => some (rawB 0x20 0 (encD d) (encD a) (encO o) (encSizeSx size sx) [o.long])
  | .st a o b size => some (rawB 0x20 1 (encD a) (encO o) (encX b) (modByte size.toNat) [o.long, b.long])
  | .ldv d a o n => some (rawB 0x21 0 (encV d) (encD a) (encO o) (modByte n.val) [o.long])
  | .stv a o v n => some (rawB 0x21 1 (encD a) (encO o) (encV v) (modByte n.val) [o.long])
  | .ldbit d a m => some (rawB 0x22 0 (encD d) (encX a) 0 (encMB m) [a.long])
  | .stbit a b m => some (rawB 0x22 1 (encX a) (encX b) 0 (encMB m) [a.long, b.long])
  | .bset n a => some (rawB 0x22 2 (encX a) 0 0 (modByte n.val) [a.long])
  | .ldf d a o m => some (rawB 0x23 0 (encV d) (encD a) (encO o) (encMC m) [o.long])
  | .stf a o v m => some (rawB 0x23 1 (encD a) (encO o) (encV v) (encMC m) [o.long])
  | .pf a o => some (rawB 0x24 0 (encD a) (encO o) 0 0 [o.long])
  | .tagset a o b => some (rawB 0x25 0 (encD a) (encO o) (encX b) 0 [o.long, b.long])
  | .fence k s => some (rawU 0x30 0 0 (modByte (k.toNat + 16 * s.toNat)))
  | .ldacq d a o m => some (rawB 0x30 1 (encD d) (encD a) (encO o) (encMO m) [o.long])
  | .strel a o b m => some (rawB 0x30 2 (encD a) (encO o) (encX b) (encMO m) [o.long, b.long])
  | .amoAdd d a o b m => some (rawAmo 0 d a o b m) | .amoAnd d a o b m => some (rawAmo 1 d a o b m)
  | .amoOr d a o b m => some (rawAmo 2 d a o b m) | .amoXor d a o b m => some (rawAmo 3 d a o b m)
  | .amoMin d a o b m => some (rawAmo 4 d a o b m) | .amoMax d a o b m => some (rawAmo 5 d a o b m)
  | .amoMinn d a o b m => some (rawAmo 6 d a o b m) | .amoMaxn d a o b m => some (rawAmo 7 d a o b m)
  | .amoSwap d a o b m => some (rawAmo 8 d a o b m)
  | .cas d a o b c m => some (rawW 0x32 0 (encD d) (encD a) (encO o) (encMO m) (encX b) (encX c) 0 0)
  | .ldfe d a o => some (rawB 0x33 0 (encD d) (encD a) (encO o) 0 [o.long])
  | .ldfeE d a o => some (rawB 0x33 1 (encD d) (encD a) (encO o) 0 [o.long])
  | .stfe a o b => some (rawB 0x33 2 (encD a) (encO o) (encX b) 0 [o.long, b.long])
  | .stfeW a o b => some (rawB 0x33 3 (encD a) (encO o) (encX b) 0 [o.long, b.long])
  | .feSet a o => some (rawB 0x33 4 (encD a) (encO o) 0 0 [o.long])
  | .feClr a o => some (rawB 0x33 5 (encD a) (encO o) 0 0 [o.long])
  | .feTst pd a o => some (rawB 0x33 6 (encD a) (encO o) 0 (modByte pd.val) [o.long])
  | .send a b c => some (rawB 0x38 0 (encSC a) (encX b) (encV c) 0 [b.long])
  | .inb d q => some (rawB 0x38 1 (encV d) (encLit q) 0 0 [Lit.long q])
  | .sendl d a b c e f => some (rawW 0x38 2 (encD d) (encX a) (encX b) 0 (encX c) (encX e) (encX f) 0)
  | .get a b c d e => some (rawW 0x39 0 (encX a) (encX b) (encX c) 0 (encX d) (encX e) 0 0)
  | .put a b c d e => some (rawW 0x39 1 (encX a) (encX b) (encX c) 0 (encX d) (encX e) 0 0)
  | .getx a b c d e f z => some (rawW 0x39 2 (encX a) (encX b) (encX c) (modByte z.toNat) (encX d) (encX e) (encX f) 0)
  | .putx a b c d e f z => some (rawW 0x39 3 (encX a) (encX b) (encX c) (modByte z.toNat) (encX d) (encX e) (encX f) 0)
  | .ccSet a b s => some (rawB 0x3A 0 (encX a) (encX b) 0 (modByte (16 * s.toNat)) [a.long, b.long])
  | .ccRd d a w => some (rawB 0x3A 1 (encD d) (encX a) (encLit w) 0 [a.long, Lit.long w])
  | .ccWait d a b nt => some (rawDXX 0x3A 2 d a b (modByte nt.toNat))
  | .cbCfg a b c d eng => some (rawW 0x3B 0 (encX a) (encX b) (encX c) (modByte eng.toNat) (encX d) 0 0 0)
  | .cbAcq d a t => some (rawB 0x3B 1 (encD d) (encX a) 0 (modByte t.toNat) [a.long])
  | .cbPub a => some (rawB 0x3B 2 (encX a) 0 0 0 [a.long])
  | .cbTake d a t => some (rawB 0x3B 3 (encD d) (encX a) 0 (modByte t.toNat) [a.long])
  | .cbRel a => some (rawB 0x3B 4 (encX a) 0 0 0 [a.long])
  | .cpy a b c d cb => some (rawW 0x3C 0 (encX a) (encX b) (encX c) (modByte cb.toNat) (encX d) 0 0 0)
  | .cpyz a b c d e dir =>
    some (rawW 0x3C 1 (encX a) (encX b) (encX c) (modByte dir.toNat) (encX d) (if dir then encX e else 0) 0 0)
  | .vaddInt d a b m => some (rawVVV 0x40 0 d a b (encMI m)) | .vsubInt d a b m => some (rawVVV 0x40 1 d a b (encMI m))
  | .vmulInt d a b m => some (rawVVV 0x40 2 d a b (encMI m)) | .vmulh d a b m => some (rawVVV 0x40 3 d a b (encMI m))
  | .vminInt d a b m => some (rawVVV 0x40 4 d a b (encMI m)) | .vmaxInt d a b m => some (rawVVV 0x40 5 d a b (encMI m))
  | .vabsInt d a m => some (rawVV 0x40 6 d a (encMI m)) | .vnegInt d a m => some (rawVV 0x40 7 d a (encMI m))
  | .vaddFloat d a b m => some (rawVVV 0x41 0 d a b (encMF m)) | .vsubFloat d a b m => some (rawVVV 0x41 1 d a b (encMF m))
  | .vmulFloat d a b m => some (rawVVV 0x41 2 d a b (encMF m)) | .vfma d a b m => some (rawVVV 0x41 3 d a b (encMF m))
  | .vfms d a b m => some (rawVVV 0x41 4 d a b (encMF m)) | .vminFloat d a b m => some (rawVVV 0x41 5 d a b (encMF m))
  | .vmaxFloat d a b m => some (rawVVV 0x41 6 d a b (encMF m)) | .vabsFloat d a m => some (rawVV 0x41 7 d a (encMF m))
  | .vnegFloat d a m => some (rawVV 0x41 8 d a (encMF m))
  | .vdiv d a b m => some (rawVVV 0x42 0 d a b (encMI m)) | .vrem d a b m => some (rawVVV 0x42 1 d a b (encMI m))
  | .vand d a b n => some (rawVVV 0x43 0 d a b (modByte n.val)) | .vor d a b n => some (rawVVV 0x43 1 d a b (modByte n.val))
  | .vxor d a b n => some (rawVVV 0x43 2 d a b (modByte n.val)) | .vandn d a b n => some (rawVVV 0x43 3 d a b (modByte n.val))
  | .vnot d a n => some (rawVV 0x43 4 d a (modByte n.val))
  | .vshl d a b m => some (rawVVV 0x43 5 d a b (encMI m)) | .vshr d a b m => some (rawVVV 0x43 6 d a b (encMI m))
  | .vsra d a b m => some (rawVVV 0x43 7 d a b (encMI m))
  | .vclz d a m => some (rawVV 0x4B 1 d a (encMI m)) | .vpopc d a m => some (rawVV 0x4B 2 d a (encMI m))
  | .vcmpInt a b c m => some (rawB 0x44 0 (encV a) (encV b) (encLit c) (encMI m) [Lit.long c])
  | .vcmpFloat a b c m => some (rawB 0x44 1 (encV a) (encV b) (encLit c) (encMF m) [Lit.long c])
  | .vsel d a b n => some (rawVVV 0x44 2 d a b (modByte n.val)) | .vperm d a b n => some (rawVVV 0x46 0 d a b (modByte n.val))
  | .vext d a b k => some (rawVVV 0x46 2 d a b (modByte k.val)) | .vmov d a n => some (rawVV 0x46 4 d a (modByte n.val))
  | .vbcast d a z => some (rawB 0x46 1 (encV d) (encX a) 0 (modByte z.toNat) [a.long])
  | .vins d a b z => some (rawB 0x46 3 (encV d) (encX a) (encX b) (modByte z.toNat) [a.long, b.long])
  | .vget d a b z sx => some (rawB 0x46 5 (encD d) (encV a) (encX b) (encSizeSx z sx) [b.long])
  | .vrsumInt d a m => some (rawDV 0x47 0 d a (encMI m)) | .vrmaxInt d a m => some (rawDV 0x47 1 d a (encMI m))
  | .vrminInt d a m => some (rawDV 0x47 2 d a (encMI m)) | .vdot4 d a b m => some (rawVVV 0x47 3 d a b (encMI m))
  | .vrsumFloat d a m => some (rawDV 0x48 0 d a (encMF m)) | .vrmaxFloat d a m => some (rawDV 0x48 1 d a (encMF m))
  | .vrminFloat d a m => some (rawDV 0x48 2 d a (encMF m))
  | .vcvt d a s m => some (rawB 0x49 0 (encV d) (encV a) (encLit s) (encMC m) [Lit.long s])
  | .vpack d a k dst sat =>
    some (rawB 0x49 1 (encV d) (encV a) (encLit k) (modByte (dst.toNat + 64 * sat.toNat)) [Lit.long k])
  | .vunpk d a k src tgt =>
    some (rawB 0x49 2 (encV d) (encV a) (encLit k) (modByte (src.toNat + 8 * tgt.toNat)) [Lit.long k])
  | .vo4p d a b rnd => some (rawVVV 0x49 3 d a b (modByte (32 * rnd.toNat)))
  | .vthr d a b m => some (rawB 0x4B 0 (encV d) (encV a) (encX b) (encMF m) [b.long])
  | .vexp2 d a m => some (rawVV 0x4A 0 d a (encMF m)) | .vlog2 d a m => some (rawVV 0x4A 1 d a (encMF m))
  | .vrcp d a m => some (rawVV 0x4A 2 d a (encMF m)) | .vrsqrt d a m => some (rawVV 0x4A 3 d a (encMF m))
  | .vsqrt d a m => some (rawVV 0x4A 4 d a (encMF m)) | .vtanh d a m => some (rawVV 0x4A 5 d a (encMF m))
  | .mcfg a => some (rawU 0x60 0 (encSC a) 0)
  | .mlds a b c d z =>
    some (rawW 0x60 1 (encX a) (encX b) (encX c) (modByte z.toNat) (if z then encX d else 0) 0 0 0)
  | .mswap => some (rawN 0x60 2)
  | .mstrm a b c d e => some (rawW 0x60 3 (encX a) (encX b) (encX c) 0 (encX d) (encX e) 0 0)
  | .mdrain a b c d e f => some (rawW 0x60 4 (encX a) (encX b) (encX c) 0 (encX d) (encX e) (encX f) 0)
  | .mzero => some (rawN 0x60 5) | .mwait => some (rawN 0x60 6)
  | .mstat d a => some (rawU 0x60 7 (encD d) (encX a))
  | .mmask a b c => some (rawB 0x60 8 (encSC a) (encX b) (encX c) 0 [b.long, c.long])
  | .dload a b c => some (rawW 0x70 0 (encX a) (encSC b) (encX c) 0 0 0 0 0)
  | .dsel k => some (rawU 0x70 1 (encLit k) 0)
  | .pcfg a b c => some (rawB 0x70 2 (encX a) (encX b) (encX c) 0 [a.long, b.long, c.long])
  | .penc a b s =>
    some (rawB 0x70 3 (encSC a) (encSC b) (encSel s) 0 [match s with | .none => none | .lit k => Lit.long k])
  | .pdec a b => some (rawB 0x70 4 (encSC a) (encSC b) 0 0 [])
  | .aimg d v a b => some (rawW 0x70 5 (encD d) (encV v) (encSC a) 0 (encX b) 0 0 0)
  | .kvcommit a b c d e => some (rawW 0x71 0 (encSC a) (encSC b) (encX c) 0 (encX d) (encX e) 0 0)
  | .wdenter d a b w => some (rawW 0x72 0 (encD d) (encX a) (encSC b) 0 (encLit w) 0 0 0)
  | .wdstat d => some (rawU 0x72 1 (encD d) 0)
  | .waitSatisfied .. | .sfuService .. | .sfuResult .. | .dividerService .. | .dividerResult ..
  | .arrayArbitration .. | .mldsService .. | .mswapService .. | .mstrmService .. | .mdrainService ..
  | .mzeroService .. | .mmaskService .. | .auRestore .. | .dloadService .. | .pencService .. | .pdecService ..
  | .aimgService .. | .kvcommitService .. | .wdeBlockFetch .. | .wdeNoOp .. | .loadStationary .. | .wdeSwap ..
  | .wdeStream .. | .wdeDrain .. | .accumulateAtoms .. | .branchOnFlag .. | .callTensor .. | .wdeReturn .. | .tail ..
  | .exit .. | .lineFetch .. | .gangForward .. | .takeTrap .. | .watchdog .. | .gjtoExpiry .. | .messageDelivery ..
  | .handlerStart .. | .lockedEntryTimeout .. | .releasedOpEnqueue .. | .engineCommandStart .. | .engineDataPiece ..
  | .engineElementWrite .. | .sendlEntry .. | .cpyCbSlotTake .. | .cpyzBlock .. | .counterIncrement ..
  | .counterError .. | .launchEnqueue .. | .dispatch .. | .checkedRunCompare .. | .killctx .. | .killgrp ..
  | .drainq .. | .reside .. | .release .. | .inboxRepresent .. | .inboxDiscard .. | .decodeTableLoad ..
  | .delayTableClear .. | .unfence .. | .reset .. | .uncorrectableConsumption .. | .bankDrop .. | .tugUnitMove ..
  | .tableWalk .. | .correctedErrorWindow .. | .traceSample .. | .dumpWrite .. | .hostDoorbell ..
  | .hostMemoryAccess .. | .functionLevelReset .. | .powerOn .. | .powerLoss .. | .linkPortDown ..
  | .fabricDelivery .. | .functionEnable .. | .voltageControllerRequest .. | .clusterUnfreeze .. | .clockSlowing ..
  | .flitRetransmission .. | .portDegraded .. => none

/-- The head halfword and the tail halfwords of a raw head with stall count `sc` (R160, R161). -/
def Raw.words (r : Raw) (sc : Nat) : Half × List Half :=
  (BitVec.ofNat 16 (r.maj * 512 + r.tl * 128 + sc % 8 * 16 + r.f),
    ([r.s1 ++ r.s0, r.md ++ r.s2, r.s5 ++ r.s4, r.s7 ++ r.s6] : List Half).take (tailLength r.tl))

/-- The words of a well-formed instruction: its head with stall count `sc`, and its tail. -/
def encode (i : Instr) (sc : Nat) : Option (Half × List Half) := i.toRaw.map fun r => r.words sc

/-- A line that holds the given heads with their tails and nothing else, its header and signature byte computed. -/
def lineOf (heads : List (Half × List Half)) : Line :=
  let tails := (heads.flatMap Prod.snd)
  let gap := List.replicate (31 - heads.length - tails.length) (0#16)
  let body := heads.map Prod.fst ++ gap ++ tails.reverse
  let h0 : Half := BitVec.ofNat 16 heads.length
  let sig := lineSig (h0 :: body)
  (sig ++ BitVec.ofNat 8 heads.length) :: body

/-! ## Words numbered as the opcode table numbers them -/

/-- Halfword i of a word whose bit 0 is the least significant bit of the first. -/
def halfOf (w i : Nat) : Half := BitVec.ofNat 16 (w / 2 ^ (16 * i))

/-- A head halfword and its tail halfwords from the table's bits: halfwords above nbits are zero. -/
def tableWords (nbits w : Nat) : Half × List Half :=
  let w := w % 2 ^ nbits
  let h := halfOf w 0
  (h, (List.range (tailLength (headTl h))).map fun i => halfOf w (i + 1))

/-- The line that holds one head of the table's bits. -/
def tableLine (nbits w : Nat) : Line := lineOf [tableWords nbits w]

/-- The instruction that the decoder reads from the table's bits, laid out in a line of its own. -/
def decodeTableWord (nbits w : Nat) : Option Instr :=
  let l := tableLine nbits w
  if lineFormed l then
    match decodeHead (l.getD 1 0) (headTail l 1) with
    | .ok i => some i
    | _ => none
  else none

end Sys2Proof
end

