-- ==== Sys2Proof/Machine/State.lean ====
section
/-! DEFINITION. The state of a fabric of packages as plain data, the reasons a step can stop, and the state after reset.
Every absent key of a map stands for the unit's reset value. INVENTORY.md names the rule of each field. -/

namespace Sys2Proof.Machine

/-- Why a step stops without a trap. -/
inductive Fault where
  /-- Raised by `step` when the turn to run is of a context or array of a package that has lost its power (R366): the part is
  off, nothing runs until POWER_ON. Safe: no state of a package without power is claimed. -/
  | unpowered
  deriving DecidableEq, Repr

/-- Why an instruction has no meaning. -/
inductive Refusal where
  /-- Raised by `exec` for an instruction that has no meaning yet. Safe: no claim about it can be proved. -/
  | notModelled (mnemonic : String)
  deriving DecidableEq, Repr

/-- The trap causes of R332. -/
inductive Cause where
  | illegalLine | illegalOp | illegalOperand | stallShort | delaySlot | priv | align | xlateMiss | xlatePerm | tagMismatch
  | ptrOvf | arith | bwFull | mcfgState | wdeBlock | wdePerm | watchdog | sigMismatch | engineError | gang | saveFault
  | brk | step | trap | uncorrectable
  deriving DecidableEq, Repr

/-- A trap on its way: its cause with the words of R327 and R328 that the cause gives, ORIGIN and CMDPOS. `next` marks a
cause whose EPC names the head after the raising one (R332). -/
structure Trap where
  cause : Cause
  fva : Word := 0
  detail : Word := 0
  origin : Nat := 0
  cmdpos : Nat := 0
  next : Bool := false
  deriving DecidableEq, Repr

/-- Privilege levels (R306). -/
inductive Level where
  | task | sup | hyp
  deriving DecidableEq, Repr

/-- A register of a context (R22). -/
inductive RegName where
  | s (r : SReg) | v (r : VReg) | p (r : PReg) | b (r : BReg)
  deriving DecidableEq, Repr

/-- A fixed-latency result on its way (R166): written once the cycle reaches `due`, its flags ORed into SW with it. A result
that a later head's write discards keeps its flags (`reg` none). -/
structure Pending where
  due : Nat
  reg : Option RegName
  val : Vec
  flags : BitVec 7
  deriving DecidableEq, Repr

/-- The head under issue: its context, pointer, the head count of its line, its first words and where it came from. -/
structure Issue where
  ctx : CtxId := 0
  ptr : Word := 0
  hc : Nat := 1
  h : Half := 0
  t : Half := 0
  sc : Nat := 0
  forwarded : Bool := false
  /-- the machine's sequence number when the head came to issue: its own operations have it or a later one (R359) -/
  seq : Nat := 0
  deriving DecidableEq, Repr

/-- A stepped head whose operations drain (R359): the lowest sequence number of its own, and whether it is an array command, a
Pilot request or a launch. -/
structure Stepped where
  seq : Nat
  array : Bool := false
  pilot : Bool := false
  launch : Bool := false
  deriving DecidableEq, Repr

/-- A waiting head (R220), with its number in the order of arrival. -/
structure Waiting where
  instr : Instr
  issue : Issue
  seq : Nat
  deriving DecidableEq, Repr

/-- A head forwarded to a gang follower (R42), with the earliest issue cycle its skew gives and what its transfer came to. -/
structure Forwarded where
  instr : Instr
  issue : Issue
  due : Nat
  /-- the leader's transfer outcome: the target if it transferred (R44) -/
  out : Option Word
  deriving DecidableEq, Repr

/-- A request to the divider or the special-function unit (R264): the head, its words, and the operands it captured. -/
structure UnitReq where
  ctx : CtxId
  instr : Instr
  h : Half
  t : Half
  a : Vec
  b : Vec
  pred : Half
  old : Vec
  seq : Nat
  /-- the cycle in which it entered the queue -/
  since : Nat := 0
  deriving DecidableEq, Repr

/-- One of a core's two shared units (R264): its queue, the request in service, the cycle from which the unit is free, and
results whose service has ended; each with the cycle from which its result is read. -/
structure SharedUnit where
  queue : List UnitReq := []
  service : Option (UnitReq × Nat) := none
  freeAt : Nat := 0
  results : List (UnitReq × Nat) := []
  deriving DecidableEq, Repr

/-- The control registers of a context (R23-R25, R73, R83, R122, R198, R238, R240). -/
structure CtxCsr where
  sw : BitVec 7 := 0
  ten : BitVec 7 := 0
  cbase : Word := 0
  hkey : BitVec 16 := 0
  chk : Bool := false
  sig : Bool := false
  stp : Bool := false
  wde : Bool := false
  gang : BitVec 2 := 0
  hnd : Bool := false
  budget : Word := 0
  /-- the cycle at which `budget` was set: it counts down from there (R40) -/
  budgetAt : Nat := 0
  budgetOn : Bool := false
  budgetSpent : Bool := false
  taskid : BitVec 32 := 0
  lbanks : BitVec 12 := 0
  gjto : BitVec 32 := 65536
  tau : BitVec 16 := 0
  eps : BitVec 16 := 0x3C00
  smax : BitVec 4 := 8
  dslot : BitVec 2 := 0
  dropmag : Word := 0
  wds : Word := 0
  lpcnt : Word := 0
  lpbeg : Word := 0
  lpend : Word := 0
  dsig : BitVec 16 := 0
  ccown : Word := 0
  cbown : BitVec 16 := 0
  deriving DecidableEq, Repr

/-- What a context is doing. -/
inductive Run where
  /-- on the free list (R35) -/
  | free
  /-- running a task, or supervisor or hypervisor code -/
  | running
  /-- held after msgdone until its released operations have entered their queues (R38) -/
  | releasing
  /-- stopped by a trap at supervisor level (R334) -/
  | stopped
  /-- ended, and kept from new work until its dump is written (R363) -/
  | dumping
  deriving DecidableEq, Repr

/-- The part of a checked launch that a task plays (R349-R351). -/
inductive Role where
  | plain | primary | shadow | referee | rerun
  deriving DecidableEq, Repr

/-- A task's class and what the dispatcher gave it (R32-R37). -/
inductive TaskKind where
  | none
  /-- a launched task: its group's number in the partition part -/
  | launched (group : Nat)
  /-- a handler task: the number of its message's inbox entry -/
  | handler (entry : Nat)
  deriving DecidableEq, Repr

/-- The weight-driven execution of a context (R121-R124). -/
structure Wde where
  block : Word := 0
  beat : Nat := 0
  unit : Nat := 0
  slots : Word := 0
  sd : SReg := 0
  stack : List Word := []
  flags : BitVec 4 := 0
  esc : Nat := 0
  nblk : Nat := 0
  /-- OPC of the block in progress, 0 until its header has been read -/
  opc : Nat := 0
  /-- the block as fetched and checked; none before its fetch -/
  fetched : Option (List Byte) := none
  /-- a trap stopped it, and supervisor level runs on the context (R125, R326) -/
  held : Bool := false
  deriving DecidableEq, Repr

/-- A message: its header (R231) and payload. -/
structure Msg where
  hdr : Vec
  p1 : Vec
  p2 : Vec
  p3 : Vec
  deriving DecidableEq, Repr

/-- A message on its way through the fabric (R36, R138). -/
structure Flying where
  src : Place
  dst : Place
  msg : Msg
  /-- the part of the sender, whose partition must hold the destination -/
  bank : Nat
  seq : Nat
  /-- the ports it took when it was sent, package by package (R373); none where no port led to its destination -/
  path : Option (List (PkgId × Nat)) := some []
  deriving DecidableEq, Repr

/-- The commands of a copy engine (R243). -/
inductive EngKind where
  | get | put | getx | putx | sendl | cpyTo | cpyFrom | cpyCb | cpyzC | cpyzE | kvcommit
  deriving DecidableEq, Repr

/-- One element on its way (R129, R243): its command, its number, the address it goes to, its bytes, and the order in which the
port issued it. -/
structure Piece where
  cmd : Nat
  elem : Nat
  dest : Nat
  bytes : List Byte
  seq : Nat := 0
  /-- its destination and lane where it leaves the core (R138) -/
  route : Option (Nat × Nat) := none
  /-- the ports it took (R373) -/
  path : List (PkgId × Nat) := []
  /-- where a word of a send list's entry stands in the sender's local memory, and how many of its bytes (R303) -/
  src : Option (Nat × Nat) := none
  deriving DecidableEq, Repr

/-- A copy-engine command in flight (R243): whose it is, then its operands, then how far it has come. -/
structure EngCmd where
  seq : Nat
  kind : EngKind
  ctx : CtxId
  hkey : BitVec 16
  lbanks : BitVec 12
  level : Level
  role : Role
  /-- the group whose banks are its own, for a checked run (R349) -/
  group : Option Nat
  /-- the remote place -/
  place : Nat := 0
  /-- pointers: the remote, far or image side; the local side; the list or path -/
  remote : Word := 0
  loc : Word := 0
  list : Word := 0
  /-- bytes, or entries of a list -/
  count : Nat := 0
  elem : Nat := 8
  ctr : Nat := 0
  /-- buffer or decode table -/
  tab : Nat := 0
  /-- base position of a kvcommit -/
  pos : Nat := 0
  sd : Option SReg := none
  started : Bool := false
  /-- next element to read, and elements delivered -/
  next : Nat := 0
  done : Nat := 0
  /-- next byte of a compressed image -/
  imgOff : Nat := 0
  /-- slots taken by a sendl -/
  taken : Nat := 0
  /-- address of the slot that a cpy.cb took -/
  slot : Option Nat := none
  /-- lowest failed element, its reason, and the WHERE of its record -/
  err : Option (Nat × Nat × Nat) := none
  /-- elements that a putx has written, by their address, with what each holds (R236) -/
  written : SMap (List Byte) := []
  deriving DecidableEq, Repr

/-- An operation held in a handler's send buffer (R235), or released by `msgdone` and not yet in its queue (R38). -/
inductive SendOp where
  | send (dst : Place) (hidx : Nat) (p1 p2 p3 : Vec)
  | engine (cmd : EngCmd)
  | committed (m : Flying)
  deriving DecidableEq, Repr

/-- A Pilot request (R84) with what it captured at issue, and the level at which it was issued. -/
inductive PilotReq where
  | dload (ctx : CtxId) (slot : Nat) (ptr : Word) (ctr : Nat) (level : Level)
  | penc (ctx : CtxId) (dst src : Word) (slot : Nat) (tau eps : BitVec 16) (smax : Nat) (level : Level)
  | pdec (ctx : CtxId) (dst src : Word) (level : Level)
  deriving DecidableEq, Repr

/-- What the trap of a context recorded, as `eret` needs it beside the save area in memory. -/
structure TrapRec where
  save : Nat
  cause : Cause
  /-- unit requests with what the save area does not hold of them (R266) -/
  reqs : List UnitReq := []
  /-- the first head of a task whose constant-bank image could not be copied (R381) -/
  imageFault : Bool := false
  /-- the word that the trap wrote at 0x780 of the save area (R329) -/
  frame : Word := 0
  deriving DecidableEq, Repr

structure Context where
  s : Vector Word 32 := Vector.replicate 32 0
  v : Vector Vec 32 := Vector.replicate 32 0
  p : Vector Half 8 := Vector.replicate 8 0
  b : Vector Word 4 := Vector.replicate 4 0
  pc : Word := 0
  /-- 0, or the delay slot that the next head stands in (R170) -/
  dsn : Nat := 0
  /-- the target of the taken transfer whose slots are issuing; none: the head after the second slot -/
  npc : Option Word := none
  csr : CtxCsr := {}
  level : Level := .task
  run : Run := .free
  kind : TaskKind := .none
  role : Role := .plain
  digest : Word := 0
  /-- earliest issue cycle (R166); it outlasts the task -/
  readyAt : Nat := 0
  /-- the cycle in which the context was last found unable to issue -/
  heldAt : Option Nat := none
  pend : List Pending := []
  busy : List RegName := []
  lines : List (Nat × Line) := []
  wait : Option Waiting := none
  sendBuf : List SendOp := []
  fwd : List Forwarded := []
  /-- the stream ends: once `fwd` is empty the follower fetches for itself, from the pointer given or its own (R44) -/
  gangEnd : Option (Option Word) := none
  /-- forwarded delay-slot heads that a detached follower still takes (R44) -/
  gangSlots : Nat := 0
  /-- the pointer of a leader's barrier head that its followers have and that it has not left (R42, R207) -/
  sent : Option Word := none
  tcsb : Option (BitVec 256) := none
  /-- flags and counts of the open AU (R93) -/
  mstat : Word := 0
  /-- those of the last AU drained, which `mstat` returns while none is open -/
  drained : Word := 0
  auOpen : Bool := false
  /-- die-store offset of the frame that holds the AU, or of the image marked by mrest -/
  auFrame : Option Nat := none
  auMarked : Bool := false
  /-- the AU, frozen in the array or not yet begun, waits there for eret: its save found no frame, or a fault stopped it -/
  auHeld : Bool := false
  aimgDst : List (SReg × VReg) := []
  /-- Pilot requests that failed at service, to be entered again by eret (R269) -/
  pilotBack : List PilotReq := []
  /-- commands of the array queue not yet completed -/
  arrayCmds : Nat := 0
  wde : Wde := {}
  /-- a trap to be taken at the next head (R100, R269) -/
  due : Option Trap := none
  trapRec : Option TrapRec := none
  /-- the first head that eret issues is never matched (R358) -/
  bpPass : Bool := false
  /-- a stepped head has issued and its operations are draining (R359) -/
  stepDue : Option Stepped := none
  /-- a trap that the constant-bank copy left for the entry head (R381) -/
  imageFault : Option Trap := none
  startCycle : Nat := 0
  startGtc : Nat := 0
  deriving DecidableEq, Repr

/-- One slot of an inbox (R36): the message, its arrival stamp, its TASKID once it has started, and the context it runs on. -/
structure InSlot where
  num : Nat
  msg : Msg
  arrival : Nat
  taskid : Option (BitVec 32) := none
  runs : Option CtxId := none
  /-- the cycle from which it has stood at the inbox head, waiting to start (R233) -/
  headAt : Option Nat := none
  deriving DecidableEq, Repr

/-- A completion counter (R238). -/
structure Counter where
  value : BitVec 32 := 0
  err : Bool := false
  scope : BitVec 3 := 5
  deliv : Nat := 0
  record : Word := 0
  deriving DecidableEq, Repr

/-- A circular buffer (R240). The indices count on; slots and the status take them modulo COUNT (log 15). -/
structure Buffer where
  cfg : Bool := false
  eng : Bool := false
  base : Word := 0
  slot : Nat := 0
  count : Nat := 0
  free : Nat := 0
  filled : Nat := 0
  aidx : Nat := 0
  pidx : Nat := 0
  tidx : Nat := 0
  ridx : Nat := 0
  deriving DecidableEq, Repr

/-- An access of a core to die store or global memory that has left for the fabric and is not yet performed (R138). -/
structure FabReq where
  seq : Nat
  ctx : CtxId
  /-- the head, which says what the access does with its bytes -/
  instr : Instr
  /-- its pointer, with the effective address -/
  ptr : Word
  /-- the bytes it takes part in: index in the access and place in memory -/
  bytes : List (Nat × Nat)
  /-- what a store writes to them, in the same order -/
  data : List Byte := []
  /-- operands of an atomic operation; in `a`, how many bits of its last byte a row of stf writes (0: all); the bit address and the
  width of a bit-granular access -/
  a : Word := 0
  b : Word := 0
  /-- the register that a load or atomic writes -/
  dst : Option RegName := none
  acq : Bool := false
  sync : Bool := false
  /-- an outside effect of a shadow or referee run (R349) -/
  silent : Bool := false
  /-- the number of the head's first event, for a load of several (R129), and the bytes that its other events have brought -/
  head : Nat := 0
  got : List (Nat × Byte) := []
  deriving DecidableEq, Repr

/-- An array command as it stands in a queue (R380). -/
structure ACmd where
  ctx : CtxId
  img : BitVec 256
  deriving DecidableEq, Repr

/-- Who holds a bank of local memory (R27, R35, R314). -/
inductive Bank where
  | off
  | group (g : Nat)
  | handler
  | retained (slot : Nat) (key : BitVec 16)
  /-- a successor's banks, held until it is placed (R200) -/
  | pending (g : Nat)
  deriving DecidableEq, Repr

/-- A cached translation (R322): the page, its size as a power of two, the physical page and the leaf. -/
structure TlbEntry where
  part : PartId
  va : Nat
  lg : Nat
  leaf : Word
  deriving DecidableEq, Repr

/-- One entry of a core's delay table (R357, R362). -/
structure Delay where
  valid : Bool := false
  place : Nat := 0
  count : Nat := 0
  transit : Nat := 0
  wait : Nat := 0
  run : Nat := 0
  deriving DecidableEq, Repr

structure Core where
  inbox : List InSlot := []
  inboxNum : Nat := 0
  inboxHeld : Bool := false
  handlerStartAt : Option Nat := none
  msgid : BitVec 16 := 0
  outq : List Flying := []
  counters : SMap Counter := []
  buffers : SMap Buffer := []
  port : List EngCmd := []
  transit : List Piece := []
  fabric : List FabReq := []
  sfu : SharedUnit := {}
  div : SharedUnit := {}
  arrayQ : List ACmd := []
  pilotQ : List PilotReq := []
  banks : Vector Bank 12 := Vector.replicate 12 .off
  /-- the context that issued last (R48); counting starts at context 0 -/
  lastIssued : Nat := 3
  /-- the cycle of its own clock in which it issued last (R48, R374) -/
  issuedAt : Option Nat := none
  hbanks : BitVec 12 := 0
  hcbase : Word := 0
  hccown : Word := 0
  hcbown : BitVec 16 := 0
  hhkey : BitVec 16 := 0
  sabase : Word := 0
  delays : SMap Delay := []
  tlb : List TlbEntry := []
  /-- the GTC of the last sample (R360) -/
  sampledAt : Option Nat := none
  deriving DecidableEq, Repr

/-- A cell of the array (R97, R98): accumulator, special state (0 finite, 1 NaN, 2 +inf, 3 -inf), whether an invalid product came
in, and which infinities did (bit 0 +inf, bit 1 -inf). -/
structure ACell where
  a : BitVec 24 := 0
  sp : BitVec 2 := 0
  nv : Bool := false
  seen : BitVec 2 := 0
  deriving DecidableEq, Repr

/-- A dictionary slot of a Pilot (R72). -/
structure Dict where
  len : Nat := 16
  k : Nat := 1
  atoms : List (BitVec 16) := []
  q : List (BitVec 32) := []
  deriving DecidableEq, Repr

/-- The array of a cluster (R88). -/
structure MArray where
  active : SMap (BitVec 16) := []
  shadow : SMap (BitVec 16) := []
  cells : SMap ACell := []
  mask : SMap Bool := []
  /-- the Breakwater, oldest first: cell and carry count -/
  bw : List (Nat × Int) := []
  spills : Nat := 0
  /-- the context whose AU the array holds -/
  owner : Option CtxId := none
  frozen : Bool := false
  /-- the row at which the next stream resumes (R100) -/
  row : Nat := 0
  deriving DecidableEq, Repr

structure Cluster where
  mqw : BitVec 32 := 0x11111111
  credits : List Nat := [1, 1, 1, 1, 1, 1, 1, 1]
  arrayLast : Nat := 7
  arr : MArray := {}
  pilotLast : Nat := 7
  pilotFreeAt : Nat := 0
  dicts : SMap Dict := []
  afbase : Word := 0
  afcnt : BitVec 4 := 1
  /-- the context whose AU each frame holds, and the order of the marks for restore (R330) -/
  frames : SMap CtxId := []
  marks : List CtxId := []
  /-- images that mrest marked: context and byte offset of the image (R214) -/
  images : List (CtxId × Nat) := []
  tlb : List TlbEntry := []
  susp : BitVec 8 := 0
  fenced : Bool := false
  resetDone : Bool := true
  /-- an uncorrectable error consumed in this cycle: the lowest consuming place, and what was consumed (R342, R344) -/
  consumed : Option (Nat × Nat) := none
  passes : Nat := 0
  frozenSupply : Bool := false
  supply : Nat := 450
  /-- cycles withheld by clock slowing (R374) -/
  lost : Nat := 0
  deriving DecidableEq, Repr

/-- A dump asked for and not yet written (R363). -/
structure Dump where
  ctx : CtxId
  cause : Nat
  taskid : BitVec 32
  saved : Bool
  save : Nat
  frame : Option Nat
  lbanks : BitVec 12
  /-- the bytes of the array frame and of the banks when the dump was asked for: the end of the task may clear them -/
  kept : List Host.Cell := []
  extra : Option Nat := none
  deriving DecidableEq, Repr

structure Die where
  trb : Word := 0
  trpHead : Nat := 0
  trpOvr : Nat := 0
  trpTail : Nat := 0
  elogHead : Nat := 0
  elogOvr : Nat := 0
  elogTail : Nat := 0
  dumpb : Word := 0
  dumpp : Word := 0
  dumpFull : Bool := false
  dumpLost : Nat := 0
  dumps : List Dump := []
  quar : Word := 0
  hmapk : Word := 0
  deriving DecidableEq, Repr

/-- A launch descriptor taken apart (R309). -/
structure Desc where
  entry : Word := 0
  arg : Word := 0
  cimg : Word := 0
  clen : Nat := 0
  cores : Nat := 1
  cpc : Nat := 1
  width : Nat := 1
  height : Nat := 1
  sp : Bool := false
  banks : Nat := 1
  ccn : Nat := 0
  count : Nat := 1
  cbn : Nat := 0
  chk : Bool := false
  sig : Bool := false
  chkd : Bool := false
  rslot : Nat := 0
  hkey : BitVec 16 := 0
  ten : BitVec 7 := 0
  done : Nat := 0xFF
  pin : Nat := 0
  pinned : Bool := false
  budget : Word := 0
  dep0 : Nat := 0xFF
  thr0 : Nat := 0
  dep1 : Nat := 0xFF
  thr1 : Nat := 0
  rkey : BitVec 16 := 0
  cdst : Nat := 0
  deal : Nat := 0
  deriving DecidableEq, Repr

/-- A wave in a launch queue (R311, R312), or a successor (R200). -/
structure Wave where
  num : Nat
  queue : Nat
  desc : Desc
  /-- groups (or spans) placed -/
  placed : Nat := 0
  /-- the cluster that last received one, and the rest of the turn (R313) -/
  lastAt : Option ClusterId := none
  turn : List ClusterId := []
  /-- a successor: the address of its descriptor, the group whose banks it takes, and the context that ended last -/
  succ : Option (Word × Nat × CtxId) := none
  /-- the cycle of its enqueue, and the context whose `launch` it is; none for a host's (R208, R312) -/
  since : Nat := 0
  launcher : Option CtxId := none
  deriving DecidableEq, Repr

/-- What a group holds on one core (R313). -/
structure Hold where
  core : Place
  lbanks : BitVec 12
  ccown : Word
  cbown : BitVec 16
  deriving DecidableEq, Repr

/-- A placed group (R32, R313) with what its ended members did (R200, R314). -/
structure Group where
  num : Nat
  wave : Nat
  index : Nat
  desc : Desc
  cluster : ClusterId
  holds : List Hold
  members : List CtxId
  ended : List CtxId := []
  /-- members that ended by halt.r, with the address named -/
  succs : List (CtxId × Word) := []
  killed : List CtxId := []
  digests : List (Nat × Word) := []
  span : Option Nat := none
  spanIdx : Nat := 0
  role : Role := .plain
  /-- a member trapped or was killed: the run gives no digest (R351) -/
  noDigest : Bool := false
  deriving DecidableEq, Repr

/-- A group (or span) of a checked launch (R349-R351): the primary's TASKIDs and first core, the clusters of each run, the
digest of each run once it has one, and the held qdone operations of the primary and of the re-run. -/
structure Checked where
  wave : Nat
  index : Nat
  desc : Desc
  ids : List (BitVec 32)
  first : Place
  primary : List ClusterId
  shadow : List ClusterId
  referee : Option (List ClusterId) := none
  rerun : Bool := false
  dP : Option Word := none
  dS : Option Word := none
  dR : Option Word := none
  dN : Option Word := none
  held : List (Nat × Word × Word) := []
  heldN : List (Nat × Word × Word) := []
  deriving DecidableEq, Repr

/-- A decode table of the copy engine (R246). -/
structure ZTable where
  gen : Nat := 0
  codes : List (Nat × Nat) := []
  prev : Option (Nat × List (Nat × Nat)) := none
  /-- commands older than this number may still use the previous table -/
  since : Nat := 0
  deriving DecidableEq, Repr

/-- A launch on its way to the dispatcher (R208). -/
structure Launching where
  ctx : CtxId
  sd : SReg
  queue : Nat
  bytes : List Byte
  deriving DecidableEq, Repr

structure Part where
  pcl0 : Word := 0
  pcl1 : Word := 0
  phbm : BitVec 8 := 0
  pqm : BitVec 16 := 0
  pmr : SMap Word := []
  /-- EN, PINOK, SLOT and PRIO of each queue (R308) -/
  qcfg : SMap (BitVec 8) := []
  waves : List Wave := []
  succs : List Wave := []
  waveNum : Nat := 0
  /-- the wave that the dispatcher has taken and that cannot place its next group yet (R312) -/
  chosen : Option Nat := none
  groups : SMap Group := []
  groupNum : Nat := 0
  checked : List Checked := []
  wc : SMap Word := []
  hmode : BitVec 2 := 0
  hbudget : Word := 0
  handlers : SMap Word := []
  locked : List Nat := []
  darg : Word := 0
  aslot : Nat := 0
  /-- a DCMD in progress: the command, its argument, the cycle of the write, whether the hypervisor wrote it (R314, R334) -/
  dcmd : Option (Nat × Word × Nat × Bool) := none
  launching : List Launching := []
  ptroot : Word := 0
  tvec : Word := 0
  saprot : Word := 0
  crcb : Word := 0
  elogb : Word := 0
  elogm : Word := 0
  basins : SMap (BitVec 16) := []
  bpa : SMap Word := []
  bpc : SMap Word := []
  trctl : Word := 0
  dumpctl : Word := 0
  ztabs : SMap ZTable := []
  czt : Word := 0
  cztFail : Bool := false
  /-- a CZT value whose load is the next step, with the writing context -/
  cztPending : Option (Word × CtxId) := none
  taskid : BitVec 32 := 0
  /-- the wave counter and the threshold of an MSI-X vector (R371) -/
  thresholds : SMap (Nat × Word) := []
  deriving DecidableEq, Repr

/-- A record of the boot journal (R366): STEP, ATT, RES, START, CHECK. -/
structure JRec where
  step : Nat
  att : Nat
  res : Nat
  start : Nat
  check : Nat
  deriving DecidableEq, Repr

/-- A virtual function (R370, R371). -/
structure VirtFn where
  enabled : Bool := false
  slots : SMap Byte := []
  status : SMap (BitVec 32) := []
  /-- slots copied at a doorbell and not yet checked, oldest first -/
  rung : List (Nat × List Byte) := []
  deriving DecidableEq, Repr

/-- A Zavik Link port (R372). -/
structure Port where
  up : Bool := false
  degr : Bool := false
  peerPkg : Nat := 0
  peerPort : Nat := 0
  errcnt : Nat := 0
  deriving DecidableEq, Repr

structure Package where
  powered : Bool := true
  recovery : Bool := false
  pkgid : Option (BitVec 12) := none
  hmapc : SMap Word := []
  hpsel : Nat := 0
  suspth : BitVec 8 := 3
  pfth : BitVec 32 := 0
  hdrop : Word := 0
  tugbnd : Nat := 0
  tugActive : Bool := false
  tugStack : Nat := 0
  dropped : List Nat := []
  ports : SMap Port := []
  zlrta : BitVec 12 := 0
  routes : SMap (BitVec 16) := []
  journal : List JRec := []
  startNum : Nat := 0
  fns : SMap VirtFn := []
  msix : List (Nat × Nat) := []
  /-- contexts stopped at supervisor level: cause and context, as the hypervisor was told (R334) -/
  told : List (Nat × CtxId) := []
  /-- copies A (0) and B (1) of the system firmware in flash (R366) -/
  flash : SMap (List Byte) := []
  /-- the fused minimum SVN of each TYPE (R365) -/
  minSvn : SMap Nat := []
  deriving DecidableEq, Repr

/-- A gang that forms, runs or rejoins (R41-R45): its members in order and, while it gathers, the first arrival. -/
structure Gang where
  num : Nat
  leader : CtxId
  members : List CtxId
  n : Nat
  base : Nat
  formed : Bool := false
  /-- the members as the gang formed, member 0 first: their skews follow these numbers (R42) -/
  order : List CtxId := []
  arrived : List CtxId := []
  since : Option Nat := none
  joinPtr : Option Word := none
  deriving DecidableEq, Repr

/-- Which agent moves next (log 1). -/
inductive Move where
  | issue (c : CtxId)
  | tick
  /-- the next unit of a context in weight-driven execution -/
  | wde (c : CtxId)
  /-- the next command of a cluster's array -/
  | array (k : ClusterId)
  | event (i : Instr)
  deriving DecidableEq, Repr

structure State where
  cycle : Nat := 0
  cur : Issue := {}
  agenda : List Move := []
  focus : Place := 0
  seq : Nat := 0
  fresh : Nat := 0
  ctxs : SMap Context := []
  cores : SMap Core := []
  clusters : SMap Cluster := []
  dies : SMap Die := []
  pkgs : SMap Package := []
  parts : SMap Part := []
  mem : List Host.Cell := []
  /-- the words of local memory and scratchpad that are full (R30) -/
  full : List Nat := []
  /-- TAG in bits [3:0] and HIST in bits [15:4] of the 32-byte granules of HBM (R225) -/
  tags : SMap (BitVec 16) := []
  /-- 8-byte words that hold an uncorrectable error (R342) -/
  poison : List Nat := []
  /-- contexts freed in this cycle (R49) -/
  freed : List CtxId := []
  /-- what the image of an AU does not hold of its special cells, by the image's place: cell, invalid product, infinities seen
  (R106) -/
  imageMarks : SMap (List (Nat × Bool × BitVec 2)) := []
  flying : List Flying := []
  gangs : List Gang := []
  deriving DecidableEq, Repr

/-- The machine right after reset: powered, nothing placed, memory with nothing listed. -/
def State.reset : State :=
  { cycle := 0, cur := {}, agenda := [], focus := 0, seq := 0, fresh := 0, ctxs := [], cores := [], clusters := [], dies := []
    pkgs := [], parts := [], mem := [], full := [], tags := [], poison := [], freed := [], imageMarks := []
    flying := [], gangs := [] }

end Sys2Proof.Machine
end

