-- ==== Sys2Proof/Machine/Access.lean ====
section
/-! DEFINITION. Where each piece of state stands: accessors of contexts, cores, clusters, dies, packages and parts; numbers
of places (R2, R230); time (R5); the MODE word (R25). -/

namespace Sys2Proof.Machine

/-! ## Numbers (R2, R230) -/

def coreOf (c : CtxId) : Place := c / 4
def ctxNo (c : CtxId) : Nat := c % 4
def ctxAt (p : Place) (n : Nat) : CtxId := 4 * p + n
/-- System core s of a die has the number 2^22 + 4·die + s: it has no place (log 6). -/
def systemCore (d : DieId) (s : Nat) : Place := 2 ^ 22 + 4 * d + s
def isSystem (p : Place) : Bool := decide (2 ^ 22 ≤ p)
def clusterOf (p : Place) : ClusterId := p / 8
def dieOf (p : Place) : DieId := if isSystem p then (p - 2 ^ 22) / 4 else p / 512
def pkgOf (p : Place) : PkgId := dieOf p / 2
def dieOfCluster (k : ClusterId) : DieId := k / 64
def pkgOfCluster (k : ClusterId) : PkgId := k / 128
/-- x and y of a cluster in the package mesh (R1, R2): x = die·8 + column. -/
def meshX (k : ClusterId) : Nat := k / 64 % 2 * 8 + k % 8
def meshY (k : ClusterId) : Nat := k % 64 / 8
/-- The cluster of a package at mesh position x, y. -/
def clusterAt (g : PkgId) (x y : Nat) : ClusterId := 128 * g + 64 * (x / 8) + 8 * y + x % 8

/-! ## Units -/

def State.ctx (s : State) (c : CtxId) : Context := SMap.look s.ctxs c {}
def State.core (s : State) (p : Place) : Core := SMap.look s.cores p {}
def State.cluster (s : State) (k : ClusterId) : Cluster := SMap.look s.clusters k {}
def State.die (s : State) (d : DieId) : Die := SMap.look s.dies d {}
def State.pkg (s : State) (g : PkgId) : Package := SMap.look s.pkgs g {}
def State.part (s : State) (q : PartId) : Part := SMap.look s.parts q {}

def State.setCtx (s : State) (c : CtxId) (x : Context) : State := { s with ctxs := SMap.put s.ctxs c x }
def State.setCore (s : State) (p : Place) (x : Core) : State := { s with cores := SMap.put s.cores p x }
def State.setCluster (s : State) (k : ClusterId) (x : Cluster) : State := { s with clusters := SMap.put s.clusters k x }
def State.setDie (s : State) (d : DieId) (x : Die) : State := { s with dies := SMap.put s.dies d x }
def State.setPkg (s : State) (g : PkgId) (x : Package) : State := { s with pkgs := SMap.put s.pkgs g x }
def State.setPart (s : State) (q : PartId) (x : Part) : State := { s with parts := SMap.put s.parts q x }

def State.modCtx (s : State) (c : CtxId) (f : Context → Context) : State := s.setCtx c (f (s.ctx c))
def State.modCsr (s : State) (c : CtxId) (f : CtxCsr → CtxCsr) : State := s.modCtx c fun x => { x with csr := f x.csr }
def State.modCore (s : State) (p : Place) (f : Core → Core) : State := s.setCore p (f (s.core p))
def State.modCluster (s : State) (k : ClusterId) (f : Cluster → Cluster) : State := s.setCluster k (f (s.cluster k))
def State.modArr (s : State) (k : ClusterId) (f : MArray → MArray) : State :=
  s.modCluster k fun x => { x with arr := f x.arr }
def State.modDie (s : State) (d : DieId) (f : Die → Die) : State := s.setDie d (f (s.die d))
def State.modPkg (s : State) (g : PkgId) (f : Package → Package) : State := s.setPkg g (f (s.pkg g))
def State.modPart (s : State) (q : PartId) (f : Part → Part) : State := s.setPart q (f (s.part q))

/-- The context whose head is under issue. -/
def State.here (s : State) : Context := s.ctx s.cur.ctx
def State.modHere (s : State) (f : Context → Context) : State := s.modCtx s.cur.ctx f

/-! ## Partitions (R338, R339) -/

/-- Whether a partition part owns a cluster: its bit of PCL0 or PCL1 (R340). -/
def Part.owns (q : Part) (k : ClusterId) : Bool :=
  if k / 64 % 2 = 0 then q.pcl0.getLsbD (k % 64) else q.pcl1.getLsbD (k % 64)

/-- The bank of the partition that owns a cluster, if one does. -/
def State.bankOf (s : State) (k : ClusterId) : Option Nat :=
  (List.range 16).find? fun b => (s.part (16 * pkgOfCluster k + b)).owns k

/-- The part whose registers and tables serve a core: its cluster's; bank 0 where no partition owns it; on a system core the
bank that HPSEL selects (log 6). -/
def State.partOf (s : State) (p : Place) : PartId :=
  if isSystem p then 16 * pkgOf p + (s.pkg (pkgOf p)).hpsel
  else 16 * pkgOf p + (s.bankOf (clusterOf p)).getD 0

def State.partOfCtx (s : State) (c : CtxId) : PartId := s.partOf (coreOf c)

/-- Bit of HMAPC (R368): core n of the package is harvested. -/
def State.harvested (s : State) (g : PkgId) (n : Nat) : Bool :=
  (SMap.look (s.pkg g).hmapc (n / 64) (0 : Word)).getLsbD (n % 64)

def State.quarantined (s : State) (k : ClusterId) : Bool := (s.die (dieOfCluster k)).quar.getLsbD (k % 64)

/-- A place that an issuer of partition bank `bank` cannot reach (R230). -/
def State.unreachable (s : State) (bank : Nat) (p : Place) : Bool :=
  decide (s.bankOf (clusterOf p) ≠ some bank) || s.harvested (pkgOf p) (p % 1024) || s.quarantined (clusterOf p) ||
    (s.cluster (clusterOf p)).fenced

/-! ## Time (R5, R374) -/

/-- The cycle of a core: the 1.2 GHz count less the cycles that clock slowing withheld from its cluster. -/
def State.now (s : State) (p : Place) : Nat := s.cycle - (s.cluster (clusterOf p)).lost
def State.nowCtx (s : State) (c : CtxId) : Nat := s.now (coreOf c)
/-- The global time-stamp counter: 1 ns ticks (R5). -/
def State.gtc (s : State) : Nat := s.cycle * 5 / 6

/-- A fresh arrival number. -/
def State.tick (s : State) : State := { s with seq := s.seq + 1 }

/-- A value the spec leaves open (log 5). -/
def State.freeWord (s : State) : Word := Config.freeWord s.fresh
def State.useFree (s : State) : State := { s with fresh := s.fresh + 1 }

/-! ## The MODE word (R25) -/

def CtxCsr.mode (r : CtxCsr) : Word :=
  BitVec.ofNat 64 (r.chk.toNat + 2 * r.sig.toNat + 4 * r.stp.toNat + 8 * r.wde.toNat + 16 * r.gang.toNat + 64 * r.hnd.toNat)

/-- PCONF as one word (R73). -/
def CtxCsr.pconf (r : CtxCsr) : Word :=
  BitVec.ofNat 64 (r.tau.toNat + 2 ^ 16 * r.eps.toNat + 2 ^ 32 * r.smax.toNat + 2 ^ 36 * r.dslot.toNat)

/-- What is left of BUDGET (R40): it counts one a cycle from the task's first cycle, at task level. -/
def State.budgetLeft (s : State) (c : CtxId) : Nat :=
  let r := (s.ctx c).csr
  if (s.ctx c).level = .task then r.budget.toNat - (s.nowCtx c - r.budgetAt) else r.budget.toNat

/-- BUDGET has reached zero and is not yet renewed (R40). -/
def State.budgetOver (s : State) (c : CtxId) : Bool :=
  let r := (s.ctx c).csr
  r.budgetSpent || (r.budgetOn && decide (s.budgetLeft c = 0))

/-- A context in weight-driven execution issues no heads; the supervisor's on a context that trapped in it issue (R125, R326). -/
def Context.inChain (x : Context) : Bool := x.csr.wde && !x.wde.held

/-- The sender place of a context: its core's place, 0x3F_FFFF for a system core. -/
def placeWord (p : Place) : Nat := if isSystem p then 0x3FFFFF else p % 2 ^ 22

end Sys2Proof.Machine
end

