-- ==== Sys2Proof/Machine/Memory.lean ====
section
/-! DEFINITION. Bytes of memory and their places (R26-R30), full bits, tags and poison, page tables (R319-R323), and the checks
of an access in their order (R219). -/

namespace Sys2Proof.Machine

/-! ## The byte list in its one form -/

abbrev Memory := List Host.Cell

/-- What an unlisted address reads as: zero (R28, R343 for local memory and scratchpad; log 3 for die store and HBM). -/
def blank : Byte := 0

/-- The byte at an address. -/
def Memory.get (m : Memory) (a : Nat) : Byte :=
  match m with
  | [] => blank
  | (j, v) :: t => if j = a then v else Memory.get t a

/-- Writing what an unlisted address reads as removes the entry. -/
def Memory.set (m : Memory) (a : Nat) (v : Byte) : Memory :=
  match m with
  | [] => if v = blank then [] else [(a, v)]
  | (j, w) :: t =>
    if j < a then (j, w) :: Memory.set t a v
    else if j = a then (if v = blank then t else (a, v) :: t)
    else (if v = blank then (j, w) :: t else (a, v) :: (j, w) :: t)

/-- Addresses strictly rising, no entry blank, every address above `low`. -/
def Memory.wfFrom (low : Nat) : Memory → Bool
  | [] => true
  | (a, v) :: t => decide (low ≤ a) && decide (v ≠ blank) && Memory.wfFrom (a + 1) t

/-- The canonical form. -/
def Memory.wf (m : Memory) : Bool := Memory.wfFrom 0 m

/-- The entries of consecutive bytes from an address. -/
def Memory.run (a : Nat) : List Byte → Memory
  | [] => []
  | v :: t => if v = blank then Memory.run (a + 1) t else (a, v) :: Memory.run (a + 1) t

/-- Consecutive bytes replaced at once. -/
def Memory.setRun (m : Memory) (a : Nat) (l : List Byte) : Memory :=
  m.filter (fun e => decide (e.1 < a)) ++ Memory.run a l ++ m.filter (fun e => decide (a + l.length ≤ e.1))

/-- Every byte of a range blank. -/
def Memory.clearRun (m : Memory) (a n : Nat) : Memory := m.filter fun e => decide (e.1 < a) || decide (a + n ≤ e.1)

/-! ## Places of bytes -/

def hbmBase : Nat := 0
def dieBase : Nat := 2 ^ 60
def scratchBase : Nat := 2 ^ 61
def localBase : Nat := 2 ^ 62

/-- The byte of HBM at a physical address of a package (R319). -/
def hbmAt (g : PkgId) (pa : Nat) : Nat := hbmBase + g * 2 ^ 48 + pa % 2 ^ 48
def dieAt (d : DieId) (off : Nat) : Nat := dieBase + d * 2 ^ 26 + off % 2 ^ 26
def localAt (p : Place) (off : Nat) : Nat := localBase + p * 2 ^ 18 + off % 2 ^ 18

/-- Bank and row of a scratchpad word under a key (R29). -/
def scratchBank (key : BitVec 16) (w : Nat) : Nat :=
  let k := key.toNat
  ((bitsOf w 0 5 ^^^ bitsOf w 5 5) ^^^ (bitsOf w 10 5 ^^^ bitsOf w 15 3)) ^^^
    ((bitsOf k 0 5 ^^^ bitsOf k 5 5) ^^^ (bitsOf k 10 5 ^^^ bitsOf k 15 1))
def scratchRow (w : Nat) : Nat := bitsOf w 5 13

/-- The byte of a cluster's scratchpad at an offset, under a key: its word's physical place (R29). -/
def scratchAt (k : ClusterId) (key : BitVec 16) (off : Nat) : Nat :=
  scratchBase + k * 2 ^ 21 + (32 * scratchRow (off / 8) + scratchBank key (off / 8)) * 8 + off % 8

def isHbm (a : Nat) : Bool := decide (a < dieBase)
def isDie (a : Nat) : Bool := decide (dieBase ≤ a) && decide (a < scratchBase)
/-- Local memory and scratchpad words carry a full/empty bit (R30). -/
def hasFull (a : Nat) : Bool := decide (scratchBase ≤ a)

/-! ## The logical-to-physical core table (R369) -/

/-- Offset of the LPCT window in a die store: its last 4 KiB. -/
def lpctOff : Nat := 0x3FFF000

/-- The physical numbers of the healthy cores, ascending. -/
def State.healthy (s : State) (g : PkgId) : List Nat := (List.range 1024).filter fun n => !s.harvested g n

/-- Entry i: PCORE with V, or zero at and above the healthy count. -/
def State.lpctEntry (s : State) (g : PkgId) (i : Nat) : Nat :=
  match (s.healthy g)[i]? with
  | some n => 0x80000000 + n
  | none => 0

/-- The logical number of a physical core (R194, R369): healthy cores before it. -/
def State.logicalCore (s : State) (g : PkgId) (n : Nat) : Nat :=
  ((List.range n).filter fun j => !s.harvested g j).length

/-! ## Bytes -/

/-- The byte at a place of memory; the LPCT window reads the table. -/
def State.byte (s : State) (a : Nat) : Byte :=
  if isDie a && decide (lpctOff ≤ (a - dieBase) % 2 ^ 26) then
    let off := (a - dieBase) % 2 ^ 26 - lpctOff
    BitVec.ofNat 8 (s.lpctEntry ((a - dieBase) / 2 ^ 27) (off / 4) / 256 ^ (off % 4))
  else Memory.get s.mem a

def State.bytesOf (s : State) (l : List Nat) : List Byte := l.map s.byte
def State.setByte (s : State) (a : Nat) (v : Byte) : State := { s with mem := Memory.set s.mem a v }
/-- Bytes to a list of places, in order. -/
def State.setBytes (s : State) (l : List (Nat × Byte)) : State := l.foldl (fun t e => t.setByte e.1 e.2) s
/-- n consecutive places from a. -/
def runFrom (a n : Nat) : List Nat := (List.range n).map (a + ·)
def State.readRun (s : State) (a n : Nat) : List Byte := s.bytesOf (runFrom a n)
def State.writeRun (s : State) (a : Nat) (l : List Byte) : State := { s with mem := Memory.setRun s.mem a l }

/-! ## Full bits, tags and poison -/

/-- The word of a place. -/
def wordIx (a : Nat) : Nat := a / 8
def State.isFull (s : State) (a : Nat) : Bool := s.full.contains (wordIx a)
def State.setFull (s : State) (a : Nat) : State := { s with full := natInsert s.full (wordIx a) }
def State.setEmpty (s : State) (a : Nat) : State := { s with full := natErase s.full (wordIx a) }

/-- An engine write (R140): the bytes of one word and, where it has one, its full bit. -/
def State.engineWrite (s : State) (a : Nat) (l : List Byte) : State :=
  let t := s.writeRun a l
  if hasFull a then t.setFull a else t

def State.tag (s : State) (a : Nat) : BitVec 4 := (SMap.look s.tags (a / 32) (0 : BitVec 16)).extractLsb' 0 4
def State.hist (s : State) (a : Nat) : BitVec 12 := (SMap.look s.tags (a / 32) (0 : BitVec 16)).extractLsb' 4 12
/-- HIST := (HIST·16 + TAG)[11:0]; TAG := t (R225). -/
def State.setTag (s : State) (a : Nat) (t : BitVec 4) : State :=
  { s with tags := SMap.put s.tags (a / 32) ((((s.hist a).extractLsb' 0 8) ++ s.tag a) ++ t) }

def State.poisoned (s : State) (a : Nat) : Bool := s.poison.contains (wordIx a)
/-- A word written whole holds no error any more. -/
def State.clearPoison (s : State) (l : List Nat) : State :=
  { s with poison := s.poison.filter fun w => !(List.range 8).all fun i => l.contains (8 * w + i) }

/-! ## Windows (R26) -/

inductive Window where
  | loc | scratch | die | glob
  deriving DecidableEq, Repr

def windowOf (va : Nat) : Option Window :=
  if va < 0x30000 then some .loc
  else if 0x10000000 ≤ va ∧ va < 0x10200000 then some .scratch
  else if 0x20000000 ≤ va ∧ va < 0x24000000 then some .die
  else if 0x100000000 ≤ va ∧ va < 2 ^ 52 then some .glob
  else none

/-- The window that holds every byte of a range. -/
def windowOfRange (va n : Nat) : Option Window :=
  match windowOf va, windowOf (va + (n - 1)) with
  | some a, some b => if a = b then some a else none
  | _, _ => none

/-- The VA of a pointer (R31). -/
def vaOf (w : Word) : Nat := w.toNat % 2 ^ 52
/-- A pointer with its VA replaced, KEY, FMT and BLG kept. -/
def withVa (w : Word) (va : Nat) : Word := BitVec.ofNat 64 (w.toNat / 2 ^ 52 * 2 ^ 52 + va % 2 ^ 52)
def keyOf (w : Word) : BitVec 4 := w.extractLsb' 60 4
def fmtOf (w : Word) : Nat := (w.extractLsb' 55 5).toNat

/-- Who makes an access, as the checks need it: its core, level, scratchpad key and banks. -/
structure Agent where
  core : Place
  part : PartId
  level : Level
  hkey : BitVec 16
  lbanks : BitVec 12
  deriving DecidableEq, Repr

def State.agent (s : State) (c : CtxId) : Agent :=
  let x := s.ctx c
  { core := coreOf c, part := s.partOfCtx c, level := x.level, hkey := x.csr.hkey, lbanks := x.csr.lbanks }

/-- LBANKS does not limit access above task level (R326). -/
def Agent.holdsBank (g : Agent) (off : Nat) : Bool := decide (g.level ≠ .task) || g.lbanks.getLsbD (off / 16384)

/-- Kinds of access, with the ACCESS codes of R328. -/
inductive Acc where
  | load | store | atomic | fetch | wde | serviceRead | serviceWrite
  /-- `tagset`: a store whose page needs T as well (R225) -/
  | tag
  deriving DecidableEq, Repr
def Acc.code : Acc → Nat
  | .load => 0 | .store => 1 | .atomic => 2 | .fetch => 3 | .wde => 4 | .serviceRead => 5 | .serviceWrite => 6 | .tag => 1
def Acc.reads : Acc → Bool
  | .load | .atomic | .serviceRead => true
  | _ => false
def Acc.writes : Acc → Bool
  | .store | .atomic | .serviceWrite | .tag => true
  | _ => false
/-- A store or atomic of a core, which a C page refuses (R219). -/
def Acc.coreWrite : Acc → Bool
  | .store | .atomic | .tag => true
  | _ => false

/-- The detail word of XLATE_MISS and XLATE_PERM (R328). -/
def xlateDetail (level acc reason : Nat) : Word := BitVec.ofNat 64 (level + 8 * acc + 64 * reason)
def xlateTrap (acc : Acc) (ptr : Word) (level reason : Nat) : Trap :=
  { cause := if reason = 0 ∨ reason = 1 ∨ reason = 5 then .xlateMiss else .xlatePerm
    fva := ptr, detail := xlateDetail level acc.code reason }

/-! ## Page tables (R319, R320, R382) -/

/-- Whether a physical address lies in the partition's memory. -/
def Part.inRanges (q : Part) (pa : Nat) : Bool :=
  (List.range 8).any fun k =>
    let r := (SMap.look q.pmr k (0 : Word)).toNat
    let base := bitsOf r 0 32 * 2 ^ 16
    let size := bitsOf r 32 31 * 2 ^ 16
    decide (size ≠ 0) && decide (base ≤ pa) && decide (pa < base + size)

def leafBits (e : Word) (i : Nat) : Bool := e.getLsbD i
def leafPa (e : Word) : Nat := bitsOf e.toNat 8 40 * 256

/-- Alignment of what an entry of a level names: the page's size, or the next table's (R319). -/
def entryAlign (level : Nat) (leaf : Bool) : Nat :=
  match level, leaf with
  | 0, _ => 4096 | 1, true => 2 ^ 30 | 1, false => 4096 | 2, true => 2 ^ 21 | 2, false => 256 | _, _ => 2 ^ 16
/-- Page sizes as powers of two by level. -/
def pageLg (level : Nat) : Nat := match level with | 1 => 30 | 2 => 21 | _ => 16
def levelIndex (level va : Nat) : Nat :=
  match level with
  | 0 => bitsOf va 39 13 | 1 => bitsOf va 30 9 | 2 => bitsOf va 21 9 | _ => bitsOf va 16 5

/-- A valid entry that R320 calls malformed. -/
def malformed (level : Nat) (e : Word) : Bool :=
  decide (e.toNat / 2 ^ 49 ≠ 0) || (e.getLsbD 1 && decide (level = 0)) || (!e.getLsbD 1 && decide (level = 3)) ||
    (!e.getLsbD 1 && (decide (bitsOf e.toNat 2 6 ≠ 0) || e.getLsbD 48)) || (e.getLsbD 3 && !e.getLsbD 2) ||
    decide (leafPa e % entryAlign level (e.getLsbD 1) ≠ 0)

/-- One level after another from a table's physical address: the leaf with its level, or the failing level with its REASON. -/
def State.walkFrom (s : State) (q : PartId) (va : Nat) : Nat → Nat → Nat → Except (Nat × Nat) (Word × Nat)
  | 0, level, _ => .error (level, 1)
  | fuel + 1, level, table =>
    let e := wordOfBytes (s.readRun (hbmAt (q / 16) (table + 8 * levelIndex level va)) 8)
    if !e.getLsbD 0 then .error (level, 0)
    else if malformed level e then .error (level, 1)
    else if !(s.part q).inRanges (leafPa e) then .error (level, 4)
    else if e.getLsbD 1 then .ok (e, level)
    else State.walkFrom s q va fuel (level + 1) (leafPa e)

/-- The walk of a VA in a part's tables (R319). -/
def State.walk (s : State) (q : PartId) (va : Nat) : Except (Nat × Nat) (Word × Nat) :=
  s.walkFrom q va 4 0 (bitsOf (s.part q).ptroot.toNat 16 32 * 2 ^ 16)

/-! ## Translation caches (R322) -/

def TlbEntry.covers (e : TlbEntry) (q : PartId) (va : Nat) : Bool := decide (e.part = q) && decide (e.va = va / 2 ^ e.lg)

/-- A new entry before the others; the oldest leaves a full cache (log 7). -/
def tlbAdd (l : List TlbEntry) (n : Nat) (e : TlbEntry) : List TlbEntry :=
  (e :: l.filter fun x => !(x.part == e.part && x.va == e.va && x.lg == e.lg)).take n

def State.cacheLeaf (s : State) (g : Agent) (e : TlbEntry) (micro : Bool) : State :=
  let t := s.modCluster (clusterOf g.core) fun k => { k with tlb := tlbAdd k.tlb Config.clusterTlbEntries e }
  if micro then t.modCore g.core fun c => { c with tlb := tlbAdd c.tlb Config.microTlbEntries e } else t

/-- The cached leaf of a VA: the core's micro-TLB first, then its cluster's. -/
def State.cached (s : State) (g : Agent) (va : Nat) (micro : Bool) : Option TlbEntry :=
  let l := if micro then (s.core g.core).tlb else []
  match l.find? (·.covers g.part va) with
  | some e => some e
  | none => (s.cluster (clusterOf g.core)).tlb.find? (·.covers g.part va)

def TlbEntry.level (e : TlbEntry) : Nat := match e.lg with | 30 => 1 | 21 => 2 | _ => 3
/-- The physical address of a VA under a leaf. -/
def TlbEntry.pa (e : TlbEntry) (va : Nat) : Nat := leafPa e.leaf + va % 2 ^ e.lg

/-- What a leaf does not grant (R321): REASON 3 for an S page, then REASON 2; WX for a block, whose trap is WDE_PERM (R112); T for a tag (R225). -/
def leafRefuses (e : TlbEntry) (level : Level) (acc : Acc) : Option Nat :=
  if e.leaf.getLsbD 48 && decide (level = .task) then some 3
  else if acc.reads && !e.leaf.getLsbD 2 then some 2
  else if acc.writes && !e.leaf.getLsbD 3 then some 2
  else if decide (acc = .fetch) && !e.leaf.getLsbD 4 then some 2
  else if acc.coreWrite && e.leaf.getLsbD 7 then some 2
  else if decide (acc = .wde) && !e.leaf.getLsbD 5 then some 2
  else if decide (acc = .tag) && !e.leaf.getLsbD 6 then some 2
  else none

/-- A leaf that allows an access to a VA, from the caches or by a walk: a cached leaf that refuses the access makes a new walk,
and only a leaf that allows it is cached (R322). The failing level with its REASON otherwise. -/
def State.leafFor (s : State) (g : Agent) (acc : Acc) (va : Nat) (micro : Bool) : Except (Nat × Nat) (State × TlbEntry) :=
  match (s.cached g va micro).filter fun e => (leafRefuses e g.level acc).isNone with
  | some e => .ok (s.cacheLeaf g e micro, e)
  | none =>
    match s.walk g.part va with
    | .error r => .error r
    | .ok (w, level) =>
      let e : TlbEntry := { part := g.part, va := va / 2 ^ pageLg level, lg := pageLg level, leaf := w }
      match leafRefuses e g.level acc with
      | some r => .error (level, r)
      | none => .ok (s.cacheLeaf g e micro, e)

/-- The tag check of one byte of a T page (R31): the detail word of a mismatch (R328). -/
def State.tagRefuses (s : State) (e : TlbEntry) (a : Nat) (ptr : Word) : Option Trap :=
  if e.leaf.getLsbD 6 && decide (s.tag a ≠ keyOf ptr) then
    some { cause := .tagMismatch, fva := ptr
           detail := BitVec.ofNat 64 ((keyOf ptr).toNat + 16 * (s.tag a).toNat + 256 * (s.hist a).toNat) }
  else none

/-- Translation of the bytes va, va + 1, … of one access, byte after byte, in their order. -/
def State.translate (s : State) (g : Agent) (acc : Acc) (ptr : Word) (micro : Bool) : List Nat →
    Except Trap (State × List (Nat × TlbEntry))
  | [] => .ok (s, [])
  | va :: rest =>
    match s.leafFor g acc va micro with
    | .error (level, reason) => .error (xlateTrap acc (withVa ptr va) level reason)
    | .ok (s1, e) =>
      match State.translate s1 g acc ptr micro rest with
      | .error t => .error t
      | .ok (s2, l) => .ok (s2, (hbmAt (g.part / 16) (e.pa va), e) :: l)

/-- The first tag mismatch of translated bytes. -/
def State.tagCheck (s : State) (ptr : Word) : List (Nat × (Nat × TlbEntry)) → Option Trap
  | [] => none
  | (va, a, e) :: rest =>
    match s.tagRefuses e a (withVa ptr va) with
    | some t => some t
    | none => s.tagCheck ptr rest

/-- Whether a die-store offset lies in the protected save range of a part (R325). -/
def Part.protects (q : Part) (off : Nat) : Bool :=
  let base := bitsOf q.saprot.toNat 0 28
  let size := bitsOf q.saprot.toNat 32 28
  decide (base ≤ off) && decide (off < base + size)

/-- The checks of R219 on the bytes va … of one access, and the places of those bytes. `align` is the alignment rule; `keyed`
whether KEY is checked. -/
def State.resolve (s : State) (g : Agent) (acc : Acc) (ptr : Word) (vas : List Nat) (aligned keyed micro : Bool) :
    Except Trap (State × List Nat) :=
  match vas with
  | [] => .ok (s, [])
  | va :: _ =>
    let last := vas.getLastD va
    match windowOfRange va (last + 1 - va) with
    | none => .error (xlateTrap acc (withVa ptr va) 0 5)
    | some w =>
      if !aligned then .error { cause := .align, fva := ptr }
      else match w with
        | .loc =>
          match vas.find? fun x => !g.holdsBank x with
          | some x => .error (xlateTrap acc (withVa ptr x) 0 6)
          | none => .ok (s, vas.map (localAt g.core))
        | .scratch => .ok (s, vas.map fun x => scratchAt (clusterOf g.core) g.hkey (x - 0x10000000))
        | .die =>
          match vas.find? fun x => decide (g.level = .task) && (s.part g.part).protects (x - 0x20000000) with
          | some x => .error (xlateTrap acc (withVa ptr x) 0 7)
          | none =>
            match (if acc.writes then vas.find? fun x => decide (lpctOff ≤ x - 0x20000000) else none) with
            | some x => .error (xlateTrap acc (withVa ptr x) 0 2)
            | none => .ok (s, vas.map fun x => dieAt (dieOf g.core) (x - 0x20000000))
        | .glob =>
          match s.translate g acc ptr micro vas with
          | .error t => .error t
          | .ok (s1, l) =>
            match (if keyed then s1.tagCheck ptr (vas.zip l) else none) with
            | some t => .error t
            | none => .ok (s1, l.map (·.1))

/-- The first poisoned byte of an access, by its VA (R342). -/
def State.poisonedVa (s : State) (vas : List Nat) (places : List Nat) : Option Nat :=
  ((vas.zip places).find? fun e => s.poisoned e.2).map (·.1)

/-- The error that a use of the data at a byte consumes: FVA names the byte, `detail` its place (R342). -/
def poisonTrap (ptr : Word) (va place : Nat) : Trap :=
  { cause := .uncorrectable, fva := withVa ptr va, detail := BitVec.ofNat 64 place }
def State.poisonedTrap (s : State) (ptr : Word) (vas places : List Nat) : Option Trap :=
  ((vas.zip places).find? fun e => s.poisoned e.2).map fun e => poisonTrap ptr e.1 e.2

/-- A resolved access to die store or global memory, which goes through the fabric (R138). -/
def viaFabric (places : List Nat) : Bool := match places with | [] => false | a :: _ => decide (a < scratchBase)

/-- The lane of an address (R138). -/
def laneOf (a : Nat) : Nat := bitsOf a 6 3 ^^^ bitsOf a 9 3 ^^^ bitsOf a 12 3

/-- The destination of a request to a place of memory (R138): a stack of HBM, one for each 64-byte line, a die's store, a cluster's scratchpad or a core;
and its lane, by the offset that the request names. -/
abbrev Route := Nat × Nat
def destOf (a : Nat) : Nat :=
  if isHbm a then 4 * Config.hbmStack (a / 64)
  else if isDie a then 4 * ((a - dieBase) / 2 ^ 26) + 1
  else if a < localBase then 4 * ((a - scratchBase) / 2 ^ 21) + 2
  else 4 * ((a - localBase) / 2 ^ 18) + 3
def routeOf (a off : Nat) : Route := (destOf a, laneOf off)
/-- The route of a message to a core: lane 0. -/
def messageRoute (p : Place) : Route := (4 * p + 3, 0)

/-- A byte of a region that must lie in own local memory, or with `near` in own local memory or the own cluster's scratchpad
(R219): ILLEGAL_OPERAND for another window, XLATE_MISS for no window, XLATE_PERM for a bank not held. `acc` is the access the
region is for. -/
def regionByte (near : Bool) (g : Agent) (acc : Acc) (ptr : Word) (va : Nat) : Option Trap :=
  match windowOf va with
  | some .loc => if g.holdsBank va then none else some (xlateTrap acc (withVa ptr va) 0 6)
  | some .scratch => if near then none else some { cause := .illegalOperand }
  | some _ => some { cause := .illegalOperand }
  | none => some (xlateTrap acc (withVa ptr va) 0 5)

/-- The byte of a region at which a check of it can first fail: its first byte, each bank's first byte, its last byte. -/
def regionProbes (va n : Nat) : List Nat :=
  va :: ((List.range (n / 16384 + 1)).map fun i => (va / 16384 + i + 1) * 16384).filter (· < va + n) ++ [va + (n - 1)]

def regionTraps (near : Bool) (g : Agent) (acc : Acc) (ptr : Word) (n : Nat) : List Trap :=
  (regionProbes (vaOf ptr) n).filterMap (regionByte near g acc ptr)

/-- The first of a region's failures in the order of R219: a window not allowed, no window, a bank not held. -/
def firstTrap (l : List Trap) : Option Trap :=
  match l.find? (·.cause == .illegalOperand) with
  | some t => some t
  | none => match l.find? (·.cause == .xlateMiss) with
    | some t => some t
    | none => l.head?

/-- The checks of a region of own local memory at a pointer. -/
def localRegion (g : Agent) (acc : Acc) (ptr : Word) (n : Nat) : Option Trap := firstTrap (regionTraps false g acc ptr n)
/-- The checks of a region in own local memory or the own cluster's scratchpad (R236). -/
def nearRegion (g : Agent) (acc : Acc) (ptr : Word) (n : Nat) : Option Trap := firstTrap (regionTraps true g acc ptr n)

/-- The operand limit of a region: no byte in a window that is not allowed. -/
def regionLimit (near : Bool) (ptr : Word) (n : Nat) : Bool :=
  (regionProbes (vaOf ptr) n).all fun va => match windowOf va with
    | some .scratch => near
    | some .die => false
    | some .glob => false
    | _ => true

end Sys2Proof.Machine
end

