-- ==== Sys2Proof/Machine/Operands.lean ====
section
/-! DEFINITION. Operands: registers with their hard-wired members (R22), fixed-latency and interlocked results (R166-R169), the
slot kinds (R183, R217), lanes (R249), and the effective address (R217). -/

namespace Sys2Proof.Machine

/-! ## Registers (R22) -/

/-- s0 reads zero. -/
def Context.sreg (x : Context) (r : SReg) : Word := if r = 0 then 0 else x.s[r]
def Context.vreg (x : Context) (r : VReg) : Vec := x.v[r]
/-- p0 reads all ones. -/
def Context.preg (x : Context) (r : PReg) : Half := if r = 0 then BitVec.allOnes 16 else x.p[r]
def Context.breg (x : Context) (r : BReg) : Word := x.b[r]

/-- A register's new value; writes to s0 and p0 are discarded. -/
def Context.setReg (x : Context) (r : RegName) (w : Vec) : Context :=
  match r with
  | .s r => if r = 0 then x else { x with s := x.s.set r (w.setWidth 64) }
  | .v r => { x with v := x.v.set r w }
  | .p r => if r = 0 then x else { x with p := x.p.set r (w.setWidth 16) }
  | .b r => { x with b := x.b.set r (w.setWidth 64) }

def Context.readReg (x : Context) (r : RegName) : Vec :=
  match r with
  | .s r => (x.sreg r).setWidth 128
  | .v r => x.vreg r
  | .p r => (x.preg r).setWidth 128
  | .b r => (x.breg r).setWidth 128

/-- s0 and p0 hold nothing that could be pending. -/
def RegName.wired : RegName → Bool
  | .s r => r == 0
  | .p r => r == 0
  | _ => false

def Context.addFlags (x : Context) (f : SW) : Context := { x with csr := { x.csr with sw := x.csr.sw ||| f } }

/-! ## Results on their way (R166-R169) -/

def Context.applyPending (x : Context) (p : Pending) : Context :=
  let x := match p.reg with | some r => x.setReg r p.val | none => x
  x.addFlags p.flags

/-- Every fixed-latency result due by the cycle is written, in issue order. -/
def Context.settle (x : Context) (now : Nat) : Context :=
  let y := (x.pend.filter fun p => decide (p.due ≤ now)).foldl Context.applyPending x
  { y with pend := x.pend.filter fun p => !decide (p.due ≤ now) }

/-- Every fixed-latency result is written (a trap waits for them, R166). -/
def Context.flush (x : Context) : Context := { x.pend.foldl Context.applyPending x with pend := [] }

/-- An earlier result not yet written when a later head writes its register is discarded; its flags stay (log 8). -/
def discardPending (l : List Pending) (r : RegName) (due : Nat) : List Pending :=
  (l.map fun p => if p.reg == some r && decide (due ≤ p.due) then { p with reg := none } else p).filter fun p =>
    p.reg != none || p.flags != 0

/-- The ARITH trap of a head that raises an enabled flag: taken before the next head issues (R24), and before a fault of the array
or the Pilot that is due at that head, which recurs after `eret` (R269). -/
def Context.raise (x : Context) (f : SW) : Context :=
  if f &&& x.csr.ten ≠ 0 ∧ x.run ≠ .stopped then { x with due := some { cause := .arith, next := true } } else x

/-- A result of latency `lat` with its flags, of a head that issues in cycle `now` (R166, R167, R24). -/
def Context.result (x : Context) (now lat : Nat) (r : RegName) (w : Vec) (f : SW) : Context :=
  let l := discardPending x.pend r (now + lat)
  let y := if lat ≤ 1 then ({ x with pend := l }.setReg r w).addFlags f
    else { x with pend := l ++ [{ due := now + lat, reg := some r, val := w, flags := f }] }
  y.raise f

def State.result (s : State) (lat : Nat) (r : RegName) (w : Vec) (f : SW) : State :=
  s.modHere fun x => x.result (s.nowCtx s.cur.ctx) lat r w f

/-- A scalar result. -/
def State.setS (s : State) (lat : Nat) (d : SReg) (w : Word) : State := s.result lat (.s d) (w.setWidth 128) 0
/-- A vector result with flags. -/
def State.setV (s : State) (lat : Nat) (d : VReg) (w : Vec) (f : SW) : State := s.result lat (.v d) w f
/-- A predicate result. -/
def State.setP (s : State) (lat : Nat) (d : PReg) (w : Half) (f : SW) : State := s.result lat (.p d) (w.setWidth 128) f

/-- An interlocked result that is still to come. -/
def Context.addBusy (x : Context) (r : RegName) : Context :=
  if r.wired then x else { x with busy := r :: x.busy }
def Context.freeBusy (x : Context) (r : RegName) : Context := { x with busy := x.busy.erase r }
/-- An interlocked result arrives with its flags (R24, R168): an earlier fixed-latency result for its register that is not yet
written is discarded (R166). -/
def Context.deliver (x : Context) (r : RegName) (w : Vec) (f : SW) : Context :=
  ((((({ x with pend := discardPending x.pend r 0 } : Context).freeBusy r).setReg r w).addFlags f).raise f)

/-! ## What a head reads and writes -/

/-- The registers a head reads and writes, its constant-bank entries, and whether it may stand in a delay slot (R171). -/
structure Need where
  reads : List RegName := []
  writes : List RegName := []
  consts : List (Fin 64) := []
  slotOk : Bool := true
  deriving DecidableEq, Repr

def xRegs : XOp → List RegName
  | .reg r => [.s r]
  | _ => []
def xCsts : XOp → List (Fin 64)
  | .cst n => [n]
  | _ => []
def scX : SCOp → XOp
  | .reg r => .reg r
  | .cst n => .cst n
def ooX : OOp → XOp
  | .cst n => .cst n
  | .lit k => .lit k

/-- Operands of slot kind X, with further registers read and written. -/
def needX (l : List XOp) (reads writes : List RegName) : Need :=
  { reads := reads ++ l.flatMap xRegs, writes := writes, consts := l.flatMap xCsts }

/-- The destination of a predicated head is read where its predicate is not p0 (R169, R249). -/
def keepRead (n : PReg) (d : VReg) : List RegName := if n = 0 then [] else [.p n, .v d]

/-- Some register of the head is pending on an interlock (R168, R264). -/
def Context.interlocked (x : Context) (n : Need) : Bool := (n.reads ++ n.writes).any fun r => x.busy.contains r

/-- With CHK set: a head reads a fixed-latency result not yet written (R169). -/
def Context.stallShort (x : Context) (n : Need) (now : Nat) : Bool :=
  x.csr.chk && n.reads.any fun r => !r.wired && x.pend.any fun p => p.reg == some r && decide (now < p.due)

/-! ## Operand values (R183) -/

/-- The VA of constant-bank entry n: CBASE + 8·n (R22). -/
def Context.cstPtr (x : Context) (n : Fin 64) : Word := x.csr.cbase + BitVec.ofNat 64 (8 * n.val)

/-- What reading a constant-bank entry meets: it is ordinary local memory (R22), checked as a load of it (log 9). -/
def State.cstFault (s : State) (c : CtxId) (n : Fin 64) : Option Trap :=
  let p := (s.ctx c).cstPtr n
  match localRegion (s.agent c) .load p 8 with
  | some t => some t
  | none => if s.poisoned (localAt (coreOf c) (vaOf p)) then some { cause := .uncorrectable, fva := p } else none

def State.cstVal (s : State) (c : CtxId) (n : Fin 64) : Word :=
  wordOfBytes (s.readRun (localAt (coreOf c) (vaOf ((s.ctx c).cstPtr n))) 8)

def litWord (k : Lit) : Word := k.signExtend 64

def State.xOf (s : State) (c : CtxId) : XOp → Word
  | .reg r => (s.ctx c).sreg r
  | .cst n => s.cstVal c n
  | .lit k => litWord k

/-- An operand of the head under issue. -/
def State.x (s : State) (o : XOp) : Word := s.xOf s.cur.ctx o
def State.sc (s : State) (o : SCOp) : Word := s.x (scX o)
def State.off (s : State) (o : OOp) : Word := s.x (ooX o)
def State.vr (s : State) (r : VReg) : Vec := s.here.vreg r
def State.pr (s : State) (r : PReg) : Half := s.here.preg r

/-- The first constant-bank read of a head that fails. -/
def State.constFault (s : State) (n : Need) : Option Trap := n.consts.findSome? fun k => s.cstFault s.cur.ctx k

/-- The effective address of a memory operand: VA plus offset, the other fields kept; PTR_OVF outside 52 bits (R217). -/
def effAddr (a o : Word) : Option Word :=
  let t : Int := (vaOf a : Int) + o.toInt
  if 0 ≤ t ∧ t ≤ 2 ^ 52 - 1 then some (withVa a t.toNat) else none

def ptrOvf (p : Word) : Trap := { cause := .ptrOvf, fva := p }

/-! ## Lanes (R249) -/

/-- Lane i of w bits. -/
def lane (v : Vec) (w i : Nat) : Nat := bitsOf v.toNat (w * i) w
def laneBits (v : Vec) (w i : Nat) : BitVec w := v.extractLsb' (w * i) w
/-- Whether lane i of w bits is active: the predicate bit of its lowest byte. -/
def active (p : Half) (w i : Nat) : Bool := p.getLsbD (w / 8 * i)

/-- A vector from its lanes of w bits, lane 0 lowest. -/
def ofLanes (w : Nat) (l : List Nat) : Vec := BitVec.ofNat 128 (l.foldr (fun e acc => e % 2 ^ w + 2 ^ w * acc) 0)

/-- Every active lane i becomes f i with its flags; an inactive lane keeps its value and raises none (R249). -/
def mapLanes (w : Nat) (p : Half) (old : Vec) (f : Nat → Nat × SW) : Vec × SW :=
  let l := (List.range (128 / w)).map fun i => if active p w i then f i else (lane old w i, 0)
  (ofLanes w (l.map (·.1)), l.foldl (fun a e => a ||| e.2) 0)

/-- Byte lanes under a byte predicate. -/
def mapBytes (p : Half) (old : Vec) (f : Nat → Nat) : Vec := (mapLanes 8 p old fun i => (f i, 0)).1

def ftyFmt (t : BitVec 2) : Fmt := match t.toNat with | 0 => fp16 | 1 => bf16 | _ => fp32
def widBits (w : BitVec 2) : Nat := 8 * 2 ^ w.toNat
def sizeBytes (z : BitVec 2) : Nat := 2 ^ z.toNat

/-- An integer lane read signed or unsigned (R250). -/
def laneInt (m : MI) (v : Vec) (i : Nat) : Int :=
  let w := widBits m.wid
  if m.uns then (lane v w i : Nat) else signedOf w (lane v w i)

end Sys2Proof.Machine
end

