-- ==== Sys2Proof/Machine/Frames.lean ====
section
/-! DEFINITION. The tile configuration (R91), MSTAT (R93), the image of an accumulation unit (R107, R380), array frames and
the scan-out into them (R330), and the weight-driven execution record (R124). -/

namespace Sys2Proof.Machine

/-! ## The TCSB (R91) -/

def tRows (t : BitVec 256) : Nat := 32 * 2 ^ bitsOf t.toNat 0 2
def tCols (t : BitVec 256) : Nat := 32 * 2 ^ bitsOf t.toNat 2 2
def tFmts (t : BitVec 256) : Nat := bitsOf t.toNat 4 5
def tFmtw (t : BitVec 256) : Nat := bitsOf t.toNat 9 5
def tWlsb (t : BitVec 256) : Int := signedOf 8 (bitsOf t.toNat 16 8)
def tTrapMode (t : BitVec 256) : Bool := t.getLsbD 24
def tOfmt (t : BitVec 256) : Nat := bitsOf t.toNat 32 5
def tOrnd (t : BitVec 256) : Nat := bitsOf t.toNat 37 3
def tAct (t : BitVec 256) : Nat := bitsOf t.toNat 40 2
def tScb (t : BitVec 256) : Bool := t.getLsbD 42
def tThr (t : BitVec 256) : Bool := t.getLsbD 43
def tMask (t : BitVec 256) : Bool := t.getLsbD 44
def tOnan (t : BitVec 256) : Bool := t.getLsbD 45
def tClo (t : BitVec 256) : Nat := bitsOf t.toNat 64 32
def tChi (t : BitVec 256) : Nat := bitsOf t.toNat 96 32
def tSbadr (t : BitVec 256) : Nat := bitsOf t.toNat 128 18
def tTheta (t : BitVec 256) : Nat := bitsOf t.toNat 160 16
def tSrbase (t : BitVec 256) : Nat := bitsOf t.toNat 192 21
def tSrlog (t : BitVec 256) : Nat := bitsOf t.toNat 216 3

/-- The TCSB at its reset values, which mstat writes for an invalid one (R276). -/
def tcsbReset : BitVec 256 :=
  BitVec.ofNat 256 (2 + 4 * 2 + 16 * 7 + 2 ^ 9 * 7 + 2 ^ 32 * 0x0F + 2 ^ 192 * 0x1FE000 + 2 ^ 216 * 3)

/-- An operand format of the array: any of the fourteen (R91). -/
def arrayFmt (c : Nat) : Bool := decide (1 ≤ c) && decide (c ≤ 14)
/-- An output format of the array. -/
def outFmt (c : Nat) : Bool := [0x0F, 0x0C, 0x0B, 0x09, 0x0A, 0x07, 0x08, 0x0D, 0x0E, 0x10].contains c

/-- The bits of a TCSB that are no reserved field (R91). -/
def tcsbMask : BitVec 256 :=
  ~~~(BitVec.ofNat 256 (2 ^ 14 * 3 + 2 ^ 25 * (2 ^ 7 - 1) + 2 ^ 46 * (2 ^ 18 - 1) + 2 ^ 146 * (2 ^ 14 - 1) +
    2 ^ 176 * (2 ^ 16 - 1) + 2 ^ 213 * 7 + 2 ^ 219 * (2 ^ 37 - 1)))

/-- Whether mcfg accepts the block (R92). An SBADR that is not 8-byte aligned and an SRBASE that is not 256-byte aligned break
it too: R91 gives the alignments and no consequence (DESIGN CHOICE, log 61). -/
def tcsbOk (t : BitVec 256) : Bool :=
  let n := t.toNat
  let reserved := bitsOf n 14 2 = 0 ∧ bitsOf n 25 7 = 0 ∧ bitsOf n 46 18 = 0 ∧ bitsOf n 146 14 = 0 ∧ bitsOf n 176 16 = 0 ∧
    bitsOf n 213 3 = 0 ∧ bitsOf n 219 37 = 0
  let lo := fp32.value (tClo t)
  let hi := fp32.value (tChi t)
  decide reserved && decide (bitsOf n 0 2 ≠ 3) && decide (bitsOf n 2 2 ≠ 3) && arrayFmt (tFmts t) && arrayFmt (tFmtw t) &&
    outFmt (tOfmt t) && decide (tOrnd t ≤ 4) && decide (tAct t ≠ 3) &&
    (decide (tAct t ≠ 2) || (lo.isFinite && hi.isFinite && !ltVal hi lo)) && thetaOk (tTheta t) &&
    decide (tSbadr t < Config.localBytes) && decide (tSbadr t % 8 = 0) && decide (tSrbase t % 256 = 0) &&
    decide (tSrbase t + 2 ^ (tSrlog t + 10) ≤ Config.scratchBytes)

/-! ## MSTAT (R93): the flag and count bits of an AU, with AUOPEN and QDEPTH put in when it is read -/

def mBwused : Word := 2
def mSpilled : Word := 4
def mPrnd : Word := 8
def mWovf : Word := 16
def mSpec : Word := 32

def mstatBwmax (m : Word) : Nat := bitsOf m.toNat 16 11
def mstatNspill (m : Word) : Nat := bitsOf m.toNat 32 16
def mstatSetBwmax (m : Word) (n : Nat) : Word :=
  if mstatBwmax m < n then (m &&& ~~~(0x7FF0000 : Word)) ||| BitVec.ofNat 64 (2 ^ 16 * (n % 2048)) else m
def mstatAddSpill (m : Word) : Word :=
  let n := min 0xFFFF (mstatNspill m + 1)
  (m &&& ~~~(0xFFFF00000000 : Word)) ||| BitVec.ofNat 64 (2 ^ 32 * n)

/-- MSTAT as `mstat` returns it: of the open AU, else of the last AU drained. -/
def State.mstatWord (s : State) (c : CtxId) : Word :=
  let x := s.ctx c
  let d := (s.core (coreOf c)).arrayQ.length
  ((if x.auOpen then x.mstat else x.drained) &&& (0x0000FFFF07FF003E : Word)) ||| BitVec.ofNat 64 (x.auOpen.toNat + 2 ^ 8 * (d % 32))

/-! ## The image of an AU (R107) -/

/-- Bytes of memory in a row, as a list. -/
def sliceFrom : Nat → Nat → Memory → List Byte
  | 0, _, _ => []
  | n + 1, a, m =>
    match m with
    | (j, v) :: t => if j = a then v :: sliceFrom n (a + 1) t else blank :: sliceFrom n (a + 1) ((j, v) :: t)
    | [] => blank :: sliceFrom n (a + 1) []
def State.slice (s : State) (a n : Nat) : List Byte :=
  sliceFrom n a (s.mem.filter fun e => decide (a ≤ e.1) && decide (e.1 < a + n))

/-- The 8-byte words of a list of bytes, with their numbers. -/
def wordsFrom : Nat → Nat → List Byte → List (Nat × Nat)
  | 0, _, _ => []
  | n + 1, i, l => (i, natOfBytes (l.take 8)) :: wordsFrom n (i + 1) (l.drop 8)

def bwWord (e : Nat × Int) : Nat := e.1 % 2 ^ 14 + 2 ^ 14 * wrapTo 10 e.2
def bwOf (w : Nat) : Nat × Int := (bitsOf w 0 14, signedOf 10 (bitsOf w 14 10))

def MArray.cell (a : MArray) (i : Nat) : ACell := SMap.look a.cells i {}
def MArray.wAct (a : MArray) (row col : Nat) : Nat := (SMap.look a.active (128 * row + col) (0 : BitVec 16)).toNat
def MArray.masked (a : MArray) (i : Nat) : Bool := SMap.look a.mask i false

/-- The word of a cell. -/
def MArray.cellWord (a : MArray) (i : Nat) : Nat :=
  let c := a.cell i
  c.a.toNat + 2 ^ 24 * c.sp.toNat + 2 ^ 26 * (a.masked i).toNat + 2 ^ 32 * (SMap.look a.active i (0 : BitVec 16)).toNat +
    2 ^ 48 * (SMap.look a.shadow i (0 : BitVec 16)).toNat

/-- The cells of which something is not zero. -/
def MArray.used (a : MArray) : List Nat :=
  (a.cells.map (·.1) ++ a.mask.map (·.1) ++ a.active.map (·.1) ++ a.shadow.map (·.1)).foldl natInsert []

/-- The pieces of an AU's image that are not zero: offset and bytes. -/
def imagePieces (tcsb : BitVec 256) (mstat : Word) (cmds : List ACmd) (a : MArray) : List (Nat × List Byte) :=
  let head := bytesOfNat 32 tcsb.toNat ++ bytesOfNat 8 mstat.toNat ++
    bytesOfNat 8 (cmds.length % 32 + 2 ^ 5 * (a.row % 128) + 2 ^ 12 * (a.bw.length % 2048) + 2 ^ 23 * (a.spills % 1024))
  [(0, head), (0x40, (cmds.take 16).flatMap fun c => bytesOfNat 32 c.img.toNat),
    (0x240, a.bw.flatMap fun e => bytesOfNat 4 (bwWord e))] ++
    a.used.map fun i => (0x1240 + 8 * i, bytesOfNat 8 (a.cellWord i))

def nonzeroMap {α : Type} (l : List (Nat × Nat)) (keep : Nat → Bool) (f : Nat → α) : SMap α :=
  (l.filter fun e => keep e.2).map fun e => (e.1, f e.2)

/-- What a special cell's image does not say of it (R106). -/
abbrev CellMarks := List (Nat × Bool × BitVec 2)

/-- The infinity that a special state shows. -/
def seenOf (sp : BitVec 2) : BitVec 2 := match sp.toNat with | 2 => 1 | 3 => 2 | _ => 0

/-- Cell i from its word's accumulator and special state: a NaN cell takes back what the marks hold of it. -/
def cellOf (marks : CellMarks) (i : Nat) (a : BitVec 24) (sp : BitVec 2) : ACell :=
  let m := if sp = 1 then (marks.find? fun e => e.1 == i).map (·.2) else none
  { a := a, sp := sp, nv := (m.map (·.1)).getD false, seen := (m.map (·.2)).getD (seenOf sp) }

/-- An AU from its image: TCSB, MSTAT, the queued commands and the array. -/
def readImage (c : CtxId) (marks : CellMarks) (l : List Byte) : BitVec 256 × Word × List ACmd × MArray :=
  let h := fieldAt l 0x28 8
  let n := bitsOf h 0 5
  let words := wordsFrom 16384 0 (l.drop 0x1240)
  let cmds := (List.range (min n 16)).map fun i =>
    ({ ctx := c, img := BitVec.ofNat 256 (fieldAt l (0x40 + 32 * i) 32) } : ACmd)
  (BitVec.ofNat 256 (fieldAt l 0 32) &&& tcsbMask, BitVec.ofNat 64 (fieldAt l 0x20 8), cmds,
    { active := nonzeroMap words (fun w => decide (bitsOf w 32 16 ≠ 0)) fun w => BitVec.ofNat 16 (bitsOf w 32 16)
      shadow := nonzeroMap words (fun w => decide (bitsOf w 48 16 ≠ 0)) fun w => BitVec.ofNat 16 (bitsOf w 48 16)
      cells := (words.filter fun e => decide (bitsOf e.2 0 26 ≠ 0)).map fun e =>
        (e.1, cellOf marks e.1 (BitVec.ofNat 24 (bitsOf e.2 0 24)) (BitVec.ofNat 2 (bitsOf e.2 24 2)))
      mask := nonzeroMap words (fun w => bitOf w 26) fun _ => true
      bw := (List.range (min (bitsOf h 12 11) 1024)).map fun i => bwOf (fieldAt l (0x240 + 4 * i) 4)
      spills := bitsOf h 23 10, owner := some c, frozen := false, row := bitsOf h 5 7 })

/-! ## Array credits (R90) -/

/-- Weight of core i's queue: a written 0 acts as 1. -/
def mqwOf (w : BitVec 32) (i : Nat) : Nat := max 1 (bitsOf w.toNat (4 * i) 4)
def Cluster.reload (x : Cluster) : Cluster := { x with credits := (List.range 8).map (mqwOf x.mqw) }

/-! ## Frames and scan-out (R330) -/

/-- Die-store offset of a window address of the die store; an address of another window stands beyond every die store, outside
SAPROT's range (R333). -/
def dieOff (w : Word) : Nat := if windowOf (vaOf w) = some .die then vaOf w - 0x20000000 else 2 ^ 40

/-- The die-store offset of frame f of a cluster. -/
def Cluster.frameOff (k : Cluster) (f : Nat) : Nat := dieOff k.afbase + Config.frameBytes * f
def Cluster.frameCount (k : Cluster) : Nat := if k.afcnt = 0 then 1 else min 8 k.afcnt.toNat
def Cluster.freeFrame (k : Cluster) : Option Nat :=
  (List.range k.frameCount).find? fun f => !(k.frames.any fun e => e.1 == f)

/-- Whether a die-store range lies in a part's protected range. -/
def Part.protectsRange (q : Part) (off n : Nat) : Bool := q.protects off && q.protects (off + (n - 1))

/-- Pieces written over a cleared range of places. -/
def State.writePieces (s : State) (a n : Nat) (l : List (Nat × List Byte)) : State :=
  let t : State := { s with mem := Memory.clearRun s.mem a n }
  l.foldl (fun t e => t.writeRun (a + e.1) e.2) t

/-- The AU of a context leaves the array and the core's queue: its array state and its commands. -/
def State.takeAu (s : State) (c : CtxId) : State × MArray × List ACmd :=
  let k := clusterOf (coreOf c)
  let a := (s.cluster k).arr
  let own := decide (a.owner = some c)
  let core := s.core (coreOf c)
  let cmds := core.arrayQ.filter fun q => q.ctx == c
  let s1 := s.modCore (coreOf c) fun x => { x with arrayQ := x.arrayQ.filter fun q => q.ctx != c }
  (if own then s1.modArr k fun _ => {} else s1, if own then a else {}, cmds)

/-- What the special cells of an array hold beyond their image. -/
def MArray.marks (a : MArray) : CellMarks := (a.cells.filter fun e => e.2.sp == 1).map fun e => (e.1, e.2.nv, e.2.seen)

/-- The marks that go with an image (R106): the device keeps them by the image's place (log 19). -/
def State.setMarks (s : State) (place : Nat) (m : CellMarks) : State :=
  { s with imageMarks := if m = [] then SMap.drop s.imageMarks place else SMap.put s.imageMarks place m }
def State.marksAt (s : State) (place : Nat) : CellMarks := SMap.look s.imageMarks place []

/-- Scan-out of a context's AU into an image at a place of memory. -/
def State.scanTo (s : State) (c : CtxId) (place : Nat) : State :=
  let x := s.ctx c
  let (s1, a, cmds) := s.takeAu c
  let m := s1.mstatWord c
  (s1.writePieces place Config.frameImageBytes (imagePieces (x.tcsb.getD 0) m cmds a)).setMarks place a.marks

/-- A mark for restore is taken back. -/
def State.unmarkAu (s : State) (c : CtxId) : State :=
  (s.modCluster (clusterOf (coreOf c)) fun k => { k with marks := k.marks.filter (· != c) }).modCtx c fun x =>
    { x with auMarked := false }

/-- An AU that stays where it is until `eret` marks it. -/
def State.holdAu (s : State) (c : CtxId) : State :=
  let k := clusterOf (coreOf c)
  let t := if (s.cluster k).arr.owner = some c then s.modArr k fun a => { a with frozen := true } else s
  t.modCtx c fun x => { x with auHeld := true }

/-- Scan-out into the lowest free frame; with no free frame an AU in the array stays there, frozen (R330). An AU that a frame or
a marked image still holds stays in it. The answer says whether the chosen frame lies outside the protected range (SAVE_FAULT,
R333), and the frame's offset. -/
def State.scanOut (s0 : State) (c : CtxId) : State × Bool × Option Nat :=
  let k := clusterOf (coreOf c)
  let s := s0.unmarkAu c
  let cl := s.cluster k
  if !(s.ctx c).auOpen then (s, false, none)
  else if (s.ctx c).auFrame.isSome ∨ cl.images.any (·.1 == c) then (s, false, (s.ctx c).auFrame)
  else match cl.freeFrame with
    | none => (s.holdAu c, false, none)
    | some f =>
      let off := cl.frameOff f
      if !(s.part (s.partOfCtx c)).protectsRange off Config.frameBytes then (s.holdAu c, true, none)
      else
        let s1 := s.scanTo c (dieAt (dieOf (coreOf c)) off)
        ((s1.modCluster k fun x => { x with frames := SMap.put x.frames f c }).modCtx c fun x =>
          { x with auFrame := some off, auHeld := false }, false, some off)

/-- The frames a context's AU holds are free again, and its marks are gone. -/
def State.freeFrames (s : State) (c : CtxId) : State :=
  (s.modCluster (clusterOf (coreOf c)) fun k =>
    { k with frames := k.frames.filter (fun e => e.2 != c), marks := k.marks.filter (· != c)
             images := k.images.filter (fun e => e.1 != c) }).modCtx c fun x =>
    { x with auFrame := none, auMarked := false, auHeld := false }

/-- An AU is discarded: array, queue entries, frame (R92, R107). -/
def State.discardAu (s : State) (c : CtxId) : State :=
  if !(s.ctx c).auOpen then s
  else
    let (s1, _, _) := s.takeAu c
    (s1.freeFrames c).modCtx c fun x => { x with auOpen := false, arrayCmds := 0, aimgDst := [] }

/-- The bytes of an image that `mrest` marked, as its restore reads them, with the place of the first (R214). -/
def State.readAuImage (s : State) (c : CtxId) (ptr : Word) (n : Nat) : Except Trap (State × Nat × List Byte) :=
  let vas := runFrom (vaOf ptr) n
  match s.resolve { s.agent c with level := .sup } .serviceRead ptr vas true true false with
  | .error e => .error e
  | .ok (s1, l) => match s1.poisonedTrap ptr vas l with
    | some e => .error e
    | none => .ok (s1, l.headD 0, s1.bytesOf l)

/-- What an image holds goes back into the array, its commands to the front of the core's queue. -/
def State.putAu (s : State) (c : CtxId) (r : BitVec 256 × Word × List ACmd × MArray) : State :=
  let (tcsb, m, cmds, a) := r
  ((s.modArr (clusterOf (coreOf c)) fun _ => a).modCore (coreOf c) fun x => { x with arrayQ := cmds ++ x.arrayQ }).modCtx c
    fun x => { x with tcsb := some tcsb, mstat := m, auOpen := true, arrayCmds := cmds.length }

/-- An AU from the image bytes at a place. -/
def State.loadAu (s : State) (c : CtxId) (place : Nat) (l : List Byte) : State :=
  s.putAu c (readImage c (s.marksAt place) l)

/-! ## The weight-driven execution record (R124) -/

/-- The record of R124. OPC is that of the block in progress, 0 until its header has been read (DESIGN CHOICE, log 62). -/
def wdeRecord (w : Wde) : List Byte :=
  bytesOfNat 8 w.block.toNat ++
    bytesOfNat 8 (w.beat % 16 + 2 ^ 4 * (w.unit % 64) + 2 ^ 10 * (w.stack.length % 16) + 2 ^ 14 * (w.opc % 256) +
      2 ^ 22 * w.flags.toNat + 2 ^ 26 * (w.esc % 2 ^ 16) + 2 ^ 42 * w.sd.val) ++
    bytesOfNat 8 w.slots.toNat ++ bytesOfNat 8 w.nblk ++ List.replicate 32 0 ++
    bytesAt (w.stack.reverse.flatMap fun a => bytesOfNat 8 a.toNat) 0 64

/-- The record read back: the block is fetched and checked again (R125). -/
def wdeOfRecord (l : List Byte) : Wde :=
  let h := fieldAt l 8 8
  let d := min 8 (bitsOf h 10 4)
  { block := BitVec.ofNat 64 (fieldAt l 0 8), beat := bitsOf h 0 4, unit := bitsOf h 4 6
    slots := BitVec.ofNat 64 (fieldAt l 0x10 8), sd := ⟨bitsOf h 42 5, Nat.mod_lt _ (by decide)⟩
    stack := ((List.range d).map fun i => BitVec.ofNat 64 (fieldAt l (0x40 + 8 * i) 8)).reverse
    flags := BitVec.ofNat 4 (bitsOf h 22 4), esc := bitsOf h 26 16, nblk := fieldAt l 0x18 8, fetched := none }

/-- WDS (R122). -/
def wdsWord (w : Wde) (exited : Bool) : Word :=
  BitVec.ofNat 64 (w.flags.toNat + 2 ^ 4 * (w.stack.length % 16) + 2 ^ 8 * exited.toNat + 2 ^ 16 * (min w.esc 0xFFFF) +
    2 ^ 32 * (min w.nblk 0xFFFFFFFF))

end Sys2Proof.Machine
end

