-- ==== Sys2Proof/Machine/Events.lean ====
section
/-! DEFINITION. The event log (R335, R354), messages and bounces (R231-R233), completion counters (R237, R238), suspect scores
and quarantine (R352), lines (R156-R159) and the trace ring (R360). -/

namespace Sys2Proof.Machine

/-! ## Routes (R373) -/

/-- The ports of a package that may carry requests to another and are up, ascending. -/
def State.upPorts (s : State) (g dst : PkgId) : List Nat :=
  (List.range 16).filter fun n =>
    (SMap.look (s.pkg g).ports n {}).up && (SMap.look (s.pkg g).routes dst (0 : BitVec 16)).getLsbD n

/-- The ports a request takes, package by package; none where no allowed port is up. -/
def State.pathFrom (s : State) (dst lane : Nat) : Nat → PkgId → Option (List (PkgId × Nat))
  | 0, _ => none
  | fuel + 1, g =>
    if g = dst then some []
    else match s.upPorts g dst with
      | [] => none
      | l =>
        let n := l.getD (lane % l.length) 0
        (State.pathFrom s dst lane fuel (SMap.look (s.pkg g).ports n {}).peerPkg).map ((g, n) :: ·)
def State.path (s : State) (g dst lane : Nat) : Option (List (PkgId × Nat)) := s.pathFrom dst lane 64 g

/-! ## Messages (R231) -/

def mkHdr (hidx bnc msgid splace sgtc ohidx : Nat) : Vec :=
  BitVec.ofNat 128 (hidx % 1024 + 2 ^ 14 * (bnc % 4) + 2 ^ 16 * (msgid % 2 ^ 16) + 2 ^ 32 * (splace % 2 ^ 22) +
    2 ^ 64 * (sgtc % 2 ^ 48) + 2 ^ 112 * (ohidx % 1024))
def Msg.hidx (m : Msg) : Nat := bitsOf m.hdr.toNat 0 10
def Msg.bnc (m : Msg) : Nat := bitsOf m.hdr.toNat 14 2
def Msg.id (m : Msg) : Nat := bitsOf m.hdr.toNat 16 16
def Msg.splace (m : Msg) : Nat := bitsOf m.hdr.toNat 32 22
def Msg.sgtc (m : Msg) : Nat := bitsOf m.hdr.toNat 64 48
/-- Bytes 16q to 16q + 15 of a message (R234). -/
def Msg.quad (m : Msg) (q : Nat) : Vec := match q with | 0 => m.hdr | 1 => m.p1 | 2 => m.p2 | _ => m.p3

/-- A message committed by a core (R231): its header takes the core's next MSGID and the time. -/
def State.commitMsg (s : State) (p : Place) (dst : Place) (hidx : Nat) (p1 p2 p3 : Vec) : State × Flying :=
  let id := (s.core p).msgid
  let m : Msg := { hdr := mkHdr hidx 0 id.toNat (placeWord p) s.gtc 0, p1 := p1, p2 := p2, p3 := p3 }
  (({ s with seq := s.seq + 1 } : State).modCore p fun x => { x with msgid := x.msgid + 1 },
    { src := p, dst := dst, msg := m, bank := s.partOf p % 16, seq := s.seq, path := s.path (pkgOf p) (pkgOf dst) 0 })

/-! ## The event log (R335) -/

/-- A ring's next HEAD, or none where the record is dropped. -/
def ringNext (head tail count : Nat) : Option Nat := if (head + 1) % count = tail then none else some ((head + 1) % count)

structure EventRec where
  typ : Nat
  reason : Nat := 0
  place : Nat := 0
  first : Nat := 0
  cnt : Nat := 0
  wher : Nat := 0
  deriving DecidableEq, Repr

def EventRec.bytes (e : EventRec) (gtc : Nat) : List Byte :=
  bytesOfNat 2 (e.typ + 256 * e.reason) ++ bytesOfNat 2 0 ++ bytesOfNat 4 e.place ++ bytesOfNat 4 e.first ++
    bytesOfNat 4 e.cnt ++ bytesOfNat 8 e.wher ++ bytesOfNat 8 gtc

/-- The core that the header of a record's message names: PLACE's; a system core of the ring's die where PLACE names none (R344). -/
def EventRec.sender (e : EventRec) (d : DieId) : Place :=
  if e.place % 2 ^ 22 = 0x3FFFFF then systemCore d 0 else e.place % 2 ^ 22

/-- A record to the ring of a die, and as a message where ELOGM.EN is set: its header names PLACE, and it leaves from the ring's
die. -/
def State.logEvent (s : State) (q : PartId) (d : DieId) (e : EventRec) : State :=
  let b := (s.part q).elogb.toNat
  let count := 2 ^ bitsOf b 28 4
  let die := s.die d
  let bytes := e.bytes s.gtc
  match ringNext die.elogHead die.elogTail count with
  | none => s.modDie d fun x => { x with elogOvr := min 0xFFFF (x.elogOvr + 1) }
  | some h =>
    let s1 := s.writeRun (dieAt d (bitsOf b 5 21 * 32 + 32 * die.elogHead)) bytes
    let s2 := s1.modDie d fun x => { x with elogHead := h }
    let s3 := s2.modPkg (q / 16) fun g => { g with msix := g.msix ++ [(q % 16, 16)] }
    let m := (s.part q).elogm.toNat
    if bitOf m 63 then
      let (s4, f) := s3.commitMsg (e.sender d) (bitsOf m 0 22) (bitsOf m 32 10) (vecOfBytes bytes) (vecOfBytes (bytes.drop 16)) 0
      { s4 with flying := s4.flying ++
        [{ f with bank := q % 16, src := systemCore d 0, path := s4.path (d / 2) (pkgOf f.dst) 0 }] }
    else s3

/-- A bounce that cannot start, or a bounce to an unreachable sender, is discarded and logged (R233): type 2 in the ring of
the die where it is discarded. `addressed` is the place that the original message named. -/
def State.discardBounce (s : State) (at_ : Place) (m : Msg) (sender addressed : Place) : State :=
  s.logEvent (s.partOf at_) (dieOf at_) { typ := 2, place := sender, first := m.id, wher := addressed }

/-- A message to `dst` that cannot start is returned to its sender's entry 1023 (R233), from the place `at_` where it is turned
back. -/
def State.bounce (s : State) (bank : Nat) (at_ dst : Place) (m : Msg) (bnc : Nat) : State :=
  if m.bnc ≠ 0 then s.discardBounce at_ m dst m.splace
  else
    let sender := m.splace
    let b : Msg := { m with hdr := mkHdr 1023 bnc m.id dst m.sgtc m.hidx }
    if s.unreachable bank sender then s.discardBounce at_ m sender dst
    else { s with seq := s.seq + 1, flying := s.flying ++
      [{ src := at_, dst := sender, msg := b, bank := bank, seq := s.seq, path := s.path (pkgOf at_) (pkgOf sender) 0 }] }

/-! ## Inboxes (R36, R233) -/

/-- The head message of an inbox: the oldest that runs on no context. -/
def Core.headMsg (x : Core) : Option InSlot := x.inbox.find? fun m => m.runs.isNone

/-- The head message's time at the head counts from the cycle in which it became the head; no other message has one (R233). -/
def Core.noteHead (x : Core) (now : Nat) : Core :=
  let n := (x.headMsg.map (·.num))
  { x with inbox := x.inbox.map fun m => { m with headAt := if n = some m.num then some (m.headAt.getD now) else none } }

/-- An inbox's new contents. -/
def State.modInbox (s : State) (p : Place) (f : Core → Core) : State := s.modCore p fun k => (f k).noteHead (s.now p)

def State.dropHead (s : State) (p : Place) (m : InSlot) : State :=
  s.modInbox p fun k => { k with inbox := k.inbox.filter fun n => n.num != m.num }

/-- The head message that cannot start is bounced; a bounce is discarded. -/
def State.refuseHead (s : State) (p : Place) (m : InSlot) (bnc : Nat) : State :=
  (s.dropHead p m).bounce (s.partOf p % 16) p p m.msg bnc

/-- The head message of a core has met a locked entry for more than 4,096 cycles of its time at the head (R233). -/
def State.lockedOut (s : State) (p : Place) : Option InSlot :=
  let k := s.core p
  match k.headMsg with
  | none => none
  | some m => if !k.inboxHeld && (match m.headAt with | some t => decide (t + Config.lockedLimit < s.now p) | none => false)
      then some m else none

/-! ## Completion counters (R237, R238, R142) -/

def State.counter (s : State) (p : Place) (k : Nat) : Counter := SMap.look (s.core p).counters k {}
def State.setCounter (s : State) (p : Place) (k : Nat) (x : Counter) : State :=
  s.modCore p fun c => { c with counters := SMap.put c.counters k x }
def Counter.status (x : Counter) : Word :=
  BitVec.ofNat 64 (x.value.toNat + 2 ^ 32 * x.err.toNat + 2 ^ 33 * x.scope.toNat + 2 ^ 40 * min x.deliv (2 ^ 24 - 1))
/-- VALUE wraps; increments go on in ERROR. -/
def State.incCounter (s : State) (p : Place) (k : Nat) : State :=
  s.setCounter p k { s.counter p k with value := (s.counter p k).value + 1 }

/-- Reasons of engine errors that the event log carries (R335). -/
def loggedReason (r : Nat) : Bool := [1, 2, 4, 10].contains r

/-- A failed operation: its event record first, then its counter enters ERROR; only the first failure writes the record. -/
def State.errCounter (s : State) (c : CtxId) (k first reason deliv : Nat) (wher : Nat) : State :=
  let p := coreOf c
  let s1 := if loggedReason reason then
      s.logEvent (s.partOf p) (dieOf p)
        { typ := 1, reason := reason, place := placeWord p + 2 ^ 22 * ctxNo c, first := first, cnt := k, wher := wher }
    else s
  let x := s1.counter p k
  s1.setCounter p k (if x.err then x else
    { x with err := true, deliv := min deliv (2 ^ 24 - 1), record := BitVec.ofNat 64 (first % 2 ^ 32 + 2 ^ 32 * reason) })

/-! ## Wave counters (R311, R371) -/

/-- A wave counter's VALUE has reached a threshold, as a dependence tests it. -/
def wcReached (v : Word) (thr : Nat) : Bool := decide ((v.toNat % 2 ^ 32 + 2 ^ 32 - thr) % 2 ^ 32 < 2 ^ 31)

/-- A wave counter takes a value, and raises the MSI-X vectors whose thresholds it reaches with it (log 26). -/
def State.setWc (s : State) (q : PartId) (k : Nat) (v : Word) : State :=
  let old : Word := SMap.look (s.part q).wc k 0
  let hit := ((s.part q).thresholds.filter fun e => decide (e.2.1 = k) && !wcReached old (e.2.2.toNat % 2 ^ 32) &&
    wcReached v (e.2.2.toNat % 2 ^ 32)).map fun e => (q % 16, e.1)
  (s.modPart q fun x => { x with wc := SMap.put x.wc k v }).modPkg (q / 16) fun g => { g with msix := g.msix ++ hit }

/-! ## Suspect scores (R348, R352) -/

def Package.threshold (g : Package) : Nat := if g.suspth = 0 then 1 else g.suspth.toNat

/-- The cluster is quarantined: its QUAR bit and a type-7 record. -/
def State.quarantine (s : State) (k : ClusterId) (reason : Nat) : State :=
  if s.quarantined k then s
  else
    let d := dieOfCluster k
    let s1 := s.modDie d fun x => { x with quar := x.quar ||| BitVec.ofNat 64 (2 ^ (k % 64)) }
    s1.logEvent (s.partOf (8 * k)) d { typ := 7, reason := reason, place := 8 * k, first := (s.cluster k).susp.toNat }

/-- A cluster's score gains one, saturating; at SUSPTH it is quarantined. -/
def State.suspect (s : State) (k : ClusterId) : State :=
  let n := min 255 ((s.cluster k).susp.toNat + 1)
  let s1 := s.modCluster k fun x => { x with susp := BitVec.ofNat 8 n }
  if (s.pkg (pkgOfCluster k)).threshold ≤ n then s1.quarantine k 1 else s1

/-! ## The trace ring (R360, R361) -/

structure TraceRec where
  typ : Nat
  ctx : CtxId
  taskid : BitVec 32
  a : Word
  b : Word
  deriving DecidableEq, Repr

def State.trace (s : State) (r : TraceRec) : State :=
  let p := coreOf r.ctx
  let d := dieOf p
  let die := s.die d
  let n := die.trb.toNat
  match ringNext die.trpHead die.trpTail (2 ^ bitsOf n 28 4) with
  | none => s.modDie d fun x => { x with trpOvr := min 0xFFFF (x.trpOvr + 1) }
  | some h =>
    let bytes := bytesOfNat 2 (r.typ + 256 * ctxNo r.ctx) ++ bytesOfNat 2 (p % 1024) ++ bytesOfNat 4 r.taskid.toNat ++
      bytesOfNat 8 s.gtc ++ bytesOfNat 8 r.a.toNat ++ bytesOfNat 8 r.b.toNat
    (s.writeRun (dieAt d (bitsOf n 5 21 * 32 + 32 * die.trpHead)) bytes).modDie d fun x => { x with trpHead := h }

/-- A record that TRCTL bit `bit` turns on, of a context that is no shadow or referee run (R356). -/
def State.traceIf (s : State) (bit : Nat) (r : TraceRec) : State :=
  let role := (s.ctx r.ctx).role
  if (s.part (s.partOfCtx r.ctx)).trctl.getLsbD bit && decide (role ≠ .shadow) && decide (role ≠ .referee) then s.trace r
  else s

/-! ## Lines (R47, R156-R159) -/

def lineVa (ptr : Word) : Nat := vaOf ptr / 64 * 64
def headIx (ptr : Word) : Nat := ptr.toNat % 64
/-- The pointer after head k of a line of hc heads, in fetch order (R159). -/
def ptrAfter (ptr : Word) (hc : Nat) : Word :=
  if headIx ptr < hc then ptr + 1 else BitVec.ofNat 64 ((lineVa ptr + 64) % 2 ^ 52 + 1)

def halvesOf : List Byte → List Half
  | a :: b :: t => (b ++ a) :: halvesOf t
  | _ => []

/-- A line read for fetch: X on global pages, LBANKS on local memory (R159). -/
def State.fetchLine (s : State) (c : CtxId) (va : Nat) : Except Trap (State × Line) :=
  let ptr := BitVec.ofNat 64 va
  let vas := runFrom va 64
  match s.resolve (s.agent c) .fetch ptr vas true false true with
  | .error t => .error t
  | .ok (s1, l) =>
    match s1.poisonedTrap ptr vas l with
    | some t => .error t
    | none => .ok (s1, halvesOf (s1.bytesOf l))

/-- The head count of a line as fetched, or as memory holds it where it can be read. -/
def State.lineHcAt (s : State) (c : CtxId) (va : Nat) : Option Nat :=
  match (s.ctx c).lines.find? (·.1 == va) with
  | some l => some (lineHc l.2)
  | none =>
    match s.fetchLine c va with
    | .ok (_, l) => some (lineHc l)
    | .error _ => none

/-- The pointer n heads after a head, in fetch order; none where a line on the way cannot be read. -/
def State.ptrLater (s : State) (c : CtxId) : Nat → Word → Option Word
  | 0, ptr => some ptr
  | n + 1, ptr =>
    match s.lineHcAt c (lineVa ptr) with
    | none => none
    | some hc => State.ptrLater s c n (ptrAfter ptr hc)

end Sys2Proof.Machine
end

