-- ==== Sys2Proof/Machine/Groups.lean ====
section
/-! DEFINITION. Launch descriptors (R309, R310), what a core can still hold (R313), the constant-bank image (R381), and what the
end of a group's member leaves of its banks (R35, R200, R314). -/

namespace Sys2Proof.Machine

/-! ## Descriptors (R309, R310) -/

/-- The fields of a descriptor's 64 bytes. -/
def descOf (l : List Byte) : Desc :=
  let b := fun off n => fieldAt l off n
  { entry := BitVec.ofNat 64 (b 0 8), arg := BitVec.ofNat 64 (b 8 8), cimg := BitVec.ofNat 64 (bitsOf (b 16 8) 0 52)
    clen := bitsOf (b 16 8) 52 7, cores := bitsOf (b 24 1) 0 3 + 1, cpc := bitsOf (b 24 1) 3 2 + 1
    width := bitsOf (b 25 1) 0 4 + 1, height := bitsOf (b 25 1) 4 3 + 1, sp := bitOf (b 25 1) 7
    banks := bitsOf (b 26 1) 0 4, ccn := bitsOf (b 27 1) 0 7, count := bitsOf (b 28 4) 0 24, cbn := bitsOf (b 28 4) 24 5
    chk := bitOf (b 32 2) 0, sig := bitOf (b 32 2) 1, chkd := bitOf (b 32 2) 2, rslot := bitsOf (b 32 2) 3 1
    hkey := BitVec.ofNat 16 (b 34 2), ten := BitVec.ofNat 7 (b 36 1), done := b 37 1, pin := bitsOf (b 38 2) 0 7
    pinned := bitOf (b 38 2) 15, budget := BitVec.ofNat 64 (b 40 8), dep0 := bitsOf (b 48 4) 0 8, thr0 := bitsOf (b 48 4) 8 24
    dep1 := bitsOf (b 52 4) 0 8, thr1 := bitsOf (b 52 4) 8 24, rkey := BitVec.ofNat 16 (b 56 2), cdst := bitsOf (b 58 3) 0 18
    deal := b 61 1 }

/-- No reserved bit is set. -/
def descReserved (l : List Byte) : Bool :=
  let z := fun off n lo w => decide (bitsOf (fieldAt l off n) lo w = 0)
  z 16 8 59 5 && z 24 1 5 3 && z 26 1 4 4 && z 27 1 7 1 && z 28 4 29 3 && z 32 2 4 12 && z 36 1 7 1 && z 38 2 7 8 &&
    z 58 3 18 6 && z 62 2 0 16

/-- Every field lies inside the limits of R309 and R310 that need no machine to check. -/
def Desc.inLimits (d : Desc) (span : Nat) : Bool :=
  let ix := headIx d.entry
  decide (1 ≤ ix) && decide (ix ≤ 31) && decide (d.clen ≤ 64) && decide (1 ≤ d.banks) && decide (d.banks ≤ 12) &&
    decide (d.ccn ≤ 64) && decide (1 ≤ d.count) && decide (d.cbn ≤ 16) && decide (d.cimg.toNat % 8 = 0) &&
    (decide (d.clen = 0) || decide (windowOf d.cimg.toNat = some .die) || decide (windowOf d.cimg.toNat = some .glob)) &&
    decide (d.cdst % 8 = 0) && decide (d.cdst + 8 * d.clen ≤ 16384 * d.banks) &&
    (if d.sp then decide (d.width * d.height ≤ 16) && !d.pinned else decide (span = 0))

/-! ## The clusters and cores of a part (R313) -/

def State.healthyCore (s : State) (p : Place) : Bool := !s.harvested (pkgOf p) (p % 1024)

/-- A part's clusters in logical order: quarantined ones and those without a healthy core are skipped. -/
def State.logical (s : State) (q : PartId) : List ClusterId :=
  ((List.range 128).map (128 * (q / 16) + ·)).filter fun k =>
    (s.part q).owns k && !s.quarantined k && (List.range 8).any fun i => s.healthyCore (8 * k + i)

/-- Bits of a mask, lowest first. -/
def onesOf (n m : Nat) : List Nat := (List.range n).filter fun i => bitOf m i
def maskOf (l : List Nat) : Nat := l.foldl (fun a i => a + 2 ^ i) 0

/-- The holdings of the groups of a part on a core. -/
def Part.holdsOn (q : Part) (p : Place) : List Hold := (q.groups.flatMap fun e => e.2.holds).filter fun h => h.core == p
def State.freeCounters (s : State) (q : PartId) (p : Place) : List Nat :=
  let used := (s.core p).hccown ||| ((s.part q).holdsOn p).foldl (fun a h => a ||| h.ccown) 0
  (List.range 64).filter fun i => !used.getLsbD i
def State.freeBuffers (s : State) (q : PartId) (p : Place) : List Nat :=
  let used := (s.core p).hcbown ||| ((s.part q).holdsOn p).foldl (fun a h => a ||| h.cbown) 0
  (List.range 16).filter fun i => !used.getLsbD i
/-- The free contexts of a core; one freed in this cycle takes new work from the next cycle on (R49). -/
def State.freeContexts (s : State) (p : Place) : List Nat :=
  (List.range 4).filter fun i => decide ((s.ctx (ctxAt p i)).run = .free) && !s.freed.contains (ctxAt p i)

def Core.banksWhere (c : Core) (f : Bank → Bool) : List Nat := (List.range 12).filter fun i => f (c.banks.getD i .off)

/-- The banks retained under a descriptor's pair: none without RKEY. -/
def Core.retainedFor (c : Core) (d : Desc) : List Nat :=
  if d.rkey = 0 then [] else c.banksWhere fun b => b == .retained d.rslot d.rkey

/-- The banks a group takes on a core, and whether they come retained (R313). -/
def State.banksFor (s : State) (p : Place) (d : Desc) : Option (List Nat × Bool) :=
  let c := s.core p
  let r := c.retainedFor d
  if d.banks = r.length ∧ r ≠ [] then some (r, true)
  else
    let off := (c.banksWhere (· == .off)).filter fun i => !c.hbanks.getLsbD i
    if d.banks ≤ off.length then some (off.take d.banks, false) else none

/-- A core fit for one group (R313). -/
def State.fit (s : State) (q : PartId) (d : Desc) (p : Place) : Bool :=
  s.healthyCore p && !s.quarantined (clusterOf p) && !(s.cluster (clusterOf p)).fenced &&
    decide (d.cpc ≤ (s.freeContexts p).length) && (s.banksFor p d).isSome && decide (d.ccn ≤ (s.freeCounters q p).length) &&
    decide (d.cbn ≤ (s.freeBuffers q p).length)

def State.comesRetained (s : State) (p : Place) (d : Desc) : Bool :=
  match s.banksFor p d with | some (_, r) => r | none => false

/-- The cores a group takes on a cluster: those with retained banks first, then the lowest; in ascending order (log 10). -/
def State.coresFor (s : State) (q : PartId) (d : Desc) (k : ClusterId) : Option (List Place) :=
  let l := ((List.range 8).map (8 * k + ·)).filter (s.fit q d)
  let chosen := ((l.filter fun p => s.comesRetained p d) ++ l.filter fun p => !s.comesRetained p d).take d.cores
  if chosen.length = d.cores then some (chosen.foldl natInsert []) else none

/-- The rectangle of a span from an origin cluster (R313), row-major; none where it leaves the mesh. -/
def rectFrom (k : ClusterId) (w h : Nat) : Option (List ClusterId) :=
  let g := pkgOfCluster k
  let x := meshX k
  let y := meshY k
  if x + w ≤ 16 ∧ y + h ≤ 8 then
    some ((List.range h).flatMap fun j => (List.range w).map fun i => clusterAt g (x + i) (y + j))
  else none

/-- The clusters that one placement of a wave takes from an origin: one, or a span's rectangle. -/
def Desc.clustersFrom (d : Desc) (k : ClusterId) : Option (List ClusterId) :=
  if d.sp then rectFrom k d.width d.height else some [k]

/-- Whether every cluster of the placement can hold its group now; the cores of each. -/
def State.placementAt (s : State) (q : PartId) (d : Desc) (k : ClusterId) : Option (List (ClusterId × List Place)) :=
  match d.clustersFrom k with
  | none => none
  | some l =>
    if l.all fun j => (s.logical q).contains j then
      l.mapM fun j => (s.coresFor q d j).map fun c => (j, c)
    else none

/-- Whether a cluster with all its healthy cores free could hold one group (R310): handler banks, counters and buffers are not
free. -/
def State.couldHold (s : State) (d : Desc) (k : ClusterId) : Bool :=
  decide (d.cores ≤ (((List.range 8).map (8 * k + ·)).filter fun p =>
    s.healthyCore p && decide (d.banks ≤ ((List.range 12).filter fun i => !(s.core p).hbanks.getLsbD i).length) &&
      decide (d.ccn ≤ ((List.range 64).filter fun i => !(s.core p).hccown.getLsbD i).length) &&
      decide (d.cbn ≤ ((List.range 16).filter fun i => !(s.core p).hcbown.getLsbD i).length)).length)

/-- The check of R310 on a descriptor's bytes. -/
def State.checkDesc (s : State) (q : PartId) (pinok : Bool) (l : List Byte) : Option Desc :=
  let d := descOf l
  let lg := s.logical q
  if descReserved l && d.inLimits (bitsOf (fieldAt l 25 1) 0 7) && (!d.pinned || pinok) &&
      lg.any fun k => match d.clustersFrom k with
        | none => false
        | some r => r.all fun j => lg.contains j && s.couldHold d j
  then some d else none

/-! ## Banks -/

/-- A bank without power: its words read zero and empty when it is next powered up (R28). -/
def State.clearBank (s : State) (p : Place) (i : Nat) : State :=
  let a := localAt p (16384 * i)
  let inside := fun w => decide (wordIx a ≤ w) && decide (w < wordIx a + 2048)
  { s with mem := Memory.clearRun s.mem a 16384, full := s.full.filter (!inside ·), poison := s.poison.filter (!inside ·) }

def State.setBank (s : State) (p : Place) (i : Nat) (b : Bank) : State :=
  s.modCore p fun c => { c with banks := c.banks.setIfInBounds i b }

def State.bankOff (s : State) (p : Place) (i : Nat) : State := (s.clearBank p i).setBank p i .off
def State.banksOff (s : State) (p : Place) (l : List Nat) : State := l.foldl (fun t i => t.bankOff p i) s
/-- Banks to a holder: one without power is powered up cleared (R28). -/
def State.bankTo (s : State) (p : Place) (b : Bank) (i : Nat) : State :=
  (if (s.core p).banks.getD i .off = .off then s.clearBank p i else s).setBank p i b
def State.banksTo (s : State) (p : Place) (l : List Nat) (b : Bank) : State := l.foldl (fun t i => t.bankTo p b i) s

/-- Handler banks that HBANKS no longer names and no running handler holds are powered down. -/
def State.trimHandlerBanks (s : State) (p : Place) : State :=
  let c := s.core p
  let held := (List.range 4).foldl (fun a i =>
    let x := s.ctx (ctxAt p i)
    match x.kind with | .handler _ => a ||| x.csr.lbanks | _ => a) c.hbanks
  s.banksOff p ((c.banksWhere (· == .handler)).filter fun i => !held.getLsbD i)

/-! ## The constant-bank image (R381) -/

inductive ImageRes where
  | done (s : State)
  | fault (t : Trap)
  /-- a word with an uncorrectable error: its VA and place -/
  | poisoned (va : Word) (place : Nat)
  deriving DecidableEq, Repr

/-- Entries i, i + 1, … of the image to a core's banks at CBASE. -/
def State.copyEntries (s : State) (g : Agent) (cimg cbase : Nat) : Nat → Nat → ImageRes
  | 0, _ => .done s
  | n + 1, i =>
    let ptr := BitVec.ofNat 64 (cimg + 8 * i)
    let vas := runFrom (cimg + 8 * i) 8
    match s.resolve g .serviceRead ptr vas true false false with
    | .error t => .fault t
    | .ok (s1, l) =>
      match s1.poisonedVa vas l with
      | some va => .poisoned (BitVec.ofNat 64 va) (l.headD 0)
      | none => State.copyEntries (s1.writeRun (localAt g.core (cbase + 8 * i)) (s1.bytesOf l)) g cimg cbase n (i + 1)

/-- The image of a group's descriptor to one core, for the tasks whose CBASE is given. -/
def State.copyImage (s : State) (q : PartId) (p : Place) (d : Desc) (cbase : Nat) : ImageRes :=
  s.copyEntries { core := p, part := q, level := .task, hkey := d.hkey, lbanks := 0xFFF } d.cimg.toNat cbase d.clen 0

/-! ## Groups -/

def State.groupOf (s : State) (c : CtxId) : Option Group :=
  match (s.ctx c).kind with
  | .launched g => SMap.look ((s.part (s.partOfCtx c)).groups.map fun e => (e.1, some e.2)) g none
  | _ => none
def State.setGroup (s : State) (q : PartId) (g : Group) : State :=
  s.modPart q fun x => { x with groups := SMap.put x.groups g.num g }

/-- Task index within the group: core-in-group × contexts-per-core + context-in-group (R34). -/
def Group.indexOf (g : Group) (c : CtxId) : Nat := g.members.idxOf c

/-- How a task ended (R35). -/
inductive EndKind where
  | halt
  | succ (addr : Word)
  | killed
  | msgdone
  deriving DecidableEq, Repr

/-- A run that keeps nothing behind (R349). -/
def Role.digestOnly : Role → Bool
  | .shadow | .referee => true
  | _ => false

/-- The descriptor at a successor's address, as a plain load of the ending task reads it. -/
def State.readDesc (s : State) (c : CtxId) (a : Word) : Option (List Byte) :=
  let vas := runFrom (vaOf a) 64
  match s.resolve (s.agent c) .load a vas true true true with
  | .error _ => none
  | .ok (s1, l) => if (s1.poisonedVa vas l).isSome then none else some (s1.bytesOf l)

/-- Banks held for a successor that does not come are powered down. -/
def State.dropPending (s : State) (k : ClusterId) (g : Nat) : State :=
  (List.range 8).foldl (fun t i => t.banksOff (8 * k + i) ((t.core (8 * k + i)).banksWhere (· == .pending g))) s

/-- The record of a successor that was not placed (R314, R335). -/
def State.logSuccessor (s : State) (q : PartId) (p : Place) (c : CtxId) (a : Word) : State :=
  s.logEvent q (dieOf p) { typ := 3, place := placeWord p + 2 ^ 22 * ctxNo c, wher := a.toNat }

/-- The last member on a core has ended: the banks there are kept for a successor, retained, or powered down. -/
def State.endOnCore (s : State) (q : PartId) (g : Group) (p : Place) : State :=
  let mine := g.members.filter fun c => coreOf c == p
  let banks := (s.core p).banksWhere (· == .group g.num)
  let names := g.succs.filter fun e => mine.contains e.1
  let same := match names with | [] => false | e :: t => t.all fun f => f.2 == e.2
  let s1 :=
    if decide (names.length = mine.length) && same && !g.role.digestOnly then s.banksTo p banks (.pending g.num)
    else if names = [] ∧ !(mine.any fun c => g.killed.contains c) ∧ g.desc.rkey ≠ 0 ∧ !g.role.digestOnly then
      s.banksTo p banks (.retained g.desc.rslot g.desc.rkey)
    else s.banksOff p banks
  s1.setGroup q { g with holds := g.holds.filter fun h => h.core != p }

/-- The last member of a group has ended: its successor is handed over (R200). A PINNED successor has no queue and passes the
check of R310 as on a queue whose PINOK is set (DESIGN CHOICE, log 63). -/
def State.endGroup (s : State) (q : PartId) (g : Group) (c : CtxId) (how : EndKind) : State :=
  let keep : State := if g.role = .plain then s.modPart q fun x => { x with groups := SMap.drop x.groups g.num } else s
  match how with
  | .succ a =>
    if g.role.digestOnly then keep
    else
      let other := g.succs.filter fun e => e.2 != a
      let s1 := (other.map fun e => coreOf e.1).foldl (fun t p =>
        t.banksOff p ((t.core p).banksWhere (· == .pending g.num))) keep
      match (s.readDesc c a).bind (s.checkDesc q true) with
      | none => (s1.logSuccessor q (coreOf c) c a).dropPending g.cluster g.num
      | some d =>
        s1.modPart q fun x =>
          { x with waveNum := x.waveNum + 1
                   succs := x.succs ++ [{ num := x.waveNum, queue := 0, desc := d, succ := some (a, g.num, c) }] }
  | _ => keep.dropPending g.cluster g.num

/-- A member of a group ends: its group's record, then the banks on its core, then the group (R35, R200, R314, R350). -/
def State.leaveGroup (s : State) (c : CtxId) (how : EndKind) : State :=
  match s.groupOf c with
  | none => s
  | some g0 =>
    let q := s.partOfCtx c
    let g : Group :=
      { g0 with
        ended := g0.ended ++ [c]
        succs := match how with | .succ a => g0.succs ++ [(c, a)] | _ => g0.succs
        killed := if how = .killed then g0.killed ++ [c] else g0.killed
        noDigest := g0.noDigest || decide (how = .killed)
        digests := SMap.put g0.digests (g0.indexOf c) (s.ctx c).digest }
    let s1 := s.setGroup q g
    let here := g.members.filter fun m => coreOf m == coreOf c
    let s2 := if here.all g.ended.contains then s1.endOnCore q g (coreOf c) else s1
    if g.members.all g.ended.contains then
      s2.endGroup q ((SMap.look ((s2.part q).groups.map fun e => (e.1, some e.2)) g.num none).getD g) c how
    else s2

/-- A run of a checked launch that traps gives no digest (R351). -/
def State.spoilDigest (s : State) (c : CtxId) : State :=
  match s.groupOf c with
  | none => s
  | some g => if g.role = .plain then s else s.setGroup (s.partOfCtx c) { g with noDigest := true }

/-! ## Requests of the shared units (R266) -/

def SharedUnit.reqsOf (u : SharedUnit) (c : CtxId) : List UnitReq :=
  (u.results.map (·.1) ++ (u.service.map (·.1)).toList ++ u.queue).filter fun r => r.ctx == c
/-- A context's requests are removed; the unit begins another one in the following cycle. -/
def SharedUnit.without (u : SharedUnit) (c : CtxId) (now : Nat) : SharedUnit :=
  { queue := u.queue.filter (·.ctx != c), service := u.service.filter (·.1.ctx != c)
    freeAt := match u.service with | some (r, _) => if r.ctx = c then now + 1 else u.freeAt | none => u.freeAt
    results := u.results.filter (·.1.ctx != c) }

def insertReq (r : UnitReq) : List UnitReq → List UnitReq
  | [] => [r]
  | a :: t => if r.seq < a.seq then r :: a :: t else a :: insertReq r t

/-- A context's requests in their original order. -/
def State.unitReqs (s : State) (c : CtxId) : List UnitReq :=
  let x := s.core (coreOf c)
  (x.sfu.reqsOf c ++ x.div.reqsOf c).foldr insertReq []
def State.dropUnitReqs (s : State) (c : CtxId) : State :=
  s.modCore (coreOf c) fun x => { x with sfu := x.sfu.without c (s.nowCtx c), div := x.div.without c (s.nowCtx c) }

end Sys2Proof.Machine
end

