-- ==== Sys2Proof/Machine/Ops.lean ====
section
/-! DEFINITION. What every head shares: its checks in order (R165), its retirement with delay slots, loops and gangs (R44,
R166, R170-R172, R197, R203), the end of a task (R35), basin resets (R342, R343), taking a trap (R326-R334) and returning
from one (R212, R331). -/

namespace Sys2Proof.Machine

/-- The outcomes of a step. -/
abbrev Out := Host.Outcome State Fault Refusal

/-- Where a context goes after a head. -/
inductive Flow where
  /-- the next head in fetch order, or as the delay slots have it -/
  | seq
  /-- the same, and the head does not act as a loop return: `lp` replaces the active loop (R197) -/
  | noLoop
  /-- a control transfer with two delay slots: its target if it is taken (R170) -/
  | transfer (target : Option Word)
  /-- continue at a pointer without delay slots -/
  | goto (ptr : Word)
  /-- the task ends -/
  | ends (how : EndKind)
  /-- the meaning has retired the head and set the context's place itself -/
  | stay
  deriving DecidableEq, Repr

/-- What a head that passed its checks comes to. -/
inductive Eff where
  | done (s : State) (f : Flow)
  /-- a precise trap: the head has no effect -/
  | trap (t : Trap)
  /-- the head issues and its trap is taken before the next head (R202) -/
  | after (s : State) (t : Trap)
  /-- the head cannot issue now -/
  | hold
  /-- a waiting head whose condition does not hold (R220), with what its arrival leaves -/
  | wait (s : State)

/-! ## Gangs (R41-R46) -/

def State.gangWith (s : State) (c : CtxId) : Option Gang := s.gangs.find? fun g => g.formed && g.members.contains c
def State.setGang (s : State) (g : Gang) : State :=
  { s with gangs := s.gangs.map fun h => if h.num = g.num then g else h }
def State.dropGang (s : State) (n : Nat) : State := { s with gangs := s.gangs.filter fun h => h.num != n }

def Context.setGangBits (x : Context) (g : BitVec 2) : Context := { x with csr := { x.csr with gang := g } }

/-- A forwarded stream that has ended: a follower with nothing buffered fetches for itself (R44). -/
def Context.endStream (x : Context) : Context :=
  match x.gangEnd, x.fwd with
  | some p, [] => { (x.setGangBits 0) with gangEnd := none, gangSlots := 0, pc := p.getD x.pc, lines := [] }
  | _, _ => x

/-- The gang ends: its followers issue what they hold, then fetch for themselves (R44). -/
def State.dissolveGang (s : State) (g : Gang) (after : Option Word) : State :=
  let t := g.members.foldl (fun t m =>
    if m = g.leader then t.modCtx m fun x => x.setGangBits 0
    else t.modCtx m fun x =>
      if x.csr.gang == 2 then ({ x with gangEnd := some after } : Context).endStream else x.setGangBits 0) s
  t.dropGang g.num

/-- A gang that forms or rejoins forgets the arrival of a context that no longer waits. -/
def State.withdraw (s : State) (c : CtxId) : State :=
  { s with gangs := (s.gangs.map fun g =>
      let a := g.arrived.filter (· != c)
      { g with arrived := a, since := if a = [] then none else g.since
               joinPtr := if a = [] then none else g.joinPtr }).filter fun g => g.formed || !g.arrived.isEmpty }

/-- A context leaves its gang: its arrival is forgotten, a follower is removed, a leader's gang ends. -/
def State.quitGang (s : State) (c : CtxId) : State :=
  let s1 := s.withdraw c
  match s1.gangWith c with
  | none => s1
  | some g =>
    if g.leader = c then s1.dissolveGang g none
    else (s1.setGang { g with members := g.members.filter (· != c) }).modCtx c fun x =>
      { (x.setGangBits 0) with fwd := [], gangSlots := 0, gangEnd := none }

/-- A follower detaches without a transfer: it fetches for itself from its next head (R44). -/
def Context.detach (x : Context) : Context := { (x.setGangBits 3) with fwd := [], gangSlots := 0, gangEnd := none, lines := [] }

/-- Skew of member m of a gang whose leader is on core c0 of its cluster (R42). -/
def skewOf (c0 m : Nat) : Nat := m + 3 * ((c0 + m) / 8)
def Gang.skew (g : Gang) (m : CtxId) : Nat := skewOf (coreOf g.leader % 8) (g.order.idxOf m)

/-- A leader's head goes to every follower that still takes its stream (R42): no earlier than the leader's issue cycle plus the
skew, counted by the follower's own clock (R374). -/
def State.forward (s : State) (i : Instr) (led : Bool) (out : Option Word) : State :=
  match s.gangWith s.cur.ctx with
  | none => s
  | some g =>
    if g.leader ≠ s.cur.ctx ∨ !led then s
    else
      let f : Forwarded := { instr := i, issue := { s.cur with forwarded := true }, due := 0, out := out }
      g.members.foldl (fun t m => if m = g.leader then t else t.modCtx m fun x =>
        if x.csr.gang == 2 ∨ (x.csr.gang == 3 ∧ x.fwd.length < x.gangSlots) then
          { x with fwd := x.fwd ++ [{ f with issue := { f.issue with ctx := m }, due := s.nowCtx m + g.skew m }] }
        else x) s

/-! ## The end of a task (R35) -/

/-- A request that changes memory: a store or an atomic operation. -/
def FabReq.writes (r : FabReq) : Bool :=
  match r.instr with
  | .ld .. | .ldv .. | .ldf .. | .ldacq .. | .ldbit .. => false
  | _ => true

/-- What an ended context had on its way: loads are cancelled; stores and atomics in the fabric are still performed (R266, R138),
those of near memory go with the task. -/
def State.dropResults (s : State) (c : CtxId) : State :=
  let t := s.dropUnitReqs c
  let u := t.modCore (coreOf c) fun x =>
    { x with
      fabric := (x.fabric.filter fun r => r.ctx != c || (r.writes && r.bytes.all fun e => decide (e.2 < scratchBase))).map
        fun r => if r.ctx = c then { r with dst := none } else r
      port := x.port.map fun e => if e.ctx = c then { e with sd := none } else e }
  u.modPart (u.partOfCtx c) fun q =>
    { q with launching := q.launching.map fun l => if l.ctx = c then { l with sd := 0 } else l }

/-- A context back on the free list with nothing of its task but the cycle from which it may issue again (R166). -/
def State.freeCtx (s : State) (c : CtxId) : State :=
  { s.setCtx c { readyAt := (s.ctx c).readyAt } with freed := natInsert s.freed c }

/-- A task that starts on a context waits out the stall count of the head that issued there last (R166). -/
def Context.notBefore (x : Context) (n : Nat) : Context := { x with readyAt := max n x.readyAt }

/-- The task-end record of a context that runs a task (R360). -/
def State.traceEnd (s : State) (c : CtxId) (ptr : Word) : State :=
  let x := s.ctx c
  if x.kind = .none then s else s.traceIf 1 { typ := 3, ctx := c, taskid := x.csr.taskid, a := ptr, b := BitVec.ofNat 64 (s.nowCtx c - x.startCycle) }

/-- The inbox slot of a handler's message. -/
def State.slotOf (s : State) (c : CtxId) : Option InSlot :=
  match (s.ctx c).kind with
  | .handler e => (s.core (coreOf c)).inbox.find? fun m => m.num == e
  | _ => none
def State.dropSlot (s : State) (c : CtxId) : State :=
  match (s.ctx c).kind with
  | .handler e => s.modInbox (coreOf c) fun x => { x with inbox := x.inbox.filter fun m => m.num != e }
  | _ => s

/-- A saturating sum. -/
def satAdd (bits a b : Nat) : Nat := min (2 ^ bits - 1) (a + b)

/-- The delay table's entry of a place: its own, else the lowest invalid one of 0 to 14, else 15 (R362). -/
def Core.delayIx (x : Core) (place : Nat) : Nat :=
  match (List.range 16).find? fun i => (SMap.look x.delays i {}).valid && (SMap.look x.delays i {}).place == place with
  | some i => i
  | none =>
    match (List.range 15).find? fun i => !(SMap.look x.delays i {}).valid with
    | some i => i
    | none => 15
def State.addDelay (s : State) (p : Place) (place transit wait run : Nat) : State :=
  s.modCore p fun x =>
    let i := x.delayIx place
    let d := SMap.look x.delays i {}
    let e : Delay :=
      { valid := true, place := if i = 15 then 0x3FFFFF else place, count := satAdd 32 d.count 1
        transit := satAdd 64 d.transit transit, wait := satAdd 64 d.wait wait, run := satAdd 64 d.run run }
    { x with delays := SMap.put x.delays i e }

/-- `msgdone` frees the slot, updates the delay table and writes the handler-done record (R38, R360, R362). -/
def State.finishMessage (s : State) (c : CtxId) : State :=
  match s.slotOf c with
  | none => s
  | some m =>
    let x := s.ctx c
    let transit := (m.arrival + 2 ^ 48 - m.msg.sgtc) % 2 ^ 48
    let wait := x.startGtc - m.arrival
    let run := s.gtc - x.startGtc
    let cap := fun n => min (2 ^ 20 - 1) n
    let s1 := s.addDelay (coreOf c) m.msg.splace transit wait run
    let s2 := s1.traceIf 3 { typ := 5, ctx := c, taskid := x.csr.taskid, a := m.msg.hdr.setWidth 64
                             b := BitVec.ofNat 64 (cap transit + 2 ^ 20 * cap wait + 2 ^ 40 * cap run) }
    s2.dropSlot c

/-- The operations of a send buffer commit in issue order (R38, R144). -/
def State.commitBuf (s : State) (c : CtxId) : State :=
  (s.ctx c).sendBuf.foldl (fun t o =>
    let add := fun (u : State) (o : SendOp) => u.modCtx c fun x => { x with sendBuf := x.sendBuf ++ [o] }
    match o with
    | .send dst hidx p1 p2 p3 => let (u, f) := t.commitMsg (coreOf c) dst hidx p1 p2 p3; add u (.committed f)
    | .engine cmd => add { t with seq := t.seq + 1 } (.engine { cmd with seq := t.seq })
    | .committed f => add t (.committed f)) (s.modCtx c fun x => { x with sendBuf := [] })

/-- A task ends by `halt`, `halt.r` or `msgdone` at the head under issue (R199-R201). -/
def State.endTask (s : State) (c : CtxId) (how : EndKind) (ptr : Word) : State :=
  let s1 := (((s.traceEnd c ptr).discardAu c).dropResults c).quitGang c
  match how with
  | .msgdone =>
    let s2 := (s1.finishMessage c).commitBuf c
    if (s2.ctx c).sendBuf = [] then (s2.freeCtx c).trimHandlerBanks (coreOf c)
    else s2.modCtx c fun x => { x with run := .releasing, csr := { x.csr with budgetOn := false, budgetSpent := false }
                                       wait := none, due := none, fwd := [] }
  | _ => (s1.leaveGroup c how).freeCtx c

/-- Head messages that met entry n locked for more than 4,096 cycles are bounced before it unlocks (R233). -/
def State.bounceLocked (s : State) (q : PartId) (n : Nat) : State :=
  if !(s.part q).locked.contains n then s
  else (s.cores.map (·.1)).foldl (fun t p => match t.lockedOut p with
    | some m => if t.partOf p = q ∧ m.msg.hidx = n then t.refuseHead p m 2 else t
    | none => t) s

/-- A handler table entry (R215): 0 empties it; it is unlocked. -/
def State.setHandler (s : State) (q : PartId) (n : Nat) (v : Word) : State :=
  (s.bounceLocked q n).modPart q fun x =>
    { x with handlers := if v = 0 then SMap.drop x.handlers n else SMap.put x.handlers n v, locked := natErase x.locked n }

/-- An `htset` that waits for its entry to be visible completes whatever becomes of its context. -/
def State.finishHtset (s : State) (c : CtxId) : State :=
  match (s.ctx c).wait with
  | some w => match w.instr with
    | .htset a b => s.setHandler (s.partOfCtx c) (s.xOf c a).toNat (s.xOf c (scX b))
    | _ => s
  | none => s

/-- The bytes that a dump appends after the save area: of the context's array frame and of its banks. -/
def State.dumpCells (s : State) (c : CtxId) : Memory :=
  let p := coreOf c
  let x := s.ctx c
  s.mem.filter fun e =>
    ((List.range 12).any fun i => x.csr.lbanks.getLsbD i && decide (localAt p (16384 * i) ≤ e.1) &&
      decide (e.1 < localAt p (16384 * i) + 16384)) ||
    match x.auFrame with
    | some f => decide (dieAt (dieOf p) f ≤ e.1) && decide (e.1 < dieAt (dieOf p) f + Config.frameBytes)
    | none => false

/-- A request for a dump (R363): taken, or counted in LOST. A second cause of a context that already waits for its dump goes
with that dump. -/
def State.askDump (s : State) (c : CtxId) (cause : Nat) (saved : Bool) (save : Nat) : State × Bool :=
  let d := dieOf (coreOf c)
  let x := s.ctx c
  let lost := fun (s : State) => s.modDie d fun y => { y with dumpLost := min 0xFFFF (y.dumpLost + 1) }
  if !(s.part (s.partOfCtx c)).dumpctl.getLsbD 0 then (s, false)
  else match (s.die d).dumps.find? fun e => e.ctx == c with
  | some e =>
    if e.extra.isSome then (lost s, true)
    else (s.modDie d fun y => { y with dumps := y.dumps.map fun f => if f.ctx = c then { f with extra := some cause } else f }, true)
  | none =>
    if (s.die d).dumpFull || decide (Config.dumpSlots ≤ (s.die d).dumps.length) then (lost s, false)
    else
      (s.modDie d fun y => { y with dumps := y.dumps ++
        [{ ctx := c, cause := cause, taskid := x.csr.taskid, saved := saved, save := save, frame := x.auFrame
           lbanks := x.csr.lbanks, kept := if saved then s.dumpCells c else [] }] }, true)

/-- A context whose dump is pending gets no new work (R363). -/
def State.awaitDump (s : State) (c : CtxId) (taken : Bool) : State :=
  if taken then s.modCtx c fun x => { x with run := .dumping } else s

/-- A supervisor kill (R35, R86, R107, R126, R207, R208, R266, R314): a handler's message is discarded; an AU, unit requests,
Pilot requests not started and a launch not enqueued in an earlier cycle go with the task. Operations that `msgdone` released stay. -/
def State.kill (s : State) (c : CtxId) : State :=
  let x := s.ctx c
  if x.run = .free ∨ x.run = .releasing then s
  else if x.run = .dumping then (s.useFree.askDump c (s.freeWord.toNat % 256) false 0).1
  else
    let s1 := ((s.finishHtset c).traceEnd c x.pc).discardAu c
    let s2 := s1.modCore (coreOf c) fun k =>
      { k with pilotQ := k.pilotQ.filter fun r => match r with
          | .dload d .. => d != c | .penc d .. => d != c | .pdec d .. => d != c }
    let s3 := s2.modPart (s2.partOfCtx c) fun q =>
      { q with launching := q.launching.filter (fun l => l.ctx != c)
               waves := q.waves.filter fun w => !(w.launcher == some c && w.since == s.cycle) }
    let s4 := (s3.dropResults c).quitGang c
    match x.kind with
    | .handler _ => (((s4.dropSlot c).modCore (coreOf c) fun k =>
        { k with inboxHeld := k.inboxHeld && decide (x.level = .task) }).freeCtx c).trimHandlerBanks (coreOf c)
    | _ => (s4.leaveGroup c .killed).freeCtx c

/-! ## Basins (R341-R343) -/

def basinRect (b : Nat) (g : PkgId) : List ClusterId :=
  let x0 := bitsOf b 0 4
  let y0 := bitsOf b 4 3
  let x1 := bitsOf b 7 4
  let y1 := bitsOf b 11 3
  (List.range (y1 + 1 - y0)).flatMap fun j => (List.range (x1 + 1 - x0)).map fun i => clusterAt g (x0 + i) (y0 + j)

/-- The clusters of basin k of a part, if it is valid. -/
def State.basinClusters (s : State) (q : PartId) (k : Nat) : List ClusterId :=
  let b := SMap.look (s.part q).basins k (0 : BitVec 16)
  if b.getLsbD 14 then basinRect b.toNat (q / 16) else []

/-- The basin of a cluster: its number, if a valid basin covers it, and its clusters. -/
def State.basinOf (s : State) (k : ClusterId) : Option Nat × List ClusterId :=
  let q := s.partOf (8 * k)
  match (List.range 16).find? fun i => (s.basinClusters q i).contains k with
  | some i => (some i, s.basinClusters q i)
  | none => (none, [k])

/-- Members of a gang outside a reset basin detach (R318 k). -/
def State.detachOutside (s : State) (c : CtxId) (inside : List ClusterId) : State :=
  match s.gangWith c with
  | none => s
  | some g =>
    let out := g.members.filter fun m => !inside.contains (clusterOf (coreOf m))
    let s1 := out.foldl (fun t m => t.modCtx m fun x => if x.csr.gang == 0 then x else x.detach) s
    if out = [] then s1.dropGang g.num
    else s1.setGang { g with members := out, leader := if out.contains g.leader then g.leader else c }

/-- The context consumed an uncorrectable error and its dump was not taken (R342, R363). -/
def Context.dumpRefused (x : Context) : Bool :=
  decide (x.run = .stopped) && match x.due with | some t => t.cause == .uncorrectable | none => false

/-- Every context of a core is killed without a save (R343, mode codes e and t of R318), with a dump of its header alone (R363),
whose CAUSE is a free value. A context that has ended already waits on for its dump; one whose consumption asked for a dump asks
for no second one. -/
def State.killForReset (s : State) (c : CtxId) (inside : List ClusterId) : State :=
  let x := s.ctx c
  if x.run = .free then s
  else
    let ended := decide (x.run = .releasing) || decide (x.run = .dumping ∧ x.kind = .none)
    let (s0, taken) := if x.run = .releasing ∨ (x.run = .dumping ∧ x.kind ≠ .none) ∨ x.dumpRefused then (s, decide (x.run = .dumping))
      else s.useFree.askDump c (s.freeWord.toNat % 256) false 0
    let s1 := (s0.detachOutside c inside).modCtx c fun y => { (y.setGangBits 0) with run := .running }
    ((if ended then s1 else s1.kill c).freeCtx c).awaitDump c (taken || decide (x.run = .dumping))

def State.resetCore (s : State) (p : Place) (inside : List ClusterId) : State :=
  let s1 := (List.range 4).foldl (fun t i => t.killForReset (ctxAt p i) inside) s
  let s2 := (List.range 12).foldl (fun t i => t.bankOff p i) s1
  s2.modCore p fun x =>
    { x with inbox := [], inboxHeld := false, handlerStartAt := none, msgid := 0, outq := []
             counters := [], buffers := [], port := [], transit := [], fabric := [], sfu := {}, div := {}, arrayQ := []
             pilotQ := [], lastIssued := 3, issuedAt := none }

/-- The scratchpad of a cluster reads zero and empty. -/
def State.clearScratch (s : State) (k : ClusterId) : State :=
  let a := scratchBase + k * 2 ^ 21
  let inside := fun w => decide (wordIx a ≤ w) && decide (w < wordIx a + 2 ^ 18)
  { s with mem := Memory.clearRun s.mem a (2 ^ 21), full := s.full.filter (!inside ·), poison := s.poison.filter (!inside ·) }

def State.resetCluster (s : State) (k : ClusterId) (inside : List ClusterId) : State :=
  let s1 := (List.range 8).foldl (fun t i => t.resetCore (8 * k + i) inside) s
  (s1.clearScratch k).modCluster k fun x =>
    { x.reload with
      arr := {}, dicts := [], pilotLast := 7, pilotFreeAt := 0, arrayLast := 7, frames := [], marks := []
      images := [], fenced := true, resetDone := true, consumed := none }

/-- Fence, reset and report (R342, R344): `place` is the consuming place, `pa` what was consumed. A basin that no BASINk names
has no number: its FIRST is a free value. -/
def State.resetBasin (s : State) (k : ClusterId) (place pa : Nat) : State :=
  let (num, l) := s.basinOf k
  if (s.cluster k).fenced then s
  else
    let s1 := l.foldl (fun t j => t.resetCluster j l) s
    let first := match num with | some n => n | none => s1.freeWord.toNat % 2 ^ 32
    let s2 := if num = none then s1.useFree else s1
    s2.logEvent (s2.partOf (8 * k)) (dieOfCluster k) { typ := 5, place := place, first := first, wher := pa }

/-! ## The save area (R327, R329) -/

/-- Offset in the die store of a context's save area. -/
def State.saveOff (s : State) (c : CtxId) : Nat := dieOff (s.core (coreOf c)).sabase + 4096 * ctxNo c

/-- The pending next pointer of a head that stands in a delay slot (R172); none where a line on the way cannot be read. -/
def State.nextPointer (s : State) (c : CtxId) : Option Word :=
  let x := s.ctx c
  if x.dsn = 0 then some 0
  else match x.npc with
    | some p => some p
    | none => s.ptrLater c (3 - x.dsn) x.pc

def reqImage (isDiv : Bool) (r : UnitReq) : List Byte :=
  bytesOfNat 2 r.h.toNat ++ bytesOfNat 2 r.t.toNat ++ bytesOfNat 1 isDiv.toNat ++ List.replicate 11 0 ++
    bytesOfNat 16 r.a.toNat ++ bytesOfNat 16 r.b.toNat

/-- Whether a request is the divider's. -/
def UnitReq.isDiv (r : UnitReq) : Bool := match r.instr with
  | .div .. | .divn .. | .rem .. | .remn .. | .vdiv .. | .vrem .. => true
  | _ => false

/-- CAUSE codes (R332). -/
def Cause.code : Cause → Nat
  | .illegalLine => 1 | .illegalOp => 2 | .illegalOperand => 3 | .stallShort => 4 | .delaySlot => 5 | .priv => 6 | .align => 7
  | .xlateMiss => 8 | .xlatePerm => 9 | .tagMismatch => 0xA | .ptrOvf => 0xB | .arith => 0xC | .bwFull => 0xD
  | .mcfgState => 0xE | .wdeBlock => 0xF | .wdePerm => 0x10 | .watchdog => 0x11 | .sigMismatch => 0x12
  | .engineError => 0x13 | .gang => 0x14 | .saveFault => 0x15 | .brk => 0x16 | .step => 0x17 | .trap => 0x18
  | .uncorrectable => 0x19

/-- The ranges of a save area with the sources of R329. -/
structure SaveParts where
  word0 : Nat
  epc : Word
  npc : Word
  fva : Word
  detail : Word
  msg : Nat
  frame : Nat
  budget : Word
  reqs : List UnitReq
  deriving DecidableEq, Repr

def recordBytes (a : SaveParts) (gtc : Nat) (taskid : BitVec 32) : List Byte :=
  bytesOfNat 8 a.word0 ++ bytesOfNat 8 a.epc.toNat ++ bytesOfNat 8 a.npc.toNat ++ bytesOfNat 8 a.fva.toNat ++
    bytesOfNat 8 a.detail.toNat ++ bytesOfNat 8 a.msg ++ bytesOfNat 8 gtc ++ bytesOfNat 8 taskid.toNat

def registerBytes (x : Context) : List Byte :=
  (((List.finRange 32).flatMap fun i => bytesOfNat 8 (x.sreg i).toNat) ++
    (List.finRange 32).flatMap fun i => bytesOfNat 16 (x.vreg i).toNat) ++
  (((List.finRange 8).flatMap fun i => bytesOfNat 2 (x.preg i).toNat) ++
    (List.finRange 4).flatMap fun i => bytesOfNat 8 (x.breg i).toNat)

def controlWords (x : Context) (budget : Word) : List Word :=
  let r := x.csr
  [r.sw.setWidth 64, r.ten.setWidth 64, r.cbase, r.mode, budget, r.lpcnt, r.lpbeg, r.lpend, r.dsig.setWidth 64, r.pconf,
    r.dropmag, r.gjto.setWidth 64, r.wds]

/-- The 4 KiB of a save area. In weight-driven execution the record of R124 stands in it. -/
def saveBytes (x : Context) (a : SaveParts) (gtc : Nat) : List Byte :=
  recordBytes a gtc x.csr.taskid ++ registerBytes x ++ (controlWords x a.budget).flatMap (fun w => bytesOfNat 8 w.toNat) ++
    List.replicate 8 0 ++ bytesOfNat 32 (x.tcsb.getD 0).toNat ++
    bytesAt ((a.reqs.take 16).flatMap fun r => reqImage r.isDiv r) 0 768 ++
    bytesAt (if x.csr.wde then wdeRecord x.wde else []) 0 128 ++
    bytesOfNat 8 a.frame ++ List.replicate 2168 0

/-! ## Taking a trap (R326-R334) -/

/-- The destination that a unit request holds pending. -/
def UnitReq.dst (r : UnitReq) : RegName :=
  match r.instr with
  | .div d .. | .divn d .. | .rem d .. | .remn d .. => .s d
  | .vdiv d .. | .vrem d .. => .v d
  | .vexp2 d .. | .vlog2 d .. | .vrcp d .. | .vrsqrt d .. | .vsqrt d .. | .vtanh d .. => .v d
  | _ => .s 0

/-- A register that an `aimg` in the array's queue is to write. -/
def Context.awaitsAimg (x : Context) (r : RegName) : Bool := x.aimgDst.any fun e => r == .s e.1 || r == .v e.2

/-- Fixed-latency results, and interlocked results of loads, atomics and remote operations, which a trap waits for (R166, R326
step 1). -/
def State.outstanding (s : State) (c : CtxId) : Bool :=
  let x := s.ctx c
  !x.pend.isEmpty || x.busy.any fun r => !((s.unitReqs c).any fun q => q.dst == r) && !x.awaitsAimg r

/-- RES of a new record (R331). -/
def resOf (x : Context) (cause : Cause) : Nat :=
  if cause = .uncorrectable then 2 else match x.kind with | .handler _ => 1 | _ => 0

def handlerWord (s : State) (c : CtxId) : Nat :=
  match s.slotOf c with
  | none => 0
  | some m => m.msg.id + 2 ^ 16 * m.msg.hidx + 2 ^ 26 * m.msg.splace

def recordWord (x : Context) (t : Trap) (res nreq : Nat) : Nat :=
  t.cause.code + 2 ^ 8 * (x.dsn % 4) + 2 ^ 10 * x.csr.hnd.toNat + 2 ^ 11 * x.csr.wde.toNat + 2 ^ 12 * (t.origin % 4) +
    2 ^ 14 * (t.cmdpos % 16) + 2 ^ 18 * res + 2 ^ 20 * (nreq % 32)

/-- Whether the die store at an offset can take a save of n bytes: inside SAPROT's range, without an uncorrectable word (R333). -/
def State.canSave (s : State) (c : CtxId) (off n : Nat) : Bool :=
  (s.part (s.partOfCtx c)).protectsRange off n &&
    !(s.poison.any fun w => decide (wordIx (dieAt (dieOf (coreOf c)) off) ≤ w) &&
      decide (w < wordIx (dieAt (dieOf (coreOf c)) off) + n / 8))

/-- The address of a context's save area (R329). -/
def State.saveVa (s : State) (c : CtxId) : Nat := vaOf (s.core (coreOf c)).sabase + 4096 * ctxNo c

/-- SAVE_FAULT (R333): the context is killed without a record, an event of type 4 is logged, its basin is reset. -/
def State.saveFault (s : State) (c : CtxId) : State :=
  let p := coreOf c
  let (s0, taken) := s.askDump c Cause.saveFault.code false 0
  let s1 := s0.kill c
  let s2 := s1.logEvent (s1.partOfCtx c) (dieOf p)
    { typ := 4, place := placeWord p + 2 ^ 22 * ctxNo c, wher := s.saveVa c }
  (s2.resetBasin (clusterOf p) (placeWord p) 0).awaitDump c taken

/-- The words of the record: a pending next pointer that cannot be formed is a free value (log 11). -/
def State.saveParts (s : State) (c : CtxId) (t : Trap) (frame : Option Nat) (reqs : List UnitReq) : SaveParts × State :=
  let x := s.ctx c
  let npc := s.nextPointer c
  let budget := if t.cause = .watchdog then 0 else BitVec.ofNat 64 (s.budgetLeft c)
  ({ word0 := recordWord x t (resOf x t.cause) (min 16 reqs.length), epc := x.pc, npc := npc.getD s.freeWord, fva := t.fva
     detail := t.detail, msg := handlerWord s c, frame := match frame with | some f => 0x20000000 + f | none => 0
     budget := budget, reqs := reqs }, if npc = none then s.useFree else s)

/-- A handler's trap aborts it (R39): its send buffer and Pilot requests not started go, its AU is discarded (R107), its
message stays, the inbox is held. -/
def State.abortHandler (s : State) (c : CtxId) : State :=
  match (s.ctx c).kind with
  | .handler e =>
    let s1 := (s.discardAu c).modCtx c fun x => { x with sendBuf := [] }
    s1.modInbox (coreOf c) fun k =>
      { k with
        inboxHeld := true
        inbox := k.inbox.map fun m => if m.num = e then { m with runs := none } else m
        pilotQ := k.pilotQ.filter fun r => match r with
          | .dload d .. => d != c | .penc d .. => d != c | .pdec d .. => d != c }
  | _ => s

/-- Supervisor level on the trapping context (R326 step 4). -/
def Context.enter (x : Context) (tvec save : Word) (word0 : Nat) (r : TrapRec) (now : Nat) (left : Word) : Context :=
  let y := (x.setReg (.s 1) (save.setWidth 128)).setReg (.s 2) (BitVec.ofNat 128 (word0 % 2 ^ 64))
  { y with
    pc := tvec, dsn := 0, npc := none, level := .sup, lines := [], busy := [], wait := none, due := none, stepDue := none
    bpPass := false, heldAt := none, readyAt := max x.readyAt (now + 1), trapRec := some r, imageFault := none
    fwd := [], gangEnd := none, gangSlots := 0, wde := { y.wde with held := true }
    csr := { y.csr with chk := true, sig := false, stp := false, gang := 0, budget := left, budgetSpent := false } }

/-- The trap itself, once nothing is outstanding. The abort of a handler records no unit request (R266). -/
def State.enterTrap (s : State) (c : CtxId) (t : Trap) : State :=
  let q := s.partOfCtx c
  let p := coreOf c
  let s1 := s.modCtx c Context.flush
  let follower := (s1.ctx c).csr.gang == 2
  let s2 := if follower then s1.quitGang c else s1
  let s3 := (if t.cause = .sigMismatch then s2.suspect (clusterOf p) else s2).spoilDigest c
  let handler := match (s3.ctx c).kind with | .handler _ => true | _ => false
  let reqs := if handler then [] else s3.unitReqs c
  let s4 := s3.dropUnitReqs c
  let off := s4.saveOff c
  if !s4.canSave c off 4096 then s4.saveFault c
  else
    let s5 := s4.abortHandler c
    let (s6, bad, frame) := s5.scanOut c
    if bad then s6.saveFault c
    else
      let (a, s7) := s6.saveParts c t frame reqs
      let s8 := s7.writeRun (dieAt (dieOf p) off) (saveBytes (s7.ctx c) a s7.gtc)
      let s9 := s8.traceIf 2 { typ := 4, ctx := c, taskid := (s8.ctx c).csr.taskid, a := a.epc, b := BitVec.ofNat 64 a.word0 }
      let img := decide ((s9.ctx c).imageFault ≠ none)
      s9.modCtx c fun x => x.enter (s9.part q).tvec (BitVec.ofNat 64 (0x20000000 + off)) a.word0
        { save := off, cause := t.cause, reqs := reqs, imageFault := img, frame := BitVec.ofNat 64 a.frame } (s9.nowCtx c) a.budget

/-- TAKING A TRAP, the one operation of every cause (R326). Above task level the context stops and keeps its state,
and the hypervisor is told (R334).
While a result is outstanding the trap stays due; everything else waits on it. -/
def State.takeTrap (s : State) (c : CtxId) (t : Trap) : State :=
  if (s.ctx c).level ≠ .task then
    (s.modCtx c fun x => { x.flush with run := .stopped, due := some t, wait := none }).modPkg (pkgOf (coreOf c)) fun g =>
      { g with told := g.told ++ [(t.cause.code, c)] }
  else if s.outstanding c then
    (s.withdraw c).modCtx c fun x => { x with due := some t, wait := none, heldAt := some s.cycle }
  else (s.withdraw c).enterTrap c t

/-- Of two consumptions in one cycle the lower place is the event's (R344). -/
def Cluster.lowerPlace (x : Cluster) (place pa : Nat) : Option (Nat × Nat) :=
  match x.consumed with
  | some (q, a) => if place < q then some (place, pa) else some (q, a)
  | none => some (place, pa)

/-- An uncorrectable error consumed by a context or by work done for it (R342): the record of the consuming context, which stops.
`origin` is the ORIGIN of the work (R327). The basin's fence, reset and report follow as the cycle ends, once for all consumptions
of the cycle (R344). A system core stands in no basin: its context stops. The record of a handler task names its unit requests: it
is the record of R342, and R266 speaks of R39's abort (DESIGN CHOICE, log 79). -/
def State.consume (s : State) (c : CtxId) (va : Word) (place : Nat) (origin : Nat := 0) : State :=
  let p := coreOf c
  let k := clusterOf p
  if isSystem p then s.takeTrap c { cause := .uncorrectable, fva := va, origin := origin }
  else if (s.cluster k).fenced then s
  else
    let off := s.saveOff c
    let s1 := s.modCtx c Context.flush
    let ok := s1.canSave c off 4096
    let s2 :=
      if ok then
        let (a, s3) := s1.saveParts c { cause := .uncorrectable, fva := va, origin := origin } none (s1.unitReqs c)
        (s3.writeRun (dieAt (dieOf p) off) (saveBytes (s3.ctx c) a s3.gtc)).traceIf 2
          { typ := 4, ctx := c, taskid := (s3.ctx c).csr.taskid, a := a.epc, b := BitVec.ofNat 64 a.word0 }
      else s1
    let (s4, taken) := s2.askDump c Cause.uncorrectable.code ok off
    (s4.modCtx c fun x => if x.run = .free then x else
        { x with run := if taken then .dumping else .stopped, due := some { cause := .uncorrectable, fva := va, origin := origin } }).modCluster k
      fun x => { x with consumed := x.lowerPlace (placeWord p) (if isHbm place then place % 2 ^ 48 else 0) }

/-- The resets that the consumptions of the cycle call for, the lowest place of each basin first (R342, R344). -/
def State.resetConsumed (s : State) : State :=
  (s.clusters.filter fun e => e.2.consumed.isSome).foldl (fun t e =>
    match (t.cluster e.1).consumed with
    | some (place, pa) => (t.resetBasin e.1 place pa).modCluster e.1 fun x => { x with consumed := none }
    | none => t) s

/-- A trap of the head or the unit under way: an uncorrectable error is consumed, every other cause is taken. -/
def State.raiseTrap (s : State) (c : CtxId) (t : Trap) : State :=
  if t.cause = .uncorrectable then s.consume c t.fva t.detail.toNat t.origin else s.takeTrap c t

/-! ## Retirement -/

/-- The pointer of a loop's end, compared as code pointers are: bits [63:52] are ignored (R159). -/
def samePtr (a b : Word) : Bool := decide (vaOf a = vaOf b)

/-- The head is the end of an active loop (R197). -/
def Context.atLoopEnd (x : Context) (ptr : Word) : Bool := x.csr.lpcnt != 0 && samePtr ptr x.csr.lpend

/-- DSIG after a head (R203). -/
def sigStep (d : BitVec 16) (h t : Half) : BitVec 16 := (rotl16 d 1 ^^^ h) ^^^ t
def isSigchk : Instr → Bool
  | .sigchk _ => true
  | _ => false

/-- What a head's transfer comes to: none, or its target if taken. `x0` is the context as the head issued. -/
def transferOf (x0 : Context) (ptr : Word) (f : Flow) : Option (Option Word) :=
  match f with
  | .transfer t => some t
  | .seq => if x0.atLoopEnd ptr then some (if x0.csr.lpcnt - 1 ≠ 0 then some x0.csr.lpbeg else none) else none
  | _ => none

/-- A taken transfer fetches its target's line again (R47). -/
def Context.jump (x : Context) (p : Word) : Context :=
  { x with pc := p, dsn := 0, npc := none, lines := x.lines.filter fun l => l.1 != lineVa p }

/-- Program counter and delay-slot state after a head (R170). -/
def Context.advance (x : Context) (next : Word) (out : Option (Option Word)) (f : Flow) : Context :=
  match out with
  | some t => { x with pc := next, dsn := 1, npc := t }
  | none =>
    match f with
    | .goto p => x.jump p
    | .stay | .ends _ => x
    | _ =>
      match x.dsn with
      | 0 => { x with pc := next }
      | 1 => { x with pc := next, dsn := 2 }
      | _ => match x.npc with
        | some p => x.jump p
        | none => { x with pc := next, dsn := 0 }

/-- A follower's side of a forwarded head (R44): its own outcome against the leader's. A head that transfers in one of them only, as
a loop's last head may, is a difference too. -/
def Context.afterForwarded (x : Context) (out : Option Word) : Context :=
  match x.fwd with
  | [] => x
  | f :: rest =>
    let y : Context := { x with fwd := rest }
    if decide (f.out ≠ out) && (y.csr.gang == 2) then
      { (y.setGangBits 3) with gangSlots := 2, fwd := rest.take 2 }
    else if y.csr.gang == 3 then
      { y with gangSlots := y.gangSlots - 1, lines := if y.gangSlots ≤ 1 then [] else y.lines }
    else y.endStream

/-- A head whose single-step drains an array command, a Pilot request or a launch (R359). -/
def isArrayHead : Instr → Bool
  | .mlds .. | .mswap | .mzero | .mstrm .. | .mdrain .. | .mmask .. | .aimg .. => true
  | _ => false
def isPilotHead : Instr → Bool
  | .dload .. | .penc .. | .pdec .. => true
  | _ => false
def isLaunchHead : Instr → Bool
  | .launch .. => true
  | _ => false
def steppedBy (i : Instr) (seq : Nat) : Stepped :=
  { seq := seq, array := isArrayHead i, pilot := isPilotHead i, launch := isLaunchHead i }

/-- What every head that issues does to its context (R166, R170, R197, R203, R359). A write of LPCNT at the loop's last head stands
if it changes the value; one that leaves the value as it is is decremented with it (DESIGN CHOICE, log 22). -/
def Context.retired (x : Context) (i : Instr) (x0 : Context) (cur : Issue) (now : Nat) (f : Flow) : Context :=
  let out := transferOf x0 cur.ptr f
  let loop := match f with | .seq => x0.atLoopEnd cur.ptr | _ => false
  let y := x.advance (ptrAfter cur.ptr cur.hc) out f
  let z := { y with
    csr := { y.csr with
      lpcnt := if loop && y.csr.lpcnt == x0.csr.lpcnt then x0.csr.lpcnt - 1 else y.csr.lpcnt
      dsig := if isSigchk i then y.csr.dsig else sigStep y.csr.dsig cur.h cur.t }
    readyAt := now + 1 + cur.sc, heldAt := none, wait := none, bpPass := false
    sent := if x0.level = .task then none else x0.sent
    stepDue := if x0.csr.stp then some (steppedBy i cur.seq) else none }
  if cur.forwarded then z.afterForwarded (out.getD none) else z

/-- A head has issued: the core's turn, the gang's stream, the context. -/
def State.retire (s : State) (i : Instr) (x0 : Context) (f : Flow) : State :=
  let c := s.cur.ctx
  let s1 := s.modCore (coreOf c) fun k => { k with lastIssued := ctxNo c, issuedAt := some (s.nowCtx c) }
  let s2 := if f = .stay ∨ x0.sent = some s.cur.ptr then s1
    else s1.forward i (x0.csr.gang == 1) ((transferOf x0 s.cur.ptr f).getD none)
  match f with
  | .ends how => (s2.modCtx c fun x => { x with readyAt := s.nowCtx c + 1 + s.cur.sc }).endTask c how s.cur.ptr
  | .stay => s2
  | _ => s2.modCtx c fun x => x.retired i x0 s.cur (s.nowCtx c) f

/-- A waiting head of another context performs its effect: it retires. -/
def State.completeWaiting (s : State) (m : CtxId) (f : Flow) : State :=
  match (s.ctx m).wait with
  | none => s
  | some w => { (({ s with cur := w.issue } : State).retire w.instr (s.ctx m) f) with cur := s.cur }

/-! ## The checks of a head, in the order of R165 -/

/-- Some event of an access of the context to near memory, one that is more than one event, is not yet performed (R129). -/
def State.splitPending (s : State) (c : CtxId) : Bool :=
  (s.core (coreOf c)).fabric.any fun r => r.ctx == c && r.bytes.any fun e => decide (scratchBase ≤ e.2)

/-- The context cannot issue now; another context of the core may (R48). -/
def State.hold (s : State) : State := s.modHere fun x => { x with heldAt := some s.cycle }

/-- A barrier head arrives as it issues (R207), so a gang leader's goes to its followers then and not as it leaves (R42). -/
def isBarrier : Instr → Bool
  | .gbar | .sbar => true
  | _ => false
def State.forwardBarrier (s : State) (i : Instr) : State :=
  let x := s.here
  if isBarrier i && x.csr.gang == 1 && x.sent != some s.cur.ptr then
    (s.forward i true ((transferOf x s.cur.ptr .seq).getD none)).modHere fun y => { y with sent := some s.cur.ptr }
  else s

/-- The head waits (R220): it keeps its place in the order of arrival. -/
def State.park (s : State) (i : Instr) : State :=
  match s.here.wait with
  | some _ => s.hold
  | none => (({ s with seq := s.seq + 1 } : State).forwardBarrier i).modHere fun x =>
      { x with wait := some { instr := i, issue := s.cur, seq := s.seq }, heldAt := some s.cycle }

/-- DELAY_SLOT of R171 and R197. -/
def Context.slotBad (x : Context) (n : Need) (ptr : Word) : Bool :=
  (decide (x.dsn ≠ 0) && !n.slotOk) || (x.atLoopEnd ptr && (!n.slotOk || decide (x.dsn ≠ 0)))

/-- A head whose words decode: interlocks (R168), ILLEGAL_OP and PRIV that the state decides, operand limits, DELAY_SLOT,
STALL_SHORT, the constant bank, its effect. A context of which events of a near access are still to come holds (R129).
R46 says that a leader's head that traps is not forwarded and is issued again after `eret`. A head that issues and whose trap comes
before the next head, as that of `trap` does (R202), retires here, so it goes to the followers, and each traps by itself (DESIGN
CHOICE, log 23). -/
def head (i : Instr) (n : Need) (early limit : State → Option Cause) (eff : State → Eff) (s : State) : Out :=
  let c := s.cur.ctx
  let x := s.here
  let trap := fun (t : Trap) => Host.Outcome.next (s.raiseTrap c t)
  if x.interlocked n || s.splitPending c then .next s.hold
  else match early s with
  | some k => trap { cause := k }
  | none =>
    match limit s with
    | some k => trap { cause := k }
    | none =>
      if x.slotBad n s.cur.ptr then trap { cause := .delaySlot }
      else if x.stallShort n (s.nowCtx c) then trap { cause := .stallShort }
      else match s.constFault n with
        | some t => trap t
        | none =>
          match eff s with
          | .hold => .next s.hold
          | .wait s1 => .next (s1.park i)
          | .trap t => trap t
          | .after s1 t => .next ((s1.retire i x .seq).takeTrap c t)
          | .done s1 f => .next (s1.retire i x f)

/-- No such check. -/
def free (_ : State) : Option Cause := none
/-- An operand limit of a head, with the operands whose values decide it. -/
structure Limit where
  ops : List XOp := []
  ok : State → Bool

/-- No constant-bank entry that the operands name fails to be read. -/
def State.readable (s : State) (l : List XOp) : Bool := (l.flatMap xCsts).all fun k => (s.cstFault s.cur.ctx k).isNone

/-- A limit is broken: its operands can be read, and their values lie outside it. -/
def Limit.broken (m : Limit) (s : State) : Bool := s.readable m.ops && !m.ok s

/-- ILLEGAL_OPERAND where a limit is broken. A limit on a constant-bank entry that cannot be read is not reached: the read is
the head's own effect (R165 step 7). -/
def operandOk (l : List Limit) (s : State) : Option Cause := if l.any (·.broken s) then some .illegalOperand else none
/-- ILLEGAL_OP unless the condition holds. -/
def opOk (f : State → Bool) (s : State) : Option Cause := if f s then none else some .illegalOp

/-- The head under issue belongs to a handler task. -/
def inHandler (s : State) : Bool := match s.here.kind with | .handler _ => true | _ => false

/-! ## Returning from a trap (R212, R331) -/

/-- Requests of a unit whose results are not written. -/
def SharedUnit.held (u : SharedUnit) : Nat := u.queue.length + u.service.toList.length + u.results.length

/-- Unit requests enter their queues again, at the tail (R266). -/
def State.enterReqs (s : State) (p : Place) (l : List UnitReq) : State :=
  l.foldl (fun t r =>
    let r1 : UnitReq := { r with seq := t.seq, since := t.now p }
    ({ t with seq := t.seq + 1 } : State).modCore p fun k =>
      if r.isDiv then { k with div := { k.div with queue := k.div.queue ++ [r1] } }
      else { k with sfu := { k.sfu with queue := k.sfu.queue ++ [r1] } }) s

/-- The tail of a recorded request after its first halfword, which the save area does not hold. -/
def UnitReq.moreTail (r : UnitReq) : List Half := match encode r.instr 0 with | some (_, t) => t.drop 1 | none => []

/-- A divider or special-function head. -/
def UnitReq.isUnit (r : UnitReq) : Bool := r.dst != .s 0 || match r.instr with
  | .div .. | .divn .. | .rem .. | .remn .. => true
  | _ => false

/-- Request i of a save area (R329): its head, first tail halfword and operands as they stand there now. The rest of its tail,
and the lanes that its predicate keeps, come from what the trap captured; for a request that the trap did not record, from the
restored registers, with tail halfwords of zero (log 65). Words that are no head of a unit name no request. -/
def reqAt (l : List Byte) (c : CtxId) (x : Context) (old : List UnitReq) (i : Nat) : Option UnitReq :=
  let o := 0x400 + 48 * i
  let h := BitVec.ofNat 16 (fieldAt l o 2)
  let t := BitVec.ofNat 16 (fieldAt l (o + 2) 2)
  match decodeHead h (t :: ((old[i]?).map UnitReq.moreTail).getD []) with
  | .ok j =>
    let r : UnitReq := { ctx := c, instr := j, h := h, t := t, a := BitVec.ofNat 128 (fieldAt l (o + 16) 16)
                         b := BitVec.ofNat 128 (fieldAt l (o + 32) 16), pred := 0, old := 0, seq := 0 }
    if !r.isUnit then none
    else match old[i]? with
      | some q => some { r with pred := q.pred, old := q.old }
      | none => some { r with pred := 0xFFFF, old := x.readReg r.dst }
  | _ => none

/-- Of requests in their order, the first eight of each unit: its queue holds no more (R264). -/
def firstEight (l : List UnitReq) : List UnitReq :=
  (l.zipIdx.filter fun e => decide (((l.take e.2).filter fun r => r.isDiv == e.1.isDiv).length < Config.unitQueueSlots)).map (·.1)

/-- The requests that a save area holds, NREQ of them, 16 at most. -/
def reqsFrom (l : List Byte) (n : Nat) (c : CtxId) (x : Context) (old : List UnitReq) : List UnitReq :=
  firstEight ((List.range (min n 16)).filterMap (reqAt l c x old))

/-- The units of a core have room for requests (R264). -/
def State.unitsRoom (s : State) (p : Place) (l : List UnitReq) : Bool :=
  let k := s.core p
  decide (k.div.held + (l.filter (·.isDiv)).length ≤ Config.unitQueueSlots) &&
    decide (k.sfu.held + (l.filter fun r => !r.isDiv).length ≤ Config.unitQueueSlots)

/-- Registers and control registers from a save area; reserved fields stay zero (R6). -/
def Context.restore (x : Context) (l : List Byte) : Context :=
  let cw := fun i => fieldAt l (0x370 + 8 * i) 8
  { x with
    s := Vector.ofFn fun i : Fin 32 => if i = 0 then 0 else BitVec.ofNat 64 (fieldAt l (0x40 + 8 * i.val) 8)
    v := Vector.ofFn fun i : Fin 32 => BitVec.ofNat 128 (fieldAt l (0x140 + 16 * i.val) 16)
    p := Vector.ofFn fun i : Fin 8 => if i = 0 then 0 else BitVec.ofNat 16 (fieldAt l (0x340 + 2 * i.val) 2)
    b := Vector.ofFn fun i : Fin 4 => BitVec.ofNat 64 (fieldAt l (0x350 + 8 * i.val) 8)
    tcsb := if fieldAt l 0x3E0 32 = 0 then none else some (BitVec.ofNat 256 (fieldAt l 0x3E0 32) &&& tcsbMask)
    csr := { x.csr with
      sw := BitVec.ofNat 7 (cw 0), ten := BitVec.ofNat 7 (cw 1), cbase := BitVec.ofNat 64 (cw 2 / 8 * 8)
      chk := bitOf (cw 3) 0, sig := bitOf (cw 3) 1, stp := bitOf (cw 3) 2
      lpcnt := BitVec.ofNat 64 (cw 5), lpbeg := BitVec.ofNat 64 (cw 6), lpend := BitVec.ofNat 64 (cw 7)
      dsig := BitVec.ofNat 16 (cw 8), tau := BitVec.ofNat 16 (cw 9), eps := BitVec.ofNat 16 (cw 9 / 2 ^ 16)
      smax := BitVec.ofNat 4 (cw 9 / 2 ^ 32), dslot := BitVec.ofNat 2 (cw 9 / 2 ^ 36), dropmag := BitVec.ofNat 64 (cw 10)
      gjto := BitVec.ofNat 32 (cw 11), wds := BitVec.ofNat 64 (cw 12) &&& 0xFFFFFFFFFFFF01FF } }

/-- GANG after a return: a leader leads its gang again, a detached follower stays one (R46). -/
def State.gangAfter (s : State) (c : CtxId) (saved : Nat) : BitVec 2 :=
  match s.gangWith c with
  | none => 0
  | some g => if g.leader = c ∧ saved = 1 then 1 else if saved = 3 then 3 else 0

/-- MODE.WDE after a return (R326): the record and the MODE word both hold it, and a value that the supervisor changed in one of
them is the one restored (log 20). -/
def wdeAfter (old record mode : Bool) : Bool := if mode == old then record else mode

/-- The resumed context (R331 RES 0): level, pointer, delay-slot state, BUDGET (R40) and WDE (R125). -/
def Context.resume (x : Context) (l : List Byte) (cause : Nat) (gang : BitVec 2) (now : Nat) : Context :=
  let w0 := fieldAt l 0 8
  let budget := fieldAt l (0x370 + 32) 8
  let spent := decide (budget = 0) && decide (cause = Cause.watchdog.code)
  let y := x.restore l
  let wde := wdeAfter x.csr.wde (bitOf w0 11) (bitOf (fieldAt l (0x370 + 24) 8) 3)
  { y with
    level := .task, pc := BitVec.ofNat 64 (fieldAt l 8 8), dsn := bitsOf w0 8 2
    npc := if bitsOf w0 8 2 = 0 then none else some (BitVec.ofNat 64 (fieldAt l 0x10 8))
    wde := if wde then wdeOfRecord (bytesAt l 0x700 128) else {}
    lines := [], trapRec := none, bpPass := true, due := none, stepDue := none, wait := none, heldAt := none
    csr := { y.csr with gang := gang, wde := wde, budget := BitVec.ofNat 64 budget, budgetAt := now
                        budgetOn := decide (budget ≠ 0), budgetSpent := spent } }

/-- RES 2: the task ends as a kill; where a dump is taken the context waits for it (R331, R363). -/
def State.endByRes2 (s : State) (c : CtxId) (cause : Nat) (r : TrapRec) : State :=
  let (s1, taken) := s.askDump c cause true r.save
  (s1.kill c).awaitDump c taken

/-- The number of commands that an image of an AU holds (R107), from its first 48 bytes. -/
def imageCmds (l : List Byte) : Nat := min Config.arrayQueueSlots (bitsOf (fieldAt l 0x28 8) 0 5)

/-- The AU of a resumed context is marked for restore, from its frame or in the array (R107, R330). -/
def State.markAu (s : State) (c : CtxId) : State :=
  if !(s.ctx c).auOpen then s
  else
    let k := clusterOf (coreOf c)
    (s.modCluster k fun x => { x with marks := x.marks.filter (· != c) ++ [c] }).modCtx c fun x =>
      { x with auMarked := true
               arrayCmds := match x.auFrame with
                 | some f => imageCmds (s.slice (dieAt (dieOf (coreOf c)) f) 48)
                 | none => x.arrayCmds }

/-- The die-store address of the AU's frame as the save area now has it (R329). The word that the trap wrote names the AU wherever
it stands by now, in the array or in a frame that it went to since (R330). Another address is that of the image to restore; 0 for
an AU that stood in a frame leaves the context without one (log 65). -/
def State.frameFrom (s : State) (c : CtxId) (w wrote : Word) : State :=
  if w = wrote then s
  else match (s.ctx c).auFrame with
  | none => if w = 0 then s
      else if (s.ctx c).auOpen then s
      else s.modCtx c fun x => { x with auOpen := true, auFrame := some (dieOff w) }
  | some f =>
    if w = 0 then s.discardAu c
    else if dieOff w = f then s
    else (s.freeFrames c).modCtx c fun x => { x with auFrame := some (dieOff w) }

/-- The constant-bank image is copied again for a task whose copy failed (R381): an error in it is consumed by the group's task
with the lowest s1 on that core. -/
def State.recopy (s : State) (c : CtxId) : State :=
  match s.groupOf c with
  | none => s
  | some g =>
    match s.copyImage (s.partOfCtx c) (coreOf c) g.desc (vaOf (s.ctx c).csr.cbase) with
    | .done s1 => s1.modCtx c fun x => { x with imageFault := none }
    | .fault t => s.modCtx c fun x => { x with imageFault := some t }
    | .poisoned va a =>
      s.consume ((g.members.find? fun m => decide (coreOf m = coreOf c) && !g.ended.contains m).getD c) va a

/-- The core's units have room for the requests that a return enters again, or it enters none (R264, R266). -/
def State.returnRoom (s : State) (c : CtxId) (r : TrapRec) : Bool :=
  let l := s.slice (dieAt (dieOf (coreOf c)) r.save) 4096
  let w0 := fieldAt l 0 8
  decide (bitsOf w0 18 2 ≠ 0) || (match (s.ctx c).kind with | .handler _ => true | _ => false) ||
    s.unitsRoom (coreOf c) (reqsFrom l (bitsOf w0 20 5) c (s.ctx c) r.reqs)

/-- THE RETURN FROM A TRAP (R212): what RES says (R331). Pilot requests that failed enter their queue again even where it holds four
by now: R84 and R269 do not say what becomes of a fifth (DESIGN CHOICE, log 80). -/
def State.returnFromTrap (s : State) (c : CtxId) (r : TrapRec) : State :=
  let p := coreOf c
  let vas := runFrom (dieAt (dieOf p) r.save) 4096
  match vas.find? s.poisoned with
  | some a => s.consume c (BitVec.ofNat 64 (0x20000000 + (a - dieAt (dieOf p) 0))) a
  | none =>
    let l := s.slice (dieAt (dieOf p) r.save) 4096
    let w0 := fieldAt l 0 8
    let handler := match (s.ctx c).kind with | .handler _ => true | _ => false
    match bitsOf w0 18 2 with
    | 3 => s.takeTrap c { cause := .illegalOp }
    | 2 => s.endByRes2 c (bitsOf w0 0 8) r
    | n =>
      if handler then
        ((s.dropResults c).freeCtx c).trimHandlerBanks p
      else if n = 1 then s.kill c
      else
        let gang := s.gangAfter c (bitsOf (fieldAt l (0x370 + 24) 8) 4 2)
        let y := (s.ctx c).flush.resume l (bitsOf w0 0 8) gang (s.nowCtx c)
        let reqs := reqsFrom l (bitsOf w0 20 5) c y r.reqs
        let s1 := s.modCtx c fun _ =>
          let z := reqs.foldl (fun z q => z.addBusy q.dst) y
          { z.aimgDst.foldl (fun z e => (z.addBusy (.s e.1)).addBusy (.v e.2)) z with pilotBack := [] }
        let s1 := s1.modCore p fun k => { k with pilotQ := k.pilotQ ++ (s.ctx c).pilotBack }
        let s2 := ((s1.enterReqs p reqs).frameFrom c (BitVec.ofNat 64 (fieldAt l 0x780 8)) r.frame).markAu c
        if r.imageFault then s2.recopy c else s2

end Sys2Proof.Machine
end

