-- ==== Sys2Proof/Machine/Fabric.lean ====
section
/-! DEFINITION. Core accesses to memory: the digest of a checked run (R350), what an access does with its bytes (R221-R229),
near accesses performed as the head issues, and requests that travel through the fabric (R138). -/

namespace Sys2Proof.Machine

/-! ## Digests (R350) -/

/-- An outside effect of a checked run enters its digest. What a supervisor does on its context is none of the run. -/
def State.digest (s : State) (c : CtxId) (kind : Nat) (addr val : Word) : State :=
  s.modCtx c fun x =>
    if x.role = .plain ∨ x.level ≠ .task then x
    else { x with digest := crc64 (bytesOfNat 8 x.digest.toNat ++ (bytesOfNat 8 kind ++ bytesOfNat 8 addr.toNat ++
             bytesOfNat 8 val.toNat)) }

/-- A shadow or referee run performs no outside effect (R349); what a supervisor does on its context is none of the run. -/
def State.silent (s : State) (c : CtxId) : Bool := (s.ctx c).role.digestOnly && decide ((s.ctx c).level = .task)

/-- An access of n bytes at va is one event: 1, 2, 4 or 8 bytes, naturally aligned (R129). -/
def wholeAccess (va n : Nat) (bytewise : Bool) : Bool := !bytewise && [1, 2, 4, 8].contains n && decide (va % n = 0)
/-- It is two events of 8 bytes. -/
def twoWords (va n : Nat) (bytewise : Bool) : Bool := !bytewise && decide (n = 16) && decide (va % 8 = 0)

/-- The events of an access (R129), each by the indices of its bytes: an aligned access of at most 8 bytes is one, a 16-byte one
at an 8-byte-aligned address two, any other one a byte. `l` lists the indices that take part. -/
def eventsOf (va n : Nat) (bytewise : Bool) (l : List Nat) : List (List Nat) :=
  (if wholeAccess va n bytewise then [l]
  else if twoWords va n bytewise then [l.filter fun i => decide (i < 8), l.filter fun i => decide (8 ≤ i)]
  else l.map fun i => [i]).filter (!·.isEmpty)

/-- The VA of an event: that of its word. -/
def eventBase (va n : Nat) (bytewise : Bool) (ev : List Nat) : Nat :=
  if wholeAccess va n bytewise then va
  else if twoWords va n bytewise then va + ev.headD 0 / 8 * 8
  else va + ev.headD 0

/-- The events of a store with what each writes, from its bytes by index (R350). -/
def storeEvents (va n : Nat) (bytewise : Bool) (l : List (Nat × Byte)) : List (Nat × Nat) :=
  (eventsOf va n bytewise (l.map (·.1))).map fun ev =>
    let a := eventBase va n bytewise ev
    (a, (l.filter fun e => ev.contains e.1).foldl (fun x e => x + e.2.toNat * 256 ^ (va + e.1 - a)) 0)

def State.digestStore (s : State) (c : CtxId) (l : List (Nat × Nat)) : State :=
  l.foldl (fun t e => t.digest c 1 (BitVec.ofNat 64 e.1) (BitVec.ofNat 64 e.2)) s

/-! ## What an access does -/

/-- The bytes of an access as a number, by their index. -/
def numOf (l : List (Nat × Byte)) : Nat := l.foldl (fun a e => a + e.2.toNat * 256 ^ e.1) 0

/-- The new value of an atomic operation of w bits (R227, R228). -/
def atomicNew (i : Instr) (w old : Nat) (a b : Word) : Option Nat :=
  let x := a.toNat % 2 ^ w
  match i with
  | .amoAdd .. => some ((old + x) % 2 ^ w)
  | .amoAnd .. => some (old &&& x)
  | .amoOr .. => some (old ||| x)
  | .amoXor .. => some (old ^^^ x)
  | .amoMin .. => some (if signedOf w old < signedOf w x then old else x)
  | .amoMax .. => some (if signedOf w old < signedOf w x then x else old)
  | .amoMinn .. => some (min old x)
  | .amoMaxn .. => some (max old x)
  | .amoSwap .. => some x
  | .cas .. => if old = x then some (b.toNat % 2 ^ w) else none
  | _ => none

/-- The lanes of an `ldf` from the bytes of its row (R223). -/
def ldfLanes (fmt : Nat) (m : MC) (row : List Byte) : Vec × SW :=
  let t := tidxKind m.tidx.toNat
  let k := (kindOf fmt).getD .o4
  let n := 128 / t.width
  let (vals, otr) := rowValues k row n
  let r := vals.map (convert m.rnd.toNat m.ovf t)
  (ofLanes t.width (r.map (·.1)), r.foldl (fun a e => a ||| e.2) (flagIf otr fOTR))

/-- The flags that a conversion between two kinds of format may raise (R62-R66), with that of an O4 row (R53). -/
def convertMay (target source : Kind) : SW :=
  match target, source with
  | .int .., .int .. => fSAT
  | .int .., .flt _ => fIX ||| fNV
  | .int .., .o4 => fIX ||| fNV ||| fSAT ||| fOTR
  | .flt _, .o4 => fIX ||| fOF ||| fUF ||| fNV ||| fSAT ||| fOTR
  | .flt _, _ => fIX ||| fOF ||| fUF ||| fNV ||| fSAT
  | .o4, _ => 0

/-- The flags that a request may still raise: those of an `ldf` (R223). -/
def FabReq.mayRaise (r : FabReq) : SW :=
  match r.instr with
  | .ldf _ _ _ m => convertMay (tidxKind m.tidx.toNat) ((kindOf (fmtOf r.ptr)).getD .o4)
  | _ => 0

/-- The bits of a load, extended. -/
def bitValue (l : List Byte) (j w : Nat) (sx : Bool) : Word :=
  let n := streamBits l (j % 8) w
  if sx then BitVec.ofInt 64 (signedOf w n) else BitVec.ofNat 64 n

/-- What a load or atomic operation writes to its register, from its bytes. -/
def loaded (x : Context) (r : FabReq) (l : List (Nat × Byte)) : Vec × SW :=
  match r.instr with
  | .ld _ _ _ size sx =>
    let n := numOf l
    (if sx then (BitVec.ofInt 64 (signedOf (8 * sizeBytes size) n)).setWidth 128 else BitVec.ofNat 128 n, 0)
  | .ldv d _ _ _ => (BitVec.ofNat 128 ((List.range 16).foldl (fun a i =>
      a + 256 ^ i * match l.find? fun e => e.1 == i with
        | some e => e.2.toNat
        | none => lane (x.vreg d) 8 i) 0), 0)
  | .ldf _ _ _ m => ldfLanes (fmtOf r.ptr) m (l.map (·.2))
  | .ldbit _ _ m => ((bitValue (l.map (·.2)) r.a.toNat r.b.toNat m.sx).setWidth 128, 0)
  | _ => (BitVec.ofNat 128 (numOf l), 0)

/-- The last byte of a row that stf writes in part keeps its other bits (R223). -/
def keepBits (r : FabReq) (old new : List Byte) : List Byte :=
  let n := r.a.toNat
  match r.instr with
  | .stf .. =>
    if n = 0 then new
    else new.dropLast ++ [BitVec.ofNat 8 ((new.getLastD 0).toNat % 2 ^ n + (old.getLastD 0).toNat / 2 ^ n * 2 ^ n)]
  | _ => new

/-- Bytes in the order of their indices; a row of `ldf` has at most 128. -/
def byIndex (l : List (Nat × Byte)) : List (Nat × Byte) := (List.range 128).filterMap fun i => l.find? fun e => e.1 == i

/-- One event is performed: its bytes are read, replaced, and with those of the head's other events delivered. -/
def State.performReq (s : State) (r : FabReq) : State :=
  let got := r.bytes.map fun e => (e.1, s.byte e.2)
  let places := r.bytes.map (·.2)
  let w := 8 * places.length
  let put : List Byte := match atomicNew r.instr w (numOf got) r.a r.b with
    | some v => bytesOfNat places.length v
    | none => keepBits r (got.map (·.2)) r.data
  let s1 := if (r.silent && viaFabric places) ∨ put = [] then s else (s.setBytes (places.zip put)).clearPoison places
  match r.dst with
  | none => s1
  | some d => s1.modCtx r.ctx fun x =>
      let (v, f) := loaded (x.settle (s1.nowCtx r.ctx)) r (byIndex (r.got ++ got))
      x.deliver d v f

/-- The poisoned byte that a load or atomic operation would deliver. -/
def State.reqPoison (s : State) (r : FabReq) : Option Trap :=
  if r.dst.isSome then (r.bytes.find? fun e => s.poisoned e.2).map fun e => poisonTrap r.ptr (vaOf r.ptr + e.1) e.2
  else none

/-! ## Requests in the fabric (R138) -/

def State.fabricOf (s : State) (c : CtxId) : List FabReq := (s.core (coreOf c)).fabric.filter fun r => r.ctx == c
/-- A context's earlier acquire is not yet performed: its later accesses wait (R134). -/
def State.acqPending (s : State) (c : CtxId) : Bool := (s.fabricOf c).any FabReq.acq
/-- A context's earlier synchronising access is not yet performed: its later ones wait (R134). -/
def State.syncPending (s : State) (c : CtxId) : Bool := (s.fabricOf c).any FabReq.sync
/-- Every access of a context is performed. -/
def State.quiet (s : State) (c : CtxId) : Bool := (s.fabricOf c).isEmpty

/-- The route of a request that leaves the core. -/
def FabReq.route (r : FabReq) : Option Route :=
  match r.bytes with
  | [] => none
  | e :: _ => if e.2 < scratchBase then some (routeOf e.2 e.2) else none

/-- Two requests of which one port must deliver the earlier one first: they go to one destination in one lane (R138), or to one
64-byte line. The events of one head are unordered (R129). -/
def sameLane (a b : FabReq) : Bool :=
  decide (a.head ≠ b.head) && ((a.route.isSome && decide (a.route = b.route)) ||
    a.bytes.any fun e => b.bytes.any fun f => decide (e.2 / 64 = f.2 / 64))

/-- Messages of a core that have not reached their inbox: on their way, in its queue, or released and not yet in it. A bounce is
the fabric's. -/
def State.messagesOf (s : State) (p : Place) : List Flying :=
  (s.flying.filter fun f => f.src == p && f.msg.bnc == 0) ++ (s.core p).outq ++
    (List.range 4).flatMap fun i => (s.ctx (ctxAt p i)).sendBuf.filterMap fun o => match o with
      | .committed f => some f
      | _ => none

/-- A core's port has issued something for a route, before number n, that is not yet delivered: a piece of an engine command or
a message (R138). -/
def State.routeBusy (s : State) (p : Place) (n : Nat) (r : Route) : Bool :=
  ((s.core p).transit.any fun x => decide (x.seq < n) && x.route == some r) ||
    (s.messagesOf p).any fun f => decide (f.seq < n) && decide (messageRoute f.dst = r)

/-- Something that a core's port issued for a route before number n is not yet delivered. -/
def State.routeHeld (s : State) (p : Place) (n : Nat) (r : Route) : Bool :=
  s.routeBusy p n r || (s.core p).fabric.any fun o => decide (o.seq < n) && o.route == some r

/-- A core's request n may be delivered now. -/
def State.deliverable (s : State) (p : Place) (n : Nat) : Option FabReq :=
  let l := (s.core p).fabric
  match l.find? fun r => r.seq == n with
  | none => none
  | some r =>
    if (l.any fun o => decide (o.seq < r.seq) && sameLane o r) || r.route.any fun w => s.routeBusy p n w then none else some r

/-- The other events of a load's head take in what one of them has read. -/
def FabReq.take (r o : FabReq) (got : List (Nat × Byte)) : FabReq := if o.head = r.head then { o with got := o.got ++ got } else o

/-- A request reaches its memory (FABRIC_DELIVERY). A load of several events writes its register with the last. -/
def State.deliver (s : State) (p : Place) (n : Nat) : State :=
  match s.deliverable p n with
  | none => s
  | some r =>
    match s.reqPoison r with
    | some t => s.consume r.ctx t.fva t.detail.toNat
    | none =>
      let rest := (s.core p).fabric.filter fun o => o.seq != n
      if r.dst.isSome && rest.any fun o => o.head == r.head then
        let got := r.bytes.map fun e => (e.1, s.byte e.2)
        s.modCore p fun k => { k with fabric := rest.map fun o => r.take o got }
      else (s.modCore p fun k => { k with fabric := rest }).performReq r

/-- FABRIC_DELIVERY (R138). -/
def execFabricDelivery (p : Place) (n : Nat) (s : State) : Out := .next (s.deliver p n)

/-! ## Issuing an access -/

/-- Event k of a head's access: the bytes and data of its indices. Only the last byte of a row of stf is written in part. -/
def FabReq.event (r : FabReq) (seq k : Nat) (ev : List Nat) : FabReq :=
  let mine := fun (e : Nat × Nat) => ev.contains e.1
  { r with
    seq := seq + k, head := seq, bytes := r.bytes.filter mine
    data := ((r.bytes.zip r.data).filter fun e => mine e.1).map (·.2)
    a := match r.instr with
      | .stf .. => if ev.contains ((r.bytes.map (·.1)).getLastD 0) then r.a else 0
      | _ => r.a }

/-- An access of n bytes whose bytes are found and allowed. One event in local memory or scratchpad is performed at once; every
other access leaves its events for the fabric, or for the memory port of the core (R129, R138). -/
def State.access (s : State) (r0 : FabReq) (n : Nat) (bytewise : Bool) : Eff :=
  let r : FabReq := { r0 with silent := s.silent r0.ctx }
  let s1 := match r.dst with | some d => s.modCtx r.ctx fun x => x.addBusy d | none => s
  let ev := eventsOf (vaOf r.ptr) n bytewise (r.bytes.map (·.1))
  if viaFabric (r.bytes.map (·.2)) || decide (1 < ev.length) then
    let l := ev.zipIdx.map fun e => r.event s.seq e.2 e.1
    .done (({ s1 with seq := s1.seq + ev.length } : State).modCore (coreOf r.ctx) fun k => { k with fabric := k.fabric ++ l }) .seq
  else match s.reqPoison r with
    | some t => .trap t
    | none => .done (s1.performReq r) .seq

/-- The bytes of an access at a pointer: every index below n that `keep` admits. -/
def accessVas (ptr : Word) (n : Nat) (keep : Nat → Bool) : List (Nat × Nat) :=
  ((List.range n).filter keep).map fun i => (i, vaOf ptr + i)

/-- The shared course of a memory head (R165, R217, R219): its effective address, the checks of its bytes, then `k` on the
pointer and on the bytes by index and place. -/
def memAt (acc : Acc) (align n : Nat) (keep : Nat → Bool) (a : SReg) (o : OOp)
    (k : State → Word → List (Nat × Nat) → Eff) (s : State) : Eff :=
  let c := s.cur.ctx
  if s.acqPending c then .hold
  else match effAddr (s.here.sreg a) (s.off o) with
    | none => .trap (ptrOvf (s.here.sreg a))
    | some ptr =>
      let l := accessVas ptr n keep
      match s.resolve (s.agent c) acc ptr (l.map (·.2)) (decide (vaOf ptr % align = 0)) true true with
      | .error t => .trap t
      | .ok (s1, places) => k s1 ptr ((l.map (·.1)).zip places)

def needMem (a : SReg) (o : OOp) (l : List XOp) (reads writes : List RegName) : Need :=
  needX (ooX o :: l) (.s a :: reads) writes

/-- Every byte of an access. -/
def allBytes (_ : Nat) : Bool := true

/-- A plain load (R221, R223). -/
def loadAt (i : Instr) (n : Nat) (bytewise : Bool) (keep : Nat → Bool) (a : SReg) (o : OOp) (d : RegName) : State → Eff :=
  memAt .load 1 n keep a o fun s ptr l =>
    s.access { seq := 0, ctx := s.cur.ctx, instr := i, ptr := ptr, bytes := l, dst := some d } n bytewise

/-- A store to die store or global memory of a checked run enters its digest (R350). -/
def State.noteStore (s : State) (va n : Nat) (bytewise : Bool) (l : List (Nat × Nat)) (data : List Byte) : State :=
  if viaFabric (l.map (·.2)) then
    s.digestStore s.cur.ctx (storeEvents va n bytewise ((l.map (·.1)).zip data))
  else s

/-- A store of n bytes, byte i being `data s i` (R221). -/
def storeAt (i : Instr) (n : Nat) (keep : Nat → Bool) (a : SReg) (o : OOp) (data : State → Nat → Byte) : State → Eff :=
  memAt .store 1 n keep a o fun s ptr l =>
    let d := l.map fun e => data s e.1
    (s.noteStore (vaOf ptr) n false l d).access
      { seq := 0, ctx := s.cur.ctx, instr := i, ptr := ptr, bytes := l, data := d } n false

/-! ## Synchronising accesses (R131, R134) -/

/-- The observers of R131: a context, a core's copy-engine port, the WDE sequencer of a context, a cluster's Pilot or array, and the
host through a PCI Express function of a package. -/
inductive Observer where
  | context (c : CtxId) | engine (p : Place) | sequencer (c : CtxId) | pilot (k : ClusterId) | array (k : ClusterId) | host (g : PkgId)
  deriving DecidableEq, Repr

/-- The scope instance of a context (R131): the observers that the context's access of a scope is ordered for. What an access of a
narrower scope may look like to an observer outside it only another processor could show: the one memory of the model orders
every scope for all of them (R134, log 67). -/
def scopeHolds (scope : BitVec 3) (c : CtxId) (o : Observer) : Bool :=
  let p := coreOf c
  let core := match o with
    | .context d | .sequencer d => some (coreOf d)
    | .engine q => some q
    | _ => none
  let cluster := match o with
    | .pilot k | .array k => some k
    | _ => core.map clusterOf
  match scope.toNat with
  | 0 => o == .context c
  | 1 => core == some p
  | 2 => cluster == some (clusterOf p)
  | 3 => match core with
    | some q => decide (dieOf q = dieOf p)
    | none => cluster.any fun k => decide (dieOfCluster k = dieOf p)
  | 4 => match core with
    | some q => decide (pkgOf q = pkgOf p)
    | none => cluster.any fun k => decide (pkgOfCluster k = pkgOf p)
  | _ => true

/-- Earlier synchronising accesses come first; a release waits for every earlier access (R134 items 5 and 7, of every scope). -/
def syncHold (release : Bool) (eff : State → Eff) (s : State) : Eff :=
  if s.syncPending s.cur.ctx || (release && !s.quiet s.cur.ctx) then .hold else eff s

/-- Byte j of a word or of a vector. -/
def byteOf (w : Nat) (j : Nat) : Byte := BitVec.ofNat 8 (w / 256 ^ j)

end Sys2Proof.Machine
end

