-- ==== Sys2Proof/Machine/Sync.lean ====
section
/-! DEFINITION. Fences, acquires and releases (R226), atomic operations (R227, R228), full/empty operations (R229). -/

namespace Sys2Proof.Machine

/-! ## Fences (R226): of any scope (R134 item 6), the head waits until the earlier accesses it covers are performed (log 14) -/

/-- An acquire fence covers earlier loads; the others cover every earlier access. -/
def State.fenceReady (s : State) (c : CtxId) (kind : BitVec 2) : Bool :=
  if kind = 0 then (s.fabricOf c).all fun r => r.dst.isNone else s.quiet c

/-- `fence` (R226). -/
def execFence (kind : BitVec 2) (scope : BitVec 3) (s : State) : Out :=
  head (.fence kind scope) {} free free (fun s => if s.fenceReady s.cur.ctx kind then .done s .seq else .hold) s

/-! ## Synchronising accesses (R134) -/

def ldacqEff (i : Instr) (m : MO) (d : SReg) (a : SReg) (o : OOp) : State → Eff :=
  let n := sizeBytes m.size
  syncHold false (memAt .load n n allBytes a o fun s ptr l =>
    s.access { seq := 0, ctx := s.cur.ctx, instr := i, ptr := ptr, bytes := l, dst := some (.s d), acq := true
               sync := true } n false)

def strelEff (i : Instr) (m : MO) (a : SReg) (o : OOp) (b : XOp) : State → Eff :=
  let n := sizeBytes m.size
  syncHold true (memAt .store n n allBytes a o fun s ptr l =>
    let d := l.map fun e => byteOf (s.x b).toNat e.1
    (s.noteStore (vaOf ptr) n false l d).access
      { seq := 0, ctx := s.cur.ctx, instr := i, ptr := ptr, bytes := l, data := d, sync := true } n false)

/-- `ldacq` (R226). -/
def execLdacq (d : SReg) (a : SReg) (o : OOp) (m : MO) (s : State) : Out :=
  head (.ldacq d a o m) (needMem a o [] [] [.s d]) free free (ldacqEff (.ldacq d a o m) m d a o) s
/-- `strel` (R226). -/
def execStrel (a : SReg) (o : OOp) (b : XOp) (m : MO) (s : State) : Out :=
  head (.strel a o b m) (needMem a o [b] [] []) free free (strelEff (.strel a o b m) m a o b) s

/-! ## Atomic operations (R227, R228) -/

/-- One read-modify-write; `b` and `c` are its operands, `noted` what enters a digest. -/
def atomicEff (i : Instr) (d : SReg) (a : SReg) (o : OOp) (m : MO) (b c noted : State → Word) : State → Eff :=
  let n := sizeBytes m.size
  syncHold (m.ord.getLsbD 1) (memAt .atomic n n allBytes a o fun s ptr l =>
    let s1 := if viaFabric (l.map (·.2)) then s.digest s.cur.ctx 2 (BitVec.ofNat 64 (vaOf ptr)) (noted s) else s
    s1.access { seq := 0, ctx := s.cur.ctx, instr := i, ptr := ptr, bytes := l, a := b s, b := c s, dst := some (.s d)
                acq := m.ord.getLsbD 0, sync := true } n false)

def amo (i : Instr) (d : SReg) (a : SReg) (o : OOp) (b : XOp) (m : MO) : State → Out :=
  head i (needMem a o [b] [] [.s d]) free free (atomicEff i d a o m (fun s => s.x b) (fun _ => 0) (fun s => s.x b))

/-- `amo.add` (R227). -/
def execAmoAdd (d : SReg) (a : SReg) (o : OOp) (b : XOp) (m : MO) (s : State) : Out := amo (.amoAdd d a o b m) d a o b m s
/-- `amo.and` (R227). -/
def execAmoAnd (d : SReg) (a : SReg) (o : OOp) (b : XOp) (m : MO) (s : State) : Out := amo (.amoAnd d a o b m) d a o b m s
/-- `amo.or` (R227). -/
def execAmoOr (d : SReg) (a : SReg) (o : OOp) (b : XOp) (m : MO) (s : State) : Out := amo (.amoOr d a o b m) d a o b m s
/-- `amo.xor` (R227). -/
def execAmoXor (d : SReg) (a : SReg) (o : OOp) (b : XOp) (m : MO) (s : State) : Out := amo (.amoXor d a o b m) d a o b m s
/-- `amo.min` (R227). -/
def execAmoMin (d : SReg) (a : SReg) (o : OOp) (b : XOp) (m : MO) (s : State) : Out := amo (.amoMin d a o b m) d a o b m s
/-- `amo.max` (R227). -/
def execAmoMax (d : SReg) (a : SReg) (o : OOp) (b : XOp) (m : MO) (s : State) : Out := amo (.amoMax d a o b m) d a o b m s
/-- `amo.minn` (R227). -/
def execAmoMinn (d : SReg) (a : SReg) (o : OOp) (b : XOp) (m : MO) (s : State) : Out := amo (.amoMinn d a o b m) d a o b m s
/-- `amo.maxn` (R227). -/
def execAmoMaxn (d : SReg) (a : SReg) (o : OOp) (b : XOp) (m : MO) (s : State) : Out := amo (.amoMaxn d a o b m) d a o b m s
/-- `amo.swap` (R227). -/
def execAmoSwap (d : SReg) (a : SReg) (o : OOp) (b : XOp) (m : MO) (s : State) : Out := amo (.amoSwap d a o b m) d a o b m s
/-- `cas` (R228). -/
def execCas (d : SReg) (a : SReg) (o : OOp) (b c : XOp) (m : MO) (s : State) : Out :=
  head (.cas d a o b c m) (needMem a o [b, c] [] [.s d]) free free
    (atomicEff (.cas d a o b c m) d a o m (fun s => s.x b) (fun s => s.x c) (fun s => s.x c)) s

/-! ## Full/empty operations (R229) -/

/-- A word that lies elsewhere than in local memory or scratchpad is an operand outside its limits (log 50); in the LPCT window
it traps XLATE_PERM (R369). -/
def nearOnly (a : SReg) (o : OOp) (s : State) : Bool :=
  match effAddr (s.here.sreg a) (s.off o) with
  | none => true
  | some ptr =>
    match windowOfRange (vaOf ptr) 8 with
    | some .loc | some .scratch => true
    | some .die => decide (lpctOff ≤ vaOf ptr - 0x20000000)
    | _ => false

/-- The place of the word that a context's operand names. -/
def State.feWord (s : State) (c : CtxId) (a : SReg) (o : OOp) : Option Nat :=
  match effAddr ((s.ctx c).sreg a) (s.xOf c (ooX o)) with
  | none => none
  | some ptr =>
    match windowOf (vaOf ptr) with
    | some .loc => some (localAt (coreOf c) (vaOf ptr))
    | some .scratch => some (scratchAt (clusterOf (coreOf c)) (s.ctx c).csr.hkey (vaOf ptr - 0x10000000))
    | _ => none

/-- The word a waiting head waits on, and whether it waits for full. -/
def State.waitsOn (s : State) (c : CtxId) (w : Waiting) : Option (Nat × Bool) :=
  match w.instr with
  | .ldfe _ a o => (s.feWord c a o).map fun p => (p, true)
  | .ldfeE _ a o => (s.feWord c a o).map fun p => (p, true)
  | .stfeW a o _ => (s.feWord c a o).map fun p => (p, false)
  | _ => none

/-- Contexts are served in the order in which they reached the word (R229). -/
def State.feBefore (s : State) (place : Nat) (full : Bool) : Bool :=
  let mine := match s.here.wait with | some w => w.seq | none => s.seq
  s.ctxs.any fun e => match e.2.wait with
    | some w => decide (e.1 ≠ s.cur.ctx) && decide (w.seq < mine) && s.waitsOn e.1 w == some (place, full)
    | none => false

/-- The shared course: the word at an aligned address, with its place. -/
def feAt (acc : Acc) (release : Bool) (a : SReg) (o : OOp) (k : State → Word → Nat → Eff) : State → Eff :=
  syncHold release (memAt acc 8 8 allBytes a o fun s ptr l =>
    let place := (l.map (·.2)).headD 0
    if isDie place then .trap (xlateTrap acc ptr 0 2) else k s ptr place)

/-- A waiting head's turn: the word is as it must be, and no earlier head waits for it. -/
def State.feReady (s : State) (place : Nat) (full : Bool) : Bool := (s.isFull place == full) && !s.feBefore place full

def State.setWord (s : State) (place : Nat) (w : Word) : State :=
  ((s.writeRun place (bytesOfNat 8 w.toNat)).clearPoison (runFrom place 8)).setFull place

def feLoad (d : SReg) (take : Bool) (s : State) (ptr : Word) (place : Nat) : Eff :=
  if !s.feReady place true then .wait s
  else if s.poisoned place then .trap (poisonTrap ptr (vaOf ptr) place)
  else
    let s1 := s.setS 1 d (wordOfBytes (s.readRun place 8))
    .done (if take then s1.setEmpty place else s1) .seq

/-- `ldfe` (R229). -/
def execLdfe (d : SReg) (a : SReg) (o : OOp) (s : State) : Out :=
  head (.ldfe d a o) (needMem a o [] [] [.s d]) free (operandOk [{ ops := [ooX o], ok := nearOnly a o }]) (feAt .load false a o (feLoad d false)) s
/-- `ldfe.e` (R229). -/
def execLdfeE (d : SReg) (a : SReg) (o : OOp) (s : State) : Out :=
  head (.ldfeE d a o) (needMem a o [] [] [.s d]) free (operandOk [{ ops := [ooX o], ok := nearOnly a o }]) (feAt .load true a o (feLoad d true)) s
/-- `stfe` (R229). -/
def execStfe (a : SReg) (o : OOp) (b : XOp) (s : State) : Out :=
  head (.stfe a o b) (needMem a o [b] [] []) free (operandOk [{ ops := [ooX o], ok := nearOnly a o }])
    (feAt .store true a o fun s _ p => .done (s.setWord p (s.x b)) .seq) s
/-- `stfe.w` (R229). -/
def execStfeW (a : SReg) (o : OOp) (b : XOp) (s : State) : Out :=
  head (.stfeW a o b) (needMem a o [b] [] []) free (operandOk [{ ops := [ooX o], ok := nearOnly a o }])
    (feAt .store true a o fun s _ p => if s.feReady p false then .done (s.setWord p (s.x b)) .seq else .wait s) s
/-- `fe.set` (R229). -/
def execFeSet (a : SReg) (o : OOp) (s : State) : Out :=
  head (.feSet a o) (needMem a o [] [] []) free (operandOk [{ ops := [ooX o], ok := nearOnly a o }])
    (feAt .store true a o fun s _ p => .done (s.setFull p) .seq) s
/-- `fe.clr` (R229). -/
def execFeClr (a : SReg) (o : OOp) (s : State) : Out :=
  head (.feClr a o) (needMem a o [] [] []) free (operandOk [{ ops := [ooX o], ok := nearOnly a o }])
    (feAt .store true a o fun s _ p => .done (s.setEmpty p) .seq) s
/-- `fe.tst` (R229). -/
def execFeTst (pd : PReg) (a : SReg) (o : OOp) (s : State) : Out :=
  head (.feTst pd a o) (needMem a o [] [] [.p pd]) free (operandOk [{ ops := [ooX o], ok := nearOnly a o }])
    (feAt .load false a o fun s _ p => .done (s.setP 1 pd (if s.isFull p then BitVec.allOnes 16 else 0) 0) .seq) s

end Sys2Proof.Machine
end

