-- ==== Sys2Proof/Machine/Counters.lean ====
section
/-! DEFINITION. Completion counters (R239) and circular buffers (R240, R241). -/

namespace Sys2Proof.Machine

/-! ## Counters (R238, R239) -/

/-- A counter that the context may name (R238). -/
def State.ownsCounter (s : State) (k : Word) : Bool := decide (k.toNat < 64) && s.here.csr.ccown.getLsbD k.toNat
def counterOk (a : XOp) : State → Option Cause := operandOk [{ ops := [a], ok := fun s => s.ownsCounter (s.x a) }]

/-- `cc.set` (R239). -/
def execCcSet (a b : XOp) (scope : BitVec 3) (s : State) : Out :=
  head (.ccSet a b scope) (needX [a, b] [] []) free (counterOk a)
    (fun s => .done (s.setCounter (coreOf s.cur.ctx) (s.x a).toNat { value := (s.x b).setWidth 32, scope := scope }) .seq) s

/-- `cc.rd` (R239): an acquire. -/
def execCcRd (d : SReg) (a : XOp) (w : Lit) (s : State) : Out :=
  head (.ccRd d a w) (needX [a] [] [.s d]) free
    (operandOk [{ ok := fun _ => w == 0 || w == 1 }, { ops := [a], ok := fun s => s.ownsCounter (s.x a) }])
    (syncHold false fun s =>
      let x := s.counter (coreOf s.cur.ctx) (s.x a).toNat
      .done (s.setS 1 d (if w = 0 then x.status else x.record)) .seq) s

/-- The wait ends: the value is reached, modulo 2^32, or the counter is in ERROR. -/
def Counter.reached (x : Counter) (b : Word) : Bool := decide ((x.value - b.setWidth 32).toNat < 2 ^ 31) || x.err

def ccWaitEff (d : SReg) (a b : XOp) (nt : Bool) (s : State) : Eff :=
  let x := s.counter (coreOf s.cur.ctx) (s.x a).toNat
  if !x.reached (s.x b) then .wait s
  else if x.err && !nt then .trap { cause := .engineError }
  else .done (s.setS 1 d x.status) .seq

/-- `cc.wait` (R239). -/
def execCcWait (d : SReg) (a b : XOp) (nt : Bool) (s : State) : Out :=
  head (.ccWait d a b nt) (needX [a, b] [] [.s d]) free (counterOk a) (syncHold false (ccWaitEff d a b nt)) s

/-! ## Circular buffers (R240, R241) -/

def State.buffer (s : State) (p : Place) (b : Nat) : Buffer := SMap.look (s.core p).buffers b {}
def State.setBuffer (s : State) (p : Place) (b : Nat) (x : Buffer) : State :=
  s.modCore p fun c => { c with buffers := SMap.put c.buffers b x }
def State.ownsBuffer (s : State) (b : Word) : Bool := decide (b.toNat < 16) && s.here.csr.cbown.getLsbD b.toNat
/-- The buffer that an operand of the head names. -/
def State.bufferOf (s : State) (a : XOp) : Buffer := s.buffer (coreOf s.cur.ctx) (s.x a).toNat
def State.putBuffer (s : State) (a : XOp) (x : Buffer) : State := s.setBuffer (coreOf s.cur.ctx) (s.x a).toNat x

/-- The address of slot i, with BASE's other pointer fields. -/
def Buffer.slotVa (b : Buffer) (i : Nat) : Nat := vaOf b.base + i % max 1 b.count * b.slot
def Buffer.slotPtr (b : Buffer) (i : Nat) : Word := withVa b.base (b.slotVa i)

/-- The end of a near window. -/
def windowEnd : Window → Nat
  | .loc => 0x30000
  | .scratch => 0x10200000
  | _ => 0

/-- The operand limits of `cb.cfg` (R241). -/
def cbCfgLimits (a b c d : XOp) : List Limit :=
  [{ ops := [a], ok := fun s => s.ownsBuffer (s.x a) },
    { ops := [b], ok := fun s => decide (vaOf (s.x b) % 8 = 0) && match windowOf (vaOf (s.x b)) with
        | some .die | some .glob => false
        | _ => true },
    { ops := [c], ok := fun s => decide ((s.x c).toNat % 8 = 0) && decide (16 ≤ (s.x c).toNat) && decide ((s.x c).toNat ≤ 4096) },
    { ops := [d], ok := fun s => decide (1 ≤ (s.x d).toNat) && decide ((s.x d).toNat ≤ 256) },
    { ops := [b, c, d], ok := fun s => match windowOf (vaOf (s.x b)) with
        | some w => decide (vaOf (s.x b) + (s.x c).toNat * (s.x d).toNat ≤ windowEnd w)
        | none => true }]

def cbCfgEff (a b c d : XOp) (eng : Bool) (s : State) : Eff :=
  match nearRegion (s.agent s.cur.ctx) .store (s.x b) ((s.x c).toNat * (s.x d).toNat) with
  | some t => .trap t
  | none =>
    .done (s.putBuffer a { cfg := true, eng := eng, base := s.x b, slot := (s.x c).toNat, count := (s.x d).toNat
                           free := (s.x d).toNat }) .seq

/-- `cb.cfg` (R241). -/
def execCbCfg (a b c d : XOp) (eng : Bool) (s : State) : Out :=
  head (.cbCfg a b c d eng) (needX [a, b, c, d] [] []) free (operandOk (cbCfgLimits a b c d)) (cbCfgEff a b c d eng) s

/-- A configured buffer that the context owns; with `core`, one whose producers are contexts. -/
def bufferOk (a : XOp) (core : Bool) (more : Buffer → Bool) : State → Option Cause :=
  operandOk [{ ops := [a], ok := fun s =>
    s.ownsBuffer (s.x a) && (s.bufferOf a).cfg && !(core && (s.bufferOf a).eng) && more (s.bufferOf a) }]

def cbAcqEff (d : SReg) (a : XOp) (t : Bool) (s : State) : Eff :=
  let x := s.bufferOf a
  if x.free = 0 then (if t then .done (s.setS 1 d (BitVec.allOnes 64)) .seq else .wait s)
  else .done ((s.putBuffer a { x with free := x.free - 1, aidx := x.aidx + 1 }).setS 1 d (x.slotPtr x.aidx)) .seq

/-- `cb.acq` (R241). -/
def execCbAcq (d : SReg) (a : XOp) (t : Bool) (s : State) : Out :=
  head (.cbAcq d a t) (needX [a] [] [.s d]) free (bufferOk a true fun _ => true) (syncHold false (cbAcqEff d a t)) s

/-- `cb.pub` (R241): a release. -/
def execCbPub (a : XOp) (s : State) : Out :=
  head (.cbPub a) (needX [a] [] []) free (bufferOk a true fun x => decide (x.pidx ≠ x.aidx))
    (syncHold true fun s =>
      let x := s.bufferOf a
      .done (s.putBuffer a { x with pidx := x.pidx + 1, filled := x.filled + 1 }) .seq) s

def cbTakeEff (d : SReg) (a : XOp) (t : Bool) (s : State) : Eff :=
  let x := s.bufferOf a
  if x.filled = 0 then (if t then .done (s.setS 1 d (BitVec.allOnes 64)) .seq else .wait s)
  else .done ((s.putBuffer a { x with filled := x.filled - 1, tidx := x.tidx + 1 }).setS 1 d (x.slotPtr x.tidx)) .seq

/-- `cb.take` (R241). -/
def execCbTake (d : SReg) (a : XOp) (t : Bool) (s : State) : Out :=
  head (.cbTake d a t) (needX [a] [] [.s d]) free (bufferOk a false fun _ => true) (syncHold false (cbTakeEff d a t)) s

/-- `cb.rel` (R241): a release. -/
def execCbRel (a : XOp) (s : State) : Out :=
  head (.cbRel a) (needX [a] [] []) free (bufferOk a false fun x => decide (x.ridx ≠ x.tidx))
    (syncHold true fun s =>
      let x := s.bufferOf a
      .done (s.putBuffer a { x with ridx := x.ridx + 1, free := x.free + 1 }) .seq) s

end Sys2Proof.Machine
end

