-- ==== Sys2Proof/Machine/Control.lean ====
section
/-! DEFINITION. Commands that control-register writes give and their events carry out: held inboxes (R307), dispatcher commands
(R314, R315), basin commands (R344), bank drops and the Tug (R345, R346), decode tables (R246). -/

namespace Sys2Proof.Machine

/-! ## Held inboxes (R39, R307) -/

/-- INBCTL bit 0: the inbox is released and its head message starts again, its time at the head counted anew. -/
def State.representInbox (s : State) (p : Place) : State :=
  s.modInbox p fun x => { x with inboxHeld := false, inbox := x.inbox.map fun m => { m with headAt := none } }

/-- INBCTL bit 1: the head message of a held inbox is discarded. -/
def State.discardInbox (s : State) (p : Place) : State :=
  let x := s.core p
  if !x.inboxHeld then s
  else match x.headMsg with
    | none => s.modCore p fun y => { y with inboxHeld := false }
    | some m => s.modInbox p fun y =>
        { y with inboxHeld := false, inbox := (y.inbox.filter fun n => n.num != m.num).map fun n => { n with headAt := none } }

/-! ## Dispatcher commands (R314) -/

/-- Place and context of DARG. -/
def dargCtx (v : Word) : CtxId := ctxAt (bitsOf v.toNat 0 22) (bitsOf v.toNat 22 2)

/-- Whether a part's dispatcher reaches a context: its cluster is the part's. -/
def State.reaches (s : State) (q : PartId) (c : CtxId) : Bool :=
  decide (pkgOf (coreOf c) = q / 16) && (s.part q).owns (clusterOf (coreOf c))

/-- A kill command on one context; a context that stopped at supervisor level is the hypervisor's alone (R334). -/
def State.killCmd (s : State) (q : PartId) (hyp : Bool) (c : CtxId) : State :=
  if !s.reaches q c ∨ ((s.ctx c).run = .stopped ∧ !hyp) then s else s.kill c

/-- The contexts of a task's group, or of its span (R314). -/
def State.groupCtxs (s : State) (c : CtxId) : List CtxId :=
  match s.groupOf c with
  | none => [c]
  | some g =>
    let q := s.part (s.partOfCtx c)
    let all : List Group := match g.span with
      | none => [g]
      | some n => (q.groups.map Prod.snd).filter fun h => h.span == some n
    all.flatMap fun (h : Group) => h.members.filter fun m => !h.ended.contains m

def State.killGroup (s : State) (q : PartId) (hyp : Bool) (c : CtxId) : State :=
  (s.groupCtxs c).foldl (fun t m => t.killCmd q hyp m) s

/-- Waves not started are removed; a started wave keeps its placed groups and drops the rest. -/
def State.drainQueue (s : State) (q : PartId) (n : Nat) : State :=
  s.modPart q fun x => { x with waves := x.waves.filter fun w => w.queue != n }

def State.setSlot (s : State) (q : PartId) (n : Nat) : State := s.modPart q fun x => { x with aslot := n }

/-- Banks retained under a pair are powered down on every core of the part. -/
def State.releaseBanks (s : State) (q : PartId) (slot : Nat) (key : BitVec 16) : State :=
  (s.cores.map (·.1)).foldl (fun t p =>
    if t.reaches q (ctxAt p 0) then t.banksOff p ((t.core p).banksWhere (· == .retained slot key)) else t) s

/-- The command in progress, if its code is n, with its argument; it ends with the step that carries it out. -/
def State.takeCommand (s : State) (q : PartId) (n : Nat) : Option (Word × Bool × State) :=
  match (s.part q).dcmd with
  | some (k, v, _, hyp) => if k = n then some (v, hyp, s.modPart q fun x => { x with dcmd := none }) else none
  | none => none

/-! ## Basin commands (R344) -/

def State.unfence (s : State) (q : PartId) (k : Nat) : State :=
  let l := s.basinClusters q k
  if l.all fun j => (s.cluster j).resetDone then
    l.foldl (fun t j => t.modCluster j fun x => { x with fenced := false }) s
  else s

/-- RESET: the sequence of R342 without consumption. -/
def State.resetCommand (s : State) (q : PartId) (k : Nat) : State :=
  match s.basinClusters q k with
  | [] => s
  | j :: _ => s.resetBasin j 0x3FFFFF 0

/-- A BCMD value that R344 admits. -/
def bcmdOk (v : Word) : Bool := decide (bitsOf v.toNat 8 56 = 0) && (decide (bitsOf v.toNat 4 4 = 1) || decide (bitsOf v.toNat 4 4 = 2))

/-! ## Bank drops and the Tug (R345, R346) -/

/-- 64 KiB units of one bank: 80 GiB over 32 pseudo-channels of 64 banks (R1, R345). -/
def bankUnits : Nat := 640

/-- The bank of the partition that holds an HBM stack. -/
def State.stackOwner (s : State) (g : PkgId) (stack : Nat) : Option Nat :=
  (List.range 16).find? fun b => (s.part (16 * g + b)).phbm.getLsbD stack

/-- The index of the highest memory range of a part. -/
def Part.topRange (q : Part) : Option Nat :=
  (List.range 8).foldl (fun best k =>
    let r := (SMap.look q.pmr k (0 : Word)).toNat
    if bitsOf r 32 31 = 0 then best
    else match best with
      | none => some k
      | some j => if bitsOf (SMap.look q.pmr j (0 : Word)).toNat 0 32 ≤ bitsOf r 0 32 then some k else some j) none

/-- One bank's capacity leaves the top of the highest range. -/
def Part.shrink (q : Part) : Part :=
  match q.topRange with
  | none => q
  | some k =>
    let r := (SMap.look q.pmr k (0 : Word)).toNat
    { q with pmr := SMap.put q.pmr k (BitVec.ofNat 64 (bitsOf r 0 32 + 2 ^ 32 * (bitsOf r 32 31 - bankUnits))) }

/-- The lowest physical address of a part's ranges. -/
def Part.lowest (q : Part) : Nat :=
  (List.range 8).foldl (fun a k =>
    let r := (SMap.look q.pmr k (0 : Word)).toNat
    if bitsOf r 32 31 = 0 then a else min a (bitsOf r 0 32 * 2 ^ 16)) (2 ^ 48)
/-- The first 64 KiB unit of a part's ranges from an address on. -/
def Part.unitFrom (q : Part) (a : Nat) : Option Nat :=
  (List.range 8).foldl (fun best k =>
    let r := (SMap.look q.pmr k (0 : Word)).toNat
    let u := max a (bitsOf r 0 32 * 2 ^ 16)
    if (bitsOf r 0 32 + bitsOf r 32 31) * 2 ^ 16 ≤ u then best
    else match best with | none => some u | some v => some (min u v)) none

/-- HDROP: refused, or the bank leaves the hash and the Tug starts. -/
def State.dropBank (s : State) (g : PkgId) (v : Word) : State :=
  let x := s.pkg g
  let n := bitsOf v.toNat 0 14
  match s.stackOwner g (bitsOf n 0 3) with
  | none => s.modPkg g fun y => { y with hdrop := BitVec.ofNat 64 (n + 2 ^ 63) }
  | some b =>
    if x.tugActive ∨ x.dropped.contains n then s.modPkg g fun y => { y with hdrop := BitVec.ofNat 64 (n + 2 ^ 63) }
    else
      let q := 16 * g + b
      let s1 := s.modPart q Part.shrink
      s1.modPkg g fun y =>
        { y with hdrop := BitVec.ofNat 64 n, dropped := natInsert y.dropped n, tugActive := true, tugStack := bitsOf n 0 3
                 tugbnd := (s1.part q).lowest % 2 ^ 48 }

/-- The Tug moves the next 64 KiB unit of the stack's ranges: every byte keeps its physical address (R347). -/
def State.moveUnit (s : State) (g : PkgId) : State :=
  let x := s.pkg g
  if !x.tugActive then s
  else
    let q := s.part (16 * g + (s.stackOwner g x.tugStack).getD 0)
    match q.unitFrom x.tugbnd with
    | none => s.modPkg g fun y => { y with tugActive := false }
    | some u => s.modPkg g fun y =>
        { y with tugbnd := min (u + 65536) (2 ^ 48 - 65536), tugActive := (q.unitFrom (u + 65536)).isSome }

/-! ## Decode tables (R246) -/

/-- Length and code of exponent v in a table image. -/
def tableEntry (l : List Byte) (v : Nat) : Nat × Nat :=
  let e := fieldAt l (4 * v) 4
  (bitsOf e 0 5, bitsOf e 5 16 % 2 ^ bitsOf e 0 5)

/-- No code is the start of another: codes are read from their most significant bit. -/
def codesClash (a b : Nat × Nat) : Bool :=
  decide (a.1 ≠ 0) && decide (b.1 ≠ 0) && decide (a.1 ≤ b.1) && decide (b.2 / 2 ^ (b.1 - a.1) = a.2)
def noClash : List (Nat × Nat) → Bool
  | [] => true
  | a :: t => t.all (fun b => !codesClash a b && !codesClash b a) && noClash t
def codesOk (l : List (Nat × Nat)) : Bool := l.all (fun e => decide (e.1 ≤ 16)) && noClash l

/-- The load of a decode table from a CZT value: bit 63 reports a failure. The image is read as the supervisor's load.
An image that cannot be read, holds an uncorrectable error or has bits [31:21] set in an entry fails the load: R246 names only
prefix and length failures (DESIGN CHOICE, log 85). -/
def State.loadTable (s : State) (q : PartId) (g : Agent) (v : Word) : State :=
  let t := bitsOf v.toNat 0 3
  let a := bitsOf v.toNat 6 46 * 64
  let vas := runFrom a 1024
  let fail := s.modPart q fun x => { x with czt := BitVec.ofNat 64 (t + a), cztFail := true, cztPending := none }
  match s.resolve g .load (BitVec.ofNat 64 a) vas true false true with
  | .error _ => fail
  | .ok (s1, l) =>
    if (s1.poisonedVa vas l).isSome then fail
    else
      let b := s1.bytesOf l
      let codes := (List.range 256).map (tableEntry b)
      let reserved := (List.range 256).all fun i => decide (bitsOf (fieldAt b (4 * i) 4) 21 11 = 0)
      if !(codesOk codes && reserved) then fail
      else s1.modPart q fun x =>
        let old := SMap.look x.ztabs t {}
        { x with czt := BitVec.ofNat 64 (t + a), cztFail := false, cztPending := none
                 ztabs := SMap.put x.ztabs t
                   { gen := (old.gen + 1) % 4, codes := codes, prev := some (old.gen, old.codes), since := s1.seq } }

/-- The load of a CZT value just written, by the context that wrote it. -/
def State.loadPending (s : State) (q : PartId) : State :=
  match (s.part q).cztPending with
  | none => s
  | some (v, c) => s.loadTable q (s.agent c) v

/-- DLYCLR: every entry of a core's delay table is cleared (R357). -/
def State.clearDelays (s : State) (p : Place) : State := s.modCore p fun x => { x with delays := [] }

end Sys2Proof.Machine
end

