-- ==== Sys2Proof/Machine/Transfer.lean ====
section
/-! DEFINITION. Control transfers (R195, R196), loops (R197), the end of tasks, traps and signatures (R199-R204), instruction
fences (R211). -/

namespace Sys2Proof.Machine

/-- A head that a delay slot refuses (R171). -/
def noSlot (n : Need) : Need := { n with slotOk := false }
def handlerOp (s : State) : Option Cause := if inHandler s then some .illegalOp else none
def launchedOp (s : State) : Option Cause := if inHandler s then none else some .illegalOp

/-! ## Control transfers (R195) -/

/-- The target of a T slot (R184). -/
def State.labelOf (s : State) (t : Lit) : Word := BitVec.ofNat 64 (lineVa s.cur.ptr) + litWord t

/-- The return point (R170), or a free value where a line on the way to it cannot be read (log 11). -/
def State.link (s : State) : State :=
  match s.ptrLater s.cur.ctx 3 s.cur.ptr with
  | some p => s.setS 1 31 p
  | none => s.useFree.setS 1 31 s.freeWord

/-- `br` (R195). -/
def execBr (n : PReg) (t : Lit) (s : State) : Out :=
  head (.br n t) (noSlot { reads := [.p n] }) free free
    (fun s => .done s (.transfer (if (s.pr n).getLsbD 0 then some (s.labelOf t) else none))) s
/-- `bra` (R195). -/
def execBra (t : Lit) (s : State) : Out :=
  head (.bra t) (noSlot {}) free free (fun s => .done s (.transfer (some (s.labelOf t)))) s
/-- `jmp` (R195). -/
def execJmp (a : SCOp) (s : State) : Out :=
  head (.jmp a) (noSlot (needX [scX a] [] [])) free free (fun s => .done s (.transfer (some (s.sc a)))) s
/-- `jmpr` (R195). -/
def execJmpr (a : SCOp) (b : XOp) (s : State) : Out :=
  head (.jmpr a b) (noSlot (needX [scX a, b] [] [])) free free (fun s => .done s (.transfer (some (s.sc a + s.x b)))) s
/-- `call` (R195). -/
def execCall (t : Lit) (s : State) : Out :=
  head (.call t) (noSlot { writes := [.s 31] }) free free (fun s => .done s.link (.transfer (some (s.labelOf t)))) s
/-- `callr` (R195): its source is read as it issues. -/
def execCallr (a : SCOp) (s : State) : Out :=
  head (.callr a) (noSlot (needX [scX a] [] [.s 31])) free free (fun s => .done s.link (.transfer (some (s.sc a)))) s
/-- `ret` (R195). -/
def execRet (s : State) : Out :=
  head .ret (noSlot { reads := [.s 31] }) free free (fun s => .done s (.transfer (some (s.here.sreg 31)))) s

/-- The table entry of `jtab`: a plain load, checked as one (R196). -/
def jtabEff (a : XOp) (b : SCOp) (c : XOp) (d : SCOp) (s : State) : Eff :=
  let k := s.cur.ctx
  if s.x c ≤ s.x a then .done s (.transfer (some (s.sc d)))
  else if !s.quiet k then .hold
  else
    let t := vaOf (s.sc b) + 8 * (s.x a).toNat
    if 2 ^ 52 ≤ t then .trap (ptrOvf (s.sc b))
    else
      let ptr := withVa (s.sc b) t
      if (s.sc b).toNat % 8 ≠ 0 then .trap { cause := .align, fva := ptr }
      else
        let vas := runFrom t 8
        match s.resolve (s.agent k) .load ptr vas true true true with
        | .error e => .trap e
        | .ok (s1, l) =>
          match s1.poisonedTrap ptr vas l with
          | some e => .trap e
          | none => .done s1 (.transfer (some (wordOfBytes (s1.bytesOf l))))

/-- `jtab` (R196). -/
def execJtab (a : XOp) (b : SCOp) (c : XOp) (d : SCOp) (s : State) : Out :=
  head (.jtab a b c d) (noSlot (needX [a, scX b, c, scX d] [] [])) free free (jtabEff a b c d) s

/-- A count of 0 skips the body outside a delay slot; the head after it may be on a line that cannot be read (log 11). -/
def lpEff (a : XOp) (t : Lit) (s : State) : Eff :=
  let c := s.cur.ctx
  let fin := s.labelOf t
  let s1 := s.modCsr c fun r => { r with lpcnt := s.x a, lpbeg := ptrAfter s.cur.ptr s.cur.hc, lpend := fin }
  if s.x a = 0 ∧ s.here.dsn = 0 then
    match s.ptrLater c 3 fin with
    | some p => .done s1 (.goto p)
    | none => .done s1.useFree (.goto s.freeWord)
  else .done s1 .noLoop

/-- `lp` (R197). -/
def execLp (a : XOp) (t : Lit) (s : State) : Out := head (.lp a t) (needX [a] [] []) free free (lpEff a t) s

/-! ## Ending a task (R199-R201) -/

/-- An engine operation that writes into own local memory: by its kind, or by naming its own core's place. -/
def EngCmd.writesLocal (e : EngCmd) (k : Core) : Bool :=
  let own := decide (e.place = coreOf e.ctx)
  match e.kind with
  | .get | .getx | .cpyTo | .cpyCb | .cpyzE | .kvcommit => true
  | .put | .putx => own && decide (windowOf (vaOf e.remote) = some .loc)
  | .sendl => own && decide (windowOf (vaOf (SMap.look k.buffers e.tab {}).base) = some .loc)
  | _ => false

/-- Pilot requests served and array commands completed (R199, R201). -/
def State.unitsDone (s : State) (c : CtxId) : Bool :=
  !((s.core (coreOf c)).pilotQ.any fun r => match r with | .dload d .. => d == c | .penc d .. => d == c | .pdec d .. => d == c) &&
    decide ((s.ctx c).arrayCmds = 0)

/-- What `halt` waits for. -/
def State.haltReady (s : State) (c : CtxId) : Bool :=
  s.unitsDone c && !((s.core (coreOf c)).port.any fun e => e.ctx == c && e.writesLocal (s.core (coreOf c)))

/-- `halt` (R199). -/
def execHalt (s : State) : Out :=
  head .halt (noSlot {}) handlerOp free
    (fun s => if s.haltReady s.cur.ctx then .done s (.ends .halt) else .hold) s
/-- `halt.r` (R200). -/
def execHaltR (a : SCOp) (s : State) : Out :=
  head (.haltR a) (noSlot (needX [scX a] [] [])) handlerOp free
    (fun s =>
      if (s.sc a).toNat % 64 ≠ 0 then .trap { cause := .align, fva := s.sc a }
      else if s.haltReady s.cur.ctx then .done s (.ends (.succ (s.sc a))) else .hold) s
/-- `msgdone` (R201): what it releases commits after every event of the handler (R134, R144). -/
def execMsgdone (s : State) : Out :=
  head .msgdone (noSlot {}) launchedOp free
    (fun s =>
      if s.unitsDone s.cur.ctx && (s.here.sendBuf == [] || s.quiet s.cur.ctx) then .done s (.ends .msgdone) else .hold) s

/-! ## Traps and signatures (R202-R204) -/

/-- `trap` (R202): the trap is taken before the next head. -/
def execTrap (a : XOp) (s : State) : Out :=
  head (.trap a) (noSlot (needX [a] [] [])) free free (fun s => .after s { cause := .trap, detail := s.x a, next := true }) s
/-- `nop` (R202). -/
def execNop (s : State) : Out := head .nop {} free free (fun s => .done s .seq) s
/-- `sigchk` (R204). -/
def execSigchk (k : Lit) (s : State) : Out :=
  head (.sigchk k) (noSlot {}) free (operandOk [{ ok := fun _ => decide (0 ≤ k.toInt) && decide (k.toInt ≤ 0xFFFF) }])
    (fun s =>
      if s.here.csr.sig && s.here.csr.dsig != k.setWidth 16 then .trap { cause := .sigMismatch }
      else .done (s.modCsr s.cur.ctx fun r => { r with dsig := 0 }) .seq) s

/-! ## Fetch (R211) -/

/-- `ifence` (R211): earlier stores are performed, then the fetch buffer is empty. -/
def execIfence (s : State) : Out :=
  head .ifence {} free free
    (fun s =>
      if (s.fabricOf s.cur.ctx).any FabReq.writes then .hold else .done (s.modHere fun x => { x with lines := [] }) .seq) s

end Sys2Proof.Machine
end

