-- ==== Sys2Proof/Machine/Messages.lean ====
section
/-! DEFINITION. Active messages: sending (R232), routes between packages (R373), delivery and bounces (R36, R233), handlers (R37,
R38), reading a message (R234). -/

namespace Sys2Proof.Machine

/-! ## Refused places (R230, R373) -/

/-- A request from a core to a place is refused: the place is unreachable (R230) or no port leads there. -/
def State.refused (s : State) (src dst : Place) (lane : Nat) : Bool :=
  s.unreachable (s.partOf src % 16) dst || (s.path (pkgOf src) (pkgOf dst) lane).isNone

/-! ## Sending (R232) -/

/-- A value that is a place (R230). -/
def placeOk (w : Word) : Bool := decide (w.toNat < 2 ^ 22)

/-- The handler's send buffer has room (R235). -/
def sendRoom (s : State) : Bool := !inHandler s || decide (s.here.sendBuf.length < Config.sendBufferSlots)

def State.bufferOp (s : State) (o : SendOp) : State := s.modHere fun x => { x with sendBuf := x.sendBuf ++ [o] }

/-- v(c + k) of three consecutive registers. -/
def vAt (c : VReg) (k : Nat) : VReg := ⟨(c.val + k) % 32, Nat.mod_lt _ (by decide)⟩

def payloadBytes (p1 p2 p3 : Vec) : List Byte := bytesOfNat 16 p1.toNat ++ (bytesOfNat 16 p2.toNat ++ bytesOfNat 16 p3.toNat)

def sendEff (a : SCOp) (b : XOp) (v : VReg) (s : State) : Eff :=
  let c := s.cur.ctx
  let dst := (s.sc a).toNat
  let p1 := s.vr (vAt v 0)
  let p2 := s.vr (vAt v 1)
  let p3 := s.vr (vAt v 2)
  if inHandler s then .done (s.bufferOp (.send dst (s.x b).toNat p1 p2 p3)) .seq
  else if !s.quiet c then .hold
  else
    let s1 := s.digest c 4 (s.sc a) (crc64 (payloadBytes p1 p2 p3))
    if s1.silent c then .done s1 .seq
    else if Config.outQueueSlots ≤ (s.core (coreOf c)).outq.length then .hold
    else
      let (s2, f) := s1.commitMsg (coreOf c) dst (s.x b).toNat p1 p2 p3
      .done (s2.modCore (coreOf c) fun k => { k with outq := k.outq ++ [f] }) .seq

/-- `send` (R232). -/
def execSend (a : SCOp) (b : XOp) (v : VReg) (s : State) : Out :=
  head (.send a b v) (needX [scX a, b] [.v (vAt v 0), .v (vAt v 1), .v (vAt v 2)] []) free
    (operandOk [{ ops := [scX a], ok := fun s => placeOk (s.sc a) }, { ops := [b], ok := fun s => decide ((s.x b).toNat ≤ 1023) },
      { ok := fun s => decide (v.val ≤ 29) && sendRoom s }])
    (sendEff a b v) s

/-- `inb` (R234). -/
def execInb (d : VReg) (q : Lit) (s : State) : Out :=
  head (.inb d q) { writes := [.v d] } launchedOp (operandOk [{ ok := fun _ => decide (0 ≤ q.toInt) && decide (q.toInt ≤ 3) }])
    (fun s => .done (s.setV 1 d (match s.slotOf s.cur.ctx with | some m => m.msg.quad q.toNat | none => 0) 0) .seq) s

/-! ## Delivery (R36, R138, R233) -/

/-- The message of a number: from a core's queue or from the fabric. It follows what its core's port issued before it for the
same destination in lane 0, messages that have not entered the queue among it (R138); a bounce is the fabric's own. -/
def State.messages (s : State) : List Flying := s.flying ++ s.cores.flatMap fun e => e.2.outq
def State.nextMsg (s : State) (n : Nat) : Option Flying :=
  match s.messages.find? fun f => f.seq == n with
  | none => none
  | some f => if f.msg.bnc = 0 ∧ s.routeHeld f.src n (messageRoute f.dst) then none else some f
def State.dropMsg (s : State) (f : Flying) : State :=
  let s1 : State := { s with flying := s.flying.filter fun g => g.seq != f.seq }
  s1.modCore f.src fun k => { k with outq := k.outq.filter fun g => g.seq != f.seq }

/-- The arrival stamp: never before SGTC + 1, on times modulo 2^48 (R361, R362). -/
def State.arrivalOf (s : State) (m : Msg) : Nat :=
  let d := (m.sgtc + 1 + 2 ^ 48 - s.gtc % 2 ^ 48) % 2 ^ 48
  if d < 2 ^ 47 then s.gtc + d else s.gtc

/-- A message enters the inbox of its destination; with the inbox full it waits in the fabric; at an unreachable place it is
bounced, and where no port leads there, before it leaves (R373). One that stood in its core's queue takes its ports now (R373). -/
def State.deliverMsg (s : State) (f0 : Flying) : State :=
  let f := if s.flying.any fun g => g.seq == f0.seq then f0 else { f0 with path := s.path (pkgOf f0.src) (pkgOf f0.dst) 0 }
  let s1 := s.dropMsg f
  if s.unreachable f.bank f.dst || f.path.isNone then
    s1.bounce f.bank (if f.path.isNone then f.src else f.dst) f.dst f.msg 3
  else if Config.inboxSlots ≤ (s.core f.dst).inbox.length then
    if s.flying.any fun g => g.seq == f.seq then s else { s1 with flying := s1.flying ++ [f] }
  else s1.modInbox f.dst fun k =>
    { k with inbox := k.inbox ++ [{ num := k.inboxNum, msg := f.msg, arrival := s.arrivalOf f.msg }], inboxNum := k.inboxNum + 1 }

/-- MESSAGE_DELIVERY (R36, R233). -/
def execMessageDelivery (n : Nat) (s : State) : Out :=
  .next (match s.nextMsg n with | none => s | some f => s.deliverMsg f)

/-! ## Handlers (R37) -/

/-- The next TASKID of a part (R356): it skips 0. -/
def State.nextTaskid (s : State) (q : PartId) : BitVec 32 × State :=
  let n := (s.part q).taskid + 1
  let n := if n = 0 then 1 else n
  (n, s.modPart q fun x => { x with taskid := n })

/-- The state in which a handler starts (R37). The counters of HCCOWN keep the SCOPE that an earlier handler's `cc.set` wrote:
R238 sets it to .sys as a group is placed, and R142's "at task start" is read of those tasks (DESIGN CHOICE, log 76). -/
def startHandler (k : Core) (q : Part) (m : InSlot) (ptr : Word) (id : BitVec 32) (now gtc : Nat) : Context :=
  let x : Context := {}
  let regs := (((x.setReg (.s 1) (BitVec.ofNat 128 m.msg.id)).setReg (.s 2) (BitVec.ofNat 128 m.msg.splace)).setReg (.s 3)
    (BitVec.ofNat 128 m.msg.sgtc)).setReg (.s 4) (BitVec.ofNat 128 m.msg.hidx)
  { regs with
    pc := ptr, run := .running, kind := .handler m.num, readyAt := now + 1, startCycle := now, startGtc := gtc
    csr := { regs.csr with
      cbase := k.hcbase, hnd := true, chk := q.hmode.getLsbD 0, sig := q.hmode.getLsbD 1, budget := q.hbudget
      budgetAt := now, budgetOn := q.hbudget != 0, hkey := k.hhkey, lbanks := k.hbanks, ccown := k.hccown, cbown := k.hcbown
      taskid := id } }

/-- A handler starts on a free context; a handler bank without power is powered up cleared (R28). -/
def State.beginHandler (s : State) (p : Place) (n : Nat) (m : InSlot) (ptr : Word) : State :=
  let q := s.partOf p
  let c := ctxAt p n
  let (id, s1) := match m.taskid with | some t => (t, s) | none => s.nextTaskid q
  let off := (List.range 12).filter fun i => (s1.core p).hbanks.getLsbD i && (s1.core p).banks.getD i .off == .off
  let s2 := (s1.banksTo p off .handler).modInbox p fun k =>
    { k with
      handlerStartAt := some (s.now p)
      inbox := k.inbox.map fun i => if i.num = m.num then { i with taskid := some id, runs := some c } else i }
  let s3 := s2.modCtx c fun x => (startHandler (s2.core p) (s2.part q) m ptr id (s2.now p) s2.gtc).notBefore x.readyAt
  s3.traceIf 1 { typ := 2, ctx := c, taskid := id, a := ptr, b := BitVec.ofNat 64 m.msg.splace }

/-- A handler has started on a core in this cycle of its own clock (R37, R374). -/
def State.startedNow (s : State) (p : Place) : Bool := (s.core p).handlerStartAt.any fun t => decide (s.now p ≤ t)

/-- HANDLER_START (R37, R233): one message a cycle at most, on a context that was free before the cycle (R49). -/
def State.startHead (s : State) (p : Place) : State :=
  let k := s.core p
  if k.inboxHeld ∨ s.startedNow p then s
  else match k.headMsg with
  | none => s
  | some m =>
    let q := s.part (s.partOf p)
    if q.locked.contains m.msg.hidx then s
    else
      let ptr := SMap.look q.handlers m.msg.hidx (0 : Word)
      if ptr = 0 then s.refuseHead p m 1
      else match s.freeContexts p with
        | [] => s
        | n :: _ => s.beginHandler p n m ptr
def execHandlerStart (p : Place) (s : State) : Out := .next (s.startHead p)

/-- LOCKED_ENTRY_TIMEOUT (R233): the head message has not started within 4,096 cycles at the head, and its entry is locked, or
empty by now. -/
def State.lockedTimeout (s : State) (p : Place) : State :=
  match s.lockedOut p with
  | some m =>
    if (s.part (s.partOf p)).locked.contains m.msg.hidx then s.refuseHead p m 2
    else if SMap.look (s.part (s.partOf p)).handlers m.msg.hidx (0 : Word) = 0 then s.refuseHead p m 1
    else s
  | none => s
def execLockedEntryTimeout (p : Place) (s : State) : Out := .next (s.lockedTimeout p)

/-! ## Released operations (R38) -/

/-- RELEASED_OP_ENQUEUE: the first released operation enters its queue once it has room; after the last one the context is
free. -/
def State.enqueueReleased (s : State) (c : CtxId) : State :=
  let p := coreOf c
  let finish := fun (t : State) => if (t.ctx c).sendBuf = [] then (t.freeCtx c).trimHandlerBanks p else t
  let pop := fun (t : State) => t.modCtx c fun x => { x with sendBuf := x.sendBuf.tail }
  if (s.ctx c).run ≠ .releasing then s
  else match (s.ctx c).sendBuf with
  | .committed f :: _ =>
    if Config.outQueueSlots ≤ (s.core p).outq.length then s
    else finish ((pop s).modCore p fun k => { k with outq := k.outq ++ [f] })
  | .engine e :: _ =>
    if Config.portCommands ≤ (s.core p).port.length then s
    else finish ((pop s).modCore p fun k => { k with port := k.port ++ [e] })
  | _ => finish (pop s)
def execReleasedOpEnqueue (c : CtxId) (s : State) : Out := .next (s.enqueueReleased c)

end Sys2Proof.Machine
end

