-- ==== Sys2Proof/Machine/Engine.lean ====
section
/-! DEFINITION. The copy engine (R243): what its commands read and write, CRC sidecars (R247, R324), the heads `get`, `put`,
`getx`, `putx` (R236), `sendl` (R242) and `cpy` (R244), and the events that carry their commands out. -/

namespace Sys2Proof.Machine

/-! ## Commands -/

/-- Elements of a command (R238). -/
def EngCmd.total (e : EngCmd) : Nat :=
  match e.kind with
  | .getx | .putx | .sendl => e.count
  | .cpyzC | .cpyzE => ceilDiv e.count 4096
  | .kvcommit => 1
  | _ => e.count / 8

/-- Commands that move their elements in pieces. -/
def EngKind.pieces : EngKind → Bool
  | .sendl | .cpyzC | .cpyzE | .kvcommit => false
  | _ => true
/-- Commands whose pieces leave the core's own near memory. -/
def EngKind.outward : EngKind → Bool
  | .put | .putx | .cpyFrom => true
  | _ => false
/-- Commands that name a place. -/
def EngKind.byPlace : EngKind → Bool
  | .get | .put | .getx | .putx | .sendl => true
  | _ => false

def State.engAgent (s : State) (p : Place) (e : EngCmd) : Agent :=
  { core := p, part := s.partOf p, level := e.level, hkey := e.hkey, lbanks := e.lbanks }

/-- A failed read or write: the REASON of R238 and the WHERE of R335. -/
abbrev EngErr := Nat × Nat

/-- The PA of a word of HBM; other memories have none. -/
def paOf (a : Nat) : Nat := if isHbm a then a % 2 ^ 48 else 0

/-- The lowest failed element keeps the record. -/
def EngCmd.fail (e : EngCmd) (i : Nat) (r : EngErr) : EngCmd :=
  match e.err with
  | some (j, _) => if i < j then { e with err := some (i, r) } else e
  | none => { e with err := some (i, r) }

/-! ## Own local memory and scratchpad -/

def nearPlace (p : Place) (hkey : BitVec 16) (va : Nat) : Nat :=
  if va < Config.localBytes then localAt p va else scratchAt (clusterOf p) hkey (va - 0x10000000)

def State.bankOn (s : State) (p : Place) (va : Nat) : Bool := (s.core p).banks.getD (va / 16384) .off != .off

/-- A near address that holds bytes now: its bank has power. -/
def State.nearOn (s : State) (p : Place) (va : Nat) : Bool := decide (Config.localBytes ≤ va) || s.bankOn p va

def State.nearRead (s : State) (p : Place) (e : EngCmd) (va n : Nat) : Except EngErr (List Byte) :=
  let a := nearPlace p e.hkey va
  if !s.nearOn p va then .error (2, placeWord p)
  else if s.poisoned a then .error (10, paOf a)
  else .ok (s.readRun a n)

/-- An engine write to a place: data, full bit, and no error left in a word written whole (R140). -/
def State.engPut (s : State) (a : Nat) (l : List Byte) : State := (s.engineWrite a l).clearPoison (runFrom a l.length)

def State.nearWrite (s : State) (p : Place) (e : EngCmd) (va : Nat) (l : List Byte) : Except EngErr State :=
  if !s.nearOn p va then .error (2, placeWord p) else .ok (s.engPut (nearPlace p e.hkey va) l)

/-- Bytes of a near region as they stand. -/
def State.peek (s : State) (p : Place) (e : EngCmd) (va n : Nat) : List Byte :=
  s.bytesOf ((runFrom va n).map (nearPlace p e.hkey))

/-! ## Remote memory by place (R236, R237) -/

/-- The byte offset within the target memory. -/
def windowOff (va : Nat) : Nat :=
  match windowOf va with
  | some .scratch => va - 0x10000000
  | some .die => va - 0x20000000
  | _ => va

/-- Where n bytes at a window address of the target stand. -/
def State.remotePlace (s : State) (p : Place) (e : EngCmd) (va n : Nat) : Except EngErr Nat :=
  let t := e.place
  let off := windowOff va
  if s.unreachable (s.partOf p % 16) t then .error (2, t)
  else if windowOfRange va n = none ∨ windowOf va ≠ windowOf (vaOf e.remote) then .error (5, t)
  else match windowOf va with
    | some .loc => if s.bankOn t va then .ok (localAt t va) else .error (2, t)
    | some .scratch => .ok (scratchAt (clusterOf t) e.hkey off)
    | _ =>
      if lpctOff ≤ off + (n - 1) ∨ (e.level = .task ∧ (s.part (s.partOf t)).protects off) then .error (3, t)
      else .ok (dieAt (dieOf t) off)

def State.remoteRead (s : State) (p : Place) (e : EngCmd) (va n : Nat) : Except EngErr (List Byte) :=
  match s.remotePlace p e va n with
  | .error r => .error r
  | .ok a => if s.poisoned a then .error (10, paOf a) else .ok (s.readRun a n)

def State.remoteWrite (s : State) (p : Place) (e : EngCmd) (va : Nat) (l : List Byte) : Except EngErr State :=
  match s.remotePlace p e va l.length with
  | .error r => .error r
  | .ok a => .ok (s.engPut a l)

/-! ## The far side (R244): own scratchpad, own die store, global memory -/

/-- The place of n bytes of one aligned word; engine checks give REASON 6 for a tag, 3 for the others. -/
def State.farPlace (s : State) (p : Place) (e : EngCmd) (acc : Acc) (va n : Nat) : Except EngErr (State × Nat) :=
  match s.resolve (s.engAgent p e) acc (withVa e.remote va) (runFrom va n) true true false with
  | .error t => .error (if t.cause = .tagMismatch then 6 else 3, 0)
  | .ok (s1, l) => .ok (s1, l.headD 0)

/-- Whether the page of a translated address is a C page. -/
def State.cPage (s : State) (p : Place) (e : EngCmd) (va : Nat) : Bool :=
  match windowOf va, s.cached (s.engAgent p e) va false with
  | some .glob, some t => t.leaf.getLsbD 7
  | _, _ => false

/-- The aligned 4 KiB block of a place of HBM. -/
def blockAt (a : Nat) : Nat := a / 4096 * 4096
/-- The sidecar word of a block (R324). -/
def State.crcAt (s : State) (q : PartId) (a : Nat) : Nat :=
  hbmAt (q / 16) (bitsOf (s.part q).crcb.toNat 3 45 * 8 + 8 * (a % 2 ^ 48 / 4096))
def State.blockCrc (s : State) (a : Nat) : Word := crc64 (s.slice (blockAt a) 4096)
/-- The sidecar word lies in the partition's memory (R382). -/
def State.crcInside (s : State) (q : PartId) (a : Nat) : Bool := (s.part q).inRanges (s.crcAt q a % 2 ^ 48)
def State.crcGood (s : State) (q : PartId) (a : Nat) : Bool := wordOfBytes (s.readRun (s.crcAt q a) 8) == s.blockCrc a
def State.putCrc (s : State) (q : PartId) (a : Nat) : State := s.writeRun (s.crcAt q a) (bytesOfNat 8 (s.blockCrc a).toNat)

/-- The block that holds a VA lies whole in a range. -/
def coversBlock (lo n va : Nat) : Bool := decide (lo ≤ blockAt va) && decide (blockAt va + 4096 ≤ lo + n)

/-- An engine read of one word: its block is checked on a C page (R247). -/
def State.farRead (s : State) (p : Place) (e : EngCmd) (va n : Nat) : Except EngErr (State × List Byte) :=
  match s.farPlace p e .serviceRead va n with
  | .error r => .error r
  | .ok (s1, a) =>
    if windowOf va = some .loc ∧ !s1.bankOn p va then .error (2, placeWord p)
    else if s1.poisoned a then .error (10, paOf a)
    else if s1.cPage p e va && !s1.crcInside (s1.partOf p) a then .error (3, 0)
    else if s1.cPage p e va && !s1.crcGood (s1.partOf p) a then .error (4, blockAt va)
    else .ok (s1, s1.readRun a n)

/-- An engine write of one word; `whole`: the operation covers its block whole, which then needs no check (R247). -/
def State.farWrite (s : State) (p : Place) (e : EngCmd) (va : Nat) (l : List Byte) (whole : Bool) : Except EngErr State :=
  match s.farPlace p e .serviceWrite va l.length with
  | .error r => .error r
  | .ok (s1, a) =>
    if s1.cPage p e va then
      if !s1.crcInside (s1.partOf p) a then .error (3, 0)
      else if !whole && !s1.crcGood (s1.partOf p) a then .error (4, blockAt va)
      else .ok ((s1.engPut a l).putCrc (s1.partOf p) a)
    else .ok (s1.engPut a l)

/-- Words from a far address, one after another. -/
def State.farReadWords (s : State) (p : Place) (e : EngCmd) (va : Nat) : Nat → Except EngErr (State × List Byte)
  | 0 => .ok (s, [])
  | n + 1 =>
    match State.farReadWords s p e va n with
    | .error r => .error r
    | .ok (s1, l) => match s1.farRead p e (va + 8 * n) 8 with
      | .error r => .error r
      | .ok (s2, m) => .ok (s2, l ++ m)

/-- Words to a far address of the range lo, n; the first failure ends the write, with what was written. -/
def State.farWriteWords (s : State) (p : Place) (e : EngCmd) (va : Nat) (l : List Byte) (lo n : Nat) :
    Nat → State × Option EngErr
  | 0 => (s, none)
  | k + 1 =>
    match State.farWriteWords s p e va l lo n k with
    | (s1, some r) => (s1, some r)
    | (s1, none) =>
      let x := va + 8 * k
      match s1.farWrite p e x (bytesAt l (8 * k) 8) (coversBlock lo n x) with
      | .error r => (s1, some r)
      | .ok s2 => (s2, none)

/-! ## Checked runs (R349, R350) -/

/-- An engine write to an address lies outside the group's own banks and its own cluster's scratchpad. -/
def State.outside (s : State) (p : Place) (e : EngCmd) (va : Nat) : Bool :=
  match e.kind with
  | .put | .putx =>
    match windowOf va with
    | some .scratch => decide (clusterOf e.place ≠ clusterOf p)
    | some .loc => !(decide (clusterOf e.place = clusterOf p) &&
        (match e.group with | some g => (s.core e.place).banks.getD (va / 16384) .off == .group g | none => false))
    | _ => true
  | .cpyFrom | .cpyzC | .kvcommit => decide (windowOf va = some .die) || decide (windowOf va = some .glob)
  | _ => false

def State.suppressed (s : State) (p : Place) (e : EngCmd) (va : Nat) : Bool :=
  e.role.digestOnly && decide (e.level = .task) && s.outside p e va

/-- An outgoing engine write enters the digest as its command is issued: its address and the CRC-64 of its bytes. `vas` are
addresses that it writes, one at least in each bank. -/
def State.digestOut (s : State) (e : EngCmd) (vas : List Nat) (ptr : Word) (bytes : State → List Byte) : State :=
  let p := coreOf e.ctx
  if e.role ≠ .plain ∧ vas.any (s.outside p e) then s.digest e.ctx 3 ptr (crc64 (bytes s)) else s

/-! ## Issue -/

/-- What a command takes from the head under issue. -/
def State.newCmd (s : State) (kind : EngKind) : EngCmd :=
  let x := s.here
  { seq := s.seq, kind := kind, ctx := s.cur.ctx, hkey := x.csr.hkey, lbanks := x.csr.lbanks, level := x.level, role := x.role
    group := match x.kind with | .launched g => some g | _ => none
    place := coreOf s.cur.ctx }

/-- A handler's `put`, `putx` and `sendl` are buffered (R235). -/
def EngKind.buffered : EngKind → Bool
  | .put | .putx | .sendl => true
  | _ => false

/-- A command is admitted while fewer than 32 are in flight (R243). -/
def State.takeCmd (s : State) (e : EngCmd) : Eff :=
  let p := coreOf e.ctx
  if inHandler s && e.kind.buffered then .done (s.bufferOp (.engine e)) .seq
  else if s.acqPending e.ctx ∨ Config.portCommands ≤ (s.core p).port.length then .hold
  else .done (({ s with seq := s.seq + 1 } : State).modCore p fun k => { k with port := k.port ++ [{ e with seq := s.seq }] }) .seq

/-- The regions and alignments of a head: a byte in no window, then alignment, then a bank not held (R219). -/
def engChecks (traps : List Trap) (aligns : List (Word × Nat)) (k : Eff) : Eff :=
  match traps.find? (·.cause == .xlateMiss) with
  | some t => .trap t
  | none => match aligns.find? fun e => decide (vaOf e.1 % e.2 ≠ 0) with
    | some e => .trap { cause := .align, fva := e.1 }
    | none => match traps with
      | t :: _ => .trap t
      | [] => k

/-- A byte count of R236 and R244. -/
def countOk (c : Word) : Bool := decide (c.toNat % 8 = 0) && decide (8 ≤ c.toNat) && decide (c.toNat ≤ 2 ^ 20)
def listCountOk (n : Word) : Bool := decide (1 ≤ n.toNat) && decide (n.toNat ≤ 65536)
def remoteOk (r : Word) : Bool :=
  match windowOf (vaOf r) with
  | some .glob => false
  | some _ => true
  | none => false

/-- Operand limits of `get` and `put` (R236): place, remote address, local region, byte count, counter. -/
def moveLimits (place far loc n ctr : XOp) (get : Bool) : List Limit :=
  [{ ops := [place], ok := fun s => placeOk (s.x place) }, { ops := [n], ok := fun s => countOk (s.x n) },
    { ops := [far], ok := fun s => remoteOk (s.x far) }, { ops := [ctr], ok := fun s => s.ownsCounter (s.x ctr) },
    { ops := [loc], ok := fun s => regionLimit true (s.x loc) 1 },
    { ops := [loc, n], ok := fun s => regionLimit true (s.x loc) (s.x n).toNat }, { ok := fun s => get || sendRoom s }]
/-- Those of `getx` and `putx`, with the index list. -/
def listLimits (place far loc list n ctr : XOp) (size : BitVec 2) (get : Bool) : List Limit :=
  [{ ops := [place], ok := fun s => placeOk (s.x place) }, { ops := [n], ok := fun s => listCountOk (s.x n) },
    { ops := [far], ok := fun s => remoteOk (s.x far) }, { ops := [ctr], ok := fun s => s.ownsCounter (s.x ctr) },
    { ops := [loc], ok := fun s => regionLimit true (s.x loc) 1 }, { ops := [list], ok := fun s => regionLimit false (s.x list) 1 },
    { ops := [loc, n], ok := fun s => regionLimit true (s.x loc) ((s.x n).toNat * sizeBytes size) },
    { ops := [list, n], ok := fun s => regionLimit false (s.x list) (4 * (s.x n).toNat) }, { ok := fun s => get || sendRoom s }]

def getEff (a b c d e : XOp) (s : State) : Eff :=
  engChecks (regionTraps true (s.agent s.cur.ctx) .store (s.x a) (s.x d).toNat) [(s.x c, 8), (s.x a, 8)]
    (s.takeCmd { s.newCmd .get with
      place := (s.x b).toNat, remote := s.x c, loc := s.x a, count := (s.x d).toNat, ctr := (s.x e).toNat })

/-- `get` (R236). -/
def execGet (a b c d e : XOp) (s : State) : Out :=
  head (.get a b c d e) (needX [a, b, c, d, e] [] []) free
    (operandOk (moveLimits b c a d e true)) (getEff a b c d e) s

def putEff (a b c d e : XOp) (s : State) : Eff :=
  let cmd : EngCmd := { s.newCmd .put with
    place := (s.x a).toNat, remote := s.x b, loc := s.x c, count := (s.x d).toNat, ctr := (s.x e).toNat }
  engChecks (regionTraps true (s.agent s.cur.ctx) .load (s.x c) (s.x d).toNat) [(s.x b, 8), (s.x c, 8)]
    ((s.digestOut cmd (regionProbes (vaOf cmd.remote) cmd.count) cmd.remote fun t =>
      t.peek (coreOf cmd.ctx) cmd (vaOf cmd.loc) cmd.count).takeCmd cmd)

/-- `put` (R236). -/
def execPut (a b c d e : XOp) (s : State) : Out :=
  head (.put a b c d e) (needX [a, b, c, d, e] [] []) free
    (operandOk (moveLimits a b c d e false)) (putEff a b c d e) s

def listTraps (s : State) (acc : Acc) (loc list : Word) (n z : Nat) : List Trap :=
  regionTraps true (s.agent s.cur.ctx) acc loc (n * z) ++ regionTraps false (s.agent s.cur.ctx) .load list (4 * n)

def getxEff (a b c d e f : XOp) (size : BitVec 2) (s : State) : Eff :=
  let z := sizeBytes size
  engChecks (listTraps s .store (s.x a) (s.x d) (s.x e).toNat z) [(s.x c, z), (s.x a, z), (s.x d, 4)]
    (s.takeCmd { s.newCmd .getx with
      place := (s.x b).toNat, remote := s.x c, loc := s.x a, list := s.x d, count := (s.x e).toNat, elem := z
      ctr := (s.x f).toNat })

/-- `getx` (R236). -/
def execGetx (a b c d e f : XOp) (size : BitVec 2) (s : State) : Out :=
  head (.getx a b c d e f size) (needX [a, b, c, d, e, f] [] []) free
    (operandOk (listLimits b c a d e f size true)) (getxEff a b c d e f size) s

/-- The addresses that the entries of a `putx` name as its list stands. -/
def State.putxDests (s : State) (e : EngCmd) : List Nat :=
  let l := s.peek (coreOf e.ctx) e (vaOf e.list) (4 * e.count)
  (List.range e.count).map fun i => vaOf e.remote + e.elem * fieldAt l (4 * i) 4

def putxEff (a b c d e f : XOp) (size : BitVec 2) (s : State) : Eff :=
  let z := sizeBytes size
  let cmd : EngCmd := { s.newCmd .putx with
    place := (s.x a).toNat, remote := s.x b, loc := s.x c, list := s.x d, count := (s.x e).toNat, elem := z
    ctr := (s.x f).toNat }
  engChecks (listTraps s .load (s.x c) (s.x d) (s.x e).toNat z) [(s.x b, z), (s.x c, z), (s.x d, 4)]
    ((s.digestOut cmd (s.putxDests cmd) cmd.remote fun t =>
      t.peek (coreOf cmd.ctx) cmd (vaOf cmd.loc) (cmd.count * z)).takeCmd cmd)

/-- `putx` (R236). -/
def execPutx (a b c d e f : XOp) (size : BitVec 2) (s : State) : Out :=
  head (.putx a b c d e f size) (needX [a, b, c, d, e, f] [] []) free
    (operandOk (listLimits a b c d e f size false)) (putxEff a b c d e f size) s

/-! ## `sendl` (R242) -/

/-- Entry i of a list breaks no limit. -/
def sendlEntryOk (w : Word) : Bool :=
  decide (bitsOf w.toNat 48 16 = 0) && decide (1 ≤ bitsOf w.toNat 32 16) && decide (bitsOf w.toNat 32 16 ≤ 4088)

def sendlEff (d : SReg) (a b c e f : XOp) (s : State) : Eff :=
  let p := coreOf s.cur.ctx
  let n := (s.x e).toNat
  let cmd : EngCmd := { s.newCmd .sendl with
    place := (s.x a).toNat, tab := (s.x b).toNat, list := s.x c, count := n, ctr := (s.x f).toNat, sd := some d }
  let bytes := s.peek p cmd (vaOf cmd.list) (8 * n)
  engChecks (if n = 0 then [] else regionTraps false (s.agent s.cur.ctx) .load (s.x c) (8 * n)) [(s.x c, 8)]
    (if !(List.range n).all fun i => sendlEntryOk (wordOfBytes (bytesAt bytes (8 * i) 8)) then .trap { cause := .illegalOperand }
    else if inHandler s then (s.setS 1 d (BitVec.allOnes 64)).takeCmd { cmd with sd := none }
    else
      let s1 := s.digest s.cur.ctx 4 (s.x a) (crc64 bytes)
      if s1.silent s.cur.ctx then
        let x := s1.counter p cmd.ctr
        .done ((s1.setCounter p cmd.ctr { x with value := x.value + BitVec.ofNat 32 n }).setS 1 d (s.x e)) .seq
      else (s1.modHere fun x => x.addBusy (.s d)).takeCmd cmd)

/-- `sendl` (R242). -/
def execSendl (d : SReg) (a b c e f : XOp) (s : State) : Out :=
  head (.sendl d a b c e f) (needX [a, b, c, e, f] [] [.s d]) free
    (operandOk [{ ops := [a], ok := fun s => placeOk (s.x a) }, { ops := [b], ok := fun s => decide ((s.x b).toNat < 16) },
      { ops := [e], ok := fun s => decide ((s.x e).toNat ≤ 4096) }, { ops := [f], ok := fun s => s.ownsCounter (s.x f) },
      { ops := [c, e], ok := fun s => decide ((s.x e).toNat = 0) || regionLimit false (s.x c) (8 * (s.x e).toNat) },
      { ok := sendRoom }])
    (sendlEff d a b c e f) s

/-! ## `cpy` (R244) -/

/-- A range in one window other than local memory. -/
def farOk (w : Word) (n : Nat) : Bool :=
  match windowOfRange (vaOf w) n with
  | some .loc => false
  | some _ => true
  | none => false
def isLoc (w : Word) : Bool := decide (windowOf (vaOf w) = some .loc)

/-- A side of a copy of n bytes: it stays in the window in which it begins. -/
def sideOk (w : Word) (n : Nat) : Bool := if isLoc w then regionLimit false w n else farOk w n

/-- Exactly one side lies in own local memory; with CB, the buffer is engine-fed and its slot holds the bytes. -/
def cpyLimits (a b c d : XOp) (cb : Bool) : List Limit :=
  let n := fun (s : State) => (s.x c).toNat
  [{ ops := [c], ok := fun s => countOk (s.x c) }, { ops := [d], ok := fun s => s.ownsCounter (s.x d) }] ++
    if cb then
      [{ ops := [a], ok := fun s => s.ownsBuffer (s.x a) && (s.bufferOf a).cfg && (s.bufferOf a).eng },
        { ops := [a, c], ok := fun s => decide (n s ≤ (s.bufferOf a).slot) },
        { ops := [b], ok := fun s => sideOk (s.x b) 1 }, { ops := [b, c], ok := fun s => sideOk (s.x b) (n s) }]
    else
      [{ ops := [a, b], ok := fun s => isLoc (s.x a) != isLoc (s.x b) }, { ops := [a], ok := fun s => sideOk (s.x a) 1 },
        { ops := [b], ok := fun s => sideOk (s.x b) 1 }, { ops := [a, c], ok := fun s => sideOk (s.x a) (n s) },
        { ops := [b, c], ok := fun s => sideOk (s.x b) (n s) }]

def cpyEff (a b c d : XOp) (cb : Bool) (s : State) : Eff :=
  let n := (s.x c).toNat
  let g := s.agent s.cur.ctx
  let cmd : EngCmd := { s.newCmd .cpyTo with count := n, ctr := (s.x d).toNat }
  if cb then
    engChecks (if isLoc (s.x b) then regionTraps false g .load (s.x b) n else []) [(s.x b, 8)]
      (s.takeCmd { cmd with kind := .cpyCb, remote := s.x b, tab := (s.x a).toNat })
  else if isLoc (s.x a) then
    engChecks (regionTraps false g .store (s.x a) n) [(s.x a, 8), (s.x b, 8)] (s.takeCmd { cmd with remote := s.x b, loc := s.x a })
  else
    let out : EngCmd := { cmd with kind := .cpyFrom, remote := s.x a, loc := s.x b }
    engChecks (regionTraps false g .load (s.x b) n) [(s.x a, 8), (s.x b, 8)]
      ((s.digestOut out (regionProbes (vaOf out.remote) n) out.remote fun t => t.peek (coreOf out.ctx) out (vaOf out.loc) n).takeCmd out)

/-- `cpy` (R244). -/
def execCpy (a b c d : XOp) (cb : Bool) (s : State) : Out :=
  head (.cpy a b c d cb) (needX [a, b, c, d] [] []) free (operandOk (cpyLimits a b c d cb)) (cpyEff a b c d cb) s

/-! ## Commands in flight -/

def State.command (s : State) (p : Place) (n : Nat) : Option EngCmd := (s.core p).port.find? fun e => e.seq == n
def State.setCommand (s : State) (p : Place) (e : EngCmd) : State :=
  s.modCore p fun k => { k with port := k.port.map fun f => if f.seq = e.seq then e else f }
def State.dropCommand (s : State) (p : Place) (n : Nat) : State :=
  s.modCore p fun k => { k with port := k.port.filter fun f => f.seq != n }

/-- The next command that a port starts: the first one not started (R243). -/
def Core.nextCommand (k : Core) : Option EngCmd := k.port.find? fun e => !e.started
/-- Every access of the issuing context that comes before a command's head is performed (R139). -/
def Core.readsMayStart (k : Core) (e : EngCmd) : Bool := !(k.fabric.any fun r => r.ctx == e.ctx && decide (r.seq < e.seq))

/-- ENGINE_COMMAND_START (R243). -/
def execEngineCommandStart (p : Place) (s : State) : Out :=
  .next (match (s.core p).nextCommand with
    | some e => if e.kind ≠ .cpyCb ∧ (s.core p).readsMayStart e then s.setCommand p { e with started := true } else s
    | none => s)

/-- CPY_CB_SLOT_TAKE (R244, R289): the port starts the command once its buffer has a free slot. -/
def State.takeSlot (s : State) (p : Place) (n : Nat) : State :=
  match (s.core p).nextCommand with
  | none => s
  | some e =>
    let b := s.buffer p e.tab
    if e.seq ≠ n ∨ e.kind ≠ .cpyCb ∨ b.free = 0 ∨ !(s.core p).readsMayStart e then s
    else (s.setBuffer p e.tab { b with free := b.free - 1, aidx := b.aidx + 1 }).setCommand p
      { e with started := true, slot := some (b.slotVa b.aidx) }
def execCpyCbSlotTake (p : Place) (n : Nat) (s : State) : Out := .next (s.takeSlot p n)

/-! ## Pieces (R243) -/

/-- An index of getx or putx, read once (R139). -/
def State.indexOf (s : State) (p : Place) (e : EngCmd) (i : Nat) : Except EngErr Nat :=
  match s.nearRead p e (vaOf e.list + 4 * i) 4 with
  | .error r => .error r
  | .ok l => .ok (natOfBytes l)

/-- Element i of a command as it is read: the address it goes to, and its bytes. -/
def State.readElem (s : State) (p : Place) (e : EngCmd) (i : Nat) : Except EngErr (State × Nat × List Byte) :=
  let z := e.elem
  let loc := vaOf e.loc
  let far := vaOf e.remote
  let pair := fun (d : Nat) (r : Except EngErr (List Byte)) => r.map fun l => (s, d, l)
  match e.kind with
  | .get => pair (loc + 8 * i) (s.remoteRead p e (far + 8 * i) 8)
  | .put => pair (far + 8 * i) (s.nearRead p e (loc + 8 * i) 8)
  | .getx => (s.indexOf p e i).bind fun x => pair (loc + z * i) (s.remoteRead p e (far + z * x) z)
  | .putx => (s.indexOf p e i).bind fun x => pair (far + z * x) (s.nearRead p e (loc + z * i) z)
  | .cpyFrom => pair (far + 8 * i) (s.nearRead p e (loc + 8 * i) 8)
  | .cpyTo => (s.farRead p e (far + 8 * i) 8).map fun r => (r.1, loc + 8 * i, r.2)
  | _ => (s.farRead p e (far + 8 * i) 8).map fun r => (r.1, e.slot.getD 0 + 8 * i, r.2)

/-- The memory that a command's far side lies in: global memory, a die's store, a cluster's scratchpad or a core. -/
def EngCmd.dest (e : EngCmd) : Nat :=
  let t := if e.kind.byPlace then e.place else coreOf e.ctx
  match windowOf (vaOf e.remote) with
  | some .scratch => 4 * clusterOf t + 2
  | some .die => 4 * dieOf t + 1
  | some .loc => 4 * t + 3
  | _ => 0
/-- Two commands of a port go to one destination. -/
def EngCmd.meets (e f : EngCmd) : Bool :=
  decide (e.dest = f.dest) || ((e.kind == .sendl || f.kind == .sendl) && e.kind.byPlace && f.kind.byPlace && decide (e.place = f.place))
/-- Earlier commands of a port for the same destination have issued every request (R138). -/
def Core.mayFollow (k : Core) (e : EngCmd) : Bool :=
  !(k.port.any fun f => f.meets e && decide (f.seq < e.seq) && decide (f.next < f.total))

/-- The place that an address of a command's target names, without the checks. -/
def EngCmd.targetAt (e : EngCmd) (va : Nat) : Nat :=
  match windowOf va with
  | some .loc => localAt e.place va
  | some .scratch => scratchAt (clusterOf e.place) e.hkey (windowOff va)
  | _ => dieAt (dieOf e.place) (windowOff va)
/-- The route of a request to an address of a command's far side; none where its translation fails. -/
def State.farRoute (s : State) (p : Place) (e : EngCmd) (va n : Nat) : Option Route :=
  if e.kind.byPlace then some (routeOf (e.targetAt va) (windowOff va))
  else match s.farPlace p e .serviceRead va n with
    | .ok (_, a) => some (routeOf a (if isHbm a then a else windowOff va))
    | .error _ => none
/-- A word of a run of far memory waits for something that the port issued before (R138). -/
def State.runHeld (s : State) (p : Place) (e : EngCmd) (va n : Nat) : Bool :=
  let k := s.core p
  !(k.transit.isEmpty && k.fabric.isEmpty && (s.messagesOf p).isEmpty) && (List.range (ceilDiv n 8)).any fun i =>
    match s.farRoute p e (va + 8 * i) 8 with
    | some r => s.routeHeld p s.seq r
    | none => false
/-- The ports that an element takes between the core and its command's place, of a read there and back; none where no port leads
there (R373). -/
def State.cmdPath (s : State) (p : Place) (e : EngCmd) (va : Nat) : Option (List (PkgId × Nat)) :=
  let lane := laneOf (windowOff va)
  let out := s.path (pkgOf p) (pkgOf e.place) lane
  match e.kind with
  | .get | .getx => out.bind fun l => (s.path (pkgOf e.place) (pkgOf p) lane).map (l ++ ·)
  | _ => if e.kind.byPlace then out else some []

/-- The address on the far side that element i reads or writes: an index of a list is read for it. -/
def State.farElem (s : State) (p : Place) (e : EngCmd) (i : Nat) : Option Nat :=
  match e.kind with
  | .getx | .putx => match s.indexOf p e i with
    | .ok x => some (vaOf e.remote + e.elem * x)
    | .error _ => none
  | _ => some (vaOf e.remote + 8 * i)

def Core.inTransit (k : Core) : Nat := k.transit.foldl (fun a x => a + x.bytes.length) 0

/-- ENGINE_DATA_PIECE (R243): the next element of a started command is read and enters the port's 32 KiB. -/
def State.dataPiece (s : State) (p : Place) (n : Nat) : State :=
  let k := s.core p
  match s.command p n with
  | none => s
  | some e =>
    let far := s.farElem p e e.next
    let route := far.bind fun va => s.farRoute p e va e.elem
    -- a read waits for what the port issued before it on its route; a write does so as it lands
    let held := !e.kind.outward && match route with | some r => s.routeHeld p s.seq r | none => false
    if !e.kind.pieces ∨ !e.started ∨ e.total ≤ e.next ∨ Config.portBytes < k.inTransit + e.elem ∨ !k.mayFollow e ∨ held then s
    else
      let e1 : EngCmd := { e with next := e.next + 1 }
      -- a shadow's element leaves the core by no port (R349)
      let ports := match far with
        | some va => if s.suppressed p e va then some [] else s.cmdPath p e va
        | none => some []
      match ports, s.readElem p e e.next with
      | none, _ => s.setCommand p (e1.fail e.next (2, e.place))
      | _, .error r => s.setCommand p (e1.fail e.next r)
      | some path, .ok (s1, d, l) =>
        if s1.suppressed p e d then s1.setCommand p { e1 with done := e1.done + 1 }
        else (({ s1 with seq := s1.seq + 1 } : State).setCommand p e1).modCore p fun k =>
          { k with transit := k.transit ++ [{ cmd := n, elem := e.next, dest := d, bytes := l, seq := s1.seq
                                              route := if e.kind.outward then route else none, path := path }] }
def execEngineDataPiece (p : Place) (n : Nat) (s : State) : Out := .next (s.dataPiece p n)

/-- A word of a slot of the target's buffer (R242). -/
def State.slotWrite (s : State) (p : Place) (e : EngCmd) (va : Nat) (l : List Byte) : Except EngErr State :=
  if s.unreachable (s.partOf p % 16) e.place || !s.nearOn e.place va then .error (2, e.place)
  else .ok (s.engPut (nearPlace e.place e.hkey va) l)

/-- The write of a piece at its destination. -/
def State.writeElem (s : State) (p : Place) (e : EngCmd) (d : Nat) (l : List Byte) : Except EngErr State :=
  match e.kind with
  | .put | .putx => s.remoteWrite p e d l
  | .sendl => s.slotWrite p e d l
  | .cpyFrom => s.farWrite p e d l (coversBlock (vaOf e.remote) e.count d)
  | _ => s.nearWrite p e d l

/-- The prefix word of a list's entry. -/
def Piece.isPrefix (x : Piece) (e : EngCmd) : Bool := e.kind == .sendl && x.src.isNone
/-- A piece waits for what its port issued before it on its route (R138), and a prefix word for the rest of its entry (R242). -/
def State.pieceBlocked (s : State) (p : Place) (e : EngCmd) (x : Piece) : Bool :=
  (match x.route with | some r => s.routeHeld p x.seq r | none => false) ||
    (x.isPrefix e && (s.core p).transit.any fun y => decide (y.cmd = x.cmd) && decide (y.elem = x.elem) && y.src.isSome)

/-- What an earlier entry of a putx wrote to the element that a piece goes to. -/
def EngCmd.wrote (e : EngCmd) (x : Piece) : Option (List Byte) :=
  if e.kind = .putx then (e.written.find? fun w => w.1 == x.dest && w.2.length == x.bytes.length).map (·.2) else none
/-- An element is delivered; an entry of a list with its prefix. -/
def EngCmd.landed (e : EngCmd) (x : Piece) (l : List Byte) : EngCmd :=
  { e with
    done := if e.kind = .sendl ∧ x.src.isSome then e.done else e.done + 1
    written := if e.kind = .putx then SMap.put e.written x.dest l else e.written }
/-- The bytes that a piece leaves. Where an earlier entry of a putx named the same element, which value stands is a free value
(R236, log 60); so is whether a word of a list's entry that was rewritten in delivery holds its old or its new value (R303). -/
def State.landing (s : State) (e : EngCmd) (x : Piece) : State × List Byte :=
  let now := x.src.map fun a => bytesAt (s.readRun a.1 a.2) 0 8
  match (e.wrote x).orElse fun _ => now.filter (· != x.bytes) with
  | some l => (s.useFree, if s.freeWord.getLsbD 0 then l else x.bytes)
  | none => (s, x.bytes)

/-- An element is lost; of an entry of a list, every word still on its way. -/
def State.loseElem (s : State) (p : Place) (e : EngCmd) (x : Piece) (r : EngErr) : State :=
  let t := s.setCommand p (e.fail x.elem r)
  if e.kind = .sendl then
    t.modCore p fun k => { k with transit := k.transit.filter fun y => !(decide (y.cmd = x.cmd) && decide (y.elem = x.elem)) }
  else t

/-- ENGINE_ELEMENT_WRITE (R140, R237): piece n of the port's transit lands, or is not delivered. -/
def State.elementWrite (s : State) (p : Place) (n : Nat) : State :=
  match (s.core p).transit[n]? with
  | none => s
  | some x =>
    let s1 := s.modCore p fun k => { k with transit := k.transit.eraseIdx n }
    match s.command p x.cmd with
    | none => s1
    | some e =>
      if s.pieceBlocked p e x then s
      else
        let (s2, l) := s1.landing e x
        match s2.writeElem p e x.dest l with
        | .error r => s2.loseElem p e x r
        | .ok s3 =>
          let t := s3.setCommand p (e.landed x l)
          -- an entry is counted once it is visible (R242)
          if x.isPrefix e then t.incCounter p e.ctr else t
def execEngineElementWrite (p : Place) (n : Nat) (s : State) : Out := .next (s.elementWrite p n)

/-! ## The end of a command (R142, R237, R238) -/

/-- Every element is delivered or lost. -/
def State.ended (s : State) (p : Place) (e : EngCmd) : Bool :=
  e.started && decide (e.total ≤ e.next) && !((s.core p).transit.any fun x => x.cmd == e.seq)

/-- A `cpy.cb` publishes its slot, delivered or not (R289). -/
def State.publishSlot (s : State) (p : Place) (e : EngCmd) : State :=
  if e.kind = .cpyCb then
    let b := s.buffer p e.tab
    s.setBuffer p e.tab { b with pidx := b.pidx + 1, filled := b.filled + 1 }
  else s

/-- COUNTER_INCREMENT (R142): a `sendl` has counted its entries one by one, and first writes its sd. -/
def State.finishCommand (s : State) (p : Place) (n : Nat) : State :=
  match s.command p n with
  | none => s
  | some e =>
    if !s.ended p e ∨ e.err ≠ none ∨ e.sd ≠ none then s
    else
      let t := (s.dropCommand p n).publishSlot p e
      if e.kind = .sendl then t else t.incCounter p e.ctr
def execCounterIncrement (p : Place) (n : Nat) (s : State) : Out := .next (s.finishCommand p n)

/-- COUNTER_ERROR (R237, R238): the record, then the counter; a context that drains for single-step takes ENGINE_ERROR in
place of STEP (R359). -/
def State.failCommand (s : State) (p : Place) (n : Nat) : State :=
  match s.command p n with
  | none => s
  | some e =>
    match e.err with
    | none => s
    | some (i, r, w) =>
      if !s.ended p e then s
      else
        let t := ((s.dropCommand p n).publishSlot p e).errCounter e.ctx e.ctr i r e.done w
        t.modCtx e.ctx fun x =>
          if x.stepDue.isSome && x.due.isNone then { x with due := some { cause := .engineError, next := true }, stepDue := none } else x
def execCounterError (p : Place) (n : Nat) (s : State) : Out := .next (s.failCommand p n)

/-! ## Entries of a send list (R242) -/

/-- The list stops: sd is the number of slots taken. -/
def State.stopList (s : State) (p : Place) (e : EngCmd) : State :=
  let e1 : EngCmd := { e with next := e.count, sd := none }
  let t := s.setCommand p e1
  match e.sd with
  | some d => t.modCtx e.ctx fun x => x.deliver (.s d) (BitVec.ofNat 128 e.taken) 0
  | none => t

/-- The local bytes of an entry; REASON 3 where one is not the context's to read (R242), 10 for an uncorrectable error (R342, log 52). -/
def State.entryBytes (s : State) (p : Place) (e : EngCmd) (va n : Nat) : Except EngErr (List Byte) :=
  match localRegion (s.engAgent p e) .load (BitVec.ofNat 64 va) n with
  | some _ => .error (3, 0)
  | none =>
    if !(regionProbes va n).all (s.bankOn p) then .error (3, 0)
    else match (runFrom va n).find? fun x => s.poisoned (localAt p x) with
      | some x => .error (10, paOf (localAt p x))
      | none => .ok (s.readRun (localAt p va) n)

/-- A port leads to the place for every word of an entry of n bytes in the slot at a VA, its prefix word among them (R373). -/
def State.entryReaches (s : State) (p : Place) (e : EngCmd) (va n : Nat) : Bool :=
  (List.range (ceilDiv n 8 + 1)).all fun i => (s.cmdPath p e (va + 8 * i)).isSome

/-- The pieces of an entry for the slot at a VA of the target: its words, zero-padded, then the prefix word. `src` is where its
bytes stand. -/
def State.entryPieces (s : State) (p : Place) (e : EngCmd) (va src n : Nat) (l : List Byte) : List Piece :=
  let piece := fun (i k : Nat) (b : List Byte) (w : Option (Nat × Nat)) =>
    ({ cmd := e.seq, elem := e.next, dest := va + 8 * i, bytes := b, seq := s.seq + k
       route := some (routeOf (nearPlace e.place e.hkey (va + 8 * i)) (windowOff (va + 8 * i)))
       path := (s.cmdPath p e (va + 8 * i)).getD [], src := w } : Piece)
  ((List.range (ceilDiv n 8)).map fun i =>
    piece (i + 1) i (bytesAt l (8 * i) 8) (some (localAt p (src + 8 * i), min 8 (n - 8 * i)))) ++
    [piece 0 (ceilDiv n 8) (bytesOfNat 8 (n + 2 ^ 16 * placeWord p)) none]

/-- An entry is sent: a slot is taken and published, and its words are on their way (R242, R305). -/
def State.sendEntry (s : State) (p : Place) (e : EngCmd) (src n : Nat) (l : List Byte) : State :=
  let t := e.place
  let b := s.buffer t e.tab
  let pieces := s.entryPieces p e (b.slotVa b.aidx) src n l
  let s1 := ({ s with seq := s.seq + pieces.length } : State).setBuffer t e.tab
    { b with free := b.free - 1, aidx := b.aidx + 1, pidx := b.pidx + 1, filled := b.filled + 1 }
  (s1.setCommand p { e with next := e.next + 1, taken := e.taken + 1 }).modCore p fun k => { k with transit := k.transit ++ pieces }

/-- SENDL_ENTRY (R242): the next entry of a list reaches the remote buffer, once the port has room for its words (R243). -/
def State.listEntry (s : State) (p : Place) (n : Nat) : State :=
  match s.command p n with
  | none => s
  | some e =>
    let t := e.place
    let b := s.buffer t e.tab
    let fail := fun (r : EngErr) => s.stopList p (e.fail e.next r)
    if e.kind ≠ .sendl ∨ !e.started ∨ !(s.core p).mayFollow e ∨ (e.count ≤ e.next ∧ e.sd = none ∧ e.count ≠ 0) then s
    else if e.count ≤ e.next then s.stopList p e
    else if s.refused p t 0 || !b.cfg || !b.eng || !s.nearOn t (vaOf b.base) then fail (2, t)
    else if b.free = 0 then s.stopList p e
    else match s.nearRead p e (vaOf e.list + 8 * e.next) 8 with
      | .error r => fail (if r.1 = 10 then r else (3, 0))
      | .ok w =>
        let va := fieldAt w 0 4
        let len := fieldAt w 4 2
        if b.slot < len + 8 then fail (9, 0)
        else if Config.portBytes < (s.core p).inTransit + roundUp len 8 + 8 then s
        else match s.entryBytes p e va len with
          | .error r => fail r
          | .ok l => if s.entryReaches p e (b.slotVa b.aidx) len then s.sendEntry p e va len l else fail (2, t)
def execSendlEntry (p : Place) (n : Nat) (s : State) : Out := .next (s.listEntry p n)

end Sys2Proof.Machine
end

