-- ==== Sys2Proof/Machine/Matrix.lean ====
section
/-! DEFINITION. The matrix heads (R270-R277): limits, the queue entry of array commands with their images (R380), and the heads
that are not queued. -/

namespace Sys2Proof.Machine

/-! ## Command images (R380) -/

/-- An image from its fields: byte offset, bytes, value. -/
def imageOf (l : List (Nat × Nat × Nat)) : BitVec 256 :=
  BitVec.ofNat 256 (l.foldl (fun a e => a + e.2.2 % 256 ^ e.2.1 * 256 ^ e.1) 0)
/-- n bytes of an image from an offset. -/
def ACmd.field (q : ACmd) (off n : Nat) : Nat := bitsOf q.img.toNat (8 * off) (8 * n)
def ACmd.code (q : ACmd) : Nat := q.field 0 1
def ACmd.flag (q : ACmd) (i : Nat) : Bool := bitOf (q.field 1 1) i

def codeMlds : Nat := 0x01
def codeMswap : Nat := 0x02
def codeMstrm : Nat := 0x03
def codeMdrain : Nat := 0x04
def codeMzero : Nat := 0x05
def codeMmask : Nat := 0x08
def codeAimg : Nat := 0x15

/-! ## Queue entry (R89, R90, R268) -/

/-- Another context of the core has an AU open. -/
def State.otherAu (s : State) (c : CtxId) : Bool :=
  (List.range 4).any fun i => decide (ctxAt (coreOf c) i ≠ c) && (s.ctx (ctxAt (coreOf c) i)).auOpen

/-- The first command of a context without an open AU opens one, and clears MSTAT (R93). -/
def Context.openAu (x : Context) : Context := if x.auOpen then x else { x with auOpen := true, mstat := 0 }

/-- A context's command cannot enter its core's queue now: the queue is full, another context's AU is open, or the AU still
waits for its restore. Its reads follow the context's earlier accesses. -/
def State.arrayBusy (s : State) (c : CtxId) : Bool :=
  let x := s.ctx c
  s.otherAu c || x.auMarked || decide (Config.arrayQueueSlots ≤ x.arrayCmds) ||
    decide (Config.arrayQueueSlots ≤ (s.core (coreOf c)).arrayQ.length) || !s.quiet c

/-- A command enters the core's queue. -/
def State.pushCmd (s : State) (c : CtxId) (img : BitVec 256) : State :=
  (s.modCore (coreOf c) fun k => { k with arrayQ := k.arrayQ ++ [{ ctx := c, img := img }] }).modCtx c fun x =>
    { x.openAu with arrayCmds := x.arrayCmds + 1 }

def queueCmd (img : BitVec 256) (s : State) : Eff :=
  let c := s.cur.ctx
  if s.arrayBusy c then .hold else .done (s.pushCmd c img) .seq

/-- The course of an array command: MCFG_STATE first, then its limits, its regions, its queue entry (R268). -/
def arrayCmd (ok : BitVec 256 → State → Bool) (traps : BitVec 256 → State → List Trap)
    (aligns : BitVec 256 → State → List (Word × Nat)) (img : State → BitVec 256) (s : State) : Eff :=
  match s.here.tcsb with
  | none => .trap { cause := .mcfgState }
  | some t =>
    if !ok t s then .trap { cause := .illegalOperand }
    else engChecks (traps t s) (aligns t s) (queueCmd (img s) s)

/-! ## Limits on values, which an image must keep as well (R268, R380) -/

def panelsOf (t : BitVec 256) : Nat := 128 / tCols t
/-- Bytes of a row of R elements of a format, of C elements of the output format. -/
def lineBytesOf (t : BitVec 256) (code : Nat) : Nat := rowBytes ((kindOf code).getD .o4) (tRows t)
def outBytesOf (t : BitVec 256) : Nat := rowBytes ((kindOf (tOfmt t)).getD .o4) (tCols t)

/-- `mlds` (R272): panel, stride, source window. -/
def mldsLimits (t : BitVec 256) (src p stride : Nat) (cmp : Bool) : Bool :=
  decide (p < panelsOf t) && decide (lineBytesOf t (tFmtw t) ≤ stride) && decide (stride ≤ 65528) &&
    (windowOf src).isSome && !(cmp && decide (tFmtw t = 4))
/-- Rows of a panel: start and count. -/
def rowsOk (b0 r : Nat) : Bool := decide (1 ≤ r) && decide (r ≤ 128) && decide (b0 + r ≤ 128)
/-- `mstrm` (R274). -/
def mstrmLimits (t : BitVec 256) (p b0 r stride : Nat) : Bool :=
  decide (p < panelsOf t) && rowsOk b0 r &&
    (decide (r = 1) || (decide (lineBytesOf t (tFmts t) ≤ stride) && decide (stride ≤ 65528)))
/-- `mdrain` (R275). -/
def mdrainLimits (t : BitVec 256) (m b0 r e f : Nat) : Bool :=
  decide (m ≠ 0) && decide (m < 2 ^ panelsOf t) && rowsOk b0 r && (decide (r = 1) || decide (outBytesOf t ≤ e)) &&
    (decide ((onesOf 8 m).length ≤ 1) || decide (r * e ≤ f))
/-- `mmask` (R277). -/
def mmaskLimits (n c : Nat) : Bool :=
  decide (1 ≤ n) && decide (n ≤ 128) && decide (bitsOf c 0 7 + n ≤ 128) && decide (bitsOf c 8 7 + n ≤ 128) &&
    decide (bitsOf c 7 1 = 0) && decide (c < 2 ^ 15)

/-- Bytes that lines or rows of a stride span. -/
def spanBytes (n stride last : Nat) : Nat := (n - 1) * stride + last
/-- Bytes of a drain's region. -/
def drainBytes (t : BitVec 256) (m r e f : Nat) : Nat :=
  let q := (onesOf 8 m).length - 1
  q * f + spanBytes r e (outBytesOf t)

/-! ## Queued heads -/

/-- A stride or count of a register must fit what its image field holds; larger values break their limits first. -/
def State.n (s : State) (o : XOp) : Nat := (s.x o).toNat

def mldsTraps (a c d : XOp) (cmp : Bool) (t : BitVec 256) (s : State) : List Trap :=
  let g := s.agent s.cur.ctx
  (if isLoc (s.x a) then regionTraps false g .load (s.x a) (spanBytes (tCols t) (s.n c) (lineBytesOf t (tFmtw t))) else []) ++
    if cmp then regionTraps false g .load (s.x d) (ceilDiv (tCols t * tRows t) 8) else []

/-- `mlds` (R272). -/
def execMlds (a b c d : XOp) (cmp : Bool) (s : State) : Out :=
  head (.mlds a b c d cmp) (needX (if cmp then [a, b, c, d] else [a, b, c]) [] []) free free
    (arrayCmd
      (fun t s => mldsLimits t (vaOf (s.x a)) (s.n b) (s.n c) cmp &&
        (!isLoc (s.x a) || regionLimit false (s.x a) (spanBytes (tCols t) (s.n c) (lineBytesOf t (tFmtw t)))) &&
        (!cmp || regionLimit false (s.x d) (ceilDiv (tCols t * tRows t) 8)))
      (mldsTraps a c d cmp)
      (fun _ s => [(s.x a, 8), (s.x c, 8)] ++ if cmp then [(s.x d, 8)] else [])
      fun s => imageOf [(0, 1, codeMlds), (1, 1, cmp.toNat), (2, 2, s.n c), (4, 1, s.n b), (8, 8, s.n a),
        (16, 8, if cmp then s.n d else 0)]) s

/-- `mswap` (R273). -/
def execMswap (s : State) : Out :=
  head .mswap {} free free (arrayCmd (fun _ _ => true) (fun _ _ => []) (fun _ _ => []) fun _ => imageOf [(0, 1, codeMswap)]) s
/-- `mzero` (R273). -/
def execMzero (s : State) : Out :=
  head .mzero {} free free (arrayCmd (fun _ _ => true) (fun _ _ => []) (fun _ _ => []) fun _ => imageOf [(0, 1, codeMzero)]) s

/-- `mstrm` (R274). -/
def execMstrm (a b c d e : XOp) (s : State) : Out :=
  let bytes := fun (t : BitVec 256) (s : State) => spanBytes (s.n d) (s.n e) (lineBytesOf t (tFmts t))
  head (.mstrm a b c d e) (needX [a, b, c, d, e] [] []) free free
    (arrayCmd (fun t s => mstrmLimits t (s.n b) (s.n c) (s.n d) (s.n e) && regionLimit true (s.x a) (bytes t s))
      (fun t s => regionTraps true (s.agent s.cur.ctx) .load (s.x a) (bytes t s))
      (fun _ s => [(s.x a, 8), (s.x e, 8)])
      fun s => imageOf [(0, 1, codeMstrm), (2, 2, if s.n d = 1 then 0 else s.n e), (4, 1, s.n b), (5, 1, s.n c), (6, 1, s.n d),
        (8, 8, s.n a)]) s

/-- `mdrain` (R275). -/
def execMdrain (a b c d e f : XOp) (s : State) : Out :=
  let one := fun (s : State) => decide ((onesOf 8 (s.n b)).length ≤ 1)
  let bytes := fun (t : BitVec 256) (s : State) => drainBytes t (s.n b) (s.n d) (s.n e) (s.n f)
  head (.mdrain a b c d e f) (needX [a, b, c, d, e, f] [] []) free free
    (arrayCmd
      (fun t s => mdrainLimits t (s.n b) (s.n c) (s.n d) (s.n e) (s.n f) && regionLimit false (s.x a) (bytes t s))
      (fun t s => regionTraps false (s.agent s.cur.ctx) .store (s.x a) (bytes t s))
      (fun _ s => [(s.x a, 8), (s.x e, 8), (s.x f, 8)])
      fun s => imageOf [(0, 1, codeMdrain), (4, 1, s.n b), (5, 1, s.n c), (6, 1, s.n d), (8, 8, s.n a),
        (16, 4, if one s then 0 else s.n f), (20, 4, if s.n d = 1 then 0 else s.n e)]) s

/-- `mmask` (R277). -/
def execMmask (a : SCOp) (b c : XOp) (s : State) : Out :=
  head (.mmask a b c) (needX [scX a, b, c] [] []) free free
    (arrayCmd (fun _ s => mmaskLimits (s.n b) (s.n c) && regionLimit false (s.sc a) (s.n b))
      (fun _ s => regionTraps false (s.agent s.cur.ctx) .load (s.sc a) (s.n b)) (fun _ _ => [])
      fun s => imageOf [(0, 1, codeMmask), (2, 2, s.n c), (4, 1, s.n b), (8, 8, (s.sc a).toNat)]) s

/-! ## Heads that are not queued (R271, R276) -/

/-- Every array command that a context has issued has completed. -/
def Context.arrayDone (x : Context) : Bool := decide (x.arrayCmds = 0)

/-- 32 bytes of own local memory, read as a plain load. -/
def State.localWords (s : State) (c : CtxId) (ptr : Word) (n : Nat) : Except Trap (List Byte) :=
  let vas := runFrom (vaOf ptr) n
  match s.resolve (s.agent c) .load ptr vas true true true with
  | .error t => .error t
  | .ok (s1, l) => match s1.poisonedTrap ptr vas l with
    | some t => .error t
    | none => .ok (s1.bytesOf l)

def mcfgEff (a : SCOp) (s : State) : Eff :=
  let c := s.cur.ctx
  let ptr := s.sc a
  engChecks (regionTraps false (s.agent c) .load ptr 32) [(ptr, 8)]
    (match s.localWords c ptr 32 with
    | .error t => .trap t
    | .ok l =>
      let t := BitVec.ofNat 256 (natOfBytes l)
      if !tcsbOk t then .trap { cause := .illegalOperand }
      else if !s.here.arrayDone then .hold
      else .done ((s.discardAu c).modCtx c fun x => { x with tcsb := some t }) .seq)

/-- `mcfg` (R271, R92). -/
def execMcfg (a : SCOp) (s : State) : Out :=
  head (.mcfg a) (needX [scX a] [] []) free (operandOk [{ ops := [scX a], ok := fun s => regionLimit false (s.sc a) 32 }]) (mcfgEff a) s

/-- `mwait` (R276). -/
def execMwait (s : State) : Out :=
  head .mwait {} free free (fun s => if s.here.arrayDone then .done s .seq else .wait s) s

/-- MSTAT as `mstat` returns it: with no valid TCSB only QDEPTH. -/
def State.mstatValue (s : State) (c : CtxId) : Word :=
  if (s.ctx c).tcsb.isSome then s.mstatWord c else s.mstatWord c &&& 0x1F00

def mstatEff (d : SReg) (a : XOp) (s : State) : Eff :=
  let c := s.cur.ctx
  let ptr := s.x a
  let fin := fun (t : State) => Eff.done (t.setS 1 d (s.mstatValue c)) .seq
  if ptr = 0 then (if s.here.arrayDone then fin s else .wait s)
  else engChecks (regionTraps false (s.agent c) .store ptr 32) [(ptr, 8)]
    (if !s.here.arrayDone then .wait s
    else
      let places := runFrom (localAt (coreOf c) (vaOf ptr)) 32
      fin ((s.setBytes (places.zip (bytesOfNat 32 ((s.here.tcsb.getD tcsbReset).toNat)))).clearPoison places))

/-- `mstat` (R276). -/
def execMstat (d : SReg) (a : XOp) (s : State) : Out :=
  head (.mstat d a) (needX [a] [] [.s d]) free
    (operandOk [{ ops := [a], ok := fun s => s.x a == 0 || regionLimit false (s.x a) 32 }]) (mstatEff d a) s

end Sys2Proof.Machine
end

