-- ==== Sys2Proof/Machine/Coding.lean ====
section
/-! DEFINITION. The Pilot (R71-R87): the pursuit, code records, decoding, its requests and their service, the coding heads
(R278-R283), and the service of `aimg` (R81, R283). -/

namespace Sys2Proof.Machine

/-! ## Exact values -/

def v32 (b : Nat) : FVal := fp32.value b
def v16 (b : Nat) : FVal := fp16.value b
/-- The exact product of two finite values as a term of a sum. -/
def prodTerm (a b : FVal) : Int × Int := (mulVal a b).1.signed
def rnSum (l : List (Int × Int)) : Nat := let (z, e) := sumFin l; rn32 z e
/-- RN32 of the product of two FP32 or FP16 values. -/
def mul32 (a b : FVal) : Nat := (roundVal fp32 rne false (mulVal a b).1).1
def isInf32 (b : Nat) : Bool := decide (b % 2 ^ 31 = 0x7F800000)

/-- A quotient of finite non-negative values, the second not zero, rounded into a format. -/
def quotRn (f : Fmt) (a b : FVal) : Nat :=
  match a, b with
  | .fin _ m e, .fin _ l g =>
    let t := m * 2 ^ 128
    (roundFin f rne false (t / l) (e - g - 128) (decide (t % l ≠ 0)) false).1
  | _, _ => 0

/-! ## Segments and slots (R71, R72) -/

def lOf (code : Nat) : Option Nat := match code with | 0 => some 16 | 1 => some 32 | 2 => some 64 | _ => none
def lCode (l : Nat) : Nat := match l with | 16 => 0 | 32 => 1 | _ => 2

/-- Element i of atom j: zero beyond the slot. -/
def Dict.atom (d : Dict) (j i : Nat) : Nat := if i < d.len ∧ j < d.k then (d.atoms.getD (j * d.len + i) 0).toNat else 0
def Dict.qOf (d : Dict) (j : Nat) : Nat := (d.q.getD j 0).toNat

/-- q of an atom, and whether one of its elements is a NaN (R72). -/
def atomQ (l : List Nat) : Nat × Bool :=
  let vs := l.map v16
  if vs.any fun v => !v.isFinite then (0, vs.any FVal.isNan)
  else
    let (z, e) := sumFin (vs.map fun v => prodTerm v v)
    (if z = 0 then 0 else quotRn fp32 (.fin false 1 0) (.fin false z.natAbs e), false)

/-- A slot from its atoms, and the NV of R72. -/
def dictOf (len k : Nat) (atoms : List Nat) : Dict × Bool :=
  let qs := (List.range k).map fun j => atomQ ((List.range len).map fun i => atoms.getD (j * len + i) 0)
  ({ len := len, k := k, atoms := atoms.map (BitVec.ofNat 16), q := qs.map fun e => BitVec.ofNat 32 e.1 }, qs.any (·.2))

/-! ## The pursuit (R74) -/

/-- A record on its way: indices and coefficients so far, the residual and its energy, steps entered, flags. -/
structure Pursuit where
  idx : List Nat
  coef : List Nat
  r : List Nat
  er : Nat
  steps : Nat
  deriving DecidableEq, Repr

/-- What a pursuit comes to: a code record or an escape record with its energy ratio, or one step more. -/
inductive PStep where
  | go (p : Pursuit)
  | stop (p : Pursuit)
  | escape (p : Pursuit)
  | code (p : Pursuit)
  deriving DecidableEq, Repr

/-- g and k of an atom. -/
def pursuitKey (d : Dict) (r : List Nat) (j : Nat) : Nat × Nat :=
  if d.qOf j = 0 then (0, 0)
  else
    let g := rnSum ((r.zipIdx).map fun e => prodTerm (v32 e.1) (v16 (d.atom j e.2)))
    (g, mul32 (v32 (mul32 (v32 g) (v32 g))) (v32 (d.qOf j)))

/-- Index, g and k of the lowest atom whose key is the largest; keys are never negative, so their codes are ordered as they
are. -/
def bestKey (l : List (Nat × Nat)) : Nat × Nat × Nat :=
  (l.zipIdx).foldl (fun b e => if b.2.2 < e.1.2 then (e.2, e.1) else b) (0, l.headD (0, 0))

def energy (r : List Nat) : Nat := rnSum (r.map fun x => prodTerm (v32 x) (v32 x))

def pursuitStep (d : Dict) (tauEx : FVal) (p0 : Pursuit) : PStep :=
  let p : Pursuit := { p0 with steps := p0.steps + 1 }
  let keys := (List.range d.k).map (pursuitKey d p.r)
  let (j, g, k) := bestKey keys
  if keys.any fun e => isInf32 e.1 || isInf32 e.2 then .escape p
  else if k = 0 then .stop p
  else
    let c := (roundVal fp16 rne false (v32 (mul32 (v32 g) (v32 (d.qOf j))))).1
    if c % 2 ^ 15 = 0 then .stop p
    else if !(v16 c).isFinite then .escape p
    else
      let r := (p.r.zipIdx).map fun e => rnSum [(v32 e.1).signed, prodTerm (v16 c).negate (v16 (d.atom j e.2))]
      let er := if r.any isInf32 then 0x7F800000 else energy r
      if r.any isInf32 || isInf32 er then .escape p
      else
        let q : Pursuit := { p with idx := p.idx ++ [j], coef := p.coef ++ [c], r := r, er := er }
        if !ltVal tauEx (v32 er) then .code q else .go q

/-- At most n further steps: the record kind, the pursuit, and whether OF was set. -/
def pursue (d : Dict) (tauEx epsEx : FVal) : Nat → Pursuit → Bool × Pursuit × Bool
  | 0, p => (ltVal epsEx (v32 p.er), p, false)
  | n + 1, p => match pursuitStep d tauEx p with
    | .go q => pursue d tauEx epsEx n q
    | .stop q => (ltVal epsEx (v32 q.er), q, false)
    | .escape q => (true, q, true)
    | .code q => (false, q, false)

/-! ## Records (R76) -/

def recHeader (n slot len ratio : Nat) (esc : Bool) : List Byte :=
  bytesOfNat 8 (n % 16 + 16 * esc.toNat + 32 * (slot % 4) + 2 ^ 8 * lCode len + 2 ^ 32 * (ratio % 2 ^ 16))

def codeRecord (slot len : Nat) (p : Pursuit) (ratio : Nat) : List Byte :=
  let n := p.idx.length
  recHeader n slot len ratio false ++ bytesAt (p.idx.map (BitVec.ofNat 8)) 0 (roundUp n 8) ++
    bytesAt (p.coef.flatMap (bytesOfNat 2)) 0 (roundUp (2 * n) 8)

/-- RN16 of an element of an escape record with its flags. -/
def escapeElem (x : Nat) : Nat × SW :=
  if (v32 x).isNan then (0x7E00, fNV)
  else let (c, f) := roundVal fp16 rne false (v32 x); (c, f &&& fOF)

def escapeRecord (slot len : Nat) (n : Nat) (x : List Nat) (ratio : Nat) : List Byte × SW :=
  let l := x.map escapeElem
  (recHeader n slot len ratio true ++ l.flatMap (fun e => bytesOfNat 2 e.1), l.foldl (fun a e => a ||| e.2) 0)

/-- The record of a segment, its flags, and the steps of its pursuit (R74). -/
def pencRecord (d : Dict) (slot : Nat) (tau eps : BitVec 16) (smax : Nat) (x : List Nat) : List Byte × SW × Nat :=
  let esc := fun (n ratio steps : Nat) (f : SW) => let (b, g) := escapeRecord slot d.len n x ratio; (b, f ||| g, steps)
  let none_ : Pursuit := { idx := [], coef := [], r := x, er := 0, steps := 0 }
  if x.any fun b => !(v32 b).isFinite then esc 0 0x7E00 0 0
  else
    let ex := energy x
    if isInf32 ex then esc 0 0x7E00 0 fOF
    else if ex = 0 then (codeRecord slot d.len none_ 0, 0, 0)
    else
      let scaledBy := fun (t : BitVec 16) => (mulVal (v16 t.toNat) (v32 ex)).1
      let (escape, p, big) := pursue d (scaledBy tau) (scaledBy eps) smax { none_ with er := ex }
      let ratio := quotRn fp16 (v32 p.er) (v32 ex)
      if big then esc p.idx.length 0x7E00 p.steps fOF
      else if escape then esc p.idx.length ratio p.steps 0
      else (codeRecord slot d.len p ratio, 0, p.steps)

/-- A record taken apart: n, escape, slot, L code. -/
structure Rec where
  n : Nat
  esc : Bool
  slot : Nat
  lcode : Nat
  idx : List Nat
  coef : List Nat
  vals : List Nat
  deriving DecidableEq, Repr

/-- A record at the start of a list of bytes. A count n of 9 to 15, for which R76 gives no fate, is read as so many entries (DESIGN
CHOICE, log 71). -/
def recOf (b : List Byte) : Rec :=
  let n := bitsOf (fieldAt b 0 1) 0 4
  let p := roundUp n 8
  { n := n, esc := bitOf (fieldAt b 0 1) 4, slot := bitsOf (fieldAt b 0 1) 5 2, lcode := fieldAt b 1 1
    idx := (List.range n).map fun i => fieldAt b (8 + i) 1
    coef := (List.range n).map fun i => fieldAt b (8 + p + 2 * i) 2
    vals := (List.range 64).map fun i => fieldAt b (8 + 2 * i) 2 }

/-- L FP32 values from a record (R79), and NV for an index beyond the slot. -/
def pdecValues (d : Dict) (len : Nat) (r : Rec) : List Nat × Bool :=
  if r.esc then ((List.range len).map fun i => (roundVal fp32 rne false (v16 (r.vals.getD i 0))).1, false)
  else
    let terms := (r.idx.zip r.coef).filter fun e => decide (e.1 < d.k)
    ((List.range len).map fun i =>
        let x := (sumVals rne (terms.map fun e => (mulVal (v16 e.2) (v16 (d.atom e.1 i))).1)).1
        if x.isZero then 0 else (roundVal fp32 rne false x).1,
      r.idx.any fun j => decide (d.k ≤ j))

/-! ## Requests (R84) -/

def PilotReq.ctx : PilotReq → CtxId
  | .dload c .. => c
  | .penc c .. => c
  | .pdec c .. => c
def PilotReq.level : PilotReq → Level
  | .dload _ _ _ _ l => l
  | .penc _ _ _ _ _ _ _ l => l
  | .pdec _ _ _ l => l

/-- A request enters the core's queue once there is room and the context's earlier accesses are performed. -/
def State.askPilot (s : State) (r : PilotReq) : Eff :=
  let p := coreOf r.ctx
  if !s.quiet r.ctx ∨ Config.pilotQueueSlots ≤ (s.core p).pilotQ.length then .hold
  else .done (s.modCore p fun k => { k with pilotQ := k.pilotQ ++ [r] }) .seq

/-- A context as its requests read and write for it. -/
def State.pilotAgent (s : State) (r : PilotReq) : Agent := { s.agent r.ctx with level := r.level }

/-! ## Heads -/

/-- `dload` (R279). -/
def execDload (a : XOp) (b : SCOp) (c : XOp) (s : State) : Out :=
  head (.dload a b c) (needX [a, scX b, c] [] []) free
    (operandOk [{ ops := [a], ok := fun s => decide (s.n a ≤ 3) }, { ops := [c], ok := fun s => s.ownsCounter (s.x c) },
      { ops := [scX b], ok := fun s => (windowOf (vaOf (s.sc b))).isSome }])
    (fun s => engChecks (if isLoc (s.sc b) then regionTraps false (s.agent s.cur.ctx) .load (s.sc b) 8 else []) [(s.sc b, 64)]
      (s.askPilot (.dload s.cur.ctx (s.n a) (s.sc b) (s.n c) s.here.level))) s

/-- `dsel` (R280). -/
def execDsel (k : Lit) (s : State) : Out :=
  head (.dsel k) {} free (operandOk [{ ok := fun _ => decide (0 ≤ k.toInt) && decide (k.toInt ≤ 3) }])
    (fun s => .done (s.modCsr s.cur.ctx fun r => { r with dslot := k.setWidth 2 }) .seq) s

/-- A threshold by itself: a finite FP16 of 0 to 1 with nothing above bit 15 (R73, R280). -/
def thresholdOk (w : Word) : Bool :=
  decide (w.toNat < 2 ^ 16) && (v16 w.toNat).isFinite && !ltVal (v16 w.toNat) (.fin false 0 0) && !ltVal (.fin false 1 0) (v16 w.toNat)
/-- An S_max of 1 to 8. -/
def smaxOk (w : Word) : Bool := decide (1 ≤ w.toNat) && decide (w.toNat ≤ 8)
/-- τ, ε and S_max that R73 admits: each by itself, and τ ≤ ε. -/
def pconfOk (tau eps smax : Word) : Bool :=
  thresholdOk tau && thresholdOk eps && smaxOk smax && !ltVal (v16 eps.toNat) (v16 tau.toNat)

/-- `pcfg` (R280). -/
def execPcfg (a b c : XOp) (s : State) : Out :=
  head (.pcfg a b c) (needX [a, b, c] [] []) free
    (operandOk [{ ops := [a], ok := fun s => thresholdOk (s.x a) }, { ops := [b], ok := fun s => thresholdOk (s.x b) },
      { ops := [c], ok := fun s => smaxOk (s.x c) },
      { ops := [a, b], ok := fun s => !ltVal (v16 (s.x b).toNat) (v16 (s.x a).toNat) }])
    (fun s => .done (s.modCsr s.cur.ctx fun r =>
      { r with tau := (s.x a).setWidth 16, eps := (s.x b).setWidth 16, smax := (s.x c).setWidth 4 }) .seq) s

/-- The slot of a `penc`: the literal, or PCONF.DSLOT. -/
def State.encSlot (s : State) (k : SlotSel) : Nat :=
  match k with
  | .none => s.here.csr.dslot.toNat
  | .lit l => l.toNat % 4
def slotOk (k : SlotSel) : Bool :=
  match k with
  | .none => true
  | .lit l => decide (0 ≤ l.toInt) && decide (l.toInt ≤ 3)
def State.dict (s : State) (p : Place) (slot : Nat) : Dict := SMap.look (s.cluster (clusterOf p)).dicts slot {}

def pencEff (a b : SCOp) (k : SlotSel) (s : State) : Eff :=
  let c := s.cur.ctx
  let g := s.agent c
  let slot := s.encSlot k
  let r := s.here.csr
  let len := (s.dict (coreOf c) slot).len
  engChecks (regionTraps false g .load (s.sc b) (4 * len) ++ regionTraps false g .store (s.sc a) (8 + 2 * len))
    [(s.sc a, 8), (s.sc b, 8)]
    (match s.askPilot (.penc c (s.sc a) (s.sc b) slot r.tau r.eps r.smax.toNat s.here.level) with
    | .done t f => .done (t.setEmpty (localAt (coreOf c) (vaOf (s.sc a)))) f
    | e => e)

/-- `penc` (R281). -/
def execPenc (a b : SCOp) (k : SlotSel) (s : State) : Out :=
  head (.penc a b k) (needX [scX a, scX b] [] []) free
    (operandOk [{ ok := fun _ => slotOk k },
      { ops := [scX b], ok := fun s => regionLimit false (s.sc b) (4 * (s.dict (coreOf s.cur.ctx) (s.encSlot k)).len) },
      { ops := [scX a], ok := fun s => regionLimit false (s.sc a) (8 + 2 * (s.dict (coreOf s.cur.ctx) (s.encSlot k)).len) }])
    (pencEff a b k) s

/-- `pdec` (R282): the least output of 16 values and the record's first word are checked at issue. -/
def execPdec (a b : SCOp) (s : State) : Out :=
  head (.pdec a b) (needX [scX a, scX b] [] []) free
    (operandOk [{ ops := [scX a], ok := fun s => regionLimit false (s.sc a) 64 }, { ops := [scX b], ok := fun s => regionLimit false (s.sc b) 8 }])
    (fun s =>
      let g := s.agent s.cur.ctx
      engChecks (regionTraps false g .load (s.sc b) 8 ++ regionTraps false g .store (s.sc a) 64) [(s.sc a, 8), (s.sc b, 8)]
        (s.askPilot (.pdec s.cur.ctx (s.sc a) (s.sc b) s.here.level))) s

/-! ## Reads and writes at service -/

/-- n bytes for a service: the checks of R219, then an uncorrectable error (R269, R342). -/
def State.svcRead (s : State) (g : Agent) (ptr : Word) (n : Nat) (keyed : Bool) : Except Trap (State × List Byte) :=
  if n = 0 then .ok (s, [])
  else
    let vas := runFrom (vaOf ptr) n
    match s.resolve g .serviceRead ptr vas true keyed false with
    | .error t => .error t
    | .ok (s1, l) => match s1.poisonedTrap ptr vas l with
      | some t => .error t
      | none => .ok (s1, s1.bytesOf l)

/-- A region of own local memory at service: REASON and window faults (R269). -/
def localFault (g : Agent) (acc : Acc) (ptr : Word) (n : Nat) : Option Trap := localRegion g acc ptr n

/-- Whole words of own local memory, each set full. -/
def State.putWords (s : State) (p : Place) (va : Nat) (l : List Byte) : State :=
  (List.range (ceilDiv l.length 8)).foldl (fun t i => t.engPut (localAt p (va + 8 * i)) (bytesAt l (8 * i) 8)) s

/-! ## Service (R84-R86) -/

/-- The core whose request the Pilot takes next. -/
def State.pilotCore (s : State) (k : ClusterId) : Option Place :=
  (((List.range 8).map fun i => 8 * k + ((s.cluster k).pilotLast + 1 + i) % 8)).find? fun p => !(s.core p).pilotQ.isEmpty

/-- The request that the Pilot may begin now. -/
def State.pilotHead (s : State) (k : ClusterId) : Option (Place × PilotReq) :=
  if s.now (8 * k) < (s.cluster k).pilotFreeAt then none
  else match s.pilotCore k with
    | none => none
    | some p => (s.core p).pilotQ.head?.map fun r => (p, r)

/-- The request leaves its queue, whose entry frees as its service begins (DESIGN CHOICE, log 72), and occupies the Pilot for n
cycles. -/
def State.pilotTakes (s : State) (k : ClusterId) (p : Place) (n : Nat) : State :=
  (s.modCore p fun x => { x with pilotQ := x.pilotQ.tail }).modCluster k fun x =>
    { x with pilotLast := p % 8, pilotFreeAt := s.now (8 * k) + n }

/-- Flags of the Pilot: into SW, silently (R75). While the context stands at supervisor level they enter the SW that the supervisor
runs with, which `eret` then replaces (DESIGN CHOICE, log 70). -/
def State.quietFlags (s : State) (c : CtxId) (f : SW) : State := s.modCtx c fun x => x.addFlags f

/-- A fault at service: an uncorrectable error is consumed; any other is taken at the context's next head, and the request
waits for `eret` (R269). -/
def State.pilotFault (s : State) (r : PilotReq) (t : Trap) : State :=
  if t.cause = .uncorrectable then s.consume r.ctx t.fva t.detail.toNat 2
  else s.modCtx r.ctx fun x =>
    { x with due := if x.due.isNone then some { t with origin := 2 } else x.due, pilotBack := x.pilotBack ++ [r] }

/-! ### dload -/

/-- A dictionary's header: L and K. -/
def dictHeader (w : Nat) : Option (Nat × Nat) :=
  match lOf (bitsOf w 0 8) with
  | some len => if bitsOf w 16 48 = 0 then some (len, bitsOf w 8 8 + 1) else none
  | none => none

/-- The REASON of a failed read. -/
def engReason (t : Trap) : Nat := if t.cause = .tagMismatch then 6 else 3

/-- Atoms from the first on; a failure names its atom. -/
def State.readAtoms (s : State) (g : Agent) (ptr : Word) (len : Nat) : Nat → Except (Nat × Trap) (State × List Nat)
  | 0 => .ok (s, [])
  | j + 1 =>
    match State.readAtoms s g ptr len j with
    | .error e => .error e
    | .ok (s1, l) =>
      match s1.svcRead g (withVa ptr (vaOf ptr + 8 + 2 * len * j)) (2 * len) true with
      | .error t => .error (j, t)
      | .ok (s2, b) => .ok (s2, l ++ (List.range len).map fun i => fieldAt b (2 * i) 2)

/-- A `dload` served (R279): the slot is installed whole, or the counter enters ERROR. Its 2 cycles for every 64 atoms are rounded
up (R85; DESIGN CHOICE, log 73). -/
def State.serveDload (s : State) (k : ClusterId) (c : CtxId) (slot : Nat) (ptr : Word) (ctr : Nat) (g : Agent) : State :=
  let fail := fun (t : State) (reason first : Nat) => t.errCounter c ctr first reason 0 0
  let failed := fun (t : State) (e : Trap) (first : Nat) =>
    if e.cause = .uncorrectable then t.consume c e.fva e.detail.toNat 2 else fail t (engReason e) first
  match s.svcRead g ptr 8 true with
  | .error e => failed s e 0xFFFFFFFF
  | .ok (s1, h) =>
    match dictHeader (natOfBytes h) with
    | none => fail s1 2 0
    | some (len, n) =>
      match s1.readAtoms g ptr len n with
      | .error (j, e) => failed s1 e j
      | .ok (s2, atoms) =>
        let (d, nv) := dictOf len n atoms
        let s3 := s2.modCluster k fun x => { x with dicts := SMap.put x.dicts slot d, pilotFreeAt := x.pilotFreeAt + 2 * ceilDiv n 64 }
        (s3.quietFlags c (flagIf nv fNV)).incCounter (coreOf c) ctr

/-- DLOAD_SERVICE (R84, R279). -/
def execDloadService (k : ClusterId) (s : State) : Out :=
  .next (match s.pilotHead k with
    | some (p, r) => match r with
      | .dload c slot ptr ctr _ => (s.pilotTakes k p 0).serveDload k c slot ptr ctr (s.pilotAgent r)
      | _ => s
    | none => s)

/-! ### penc -/

/-- Cycles of a `penc` (R85). -/
def pencCycles (d : Dict) (steps bytes : Nat) : Nat := d.len / 4 + 2 + steps * (ceilDiv d.k 64 + 4) + 2 + ceilDiv bytes 16

/-- The request in service occupies the Pilot for n cycles from now. A `penc` or `pdec` that faults occupies it for 1 cycle: R85 counts
only requests that are served (DESIGN CHOICE, log 81). -/
def State.pilotFor (s : State) (k : ClusterId) (n : Nat) : State :=
  s.modCluster k fun x => { x with pilotFreeAt := s.now (8 * k) + n }

def State.servePenc (s : State) (k : ClusterId) (p : Place) (r : PilotReq) (c : CtxId) (dst src : Word) (slot : Nat)
    (tau eps : BitVec 16) (smax : Nat) : State :=
  let g := s.pilotAgent r
  let d := s.dict p slot
  let s0 := s.pilotTakes k p 1
  match localFault g .serviceRead src (4 * d.len), localFault g .serviceWrite dst (8 + 2 * d.len) with
  | some t, _ => s0.pilotFault r t
  | _, some t => s0.pilotFault r t
  | _, _ =>
    match s0.svcRead g src (4 * d.len) false with
    | .error t => s0.pilotFault r t
    | .ok (s1, b) =>
      let (rec_, f, steps) := pencRecord d slot tau eps smax ((List.range d.len).map fun i => fieldAt b (4 * i) 4)
      ((s1.pilotFor k (pencCycles d steps rec_.length)).putWords p (vaOf dst) rec_).quietFlags c f

/-- PENC_SERVICE (R74, R77, R281). -/
def execPencService (k : ClusterId) (s : State) : Out :=
  .next (match s.pilotHead k with
    | some (p, r) => match r with
      | .penc c dst src slot tau eps smax _ => s.servePenc k p r c dst src slot tau eps smax
      | _ => s
    | none => s)

/-! ### pdec -/

/-- The bytes of a record by its first word: 8 + P + Q, or 8 + 2L. -/
def recBytes (h : List Byte) (len : Nat) : Nat :=
  let n := bitsOf (fieldAt h 0 1) 0 4
  if bitOf (fieldAt h 0 1) 4 then 8 + 2 * len else 8 + roundUp n 8 + roundUp (2 * n) 8

/-- A record read for service: ILLEGAL_OPERAND where its L code is reserved. -/
def State.readRec (s : State) (g : Agent) (ptr : Word) : Except Trap (State × Nat × Rec) :=
  match s.svcRead g ptr 8 false with
  | .error t => .error t
  | .ok (s1, h) =>
    match lOf (fieldAt h 1 1) with
    | none => .error { cause := .illegalOperand, fva := ptr }
    | some len =>
      match s1.svcRead g (withVa ptr (vaOf ptr + 8)) (recBytes h len - 8) false with
      | .error t => .error t
      | .ok (s2, b) => .ok (s2, len, recOf (h ++ b))

def State.servePdec (s : State) (k : ClusterId) (p : Place) (r : PilotReq) (c : CtxId) (dst src : Word) : State :=
  let g := s.pilotAgent r
  let s0 := s.pilotTakes k p 1
  match s0.readRec g src with
  | .error t => s0.pilotFault r t
  | .ok (s1, len, x) =>
    match localFault g .serviceWrite dst (4 * len) with
    | some _ => s0.pilotFault r { cause := .illegalOperand, fva := dst }
    | none =>
      let (vals, nv) := pdecValues (s1.dict p x.slot) len x
      ((s1.pilotFor k (4 + len / 4)).putWords p (vaOf dst)
        (vals.flatMap (bytesOfNat 4))).quietFlags c (flagIf nv fNV)

/-- PDEC_SERVICE (R79, R282). -/
def execPdecService (k : ClusterId) (s : State) : Out :=
  .next (match s.pilotHead k with
    | some (p, r) => match r with
      | .pdec c dst src _ => s.servePdec k p r c dst src
      | _ => s
    | none => s)

/-! ## `aimg` (R81, R283) -/

/-- A descriptor taken apart. -/
structure AimgDesc where
  recs : Nat
  rstr : Nat
  nb : Nat
  pnl : Nat
  m : Nat
  tab : Word
  scl : Word
  out : Nat
  ostr : Nat
  start : Nat
  deriving DecidableEq, Repr

def aimgDescOf (l : List Byte) (start : Nat) : AimgDesc :=
  { recs := fieldAt l 0 8, rstr := fieldAt l 8 2, nb := fieldAt l 10 2, pnl := fieldAt l 12 1, m := fieldAt l 14 2
    tab := wordOfBytes (l.drop 16), scl := wordOfBytes (l.drop 24), out := fieldAt l 32 8, ostr := fieldAt l 40 2, start := start }

/-- Values of a descriptor inside their limits; the record and matrix areas are checked as regions. -/
def AimgDesc.ok (d : AimgDesc) (t : BitVec 256) : Bool :=
  decide (d.recs % 8 = 0) && decide (d.rstr % 8 = 0) && decide (40 ≤ d.rstr) && decide (1 ≤ d.nb) && decide (d.nb ≤ 128) &&
    decide (d.pnl < panelsOf t) && decide (1 ≤ d.m) && decide (d.m ≤ tCols t) && decide (fmtOf d.tab = tFmtw t) &&
    decide (d.scl.toNat % 2 = 0) && decide (d.out % 8 = 0) && decide (d.ostr % 8 = 0) && decide (2 * tRows t ≤ d.ostr) &&
    decide (tFmts t = 0x0C) && decide (d.start ≤ 255)

/-- The record area at issue: the strides of all records but the last, and the least record, 40 bytes, of the last one. R283 names no
extent (DESIGN CHOICE, log 87). -/
def AimgDesc.recArea (d : AimgDesc) : Nat := spanBytes d.nb d.rstr 40
def AimgDesc.outArea (d : AimgDesc) (t : BitVec 256) : Nat := spanBytes d.nb d.ostr (2 * tRows t)
def AimgDesc.recPtr (d : AimgDesc) : Word := BitVec.ofNat 64 d.recs
def AimgDesc.outPtr (d : AimgDesc) : Word := BitVec.ofNat 64 d.out

def aimgImage (d : AimgDesc) : BitVec 256 :=
  imageOf [(0, 1, codeAimg), (2, 2, d.rstr), (4, 1, d.pnl), (5, 1, d.start), (6, 1, d.nb), (7, 1, d.m), (8, 8, d.tab.toNat),
    (16, 8, d.scl.toNat), (24, 3, d.recs), (27, 3, d.out), (30, 2, d.ostr)]
def aimgOfImage (q : ACmd) : AimgDesc :=
  { recs := q.field 24 3, rstr := q.field 2 2, nb := q.field 6 1, pnl := q.field 4 1, m := q.field 7 1
    tab := BitVec.ofNat 64 (q.field 8 8), scl := BitVec.ofNat 64 (q.field 16 8), out := q.field 27 3, ostr := q.field 30 2
    start := q.field 5 1 }

/-- Where b exceeds 255 or FMTS is not FP16 and the descriptor is misaligned or cannot be read, the descriptor's trap is the one
taken: R283 reads the descriptor before it checks it, and orders no further (DESIGN CHOICE, log 87). -/
def aimgEff (d : SReg) (v : VReg) (a : SCOp) (b : XOp) (s : State) : Eff :=
  let c := s.cur.ctx
  let g := s.agent c
  match s.here.tcsb with
  | none => .trap { cause := .mcfgState }
  | some t =>
    if !regionLimit false (s.sc a) 64 then .trap { cause := .illegalOperand }
    else engChecks (regionTraps false g .load (s.sc a) 64) [(s.sc a, 8)]
      (match s.localWords c (s.sc a) 64 with
      | .error e => .trap e
      | .ok l =>
        let x := aimgDescOf l (s.n b)
        let reserved := fieldAt l 13 1 = 0 ∧ natOfBytes (l.drop 42) = 0
        if !x.ok t ∨ ¬reserved ∨ !regionLimit false x.recPtr x.recArea ∨ !regionLimit false x.outPtr (x.outArea t) then
          .trap { cause := .illegalOperand }
        else engChecks (regionTraps false g .load x.recPtr x.recArea ++ regionTraps false g .store x.outPtr (x.outArea t)) []
          (if s.arrayBusy c then .hold
          else .done ((s.pushCmd c (aimgImage x)).modHere fun y =>
            { (y.addBusy (.s d)).addBusy (.v v) with aimgDst := y.aimgDst ++ [(d, v)] }) .seq))

/-- `aimg` (R283). -/
def execAimg (d : SReg) (v : VReg) (a : SCOp) (b : XOp) (s : State) : Out :=
  head (.aimg d v a b) (needX [scX a, b] [] [.s d, .v v]) free free (aimgEff d v a b) s

/-- What a service of an array command comes to. -/
inductive Svc where
  | done (s : State)
  | fault (t : Trap)
  /-- BW_FULL at a row, with its KIND and cell -/
  | full (s : State) (row kind cell : Nat)
  /-- the array is held (R283) -/
  | wait
  deriving DecidableEq, Repr

/-- The records of a pass: slot and L code are one, and the stride holds a record. -/
def State.readRecs (s : State) (g : Agent) (d : AimgDesc) : Nat → Except Trap (State × List Rec)
  | 0 => .ok (s, [])
  | b + 1 =>
    match State.readRecs s g d b with
    | .error t => .error t
    | .ok (s1, l) =>
      let ptr := BitVec.ofNat 64 (d.recs + b * d.rstr)
      match s1.readRec g ptr with
      | .error t => .error t
      | .ok (s2, len, r) =>
        let same := match l with | x :: _ => x.slot == r.slot && x.lcode == r.lcode | [] => true
        if same && decide (8 + 2 * len ≤ d.rstr) then .ok (s2, l ++ [r])
        else .error { cause := .illegalOperand, fva := ptr }

/-- U (R81): the distinct indices at or above the start, ascending. -/
def atomsOf (l : List Rec) (start : Nat) : List Nat :=
  ((l.filter fun r => !r.esc).flatMap (·.idx)).foldl natInsert [] |>.filter (start ≤ ·)

/-- Columns of the table and their scales. -/
def State.readColumns (s : State) (g : Agent) (t : BitVec 256) (d : AimgDesc) :
    List Nat → Except Trap (State × List (List Byte × Nat))
  | [] => .ok (s, [])
  | j :: rest =>
    let n := rowBytes ((kindOf (tFmtw t)).getD .o4) d.m
    let stride := roundUp n 8
    match s.svcRead g (withVa d.tab (vaOf d.tab + j * stride)) n true with
    | .error e => .error e
    | .ok (s1, col) =>
      match s1.svcRead g (withVa d.scl (vaOf d.scl + 2 * j)) 2 true with
      | .error e => .error e
      | .ok (s2, b) => match State.readColumns s2 g t d rest with
        | .error e => .error e
        | .ok (s3, l) => .ok (s3, (col, natOfBytes b) :: l)

/-- Weights of n elements of FMTW as the planes hold them: O4 as F8A codes (R107), with OTR. -/
def weightCodes (fmt n : Nat) (b : List Byte) : List Nat × Bool :=
  match kindOf fmt with
  | some .o4 => let (l, o) := o4Decode b n; (l.map o4Code, o)
  | some k => ((List.range n).map fun i => streamBits b (i * k.width) k.width, false)
  | none => ([], false)

/-- New weights at a list of positions of a plane, zeros not listed. -/
def putWeights (m : SMap (BitVec 16)) (inside : Nat → Bool) (l : List (Nat × Nat)) : SMap (BitVec 16) :=
  (l.filter fun e => e.2 % 2 ^ 16 != 0).foldl (fun a e => SMap.put a e.1 (BitVec.ofNat 16 e.2)) (m.filter fun e => !inside e.1)

/-- The positions of a panel in rows 0 to n - 1. -/
def inPanel (t : BitVec 256) (p n i : Nat) : Bool := decide (i % 128 / tCols t = p) && decide (i < 128 * n)

/-- Entry of the coefficient matrix, with OF. -/
def coefEntry (r : Rec) (j scale : Nat) : Nat × SW :=
  if r.esc then (0, 0)
  else
    let terms := (r.idx.zip r.coef).filter fun e => e.1 == j
    let (x, f) := mulVal (sumVals rne (terms.map fun e => v16 e.2)).1 (v16 scale)
    let (c, g) := if terms = [] ∨ x.isZero then (0, 0) else roundVal fp16 rne false x
    (c, (f ||| g) &&& fOF)

/-- `aimg` served on its AU (R283). -/
def State.serveAimg (s : State) (c : CtxId) (t : BitVec 256) (q : ACmd) : Svc :=
  let p := coreOf c
  let g := s.agent c
  let d := aimgOfImage q
  let ready := (List.range d.nb).all fun b => s.isFull (localAt p (d.recs + b * d.rstr))
  if !d.ok t then .fault { cause := .illegalOperand }
  else match localFault g .serviceRead d.recPtr d.recArea, localFault g .serviceWrite d.outPtr (d.outArea t) with
  | some e, _ => .fault e
  | _, some e => .fault e
  | _, _ =>
    if !ready then .wait
    else match s.readRecs g d d.nb with
    | .error e => .fault e
    | .ok (s1, recs) =>
      let all := atomsOf recs d.start
      let u := all.take (tRows t)
      match s1.readColumns g t d u with
      | .error e => .fault e
      | .ok (s2, cols) =>
        let codes := cols.map fun e => weightCodes (tFmtw t) d.m e.1
        let weights := (codes.zipIdx).flatMap fun e => (e.1.1.zipIdx).map fun w => (128 * e.2 + d.pnl * tCols t + w.2, w.1)
        let entries := recs.map fun r => (u.zip (cols.map (·.2))).map fun e => coefEntry r e.1 e.2
        let flags := entries.foldl (fun a row => row.foldl (fun b e => b ||| e.2) a) 0
        let row := fun (l : List (Nat × SW)) => bytesAt (l.flatMap fun e => bytesOfNat 2 e.1) 0 (2 * tRows t)
        let s3 := s2.modArr (clusterOf p) fun a => { a with shadow := putWeights a.shadow (inPanel t d.pnl (tRows t)) weights }
        let s4 := (entries.zipIdx).foldl (fun x e => x.putWords p (d.out + e.2 * d.ostr) (row e.1)) s3
        let next := match all.drop (tRows t) with | [] => 256 | _ => u.getLastD 0 + 1
        let bitmap := (recs.zipIdx).foldl (fun a e => a + if e.1.esc then 2 ^ e.2 else 0) 0
        let s5 := s4.quietFlags c (flags ||| flagIf (codes.any (·.2)) fOTR)
        .done (match (s5.ctx c).aimgDst with
          | (sd, vd) :: rest => s5.modCtx c fun x =>
              { (x.deliver (.s sd) (BitVec.ofNat 128 next) 0).deliver (.v vd) (BitVec.ofNat 128 bitmap) 0 with aimgDst := rest }
          | [] => s5)

end Sys2Proof.Machine
end

