-- ==== Sys2Proof/Machine/Csr.lean ====
section
/-! DEFINITION. Control registers: which numbers name one, who may read and write it (R6, R23, R306), what it reads as, and what
a write changes (R210). -/

namespace Sys2Proof.Machine

/-- What a level may do with a register: read and write, write some fields or none of what is readable, read only with a trap on
a write, write only. -/
inductive CsrAccess where
  | rw
  /-- readable; a write changes the RW fields only, if there are any, and never traps (R6) -/
  | fields
  | ro
  | w
  deriving DecidableEq, Repr

def inRange (n lo hi : Nat) : Bool := decide (lo ≤ n) && decide (n ≤ hi)

/-- Task access of the registers 0x000 to 0x0FF and 0x400 to 0x4FF (R23, R73, R122, R198, R222, R238, R240, R90, R311, R368). -/
def csrTask (n : Nat) : Option CsrAccess :=
  if n ∈ [1, 2, 3, 0xA, 0xC, 0xE, 0xF, 0x10] then some .rw
  else if n = 5 then some .fields
  else if n ∈ [4, 6, 7, 8, 9, 0xB, 0xD, 0x11, 0x16, 0x17, 0x42, 0xC0] ∨ inRange n 0x12 0x15 ∨ inRange n 0x20 0x2F ∨
      inRange n 0x30 0x41 ∨ inRange n 0x400 0x4FF then some .ro
  else none

/-- Supervisor access (R306, R307, R325, R340, R357, R368). -/
def csrSup (n : Nat) : Option CsrAccess :=
  if n ∈ [1, 2, 3, 0xA, 0xC, 0xE, 0xF, 0x10, 0xC0] ∨ inRange n 0x400 0x4FF then some .rw
  else if n ∈ [4, 5, 6, 7, 8, 9, 0xB, 0xD, 0x11, 0x16, 0x17] ∨ inRange n 0x12 0x15 ∨ inRange n 0x20 0x2F then some .fields
  else if inRange n 0x30 0x42 then some .ro
  else if inRange n 0x100 0x115 ∨ n = 0x117 ∨ n = 0x121 ∨ inRange n 0x130 0x137 ∨ n = 0x139 ∨ inRange n 0x140 0x14F ∨
      inRange n 0x160 0x168 ∨ n ∈ [0x16A, 0x1C0, 0x1C8, 0x1C9, 0x1CB] then some .rw
  else if n ∈ [0x138, 0x169] then some .fields
  else if n ∈ [0x116, 0x120, 0x150, 0x1C4] then some .w
  else if n = 0x122 ∨ inRange n 0x180 0x1BF ∨ n = 0x1CA then some .ro
  else none

/-- Hypervisor access: the supervisor's, and 0x200 to 0x3FF (R340, R372). -/
def csrHyp (n : Nat) : Option CsrAccess :=
  match csrSup n with
  | some a => some a
  | none =>
    if inRange n 0x200 0x20C ∨ inRange n 0x210 0x213 ∨ n = 0x220 ∨ inRange n 0x280 0x2FF ∨ n ∈ [0x250, 0x251] then some .rw
    else if n = 0x221 ∨ inRange n 0x240 0x24F then some .fields
    else none

/-- A number that names a register (R210). -/
def csrNamed (n : Nat) : Bool := (csrHyp n).isSome

def csrAccess (l : Level) (n : Nat) : Option CsrAccess :=
  match l with | .task => csrTask n | .sup => csrSup n | .hyp => csrHyp n

/-- A read is allowed. -/
def csrMayRead (l : Level) (n : Nat) : Bool :=
  match csrAccess l n with | some .w => false | some _ => true | none => false
/-- A write is allowed. -/
def csrMayWrite (l : Level) (n : Nat) : Bool :=
  match csrAccess l n with | some .ro => false | some _ => true | none => false

/-- PRIV of an access to a named register (R23, R306). `set` marks csrset and csrclr, which also read. -/
def csrPriv (l : Level) (n : Nat) (writes set : Bool) : Bool :=
  csrNamed n && ((writes && !csrMayWrite l n) || ((set || !writes) && !csrMayRead l n))

def maskWord (lo n : Nat) : Word := BitVec.ofNat 64 ((2 ^ n - 1) * 2 ^ lo)
/-- Bits [lo + n - 1 : lo] of a register come from the written word. -/
def putBits (old v : Word) (lo n : Nat) : Word := (old &&& ~~~(maskWord lo n)) ||| (v &&& maskWord lo n)

/-! ## Reads -/

/-- Status of a circular buffer (R240). -/
def Buffer.status (b : Buffer) : Word :=
  BitVec.ofNat 64 (b.free % 512 + 2 ^ 9 * (b.filled % 512) + 2 ^ 18 * (b.aidx % max 1 b.count) +
    2 ^ 26 * (b.tidx % max 1 b.count) + 2 ^ 34 * b.eng.toNat + 2 ^ 35 * b.cfg.toNat)

/-- Weights with a written 0 read as 1 (R90). -/
def mqwRead (m : BitVec 32) : Nat :=
  (List.range 8).foldl (fun a i => a + 2 ^ (4 * i) * mqwOf m i) 0

/-- Waves of a queue that have not placed all their groups (R308, R311). -/
def Part.depth (q : Part) (n : Nat) : Nat := (q.waves.filter fun w => w.queue == n).length
def Part.queueCfg (q : Part) (n : Nat) : Nat := (SMap.look q.qcfg n (0x0C : BitVec 8)).toNat % 128
/-- SLOT of a queue: a written 0b00 reads and acts as 0b11. -/
def Part.queueSlots (q : Part) (n : Nat) : Nat := let b := bitsOf (q.queueCfg n) 2 2; if b = 0 then 3 else b
def Part.queuePrio (q : Part) (n : Nat) : Nat := bitsOf (q.queueCfg n) 4 3
def Part.qcfgWord (q : Part) (n : Nat) : Nat :=
  bitsOf (q.queueCfg n) 0 2 + 4 * q.queueSlots n + 16 * q.queuePrio n + 2 ^ 8 * min 32 (q.depth n)

/-- HEAD, OVR and TAIL of a ring (R325). -/
def ringWord (head ovr tail : Nat) : Nat := head % 2 ^ 16 + 2 ^ 16 * (ovr % 2 ^ 16) + 2 ^ 32 * (tail % 2 ^ 16)

/-- The fenced bit of a basin register reads whether its clusters are fenced (R341). -/
def State.basinWord (s : State) (q : PartId) (k : Nat) : Nat :=
  let b := (SMap.look (s.part q).basins k (0 : BitVec 16)).toNat % 2 ^ 15
  b + 2 ^ 15 * ((s.basinClusters q k).any fun j => (s.cluster j).fenced).toNat

def Delay.placeWord (d : Delay) : Nat := if d.valid then d.place % 2 ^ 22 + 2 ^ 22 + 2 ^ 32 * (d.count % 2 ^ 32) else 0

def Port.word (p : Port) : Nat :=
  p.up.toNat + 2 * p.degr.toNat + 4 * (p.peerPkg % 2 ^ 12) + 2 ^ 14 * (p.peerPort % 16) + 2 ^ 32 * (p.errcnt % 2 ^ 32)

/-- A register of the context (0x001 to 0x02F). -/
def State.csrContext (s : State) (c : CtxId) (n : Nat) : Word :=
  let x := s.ctx c
  let r := x.csr
  match n with
  | 0x01 => r.sw.setWidth 64
  | 0x02 => r.ten.setWidth 64
  | 0x03 => r.cbase
  | 0x04 => r.hkey.setWidth 64
  | 0x05 => r.mode
  | 0x06 => BitVec.ofNat 64 (s.budgetLeft c)
  | 0x07 => r.taskid.setWidth 64
  | 0x08 => BitVec.ofNat 64 s.gtc
  | 0x09 => r.lbanks.setWidth 64
  | 0x0A => r.gjto.setWidth 64
  | 0x0B => r.pconf
  | 0x0C => r.dropmag
  | 0x0D => r.wds
  | 0x0E => r.lpcnt
  | 0x0F => r.lpbeg
  | 0x10 => r.lpend
  | 0x11 => r.dsig.setWidth 64
  | 0x12 => x.breg 0
  | 0x13 => x.breg 1
  | 0x14 => x.breg 2
  | 0x15 => x.breg 3
  | 0x16 => r.ccown
  | 0x17 => r.cbown.setWidth 64
  | _ => (SMap.look (s.core (coreOf c)).buffers (n - 0x20) {}).status

/-- A register of the package seen at every level (0x030 to 0x042). -/
def State.csrHarvest (s : State) (g : PkgId) (n : Nat) : Word :=
  if n < 0x40 then SMap.look (s.pkg g).hmapc (n - 0x30) 0
  else if n < 0x42 then (s.die (2 * g + (n - 0x40))).hmapk
  else ((s.pkg g).pkgid.getD (BitVec.ofNat 12 g)).setWidth 64

/-- A supervisor register (0x100 to 0x1FF). -/
def State.csrSupervisor (s : State) (c : CtxId) (n : Nat) : Word :=
  let p := coreOf c
  let q := s.part (s.partOf p)
  let k := s.core p
  let d := s.die (dieOf p)
  let w := fun (x : Nat) => BitVec.ofNat 64 x
  if n < 0x110 then w (q.qcfgWord (n - 0x100))
  else if inRange n 0x140 0x14F then w (s.basinWord (s.partOf p) (n - 0x140))
  else if inRange n 0x160 0x163 then SMap.look q.bpa (n - 0x160) 0
  else if inRange n 0x164 0x167 then SMap.look q.bpc (n - 0x164) 0
  else if inRange n 0x180 0x18F then w (SMap.look k.delays (n - 0x180) {}).placeWord
  else if inRange n 0x190 0x19F then w (SMap.look k.delays (n - 0x190) {}).transit
  else if inRange n 0x1A0 0x1AF then w (SMap.look k.delays (n - 0x1A0) {}).wait
  else if inRange n 0x1B0 0x1BF then w (SMap.look k.delays (n - 0x1B0) {}).run
  else match n with
  | 0x110 => k.hbanks.setWidth 64
  | 0x111 => q.hmode.setWidth 64
  | 0x112 => k.hcbase
  | 0x113 => q.hbudget
  | 0x114 => k.hccown
  | 0x115 => k.hcbown.setWidth 64
  | 0x117 => k.hhkey.setWidth 64
  | 0x121 => q.darg
  | 0x122 => w (q.aslot % 2 + 2 * q.dcmd.isSome.toNat)
  | 0x130 => q.ptroot
  | 0x131 => q.tvec
  | 0x132 => k.sabase
  | 0x133 => (s.cluster (clusterOf p)).afbase
  | 0x134 => w (s.cluster (clusterOf p)).frameCount
  | 0x135 => q.saprot
  | 0x136 => q.crcb
  | 0x137 => q.elogb
  | 0x138 => w (ringWord d.elogHead d.elogOvr d.elogTail)
  | 0x139 => q.elogm
  | 0x168 => d.trb
  | 0x169 => w (ringWord d.trpHead d.trpOvr d.trpTail)
  | 0x16A => q.trctl
  | 0x1C0 => q.czt ||| (if q.cztFail then maskWord 63 1 else 0)
  | 0x1C8 => d.dumpb
  | 0x1C9 => d.dumpp
  | 0x1CA => w (min 4 d.dumps.length + 8 * d.dumpFull.toNat + 2 ^ 16 * (d.dumpLost % 2 ^ 16))
  | 0x1CB => q.dumpctl
  | _ => 0

/-- A hypervisor register (0x200 to 0x3FF); per-partition ones are those of the bank that HPSEL selects. -/
def State.csrHypervisor (s : State) (c : CtxId) (n : Nat) : Word :=
  let g := pkgOf (coreOf c)
  let x := s.pkg g
  let q := s.part (16 * g + x.hpsel)
  let w := fun (x : Nat) => BitVec.ofNat 64 x
  if inRange n 0x205 0x20C then SMap.look q.pmr (n - 0x205) 0
  else if inRange n 0x240 0x24F then w (SMap.look x.ports (n - 0x240) {}).word
  else if inRange n 0x280 0x2FF then
    (s.cluster (clusterAt g ((n - 0x280) % 16) ((n - 0x280) / 16))).susp.setWidth 64
  else match n with
  | 0x200 => w x.hpsel
  | 0x201 => q.pcl0
  | 0x202 => q.pcl1
  | 0x203 => q.phbm.setWidth 64
  | 0x204 => q.pqm.setWidth 64
  | 0x210 => w x.threshold
  | 0x211 => (s.die (2 * g)).quar
  | 0x212 => (s.die (2 * g + 1)).quar
  | 0x213 => x.pfth.setWidth 64
  | 0x220 => x.hdrop
  | 0x221 => w (x.tugbnd / 65536 * 65536 % 2 ^ 48 + 2 ^ 63 * x.tugActive.toNat)
  | 0x250 => x.zlrta.setWidth 64
  | 0x251 => (SMap.look x.routes x.zlrta.toNat (0 : BitVec 16)).setWidth 64
  | _ => 0

/-- What a register reads as. -/
def State.csrRead (s : State) (c : CtxId) (n : Nat) : Word :=
  if n = 0xC0 then BitVec.ofNat 64 (mqwRead (s.cluster (clusterOf (coreOf c))).mqw)
  else if n < 0x30 then s.csrContext c n
  else if n < 0x100 then s.csrHarvest (pkgOf (coreOf c)) n
  else if n < 0x200 then s.csrSupervisor c n
  else if n < 0x400 then s.csrHypervisor c n
  else SMap.look (s.part (s.partOfCtx c)).wc (n - 0x400) 0

/-! ## Writes -/

/-- What a write comes to: the state, an operand limit, or a wait. -/
inductive CsrRes where
  | done (s : State)
  | bad
  | hold
  deriving DecidableEq, Repr

/-- A step that follows at once. -/
def State.soon (s : State) (i : Instr) : State := { s with agenda := .event i :: s.agenda }

/-- No task of a part is placed, launched or handler (R338). -/
def State.partIdle (s : State) (q : PartId) : Bool :=
  ((s.part q).groups.all fun e => e.2.members.all e.2.ended.contains) &&
    s.ctxs.all fun e => decide (s.partOf (coreOf e.1) ≠ q) || match e.2.kind with
      | .handler _ => decide (e.2.run ≠ .running ∧ e.2.run ≠ .stopped)
      | _ => true

/-- Whether a die-store window range lies in a part's protected range (R325). -/
def Part.savesAt (q : Part) (w : Word) (n : Nat) : Bool :=
  decide (windowOfRange (vaOf w) n = some .die) && q.protectsRange (dieOff w) n

/-- The save areas and frames set for a part's units, and the dump areas that lie in its range, lie in a new SAPROT value. -/
def State.saprotCovers (s : State) (q : PartId) (v : Word) : Bool :=
  let x : Part := { s.part q with saprot := v }
  (s.cores.all fun e => decide (s.partOf e.1 ≠ q) || decide (e.2.sabase = 0) || x.savesAt e.2.sabase 16384) &&
    (s.clusters.all fun e => decide (s.partOf (8 * e.1) ≠ q) || decide (e.2.afbase = 0) ||
      x.savesAt e.2.afbase (Config.frameBytes * e.2.frameCount)) &&
    s.dies.all fun e =>
      let a := bitsOf e.2.dumpb.toNat 0 28
      let n := bitsOf e.2.dumpb.toNat 32 28
      decide (e.1 / 2 ≠ q / 16) || decide (n = 0) || !(s.part q).protectsRange a n || x.protectsRange a n

/-- A write of a context register. -/
def State.csrPutContext (s : State) (c : CtxId) (n : Nat) (v : Word) : State :=
  match n with
  | 0x01 =>
    -- flag settings of earlier heads come before the write (R210)
    s.modCtx c fun x => { x with
      pend := x.pend.map fun p => { p with flags := 0 }
      csr := { x.csr with sw := v.setWidth 7 } }
  | 0x02 => s.modCsr c fun r => { r with ten := v.setWidth 7 }
  | 0x03 => s.modCsr c fun r => { r with cbase := v &&& ~~~(7 : Word) }
  | 0x05 => s.modCsr c fun r => { r with chk := v.getLsbD 0 }
  | 0x0A => s.modCsr c fun r => { r with gjto := v.setWidth 32 }
  | 0x0C => s.modCsr c fun r => { r with dropmag := v }
  | 0x0E => s.modCsr c fun r => { r with lpcnt := v }
  | 0x0F => s.modCsr c fun r => { r with lpbeg := v }
  | 0x10 => s.modCsr c fun r => { r with lpend := v }
  | _ => s

/-- Basin k's new rectangle lies inside the part and meets no other valid one (R341). -/
def State.basinOk (s : State) (q : PartId) (k : Nat) (b : Nat) : Bool :=
  !bitOf b 14 ||
    (decide (bitsOf b 0 4 ≤ bitsOf b 7 4) && decide (bitsOf b 4 3 ≤ bitsOf b 11 3) &&
      (basinRect b (q / 16)).all fun j => (s.part q).owns j &&
        ((List.range 16).all fun i => decide (i = k) || !(s.basinClusters q i).contains j))

/-- A write of a supervisor register. -/
def State.csrPutSupervisor (s : State) (c : CtxId) (n : Nat) (v : Word) : CsrRes :=
  let p := coreOf c
  let qi := s.partOf p
  let q := s.part qi
  let part := fun (f : Part → Part) => CsrRes.done (s.modPart qi f)
  let core := fun (f : Core → Core) => CsrRes.done (s.modCore p f)
  let die := fun (f : Die → Die) => CsrRes.done (s.modDie (dieOf p) f)
  if n < 0x110 then part fun x => { x with qcfg := SMap.put x.qcfg (n - 0x100) (v.setWidth 7 |>.setWidth 8) }
  else if inRange n 0x140 0x14F then
    let b := v.toNat % 2 ^ 15
    if !s.basinOk qi (n - 0x140) b then .bad
    else if (s.basinClusters qi (n - 0x140) ++ (if bitOf b 14 then basinRect b (qi / 16) else [])).any fun j => (s.cluster j).fenced
    then .done s
    else part fun x => { x with basins := SMap.put x.basins (n - 0x140) (BitVec.ofNat 16 b) }
  else if inRange n 0x160 0x163 then part fun x => { x with bpa := SMap.put x.bpa (n - 0x160) v }
  else if inRange n 0x164 0x167 then part fun x => { x with bpc := SMap.put x.bpc (n - 0x164) (v &&& maskWord 0 34) }
  else match n with
  | 0x110 =>
    let b : BitVec 12 := v.setWidth 12
    if (List.range 12).any fun i => b.getLsbD i && !((s.core p).banks.getD i .off == .off) &&
        !((s.core p).banks.getD i .off == .handler) then .bad
    else
      let s1 := (List.range 12).foldl (fun t i =>
        if b.getLsbD i && ((t.core p).banks.getD i .off == .off) then (t.clearBank p i).setBank p i .handler else t) s
      .done ((s1.modCore p fun x => { x with hbanks := b }).trimHandlerBanks p)
  | 0x111 => part fun x => { x with hmode := v.setWidth 2 }
  | 0x112 => core fun x => { x with hcbase := v }
  | 0x113 => part fun x => { x with hbudget := v }
  | 0x114 => core fun x => { x with hccown := v }
  | 0x115 => core fun x => { x with hcbown := v.setWidth 16 }
  | 0x117 => core fun x => { x with hhkey := v.setWidth 16 }
  | 0x116 =>
    match bitsOf v.toNat 0 2 with
    | 0 => .done s
    | 1 => .done (s.soon (.inboxRepresent p))
    | 2 => .done (s.soon (.inboxDiscard p))
    | _ => .bad
  | 0x120 =>
    let k := v.toNat % 16
    if v.toNat / 16 ≠ 0 ∨ k = 0 ∨ 5 < k then .bad
    else if q.dcmd.isSome then .hold
    else part fun x => { x with dcmd := some (k, x.darg, s.cycle, (s.ctx c).level == .hyp) }
  | 0x121 => part fun x => { x with darg := v }
  | 0x130 => part fun x => { x with ptroot := v &&& maskWord 16 32 }
  | 0x131 => part fun x => { x with tvec := v }
  | 0x132 =>
    let a := v &&& ~~~(0x3FFF : Word)
    if q.savesAt a 16384 then core fun x => { x with sabase := a } else .bad
  | 0x133 =>
    let a := v &&& ~~~(0x1FFF : Word)
    if q.savesAt a (Config.frameBytes * (s.cluster (clusterOf p)).frameCount) then
      .done (s.modCluster (clusterOf p) fun x => { x with afbase := a })
    else .bad
  | 0x134 =>
    let m : BitVec 4 := v.setWidth 4
    let k : Cluster := { s.cluster (clusterOf p) with afcnt := m }
    if decide (8 < m.toNat) || (decide (k.afbase ≠ 0) && !q.savesAt k.afbase (Config.frameBytes * k.frameCount)) then .bad
    else .done (s.setCluster (clusterOf p) k)
  | 0x135 =>
    let a := v &&& (maskWord 14 14 ||| maskWord 46 14)
    if s.saprotCovers qi a then part fun x => { x with saprot := a } else .bad
  | 0x136 => part fun x => { x with crcb := v &&& maskWord 3 45 }
  | 0x137 => part fun x => { x with elogb := v &&& (maskWord 5 21 ||| maskWord 28 4) }
  | 0x138 => die fun x => { x with elogTail := bitsOf v.toNat 32 16 }
  | 0x139 => part fun x => { x with elogm := v &&& (maskWord 0 22 ||| maskWord 32 10 ||| maskWord 63 1) }
  | 0x150 =>
    if !bcmdOk v then .bad
    else
      let k : Fin 16 := ⟨v.toNat % 16, Nat.mod_lt _ (by decide)⟩
      .done (s.soon (if bitsOf v.toNat 4 4 = 1 then .unfence qi k else .reset qi k))
  | 0x168 => die fun x => { x with trb := v &&& (maskWord 5 21 ||| maskWord 28 4) }
  | 0x169 => die fun x => { x with trpTail := bitsOf v.toNat 32 16 }
  | 0x16A => part fun x => { x with trctl := v &&& (maskWord 0 4 ||| maskWord 16 16) }
  | 0x1C0 => .done ((s.modPart qi fun x => { x with cztPending := some (v, c) }).soon (.decodeTableLoad qi))
  | 0x1C4 => .done (if v.getLsbD 0 then s.soon (.delayTableClear p) else s)
  | 0x1C8 =>
    let a := v &&& (maskWord 12 16 ||| maskWord 44 16)
    let n := bitsOf a.toNat 32 28
    if n = 0 ∨ q.protectsRange (bitsOf a.toNat 0 28) n then die fun x => { x with dumpb := a } else .bad
  | 0x1C9 => die fun x => { x with dumpp := v &&& maskWord 0 28, dumpFull := false }
  | 0x1CB => part fun x => { x with dumpctl := v &&& maskWord 0 3 }
  | _ => .done s

/-- A memory range stays below 2^48 and shares no address with another partition's (R382). What a range does above the 640 GiB
that the package has, the spec does not say: the model keeps bytes there as anywhere (DESIGN CHOICE, log 64). -/
def State.pmrOk (s : State) (g : PkgId) (bank : Nat) (v : Word) : Bool :=
  let base := bitsOf v.toNat 0 32
  let size := bitsOf v.toNat 32 31
  decide (base + size ≤ 2 ^ 32) &&
    ((List.range 16).all fun b => decide (b = bank) || ((List.range 8).all fun k =>
      let r := (SMap.look (s.part (16 * g + b)).pmr k (0 : Word)).toNat
      decide (bitsOf r 32 31 = 0) || decide (size = 0) || decide (base + size ≤ bitsOf r 0 32) ||
        decide (bitsOf r 0 32 + bitsOf r 32 31 ≤ base)))

/-- No other partition of the package has a bit of a set (R338). -/
def State.setFree (s : State) (g : PkgId) (bank : Nat) (f : Part → Word) (v : Word) : Bool :=
  (List.range 16).all fun b => decide (b = bank) || decide (f (s.part (16 * g + b)) &&& v = 0)

/-- A cluster's score at or above the threshold quarantines it (R352). -/
def State.checkScore (s : State) (k : ClusterId) : State :=
  if (s.pkg (pkgOfCluster k)).threshold ≤ (s.cluster k).susp.toNat then s.quarantine k 1 else s

/-- A write of a hypervisor register. -/
def State.csrPutHypervisor (s : State) (c : CtxId) (n : Nat) (v : Word) : CsrRes :=
  let g := pkgOf (coreOf c)
  let bank := (s.pkg g).hpsel
  let qi := 16 * g + bank
  let pkg := fun (f : Package → Package) => CsrRes.done (s.modPkg g f)
  let resource := fun (ok : Bool) (f : Part → Part) =>
    if s.partIdle qi && ok then CsrRes.done (s.modPart qi f) else .bad
  if inRange n 0x205 0x20C then
    let a := v &&& maskWord 0 63
    resource (s.pmrOk g bank a) fun x => { x with pmr := SMap.put x.pmr (n - 0x205) a }
  else if inRange n 0x280 0x2FF then
    let k := clusterAt g ((n - 0x280) % 16) ((n - 0x280) / 16)
    .done ((s.modCluster k fun x => { x with susp := v.setWidth 8 }).checkScore k)
  else match n with
  | 0x200 => pkg fun x => { x with hpsel := v.toNat % 16 }
  | 0x201 => resource (s.setFree g bank (fun q => q.pcl0) v) fun x => { x with pcl0 := v }
  | 0x202 => resource (s.setFree g bank (fun q => q.pcl1) v) fun x => { x with pcl1 := v }
  | 0x203 => resource (s.setFree g bank (fun q => q.phbm.setWidth 64) (v &&& maskWord 0 8)) fun x =>
      { x with phbm := v.setWidth 8 }
  | 0x204 => resource (s.setFree g bank (fun q => q.pqm.setWidth 64) (v &&& maskWord 0 16)) fun x =>
      { x with pqm := v.setWidth 16 }
  | 0x210 =>
    let s1 := s.modPkg g fun x => { x with suspth := v.setWidth 8 }
    .done ((s1.clusters.map (·.1)).foldl (fun t k => if pkgOfCluster k = g then t.checkScore k else t) s1)
  | 0x211 => .done (s.modDie (2 * g) fun x => { x with quar := x.quar ||| v })
  | 0x212 => .done (s.modDie (2 * g + 1) fun x => { x with quar := x.quar ||| v })
  | 0x213 => pkg fun x => { x with pfth := v.setWidth 32 }
  | 0x220 => .done (s.soon (.bankDrop g v))
  | 0x250 => pkg fun x => { x with zlrta := v.setWidth 12 }
  | 0x251 => pkg fun x => { x with routes := SMap.put x.routes x.zlrta.toNat (v.setWidth 16) }
  | _ => .done s

/-- A write of a register: RW fields only (R210). -/
def State.csrWrite (s : State) (c : CtxId) (n : Nat) (v : Word) : CsrRes :=
  if n = 0xC0 then .done (s.modCluster (clusterOf (coreOf c)) fun k => { k with mqw := v.setWidth 32 })
  else if n < 0x30 then .done (s.csrPutContext c n v)
  else if n < 0x100 then .done s
  else if n < 0x200 then s.csrPutSupervisor c n v
  else if n < 0x400 then s.csrPutHypervisor c n v
  else .done (s.setWc (s.partOfCtx c) (n - 0x400) v)

/-! ## The heads (R210) -/

/-- The number that a literal names; none outside 0 to 0xFFF. -/
def csrNum (k : Lit) : Option Nat := if 0 ≤ k.toInt ∧ k.toInt ≤ 0xFFF then some k.toNat else none

/-- PRIV of a control-register head, decided before ILLEGAL_OPERAND. -/
def State.csrDenied (s : State) (c : CtxId) (k : Lit) (writes set : Bool) : Bool :=
  match csrNum k with
  | none => false
  | some n => csrPriv (s.ctx c).level n writes set

/-- The number names a register; a buffer's status is read by its owner only (R240). -/
def State.csrOperandOk (s : State) (c : CtxId) (k : Lit) : Bool :=
  match csrNum k with
  | none => false
  | some n => csrNamed n && (!inRange n 0x20 0x2F || (s.ctx c).csr.cbown.getLsbD (n - 0x20))

def csrEarly (k : Lit) (writes set : Bool) (s : State) : Option Cause :=
  if s.csrDenied s.cur.ctx k writes set then some .priv else none

def csrLimit (k : Lit) (s : State) : Option Cause := if s.csrOperandOk s.cur.ctx k then none else some .illegalOperand

/-- A csrr of SW waits for earlier heads' flags. One of a wave counter at task level is an acquire (R311). -/
def readCsr (d : SReg) (k : Lit) (s : State) : Eff :=
  let n := (csrNum k).getD 0
  let read := fun (s : State) => Eff.done (s.setS 2 d (s.csrRead s.cur.ctx n)) .seq
  if n = 1 ∧ s.here.pend.any (fun p => p.flags != 0) then .hold
  else if 0x400 ≤ n ∧ s.here.level = .task then
    if s.acqPending s.cur.ctx then .hold else syncHold false read s
  else read s

/-- What a write of `f old a` comes to. SW holds earlier heads' flags when it is read. -/
def State.csrPut (s : State) (f : Word → Word → Word) (k : Lit) (a : XOp) : CsrRes :=
  let n := (csrNum k).getD 0
  let flags := s.here.pend.foldl (fun x p => x ||| p.flags) 0
  let old := if n = 1 then s.csrRead s.cur.ctx 1 ||| flags.setWidth 64 else s.csrRead s.cur.ctx n
  s.csrWrite s.cur.ctx n (f old (s.x a))

def CsrRes.fits : CsrRes → Bool
  | .bad => false
  | _ => true

/-- The limits of a write (R165 step 4): the number, then the value. -/
def csrWriteLimit (f : Word → Word → Word) (k : Lit) (a : XOp) (s : State) : Option Cause :=
  match csrLimit k s with
  | some z => some z
  | none => operandOk [{ ops := [a], ok := fun s => (s.csrPut f k a).fits }] s

/-- A write takes effect as its head issues. One of WCk that satisfies a launch dependence is no release: R133 lists no `csrw`, so it
does not wait for the context's earlier stores (DESIGN CHOICE, log 83). -/
def writeCsr (f : Word → Word → Word) (k : Lit) (a : XOp) (s : State) : Eff :=
  match s.csrPut f k a with
  | .done s1 => .done s1 .seq
  | .bad => .trap { cause := .illegalOperand }
  | .hold => .hold

end Sys2Proof.Machine
end

