-- ==== Sys2Proof/Machine/Array.lean ====
section
/-! DEFINITION. The matrix array at work: products and accumulation (R96-R98), the Breakwater (R99-R101), the drain (R103-R105),
the service of each command (R268-R277), arbitration (R90), and scan-out and restore (R107, R330). -/

namespace Sys2Proof.Machine

/-! ## Products (R96, R97) -/

/-- A window product: an integer with its inexactness, a NaN (`bad`: infinity times zero), or an infinity. -/
inductive WProd where
  | fin (z : Int) (inexact : Bool)
  | nan (bad : Bool)
  | inf (neg : Bool)
  deriving DecidableEq, Repr

def windowProduct (ew : Int) (a b : FVal) : WProd :=
  match (mulVal a b).1 with
  | .nan _ => .nan (!a.isNan && !b.isNan)
  | .inf n => .inf n
  | .fin n m e => let (z, ix) := roundInt rne n m (e - ew); .fin z ix

/-- A cell that receives a special product: 1 NaN, 2 +inf, 3 -inf. -/
def ACell.special (c : ACell) (kind : BitVec 2) (bad : Bool) : ACell :=
  { c with sp := if c.sp == 0 || c.sp == kind then kind else 1, nv := c.nv || bad, seen := c.seen ||| seenOf kind }

/-- The NV that a cell's drain raises: an invalid product, or both infinities, in whatever order its products came (R97, R106). -/
def ACell.invalid (c : ACell) : Bool := c.nv || c.seen == 3

/-! ## The Breakwater (R99-R101) -/

/-- What the rows of a stream have done so far: entries, MSTAT, the spills of this row, and how many came before. -/
structure BwState where
  bw : List (Nat × Int)
  mstat : Word
  spills : List (List (Nat × Int))
  count : Nat
  deriving DecidableEq, Repr

/-- KIND of an event that the Breakwater cannot take: 0 full, 1 count overflow, 2 single-product overflow, 3 ring full. -/
def BwState.put (r : BwState) (x : Nat) (c : Int) : Except Nat BwState :=
  if 511 < c.natAbs then .error 2
  else match r.bw.find? fun e => e.1 == x with
    | some e =>
      if (e.2 + c).natAbs ≤ 511 then .ok { r with bw := r.bw.map fun f => if f.1 = x then (x, f.2 + c) else f } else .error 1
    | none =>
      if r.bw.length < Config.breakwaterEntries then
        .ok { r with bw := r.bw ++ [(x, c)], mstat := mstatSetBwmax r.mstat (r.bw.length + 1) }
      else .error 0

/-- 64 entries leave: for a count overflow the cell's own first, then the oldest. -/
def BwState.spill (r : BwState) (kind x : Nat) : BwState :=
  let own := if kind = 1 then r.bw.filter fun e => e.1 == x else []
  let rest := if kind = 1 then r.bw.filter fun e => e.1 != x else r.bw
  let n := 64 - own.length
  { r with bw := rest.drop n, spills := r.spills ++ [own ++ rest.take n], mstat := mstatAddSpill (r.mstat ||| mSpilled) }

/-- A carry event (R99, R101). -/
def BwState.carry (r0 : BwState) (trapMode : Bool) (cap x : Nat) (c : Int) : Except Nat BwState :=
  let r : BwState := { r0 with mstat := r0.mstat ||| mBwused }
  match r.put x c with
  | .ok q => .ok q
  | .error k =>
    if k = 2 ∨ trapMode then .error k
    else if cap ≤ r.count + r.spills.length then .error 3
    else (r.spill k x).put x c

/-! ## Streams (R88, R98) -/

/-- Spills that a context's ring holds. -/
def ringSpills (t : BitVec 256) : Nat := 2 ^ (tSrlog t + 10) / 256

/-- One product to one cell. -/
def addProduct (t : BitVec 256) (x : Nat) (st : BwState × ACell) (p : WProd) : Except Nat (BwState × ACell) :=
  let (r, c) := st
  match p with
  | .nan bad => .ok ({ r with mstat := r.mstat ||| mSpec }, c.special 1 bad)
  | .inf n => .ok ({ r with mstat := r.mstat ||| mSpec }, c.special (if n then 3 else 2) false)
  | .fin z ix =>
    let r1 : BwState := if ix then { r with mstat := r.mstat ||| mPrnd } else r
    if c.sp != 0 then .ok (r1, c)
    else
      let s := c.a.toInt + z
      let a := wrapTo 24 s
      let k := (s - signedOf 24 a) / 2 ^ 24
      let c1 : ACell := { c with a := BitVec.ofNat 24 a }
      if k = 0 then .ok (r1, c1) else (r1.carry (tTrapMode t) (ringSpills t) x k).map fun q => (q, c1)

def addProducts (t : BitVec 256) (x : Nat) : List WProd → BwState × ACell → Except Nat (BwState × ACell)
  | [], st => .ok st
  | p :: rest, st => match addProduct t x st p with
    | .error k => .error k
    | .ok st1 => addProducts t x rest st1

/-- The kind of the weights as the planes hold them. -/
def weightKind (t : BitVec 256) : Kind := if tFmtw t = 4 then .flt f8a else (kindOf (tFmtw t)).getD .o4

/-- A streamed row into the cells of its panel, ascending; the failing KIND with its cell. -/
def streamCells (t : BitVec 256) (a : MArray) (row : Nat) (vals : List FVal) :
    List Nat → BwState × SMap ACell → Except (Nat × Nat) (BwState × SMap ACell)
  | [], st => .ok st
  | col :: rest, (r, cells) =>
    let x := 128 * row + col
    let prods := (vals.zipIdx).map fun e =>
      windowProduct (tWlsb t) e.1 (valF ((weightKind t).value (a.wAct e.2 col)))
    match addProducts t x prods (r, SMap.look cells x {}) with
    | .error k => .error (k, x)
    | .ok (r1, c) => streamCells t a row vals rest (r1, if c = {} then SMap.drop cells x else SMap.put cells x c)

/-- The columns of a panel. -/
def panelCols (t : BitVec 256) (p : Nat) : List Nat := (List.range (tCols t)).map (p * tCols t + ·)

/-- A spill of 64 entries in the ring (R101). -/
def State.writeSpill (s : State) (c : CtxId) (t : BitVec 256) (n : Nat) (l : List (Nat × Int)) : State :=
  let b := bytesAt (l.flatMap fun e => bytesOfNat 4 (bwWord e)) 0 256
  let k := clusterOf (coreOf c)
  (List.range 32).foldl (fun u i =>
    u.engPut (scratchAt k (s.ctx c).csr.hkey (tSrbase t + 256 * n + 8 * i)) (bytesAt b (8 * i) 8)) s

/-- Row i of a stream is added whole, or not at all (R99). -/
def State.streamRow (s : State) (c : CtxId) (t : BitVec 256) (p row : Nat) (vals : List FVal) :
    Except (Nat × Nat) State :=
  let k := clusterOf (coreOf c)
  let a := (s.cluster k).arr
  let r0 : BwState := { bw := a.bw, mstat := (s.ctx c).mstat, spills := [], count := a.spills }
  match streamCells t a row vals (panelCols t p) (r0, a.cells) with
  | .error e => .error e
  | .ok (r, cells) =>
    let s1 := (s.modArr k fun b => { b with cells := cells, bw := r.bw, spills := a.spills + r.spills.length }).modCtx c fun x =>
      { x with mstat := r.mstat }
    .ok ((r.spills.zipIdx).foldl (fun u e => u.writeSpill c t (a.spills + e.2) e.1) s1)

/-! ## Service of the commands -/

/-- `mstrm` from row i on: n more rows (R94, R100, R274). -/
def State.serveRows (s : State) (c : CtxId) (t : BitVec 256) (q : ACmd) : Nat → Nat → Svc
  | 0, _ => .done s
  | n + 1, i =>
    let len := if q.flag 1 then min (tRows t) (q.field 7 1) else tRows t
    let k := (kindOf (tFmts t)).getD .o4
    let src := BitVec.ofNat 64 (q.field 8 8)
    match s.svcRead (s.agent c) (withVa src (vaOf src + i * q.field 2 2)) (rowBytes k len) true with
    | .error e => .fault e
    | .ok (s1, b) =>
      let (vals, otr) := rowValues k b len
      let row := (List.range (tRows t)).map fun j => valF (vals.getD j (.int 0))
      match s1.streamRow c t (q.field 4 1) (q.field 5 1 + i) row with
      | .error (kind, cell) => .full s i kind cell
      | .ok s2 => State.serveRows (s2.quietFlags c (flagIf otr fOTR)) c t q n (i + 1)

/-- The columns of a tile (R272): column c from its line; the bits of a bitmap say which weights are stored. -/
def State.readTile (s : State) (g : Agent) (t : BitVec 256) (src : Word) (stride : Nat) (bitmap : Option (List Byte)) :
    Nat → Except Trap (State × List (List Nat) × Bool)
  | 0 => .ok (s, [], false)
  | c + 1 =>
    match State.readTile s g t src stride bitmap c with
    | .error e => .error e
    | .ok (s1, l, otr) =>
      let r := tRows t
      let stored := match bitmap with
        | none => List.range r
        | some b => (List.range r).filter fun k => streamBits b (c * r + k) 1 == 1
      let k := (kindOf (tFmtw t)).getD .o4
      match s1.svcRead g (withVa src (vaOf src + c * stride)) (rowBytes k stored.length) true with
      | .error e => .error e
      | .ok (s2, b) =>
        let (codes, o) := weightCodes (tFmtw t) stored.length b
        let col := match bitmap with
          | none => codes
          | some _ => (List.range r).map fun k => match stored.idxOf? k with | some j => codes.getD j 0 | none => 0
        .ok (s2, l ++ [col], otr || o)

/-- `mlds` (R272): the whole panel of the shadow plane. -/
def State.serveMlds (s : State) (c : CtxId) (t : BitVec 256) (q : ACmd) : Svc :=
  let g := s.agent c
  let p := q.field 4 1
  let bm := BitVec.ofNat 64 (q.field 16 8)
  let go := fun (s : State) (b : Option (List Byte)) =>
    match s.readTile g t (BitVec.ofNat 64 (q.field 8 8)) (q.field 2 2) b (tCols t) with
    | .error e => Svc.fault e
    | .ok (s1, cols, otr) =>
      let w := (cols.zipIdx).flatMap fun e => (e.1.zipIdx).map fun k => (128 * k.2 + p * tCols t + e.2, k.1)
      .done ((s1.modArr (clusterOf (coreOf c)) fun a => { a with shadow := putWeights a.shadow (inPanel t p 128) w }).quietFlags c
        (flagIf otr fOTR))
  if q.flag 0 then
    match localFault g .serviceRead bm (ceilDiv (tCols t * tRows t) 8) with
    | some e => .fault e
    | none => match s.svcRead g bm (ceilDiv (tCols t * tRows t) 8) false with
      | .error e => .fault e
      | .ok (s1, b) => go s1 (some b)
  else go s none

/-- The nodes from i along its parents to the committed prefix (R277). -/
def ancestors (l : List Nat) : Nat → Nat → List Nat
  | 0, _ => []
  | n + 1, i => i :: (if l.getD i 0xFF = 0xFF then [] else ancestors l n (l.getD i 0xFF))

/-- `mmask` (R277). -/
def State.serveMmask (s : State) (c : CtxId) (q : ACmd) : Svc :=
  let g := s.agent c
  let ptr := BitVec.ofNat 64 (q.field 8 8)
  let n := q.field 4 1
  let o := q.field 2 2
  match localFault g .serviceRead ptr n with
  | some e => .fault e
  | none => match s.svcRead g ptr n false with
    | .error e => .fault e
    | .ok (s1, b) =>
      let l := b.map (·.toNat)
      if (List.range n).any fun i => decide (l.getD i 0 ≠ 0xFF) && decide (i ≤ l.getD i 0) then
        .fault { cause := .illegalOperand, fva := ptr }
      else
        let cells := (List.range n).flatMap fun i =>
          let anc := ancestors l n i
          (List.range n).map fun j => (128 * (bitsOf o 0 7 + i) + bitsOf o 8 7 + j, !anc.contains j)
        .done (s1.modArr (clusterOf (coreOf c)) fun a =>
          { a with mask := cells.foldl (fun m e => if e.2 then SMap.put m e.1 true else SMap.drop m e.1) a.mask })

/-- `mzero` (R273): planes and mask are kept. -/
def State.serveMzero (s : State) (c : CtxId) : State :=
  (s.modArr (clusterOf (coreOf c)) fun a => { a with cells := [], bw := [], spills := 0 }).modCtx c fun x =>
    { x with mstat := 0 }
/-- `mswap` (R273). -/
def State.serveMswap (s : State) (c : CtxId) : State :=
  s.modArr (clusterOf (coreOf c)) fun a => { a with active := a.shadow, shadow := a.active }

/-! ## The drain (R103-R105) -/

/-- The code of a masked cell: the most negative finite value of the output format. -/
def maskedCode (code : Nat) : Nat :=
  match code with
  | 0x0F => 0xFF7FFFFF | 0x0C => 0xFBFF | 0x0B => 0xFF7F | 0x09 => 0xFF | 0x0A => 0xFF | 0x07 => 0x80 | 0x0D => 0x8000
  | 0x10 => 0x80000000 | _ => 0

/-- The value of a cell before the epilogue, and whether it lay outside the window (R103). -/
def cellValue (ew : Int) (c : ACell) (count : Int) : FVal × Bool :=
  let v := c.a.toInt + count * 2 ^ 24
  match c.sp.toNat with
  | 1 => (.nan false, false)
  | 2 => (.inf false, false)
  | 3 => (.inf true, false)
  | _ =>
    if v < -(2 ^ 47) ∨ 2 ^ 47 - 1 < v then (.inf (decide (v < 0)), true) else (.fin (decide (v < 0)) v.natAbs ew, false)

/-- Step 3 of R104. -/
def activate (t : BitVec 256) (y : FVal) : FVal :=
  if y.isNan then y
  else match tAct t with
    | 1 => (minmaxVal true y (.fin false 0 0)).1
    | 2 => (minmaxVal false (minmaxVal true y (fp32.value (tClo t))).1 (fp32.value (tChi t))).1
    | _ => y

/-- Step 5 of R104. -/
def drainRound (t : BitVec 256) (y : FVal) : Nat × SW :=
  match (kindOf (tOfmt t)).getD .o4 with
  | .flt f => roundVal f (tOrnd t) (tOnan t) y
  | .int w sg => match y with
    | .nan _ => (0, fNV)
    | .inf n => (wrapTo w (if n then intMin w sg else intMax w sg), fNV)
    | .fin n m e =>
      let z := (roundInt (tOrnd t) n m e).1
      (wrapTo w (clampInt w sg z), flagIf (!inInt w sg z) fSAT)
  | .o4 => (0, 0)

/-- The epilogue of one cell (R104): code, flags, the addition to DROPMAG. `scale` and `bias` are its column's entries. -/
def epilogue (t : BitVec 256) (x : FVal) (nv masked : Bool) (scale bias : FVal) : Nat × SW × Nat :=
  if tMask t && masked then (maskedCode (tOfmt t), 0, 0)
  else
    let (p, f1) := if tScb t then mulVal x scale else (x, 0)
    let (y, f2) := if tScb t then addVal (tOrnd t) p bias else (p, 0)
    let z := activate t y
    let f := flagIf nv fNV ||| f1 ||| f2
    if tThr t && dropped (v16 (tTheta t)) z then (0, f, dropAmount z)
    else let (c, g) := drainRound t z; (c, f ||| g, 0)

/-- Counts of the cells in the spills of the AU. -/
def State.readSpills (s : State) (c : CtxId) (t : BitVec 256) : Nat → Except Trap (State × List (Nat × Int))
  | 0 => .ok (s, [])
  | n + 1 =>
    match State.readSpills s c t n with
    | .error e => .error e
    | .ok (s1, l) =>
      match s1.svcRead (s1.agent c) (BitVec.ofNat 64 (0x10000000 + tSrbase t + 256 * n)) 256 false with
      | .error e => .error e
      | .ok (s2, b) => .ok (s2, l ++ (List.range 64).map fun i => bwOf (fieldAt b (4 * i) 4))

def carryOf (x : Nat) (l : List (Nat × Int)) : Int := l.foldl (fun a e => if e.1 = x then a + e.2 else a) 0

/-- What a drain has written and gathered. -/
structure Drained where
  rows : List (Nat × List Byte)
  flags : SW
  drop : List Nat
  wovf : Bool
  deriving DecidableEq, Repr

/-- Row b0 + i of a panel, for the address it goes to. WOVF is set for a masked cell as for any other: R103 sets it for each cell that
a drain reads, and R104 speaks of the flags of the epilogue, which are SW's (DESIGN CHOICE, log 82). -/
def drainRow (t : BitVec 256) (a : MArray) (counts : List (Nat × Int)) (table : Nat → FVal × FVal) (p row addr : Nat)
    (r : Drained) : Drained :=
  let l := (List.range (tCols t)).map fun c =>
    let x := 128 * row + p * tCols t + c
    let (v, w) := cellValue (tWlsb t) (a.cell x) (carryOf x counts)
    let (sc, bi) := table c
    (epilogue t v (a.cell x).invalid (a.masked x) sc bi, w)
  let k := (kindOf (tOfmt t)).getD .o4
  { rows := r.rows ++ [(addr, packStream k.width (l.map fun e => e.1.1))]
    flags := l.foldl (fun f e => f ||| e.1.2.1) r.flags
    drop := r.drop ++ l.map fun e => e.1.2.2
    wovf := r.wovf || l.any (·.2) }

/-- The scale and bias table at SBADR (R104). -/
def State.readTable (s : State) (c : CtxId) (t : BitVec 256) : Except Trap (State × (List Byte × List Byte)) :=
  if !tScb t then .ok (s, ([], []))
  else
    let g := s.agent c
    let at1 := BitVec.ofNat 64 (tSbadr t)
    let at2 := BitVec.ofNat 64 (tSbadr t + 256)
    match localFault g .serviceRead at1 (2 * tCols t), localFault g .serviceRead at2 (4 * tCols t) with
    | some e, _ => .error e
    | _, some e => .error e
    | _, _ =>
      match s.svcRead g at1 (2 * tCols t) false with
      | .error e => .error e
      | .ok (s1, x) => match s1.svcRead g at2 (4 * tCols t) false with
        | .error e => .error e
        | .ok (s2, y) => .ok (s2, (x, y))

/-- The drain ends the AU: commands behind it form the next one (R89, R105). -/
def State.endAu (s : State) (c : CtxId) : State :=
  let more := decide (1 < (s.ctx c).arrayCmds)
  (s.modArr (clusterOf (coreOf c)) fun _ => {}).modCtx c fun x =>
    { x with auOpen := more, mstat := 0, drained := x.mstat }

/-- The core whose local memory a drain writes: its own, or another of the cluster (R115). -/
def drainTarget (c : CtxId) (q : ACmd) : Place := if q.flag 3 then 8 * clusterOf (coreOf c) + q.field 7 1 % 8 else coreOf c

/-- Two rows of a drain share a byte. -/
def rowsMeet (l : List (Nat × List Byte)) : Bool :=
  !decide (l.Pairwise fun a b => a.1 + a.2.length ≤ b.1 ∨ b.1 + b.2.length ≤ a.1)
/-- A row over the rows `done` written before it: a word that both hold keeps one of the two values, and which one is a free value
(R275, log 60). -/
def State.putRowOver (s : State) (p : Place) (done : List (Nat × List Byte)) (e : Nat × List Byte) : State :=
  let shared := fun (va : Nat) => done.any fun d => decide (d.1 < va + 8) && decide (va < d.1 + d.2.length)
  (List.range (ceilDiv e.2.length 8)).foldl (fun t i =>
    if shared (e.1 + 8 * i) && s.freeWord.getLsbD i then t else t.engPut (localAt p (e.1 + 8 * i)) (bytesAt e.2 (8 * i) 8)) s.useFree
def State.putRowsOver (s : State) (p : Place) (done : List (Nat × List Byte)) : List (Nat × List Byte) → State
  | [] => s
  | e :: t => State.putRowsOver (s.putRowOver p done e) p (e :: done) t
/-- The rows of a drain (R275). -/
def State.putRows (s : State) (p : Place) (l : List (Nat × List Byte)) : State :=
  if rowsMeet l then s.putRowsOver p [] l else l.foldl (fun u e => u.putWords p e.1 e.2) s

/-- Every byte that rows of n bytes at these addresses write lies in a bank that the context's group holds on a core (R115). -/
def State.groupHolds (s : State) (c : CtxId) (p : Place) (rows : List Nat) (n : Nat) : Bool :=
  match s.groupOf c with
  | none => false
  | some g => rows.all fun va => (regionProbes va n).all fun x => decide (x < Config.localBytes) &&
      g.holds.any fun h => h.core == p && h.lbanks.getLsbD (x / 16384)

/-- `mdrain` (R103-R105, R275). -/
def State.serveMdrain (s : State) (c : CtxId) (t : BitVec 256) (q : ACmd) : Svc :=
  let a := (s.cluster (clusterOf (coreOf c))).arr
  let g := s.agent c
  let ptr := BitVec.ofNat 64 (q.field 8 8)
  let base := vaOf ptr
  let panels := onesOf 8 (q.field 4 1)
  let bytes := drainBytes t (q.field 4 1) (q.field 6 1) (q.field 20 4) (q.field 16 4)
  let target := drainTarget c q
  let places := (panels.zipIdx).flatMap fun e => (List.range (q.field 6 1)).map fun i =>
    (e.1, q.field 5 1 + i, base + e.2 * q.field 16 4 + i * q.field 20 4)
  let fault :=
    if q.flag 3 then
      if s.groupHolds c target (places.map (·.2.2)) (outBytesOf t) then none else some (xlateTrap .serviceWrite ptr 0 6)
    else localFault g .serviceWrite ptr bytes
  match fault with
  | some e => .fault e
  | none =>
    match s.readTable c t with
    | .error e => .fault e
    | .ok (s1, x, y) =>
      match s1.readSpills c t a.spills with
      | .error e => .fault e
      | .ok (s2, spilled) =>
        let counts := a.bw ++ spilled
        let table := fun (i : Nat) => (v16 (fieldAt x (2 * i) 2), v32 (fieldAt y (4 * i) 4))
        let r := places.foldl (fun r e => drainRow t a counts table e.1 e.2.1 e.2.2 r)
          { rows := [], flags := 0, drop := [], wovf := false }
        let s3 := s2.putRows target r.rows.reverse
        .done ((s3.modCtx c fun z =>
          { (z.addFlags r.flags) with
            mstat := if r.wovf then z.mstat ||| mWovf else z.mstat
            csr := { (z.addFlags r.flags).csr with dropmag := r.drop.foldl dropAdd z.csr.dropmag } }).endAu c)

/-! ## The images of the queue (R380) -/

/-- An image whose fields and unnamed bytes keep the limits of its command. The L of an escape record's row is that of one of the
L codes, at most R (R76, R118). -/
def imageKeeps (t : BitVec 256) (q : ACmd) : Bool :=
  let f := fun (off n : Nat) => (off, n, q.field off n)
  let code := q.code
  let flags := q.field 1 1
  let only := fun (l : List (Nat × Nat × Nat)) => q.img == imageOf ([f 0 1, f 1 1] ++ l)
  let mayFlag := fun (m : Nat) => decide (flags &&& m = flags)
  let al := fun (n : Nat) => decide (n % 8 = 0)
  if code = codeMlds then
    mayFlag 5 && only [f 2 2, f 4 1, f 8 8, f 16 8] && mldsLimits t (vaOf (BitVec.ofNat 64 (q.field 8 8))) (q.field 4 1) (q.field 2 2) (q.flag 0) &&
      al (q.field 8 8) && al (q.field 2 2) && (q.flag 0 || decide (q.field 16 8 = 0)) && al (q.field 16 8)
  else if code = codeMswap ∨ code = codeMzero then mayFlag 4 && only []
  else if code = codeMstrm then
    mayFlag 6 && only [f 2 2, f 4 1, f 5 1, f 6 1, f 7 1, f 8 8] &&
      mstrmLimits t (q.field 4 1) (q.field 5 1) (q.field 6 1) (q.field 2 2) && al (q.field 8 8) && al (q.field 2 2) &&
      (if q.flag 1 then [16, 32, 64].contains (q.field 7 1) && decide (q.field 7 1 ≤ tRows t) else decide (q.field 7 1 = 0)) &&
      regionLimit true (BitVec.ofNat 64 (q.field 8 8)) (spanBytes (q.field 6 1) (q.field 2 2)
        (rowBytes ((kindOf (tFmts t)).getD .o4) (if q.flag 1 then q.field 7 1 else tRows t)))
  else if code = codeMdrain then
    mayFlag 12 && only [f 4 1, f 5 1, f 6 1, f 7 1, f 8 8, f 16 4, f 20 4] &&
      mdrainLimits t (q.field 4 1) (q.field 5 1) (q.field 6 1) (q.field 20 4) (q.field 16 4) && al (q.field 8 8) &&
      al (q.field 16 4) && al (q.field 20 4) && (if q.flag 3 then decide (q.field 7 1 < 8) else decide (q.field 7 1 = 0))
  else if code = codeMmask then mayFlag 4 && only [f 2 2, f 4 1, f 8 8] && mmaskLimits (q.field 4 1) (q.field 2 2)
  else if code = codeAimg then
    mayFlag 4 && only [f 2 2, f 4 1, f 5 1, f 6 1, f 7 1, f 8 8, f 16 8, f 24 3, f 27 3, f 30 2] && (aimgOfImage q).ok t
  else false

/-! ## One command -/

/-- The command that the array serves next: of the AU it holds. -/
def State.arrayHead (s : State) (k : ClusterId) : Option (CtxId × ACmd) :=
  let a := (s.cluster k).arr
  match a.owner with
  | none => none
  | some c =>
    if a.frozen ∨ (s.ctx c).auHeld then none
    else ((s.core (coreOf c)).arrayQ.find? fun q => q.ctx == c).map fun q => (c, q)

def State.serveCmd (s : State) (c : CtxId) (t : BitVec 256) (q : ACmd) : Svc :=
  if !imageKeeps t q then .fault { cause := .illegalOperand }
  else if q.code = codeMlds then s.serveMlds c t q
  else if q.code = codeMswap then .done (s.serveMswap c)
  else if q.code = codeMzero then .done (s.serveMzero c)
  else if q.code = codeMstrm then
    let row := (s.cluster (clusterOf (coreOf c))).arr.row
    s.serveRows c t q (q.field 6 1 - row) row
  else if q.code = codeMdrain then s.serveMdrain c t q
  else if q.code = codeMmask then s.serveMmask c q
  else s.serveAimg c t q

/-- The array stops and the AU is scanned out; the trap is taken at the context's next head (R100, R269). -/
def State.arrayStop (s : State) (c : CtxId) (t : Trap) (row : Nat) : State :=
  if t.cause = .uncorrectable then s.consume c t.fva t.detail.toNat 1
  else
    let s1 := (s.modArr (clusterOf (coreOf c)) fun a => { a with row := row }).modCtx c fun x =>
      { x with due := if x.due.isNone then some { t with origin := 1 } else x.due }
    (s1.scanOut c).1

/-- A command of the chain is served: its unit is done (R123), and an escape record's row counts in ESCCNT (R118). -/
def Context.unitServed (x : Context) (q : ACmd) : Context :=
  if q.flag 2 && x.csr.wde then
    let esc := if q.code = codeMstrm ∧ q.flag 1 then min 0xFFFF (x.wde.esc + 1) else x.wde.esc
    let w := { x.wde with unit := x.wde.unit + 1, esc := esc }
    { x with wde := w, csr := { x.csr with wds := wdsWord w false } }
  else x

/-- The command q, a context's first in its core's queue, has completed. -/
def State.popCmd (s : State) (c : CtxId) (q : ACmd) : State :=
  let p := coreOf c
  (s.modCore p fun k => { k with arrayQ := k.arrayQ.eraseP fun q => q.ctx == c }).modCtx c fun x =>
    { (x.unitServed q) with arrayCmds := x.arrayCmds - 1 }

/-- The detail word of BW_FULL (R100). -/
def bwDetail (kind cell row : Nat) : Word := BitVec.ofNat 64 (kind + 4 * cell + 2 ^ 20 * row)

/-- The array serves its next command, if its CODE is wanted. -/
def State.serveArray (s : State) (k : ClusterId) (want : Nat → Bool) : State :=
  match s.arrayHead k with
  | none => s
  | some (c, q) =>
    if !want q.code then s
    else match s.serveCmd c ((s.ctx c).tcsb.getD tcsbReset) q with
      | .wait => s
      | .fault t => s.arrayStop c t (s.cluster k).arr.row
      | .full s1 row kind cell => s1.arrayStop c { cause := .bwFull, detail := bwDetail kind cell row } row
      | .done s1 => ((s1.modArr k fun a => { a with row := 0 }).popCmd c q)

/-- MLDS_SERVICE, and the service of an image that is no command. -/
def execMldsService (k : ClusterId) (s : State) : Out := .next (s.serveArray k fun c => c == codeMlds)
def execMswapService (k : ClusterId) (s : State) : Out := .next (s.serveArray k fun c => c == codeMswap)
def execMstrmService (k : ClusterId) (s : State) : Out := .next (s.serveArray k fun c => c == codeMstrm)
def execMdrainService (k : ClusterId) (s : State) : Out := .next (s.serveArray k fun c => c == codeMdrain)
def execMzeroService (k : ClusterId) (s : State) : Out := .next (s.serveArray k fun c => c == codeMzero)
def execMmaskService (k : ClusterId) (s : State) : Out := .next (s.serveArray k fun c => c == codeMmask)
def execAimgService (k : ClusterId) (s : State) : Out := .next (s.serveArray k fun c => c == codeAimg)

/-! ## Arbitration and restore (R90, R107, R330) -/

/-- A block of the context's chain works on the array itself: load-stationary or accumulate-atoms (R116, R118). -/
def Context.seeksArray (x : Context) : Bool :=
  x.inChain && decide (x.run = .running) && match x.wde.fetched with
    | some l => fieldAt l 0 1 == 0x01 || fieldAt l 0 1 == 0x08
    | none => false

/-- The context of a core that has an AU open, if the arbiter may serve it: commands in the queue, or a mark for restore. -/
def State.auReady (s : State) (p : Place) : Option CtxId :=
  match ((List.range 4).map (ctxAt p)).find? fun c => (s.ctx c).auOpen with
  | none => none
  | some c =>
    let x := s.ctx c
    if x.auMarked then some c
    else if x.auFrame.isSome ∨ x.auHeld ∨ (s.cluster (clusterOf p)).images.any (fun e => e.1 == c) then none
    else if (s.core p).arrayQ.isEmpty && !x.seeksArray then none else some c

/-- The cores of a cluster in the order of the scan. -/
def Cluster.scan (x : Cluster) (k : ClusterId) : List Place := (List.range 8).map fun i => 8 * k + (x.arrayLast + 1 + i) % 8
def Cluster.credit (x : Cluster) (p : Place) : Nat := x.credits.getD (p % 8) 0

/-- The next AU by credits, and the cluster after the grant (R90). `may` limits which contexts may be granted now. -/
def State.arbitrate (s : State) (k : ClusterId) (may : CtxId → Bool) : Option (CtxId × Cluster) :=
  let x := s.cluster k
  let want := (x.scan k).filterMap fun p => match s.auReady p with | some c => if may c then some (p, c) else none | none => none
  if want = [] then none
  else
    let y := if want.any fun e => decide (0 < x.credit e.1) then x else x.reload
    match want.find? fun e => decide (0 < y.credit e.1) with
    | none => none
    | some (p, c) => some (c, { y with arrayLast := p % 8, credits := y.credits.set (p % 8) (y.credit p - 1) })

/-- A frozen AU that nothing has marked keeps the array from new AUs. -/
def State.arrayStuck (s : State) (k : ClusterId) : Bool :=
  let a := (s.cluster k).arr
  a.frozen && match a.owner with | some c => !(s.ctx c).auMarked | none => false

/-- Who may be granted: with the array free anyone, with a frozen AU in it only that AU. -/
def State.mayGrant (s : State) (k : ClusterId) (c : CtxId) : Bool :=
  match (s.cluster k).arr.owner with
  | none => true
  | some o => (s.cluster k).arr.frozen && o == c

/-- ARRAY_ARBITRATION (R90): the array goes to an AU that begins; a frozen AU leaves for a frame that has become free (R330). -/
def State.grantArray (s : State) (k : ClusterId) : State :=
  let x := s.cluster k
  if s.arrayStuck k then
    match x.arr.owner with
    | some c =>
      if x.freeFrame.isNone then s
      else match s.scanOut c with
        | (t, true, _) => t.saveFault c
        | (t, _, _) => t
    | none => s
  else match s.arbitrate k (s.mayGrant k) with
    | none => s
    | some (c, y) =>
      if (s.ctx c).auMarked then s
      else (s.setCluster k y).modArr k fun _ => { owner := some c }
def execArrayArbitration (k : ClusterId) (s : State) : Out := .next (s.grantArray k)

/-- The mark and what held the AU are gone. -/
def State.restored (s : State) (c : CtxId) : State := s.freeFrames c

/-- A marked AU continues: in place, from its frame, from the image that `mrest` named, or from the queue alone (R107, R330). -/
def State.restoreAu (s : State) (c : CtxId) : State :=
  let k := clusterOf (coreOf c)
  let x := s.cluster k
  match x.images.find? (fun e => e.1 == c), (s.ctx c).auFrame with
  | some (_, ptr), _ =>
    match s.readAuImage c (BitVec.ofNat 64 ptr) Config.frameImageBytes with
    | .error t =>
      if t.cause = .uncorrectable then s.consume c t.fva t.detail.toNat 1
      else (s.discardAu c).modCtx c fun y => { y with due := if y.due.isNone then some { t with origin := 1 } else y.due }
    | .ok (s1, a, l) => (s1.restored c).loadAu c a l
  | none, some off =>
    let a := dieAt (dieOf (coreOf c)) off
    match (runFrom a Config.frameImageBytes).find? s.poisoned with
    | some w => s.consume c (BitVec.ofNat 64 (0x20000000 + off)) w 1
    | none => (s.restored c).loadAu c a (s.slice a Config.frameImageBytes)
  | none, none =>
    let s1 := s.restored c
    if x.arr.owner = some c then s1.modArr k fun a => { a with frozen := false }
    else s1.modArr k fun _ => { owner := some c }

/-- The exchange of R330: the oldest marked frame's AU comes in, and the frozen one goes into that frame. A frame that holds an
uncorrectable error cannot be read: its context consumes it, and the frozen AU waits (R342). -/
def State.exchangeAu (s : State) (k : ClusterId) (b : CtxId) (off : Nat) : State :=
  let x := s.cluster k
  match x.arr.owner, x.frames.find? fun e => x.frameOff e.1 == off with
  | some a, some (f, _) =>
    let place := dieAt (dieOfCluster k) off
    match (runFrom place Config.frameImageBytes).find? s.poisoned with
    | some w => s.consume b (BitVec.ofNat 64 (0x20000000 + off)) w 1
    | none =>
    let l := s.slice place Config.frameImageBytes
    let m := s.marksAt place
    let s1 := s.restored b
    let s2 := (s1.scanTo a place).modCluster k fun y => { y with frames := SMap.put y.frames f a }
    (s2.modCtx a fun y => { y with auFrame := some off, auHeld := false }).putAu b (readImage b m l)
  | _, _ => s

/-- AU_RESTORE (R107, R330). -/
def State.restoreNext (s : State) (k : ClusterId) : State :=
  let x := s.cluster k
  if s.arrayStuck k then
    match x.marks.find? fun c => (s.ctx c).auFrame.isSome with
    | some b => match (s.ctx b).auFrame with
      | some off => s.exchangeAu k b off
      | none => s
    | none => s
  else match s.arbitrate k (s.mayGrant k) with
    | none => s
    | some (c, y) => if (s.ctx c).auMarked then (s.setCluster k y).restoreAu c else s
def execAuRestore (k : ClusterId) (s : State) : Out := .next (s.restoreNext k)

/-- What the array of a cluster does next: a command, an exchange or a grant. -/
def State.arrayTurn (s : State) (k : ClusterId) : State :=
  match s.arrayHead k with
  | some _ => s.serveArray k fun _ => true
  | none =>
    let t := s.grantArray k
    if t = s then s.restoreNext k else t

end Sys2Proof.Machine
end

