-- ==== Sys2Proof/Machine/ControlRegs.lean ====
section
/-! DEFINITION. The control-register heads (R210). -/

namespace Sys2Proof.Machine

/-- `csrr` (R210). -/
def execCsrr (d : SReg) (k : Lit) (s : State) : Out :=
  head (.csrr d k) (needX [] [] [.s d]) (csrEarly k false false) (csrLimit k) (readCsr d k) s
/-- `csrw` (R210). -/
def execCsrw (k : Lit) (a : XOp) (s : State) : Out :=
  head (.csrw k a) (needX [a] [] []) (csrEarly k true false) (csrWriteLimit (fun _ v => v) k a)
    (writeCsr (fun _ v => v) k a) s
/-- `csrset` (R210). -/
def execCsrset (k : Lit) (a : XOp) (s : State) : Out :=
  head (.csrset k a) (needX [a] [] []) (csrEarly k true true) (csrWriteLimit (fun old v => old ||| v) k a)
    (writeCsr (fun old v => old ||| v) k a) s
/-- `csrclr` (R210). -/
def execCsrclr (k : Lit) (a : XOp) (s : State) : Out :=
  head (.csrclr k a) (needX [a] [] []) (csrEarly k true true) (csrWriteLimit (fun old v => old &&& ~~~v) k a)
    (writeCsr (fun old v => old &&& ~~~v) k a) s

end Sys2Proof.Machine
end

