-- ==== Sys2Proof/Machine/Copy.lean ====
section
/-! DEFINITION. Compressed copies (R245, R246) and the commit of key-value rows (R284, R285). -/

namespace Sys2Proof.Machine

/-! ## Coding a block (R245) -/

/-- Element width and exponent bits of the formats that `cpyz` codes. -/
def zFormat (fmt : Nat) : Option (Nat × Nat) :=
  match fmt with
  | 0x0C => some (16, 5)
  | 0x0B => some (16, 8)
  | 0x09 => some (8, 4)
  | 0x0A => some (8, 5)
  | _ => none

/-- Exponent of an element, and its other bits: the fraction with the sign above it. -/
def zSplit (w eb x : Nat) : Nat × Nat :=
  let fb := w - 1 - eb
  (bitsOf x fb eb, bitsOf x 0 fb + 2 ^ fb * bitsOf x (w - 1) 1)
def zJoin (w eb v r : Nat) : Nat :=
  let fb := w - 1 - eb
  bitsOf r 0 fb + 2 ^ fb * (v % 2 ^ eb) + 2 ^ (w - 1) * bitsOf r fb 1

/-- The bits of a code, most significant first. -/
def codeBits (e : Nat × Nat) : List Bool := (List.range e.1).map fun i => bitOf e.2 (e.1 - 1 - i)
def natOfBits (l : List Bool) : Nat := l.foldr (fun b a => b.toNat + 2 * a) 0
def bitList (l : List Byte) : List Bool := (List.range (8 * l.length)).map fun i => bitOf (l.getD (i / 8) 0).toNat (i % 8)

/-- The elements of a block. -/
def zElements (w : Nat) (l : List Byte) : List Nat := (List.range (8 * l.length / w)).map fun i => fieldAt l (w / 8 * i) (w / 8)

/-- The coded payload of a block: none where an exponent has no code. -/
def zCode (w eb : Nat) (codes : List (Nat × Nat)) (block : List Byte) : Option (List Byte) :=
  let parts := (zElements w block).map (zSplit w eb)
  let cs := parts.map fun e => codes.getD e.1 (0, 0)
  if cs.any fun e => e.1 == 0 then none
  else
    let bits := cs.flatMap codeBits
    some (packStream (w - eb) (parts.map (·.2)) ++ bytesOfNat ((bits.length + 7) / 8) (natOfBits bits))

/-- The header of a record. -/
def zHeader (tab gen : Nat) (raw : Bool) (len : Nat) : List Byte :=
  bytesOfNat 8 (tab % 8 + 8 * (gen % 4) + 32 * raw.toNat + 2 ^ 16 * (len % 2 ^ 16))

/-- A record: header and payload, with zeros to the next 8-byte boundary. -/
def zRecord (fmt tab gen : Nat) (codes : List (Nat × Nat)) (block : List Byte) : List Byte :=
  let (w, eb) := (zFormat fmt).getD (16, 5)
  let whole := fun (h p : List Byte) => h ++ bytesAt p 0 (roundUp p.length 8)
  match zCode w eb codes block with
  | some p => if p.length < block.length then whole (zHeader tab gen false p.length) p
              else whole (zHeader tab gen true block.length) block
  | none => whole (zHeader tab gen true block.length) block

/-- The exponent whose code the stream begins with, tried by rising length, and the rest of the stream. -/
def zNext (codes : List (Nat × Nat)) (bits : List Bool) : Option (Nat × List Bool) :=
  (List.range 16).findSome? fun i =>
    let n := i + 1
    if bits.length < n then none
    else
      let c := (bits.take n).foldl (fun a b => 2 * a + b.toNat) 0
      match codes.findIdx? fun e => e.1 == n && e.2 == c with
      | some v => some (v, bits.drop n)
      | none => none

/-- n exponents from a code stream. -/
def zExponents (codes : List (Nat × Nat)) : Nat → List Bool → Option (List Nat)
  | 0, _ => some []
  | n + 1, bits => match zNext codes bits with
    | none => none
    | some (v, rest) => (zExponents codes n rest).map (v :: ·)

/-- A block of n bytes from its coded payload: none where no code matches, or the stream runs past the payload. -/
def zDecode (w eb n : Nat) (codes : List (Nat × Nat)) (p : List Byte) : Option (List Byte) :=
  let k := 8 * n / w
  let r := ((w - eb) * k + 7) / 8
  if p.length < r then none
  else (zExponents (codes.take (2 ^ eb)) k (bitList (p.drop r))).map fun vs =>
    (vs.zipIdx).flatMap fun e => bytesOfNat (w / 8) (zJoin w eb e.1 (streamBits p ((w - eb) * e.2) (w - eb)))

/-! ## Decode tables in use (R246) -/

def State.zTable (s : State) (p : Place) (t : Nat) : ZTable := SMap.look (s.part (s.partOf p)).ztabs t {}
/-- Some port of the partition still holds blocks that came before table n's last load: of a compression that names the table, or
of an expansion, whose records name theirs. -/
def State.zRetained (s : State) (q : PartId) (n : Nat) (t : ZTable) : Bool :=
  s.cores.any fun e => s.partOf e.1 % 16 == q % 16 && e.2.port.any fun f =>
    ((f.kind == .cpyzC && f.tab == n) || f.kind == .cpyzE) && decide (f.seq < t.since) && decide (f.next < f.total)
/-- The generation and codes that a command codes with. -/
def ZTable.forCommand (t : ZTable) (seq : Nat) : Nat × List (Nat × Nat) :=
  match t.prev with
  | some g => if seq < t.since then g else (t.gen, t.codes)
  | none => (t.gen, t.codes)
/-- The codes of a record's generation. -/
def State.zCodes (s : State) (p : Place) (tab gen : Nat) : Option (List (Nat × Nat)) :=
  let t := s.zTable p tab
  if gen = t.gen then some t.codes
  else match t.prev with
    | some (g, c) => if g = gen && s.zRetained (s.partOf p) tab t then some c else none
    | none => none

/-! ## `cpyz` (R245) -/

def imageOk (w : Word) : Bool :=
  (windowOf (vaOf w) == some .die || windowOf (vaOf w) == some .glob) && (zFormat (fmtOf w)).isSome

/-- Bytes of block i of a command. -/
def EngCmd.blockLen (e : EngCmd) (i : Nat) : Nat := min 4096 (e.count - 4096 * i)

/-- The whole image of a compression as its source stands, for the digest of a checked run. -/
def State.zImage (s : State) (p : Place) (e : EngCmd) : List Byte :=
  let (gen, codes) := (s.zTable p e.tab).forCommand e.seq
  (List.range e.total).flatMap fun i =>
    zRecord (fmtOf e.remote) e.tab gen codes (s.peek p e (vaOf e.loc + 4096 * i) (e.blockLen i))

def cpyzEff (a b c d e : XOp) (dir : Bool) (s : State) : Eff :=
  let n := (s.x c).toNat
  let g := s.agent s.cur.ctx
  if dir then
    let cmd : EngCmd := { s.newCmd .cpyzC with
      remote := s.x a, loc := s.x b, count := n, ctr := (s.x d).toNat, tab := (s.x e).toNat }
    engChecks (regionTraps false g .load (s.x b) n) [(s.x a, 8), (s.x b, 8)]
      ((s.digestOut cmd [vaOf cmd.remote] cmd.remote fun t => t.zImage (coreOf cmd.ctx) cmd).takeCmd cmd)
  else
    engChecks (regionTraps false g .store (s.x a) n) [(s.x a, 8), (s.x b, 8)]
      (s.takeCmd { s.newCmd .cpyzE with remote := s.x b, loc := s.x a, count := n, ctr := (s.x d).toNat })

def cpyzLimits (a b c d e : XOp) (dir : Bool) : List Limit :=
  let loc := if dir then b else a
  let image := if dir then a else b
  [{ ops := [c], ok := fun s => countOk (s.x c) }, { ops := [d], ok := fun s => s.ownsCounter (s.x d) },
    { ops := [image], ok := fun s => imageOk (s.x image) }, { ops := [loc], ok := fun s => isLoc (s.x loc) },
    { ops := [loc, c], ok := fun s => regionLimit false (s.x loc) (s.x c).toNat },
    { ops := if dir then [e] else [], ok := fun s => !dir || decide ((s.x e).toNat < 8) }]

/-- `cpyz` (R245). -/
def execCpyz (a b c d e : XOp) (dir : Bool) (s : State) : Out :=
  head (.cpyz a b c d e dir) (needX (if dir then [a, b, c, d, e] else [a, b, c, d]) [] []) free
    (operandOk (cpyzLimits a b c d e dir)) (cpyzEff a b c d e dir) s

/-- A block coded and written at the image's next place. Its place moves on whether it was written or not. -/
def State.codeBlock (s : State) (p : Place) (e : EngCmd) : State :=
  let i := e.next
  let n := e.blockLen i
  let va := vaOf e.loc + 4096 * i
  match s.entryBytes p e va n with
  | .error r => s.setCommand p ({ e with next := i + 1 }.fail i (if r.1 = 3 then (2, placeWord p) else r))
  | .ok block =>
    let (gen, codes) := (s.zTable p e.tab).forCommand e.seq
    let rec_ := zRecord (fmtOf e.remote) e.tab gen codes block
    let out := vaOf e.remote + e.imgOff
    let e1 : EngCmd := { e with next := i + 1, imgOff := e.imgOff + rec_.length }
    if s.suppressed p e out then s.setCommand p { e1 with done := e1.done + 1 }
    else match s.farWriteWords p e out rec_ out rec_.length (rec_.length / 8) with
      | (s1, some r) => s1.setCommand p (e1.fail i r)
      | (s1, none) => s1.setCommand p { e1 with done := e1.done + 1 }

/-- The block of a record: header, payload, codes. A header whose reserved bits are not zero is taken as a record that does not decode,
REASON 8: R245 says only that they are zero (DESIGN CHOICE, log 84). -/
def State.readRecord (s : State) (p : Place) (e : EngCmd) (n : Nat) : Except EngErr (State × List Byte × Nat) :=
  let at_ := vaOf e.remote + e.imgOff
  match s.farRead p e at_ 8 with
  | .error r => .error r
  | .ok (s1, h) =>
    let w := natOfBytes h
    let len := bitsOf w 16 16
    if bitsOf w 6 10 ≠ 0 ∨ bitsOf w 32 32 ≠ 0 then .error (8, 0)
    else match s1.farReadWords p e (at_ + 8) (ceilDiv len 8) with
      | .error r => .error r
      | .ok (s2, l) =>
        let payload := l.take len
        let size := 8 + roundUp len 8
        if bitOf w 5 then (if len = n then .ok (s2, payload, size) else .error (8, 0))
        else match s2.zCodes p (bitsOf w 0 3) (bitsOf w 3 2) with
          | none => .error (7, 0)
          | some codes =>
            let (bits, eb) := (zFormat (fmtOf e.remote)).getD (16, 5)
            match zDecode bits eb n codes payload with
            | some block => .ok (s2, block, size)
            | none => .error (8, 0)

/-- A block expanded; the first block that fails ends the command, and earlier ones stand. -/
def State.expandBlock (s : State) (p : Place) (e : EngCmd) : State :=
  let i := e.next
  let stop := fun (r : EngErr) => s.setCommand p ({ e with next := e.total }.fail i r)
  match s.readRecord p e (e.blockLen i) with
  | .error r => stop r
  | .ok (s1, block, size) =>
    let va := vaOf e.loc + 4096 * i
    if !(regionProbes va (e.blockLen i)).all (s1.bankOn p) then stop (2, placeWord p)
    else
      let s2 := (List.range (block.length / 8)).foldl (fun t j =>
        t.engPut (localAt p (va + 8 * j)) (bytesAt block (8 * j) 8)) s1
      s2.setCommand p { e with next := i + 1, done := e.done + 1, imgOff := e.imgOff + size }

/-- CPYZ_BLOCK (R245, R246): the next block of a command. -/
def execCpyzBlock (p : Place) (n : Nat) (s : State) : Out :=
  .next (match s.command p n with
    | none => s
    | some e =>
      if !e.started ∨ e.total ≤ e.next ∨ !(s.core p).mayFollow e ∨ s.runHeld p e (vaOf e.remote + e.imgOff) (8 + roundUp (e.blockLen e.next) 8)
      then s
      else match e.kind with
        | .cpyzC => s.codeBlock p e
        | .cpyzE => s.expandBlock p e
        | _ => s)

/-! ## `kvcommit` (R284, R285) -/

/-- The descriptor of R284. -/
structure KvDesc where
  rows : Word
  rb : Nat
  cap : Nat
  spec : Nat
  nspec : Nat
  live : Nat
  deriving DecidableEq, Repr

def kvDescOf (l : List Byte) : KvDesc :=
  { rows := wordOfBytes l, rb := fieldAt l 8 4, cap := fieldAt l 12 4, spec := fieldAt l 16 4, nspec := fieldAt l 20 2
    live := fieldAt l 32 32 }

/-- The rows that a path moves, as their bytes stand: those that cannot be read send nothing. -/
def State.kvRows (s : State) (p : Place) (e : EngCmd) (d : KvDesc) (path : List Byte) : List Byte :=
  path.flatMap fun b => match s.farReadWords p e (vaOf d.rows + d.rb * (d.spec + b.toNat)) (d.rb / 8) with
    | .ok (_, l) => l
    | .error _ => []

def kvEff (a b : SCOp) (c d e : XOp) (s : State) : Eff :=
  let g := s.agent s.cur.ctx
  let m := (s.x c).toNat
  let cmd : EngCmd := { s.newCmd .kvcommit with
    loc := s.sc a, list := s.sc b, count := m, pos := (s.x d).toNat, ctr := (s.x e).toNat }
  let p := coreOf cmd.ctx
  let desc := s.peek p cmd (vaOf cmd.loc) 64
  let path := s.peek p cmd (vaOf cmd.list) m
  let rows := wordOfBytes desc
  engChecks (regionTraps false g .load (s.sc a) 64 ++ regionTraps false g .load (s.sc b) m) [(s.sc a, 8)]
    ((s.digestOut cmd [vaOf rows] rows fun t => t.kvRows p { cmd with remote := rows } (kvDescOf desc) path).takeCmd cmd)

/-- `kvcommit` (R284). -/
def execKvcommit (a b : SCOp) (c d e : XOp) (s : State) : Out :=
  head (.kvcommit a b c d e) (needX [scX a, scX b, c, d, e] [] []) free
    (operandOk [{ ops := [c], ok := fun s => decide (1 ≤ (s.x c).toNat) && decide ((s.x c).toNat ≤ 64) },
      { ops := [e], ok := fun s => s.ownsCounter (s.x e) }, { ops := [scX a], ok := fun s => regionLimit false (s.sc a) 64 },
      { ops := [scX b], ok := fun s => regionLimit false (s.sc b) 1 },
      { ops := [scX b, c], ok := fun s => regionLimit false (s.sc b) (s.x c).toNat }]) (kvEff a b c d e) s

/-- The descriptor keeps its limits, and the committed rows hold the path. -/
def kvDescOk (l : List Byte) (pos m : Nat) : Bool :=
  let d := kvDescOf l
  let far := match windowOf (vaOf d.rows) with | some .loc => false | some _ => true | none => false
  far && decide (vaOf d.rows % 8 = 0) && decide (d.rb % 8 = 0) && decide (8 ≤ d.rb) && decide (d.rb ≤ 65536) &&
    decide (1 ≤ d.nspec) && decide (d.nspec ≤ 256) && decide (fieldAt l 22 2 = 0) && decide (fieldAt l 28 4 = 0) &&
    decide (d.cap ≤ d.spec) && decide (pos + m ≤ d.cap)

/-- Row pos + t becomes speculative row path[t], for the rest of the path from t on. -/
def State.moveRows (s : State) (p : Place) (e : EngCmd) (d : KvDesc) : Nat → List Byte → State × Option (Nat × EngErr)
  | _, [] => (s, none)
  | t, b :: rest =>
    let row := fun (i : Nat) => vaOf d.rows + d.rb * i
    let dst := row (e.pos + t)
    match s.farReadWords p e (row (d.spec + b.toNat)) (d.rb / 8) with
    | .error r => (s, some (t, r))
    | .ok (s1, l) =>
      if s1.suppressed p e dst then State.moveRows s1 p e d (t + 1) rest
      else match s1.farWriteWords p e dst l dst d.rb (d.rb / 8) with
        | (s2, some r) => (s2, some (t, r))
        | (s2, none) => State.moveRows s2 p e d (t + 1) rest

/-- LIVE and LEN after the moves. -/
def State.closeDesc (s : State) (p : Place) (e : EngCmd) : State :=
  let a := localAt p (vaOf e.loc)
  let s1 := (List.range 4).foldl (fun t i => t.engPut (a + 32 + 8 * i) (bytesOfNat 8 0)) s
  s1.engPut (a + 24) (bytesOfNat 8 ((e.pos + e.count) % 2 ^ 32))

/-- R285 as one step. -/
def State.kvService (s : State) (p : Place) (e : EngCmd) : State :=
  let stop := fun (t : State) (i : Nat) (r : EngErr) => t.setCommand p ({ e with next := 1 }.fail i r)
  let near := fun (va n : Nat) => (s.entryBytes p e va n).mapError fun r => if r.1 = 3 then (2, placeWord p) else r
  match near (vaOf e.loc) 64, near (vaOf e.list) e.count with
  | .error r, _ => stop s 0 r
  | _, .error r => stop s 0 r
  | .ok desc, .ok path =>
    let d := kvDescOf desc
    if !kvDescOk desc e.pos e.count then stop s 0 (2, placeWord p)
    else match path.findIdx? fun b => decide (d.nspec ≤ b.toNat) || !bitOf d.live b.toNat with
      | some t => stop s t (2, placeWord p)
      | none =>
        match s.moveRows p { e with remote := d.rows } d 0 path with
        | (s1, some (t, r)) => stop s1 t r
        | (s1, none) => (s1.closeDesc p e).setCommand p { e with next := 1, done := 1 }

/-- A row that a commit reads or writes waits for something that the port issued before (R138). -/
def State.kvHeld (s : State) (p : Place) (e : EngCmd) : Bool :=
  let d := kvDescOf (s.peek p e (vaOf e.loc) 64)
  let e1 : EngCmd := { e with remote := d.rows }
  ((s.peek p e (vaOf e.list) e.count).zipIdx).any fun b =>
    s.runHeld p e1 (vaOf d.rows + d.rb * (d.spec + b.1.toNat)) d.rb || s.runHeld p e1 (vaOf d.rows + d.rb * (e.pos + b.2)) d.rb

/-- KVCOMMIT_SERVICE (R285): commands on one descriptor are performed in issue order. -/
def execKvcommitService (p : Place) (n : Nat) (s : State) : Out :=
  .next (match s.command p n with
    | none => s
    | some e =>
      let earlier := (s.core p).port.any fun f =>
        f.kind == .kvcommit && decide (vaOf f.loc = vaOf e.loc) && decide (f.seq < n)
      if e.kind ≠ .kvcommit ∨ !e.started ∨ e.next ≠ 0 ∨ earlier ∨ !(s.core p).mayFollow e ∨ s.kvHeld p e then s else s.kvService p e)

end Sys2Proof.Machine
end

