-- ==== Sys2Proof/Machine/Team.lean ====
section
/-! DEFINITION. Gangs (R41-R46, R205, R206), barriers (R207), launches and completions of waves (R208, R209). -/

namespace Sys2Proof.Machine

/-! ## Positions in a group or span (R205) -/

/-- The groups of a task's span, or its own. -/
def State.spanGroups (s : State) (c : CtxId) : List Group :=
  match s.groupOf c with
  | none => []
  | some g => match g.span with
    | none => [g]
    | some n => ((s.part (s.partOfCtx c)).groups.map Prod.snd).filter fun h => h.span == some n

/-- The core at a position, if a group of the span holds a context there: one that has not ended (R35). -/
def State.coreAt (s : State) (c : CtxId) (pos : Nat) : Option Place :=
  match (s.spanGroups c).find? fun g => g.spanIdx == pos / 8 with
  | none => none
  | some g =>
    let p := 8 * g.cluster + pos % 8
    if g.members.any fun m => coreOf m == p && !g.ended.contains m then some p else none

def State.positionOf (s : State) (c : CtxId) : Nat :=
  match s.groupOf c with
  | none => coreOf c % 8
  | some g => 8 * g.spanIdx + coreOf c % 8

/-- Groups in a task's span, 1 without one. -/
def State.spanSize (s : State) (c : CtxId) : Nat :=
  match s.groupOf c with
  | some g => if g.span.isSome then g.desc.width * g.desc.height else 1
  | none => 1

/-- The operand limits of `gform` on the count and the leader's position; a member that already waits has passed them. -/
def gformOk (n base : Nat) (s : State) : Bool :=
  let c := s.cur.ctx
  s.here.wait.isSome ||
    (decide (base + n - 1 < 8 * s.spanSize c) && decide (base ≤ s.positionOf c) && decide (s.positionOf c < base + n) &&
      (List.range n).all fun i => (s.coreAt c (base + i)).isSome)
def gformLimits (a b : XOp) : List Limit :=
  [{ ops := [a], ok := fun s => decide (2 ≤ (s.x a).toNat) && decide ((s.x a).toNat ≤ 64) },
    { ops := [a], ok := fun s => s.here.wait.isSome || decide ((s.x a).toNat ≤ 8 * s.spanSize s.cur.ctx) },
    { ops := [b], ok := fun s => s.here.wait.isSome || decide ((s.x b).toNat ≤ s.positionOf s.cur.ctx) },
    { ops := [a, b], ok := fun s => gformOk (s.x a).toNat (s.x b).toNat s }]

/-- Whether two contexts belong to one group or span. -/
def State.sameSpan (s : State) (c d : CtxId) : Bool :=
  decide (s.partOfCtx c = s.partOfCtx d) && (s.spanGroups c).map (·.num) == (s.spanGroups d).map (·.num)

/-- Gangs that gather members, with the first that arrived. -/
def State.forming (s : State) : List (Gang × CtxId) :=
  (s.gangs.filter fun g => !g.formed).filterMap fun g => g.arrived.head?.map fun d => (g, d)

/-- What refuses an arrival (R205): GANG. -/
def State.gformRefused (s : State) (c : CtxId) (n base : Nat) : Bool :=
  (s.ctx c).csr.gang != 0 ||
    s.forming.any fun e => !e.1.arrived.contains c &&
      ((e.1.arrived.any fun d => coreOf d == coreOf c) ||
        (s.sameSpan c e.2 && decide ((e.1.n, e.1.base) ≠ (n, base)) && decide (e.1.base < base + n) &&
          decide (base < e.1.base + e.1.n)))

/-- The gang that a member's `gform` joins, the member arrived. -/
def State.gformGang (s : State) (c : CtxId) (n base : Nat) : Gang :=
  match s.forming.find? fun e => e.1.arrived.contains c || (s.sameSpan c e.2 && decide ((e.1.n, e.1.base) = (n, base))) with
  | some (g, _) => if g.arrived.contains c then g else { g with arrived := g.arrived ++ [c] }
  | none => { num := s.seq, leader := c, members := [], n := n, base := base, arrived := [c], since := some (s.nowCtx c) }

/-- A list of gangs with one put in by its number. -/
def putGang (l : List Gang) (g : Gang) : List Gang :=
  if l.any fun h => h.num == g.num then l.map fun h => if h.num = g.num then g else h else l ++ [g]

/-- The arrived members in the order of their positions. -/
def State.byPosition (s : State) (l : List CtxId) (base n : Nat) : List CtxId :=
  (List.range n).filterMap fun i => l.find? fun c => s.positionOf c == base + i

def gformEff (a b : XOp) (s : State) : Eff :=
  let c := s.cur.ctx
  let n := (s.x a).toNat
  let base := (s.x b).toNat
  if s.gformRefused c n base then .trap { cause := .gang }
  else
    let g := s.gformGang c n base
    if g.arrived.length < n then .wait { s with seq := s.seq + 1, gangs := putGang s.gangs g }
    else
      let members := s.byPosition g.arrived base n
      let leader := members.headD c
      let s1 := (members.filter (· != c)).foldl (fun t m => t.completeWaiting m .seq) s
      let s2 := members.foldl (fun t m => t.modCtx m fun x =>
        { (x.setGangBits (if m = leader then 1 else 2)) with fwd := [], gangEnd := none, gangSlots := 0 }) s1
      let formed : Gang :=
        { g with leader := leader, members := members, order := members, formed := true, arrived := [], since := none }
      .done { s2 with gangs := putGang s2.gangs formed } .seq

/-- `gform` (R205). -/
def execGform (a b : XOp) (s : State) : Out :=
  head (.gform a b) (noSlot (needX [a, b] [] [])) handlerOp (operandOk (gformLimits a b)) (gformEff a b) s

/-- `gleave` (R44, R206). -/
def gleaveEff (s : State) : Eff :=
  let c := s.cur.ctx
  match s.here.csr.gang.toNat, s.gangWith c with
  | 1, some g => .done (s.dissolveGang g (some (ptrAfter s.cur.ptr s.cur.hc))) .seq
  | 2, _ => .done (s.modHere Context.detach) .seq
  | _, _ => .done s .seq
def execGleave (s : State) : Out := head .gleave (noSlot {}) free free gleaveEff s

/-- The members that a rejoining gang waits for: the leader, detached members, and members in a trap. -/
def State.joinNeeds (s : State) (g : Gang) : List CtxId :=
  g.members.filter fun m => decide (m = g.leader) || (s.ctx m).csr.gang == 3 || decide ((s.ctx m).level ≠ .task)

/-- The last arrival: the leader retires first, so that followers still in the gang take its `gjoin`; then the others. -/
def State.rejoin (s : State) (i : Instr) (g : Gang) (ptr : Word) : State :=
  let c := s.cur.ctx
  let one := fun (t : State) (m : CtxId) =>
    if m = c then t.retire i (t.ctx c) (.goto ptr) else t.completeWaiting m (.goto ptr)
  let s1 := s.setGang { g with arrived := [], since := none, joinPtr := none }
  let l := s.joinNeeds g
  let s2 := (l.filter (· != g.leader)).foldl one (one s1 g.leader)
  l.foldl (fun t m => t.modCtx m fun x =>
    { (x.setGangBits (if m = g.leader then 1 else 2)) with fwd := [], gangEnd := none, gangSlots := 0 }) s2

def gjoinEff (t : Lit) (s : State) : Eff :=
  let c := s.cur.ctx
  let ptr := s.labelOf t
  match s.here.csr.gang.toNat, s.gangWith c with
  | 0, _ | 2, _ | _, none => .done s (.goto ptr)
  | _, some g =>
    match g.joinPtr with
    | some p =>
      if !samePtr p ptr then .trap { cause := .gang }
      else gather s c ptr g
    | none => gather s c ptr { g with joinPtr := some ptr, since := some (s.nowCtx c) }
where
  gather (s : State) (c : CtxId) (ptr : Word) (g : Gang) : Eff :=
    let h : Gang := if g.arrived.contains c then g else { g with arrived := g.arrived ++ [c] }
    if (s.joinNeeds h).all h.arrived.contains then .done (s.rejoin (.gjoin t) h ptr) .stay
    else .wait (s.setGang h)

/-- `gjoin` (R45, R206). -/
def execGjoin (t : Lit) (s : State) : Out := head (.gjoin t) (noSlot {}) free free (gjoinEff t) s

/-- GJTO_EXPIRY (R45, R205): every waiting member of the gang traps GANG once the first arrival's GJTO cycles have passed; a GJTO
of 0 is no limit (R23). -/
def State.gjtoDue (s : State) (g : Gang) : Bool :=
  match g.since, g.arrived.head? with
  | some t, some c => (s.ctx c).csr.gjto != 0 && decide (t + (s.ctx c).csr.gjto.toNat ≤ s.nowCtx c)
  | _, _ => false
def execGjtoExpiry (n : Nat) (s : State) : Out :=
  match s.gangs.find? fun g => g.num == n with
  | none => .next s
  | some g => .next (if s.gjtoDue g then g.arrived.foldl (fun t c => t.takeTrap c { cause := .gang }) s else s)

/-! ## Barriers (R207) -/

/-- The contexts of a barrier that have not ended: the group's, or the span's. -/
def State.barrierPeers (s : State) (c : CtxId) (wide : Bool) : List CtxId :=
  match s.groupOf c with
  | none => [c]
  | some g =>
    ((if wide then s.spanGroups c else [g]).flatMap fun h => h.members.filter fun m => !h.ended.contains m)

/-- `sbar` is a barrier of the span in a task launched in one of several groups (R32); every other barrier is the group's. -/
def State.barrierWide (s : State) (c : CtxId) (i : Instr) : Bool :=
  match i with
  | .sbar => match s.groupOf c with | some g => g.span.isSome && decide (1 < g.desc.width * g.desc.height) | none => false
  | _ => false

/-- A context waits at the barrier. -/
def State.arrivedAt (s : State) (wide : Bool) (m : CtxId) : Bool :=
  match (s.ctx m).wait with
  | none => false
  | some w => match w.instr with
    | .gbar => !wide
    | .sbar => s.barrierWide m .sbar == wide
    | _ => false

def barrierEff (i : Instr) (s : State) : Eff :=
  let c := s.cur.ctx
  let wide := s.barrierWide c i
  let others := (s.barrierPeers c wide).filter (· != c)
  if !s.quiet c then .hold
  else if others.all (s.arrivedAt wide) then .done (others.foldl (fun t m => t.completeWaiting m .seq) s) .seq
  else .wait s

/-- `gbar` (R207). -/
def execGbar (s : State) : Out := head .gbar {} handlerOp free (barrierEff .gbar) s
/-- `sbar` (R207). -/
def execSbar (s : State) : Out := head .sbar {} handlerOp free (barrierEff .sbar) s

/-! ## Launch (R208) and wave completion (R209) -/

def launchEff (d : SReg) (a : SCOp) (b : XOp) (s : State) : Eff :=
  let c := s.cur.ctx
  let ptr := s.sc a
  let vas := runFrom (vaOf ptr) 64
  if !s.quiet c then .hold
  else match s.resolve (s.agent c) .load ptr vas (decide (vaOf ptr % 64 = 0)) true true with
  | .error t => .trap t
  | .ok (s1, l) =>
    match s1.poisonedTrap ptr vas l with
    | some t => .trap t
    | none =>
      let bytes := s1.bytesOf l
      let s2 := s1.digest c 5 (s.x b) (crc64 bytes)
      if s2.silent c then .done (s2.setS 1 d 0) .seq
      else .done ((s2.modPart (s2.partOfCtx c) fun q =>
        { q with launching := q.launching ++ [{ ctx := c, sd := d, queue := (s.x b).toNat, bytes := bytes }] }).modHere
          fun x => x.addBusy (.s d)) .seq

/-- `launch` (R208). -/
def execLaunch (d : SReg) (a : SCOp) (b : XOp) (s : State) : Out :=
  head (.launch d a b) (needX [scX a, b] [] [.s d]) free (operandOk [{ ops := [b], ok := fun s => decide ((s.x b).toNat ≤ 15) }]) (launchEff d a b) s

/-- A wave counter counts a completion (R209, R311). -/
def wcAdd (w : Word) (a : Word) (b : Word) : Word :=
  ((w.setWidth 32 : BitVec 32) + (a.setWidth 16 : BitVec 16).setWidth 32).setWidth 64 |||
    ((((w >>> 32) ||| b).setWidth 32 : BitVec 32).setWidth 64 <<< 32)
def State.countWave (s : State) (q : PartId) (k : Nat) (a b : Word) : State :=
  s.setWc q k (wcAdd (SMap.look (s.part q).wc k 0) a b)

/-- A checked run's completion is held until its group is confirmed (R349, R351). -/
def State.holdQdone (s : State) (q : PartId) (g : Group) (a b : Word) : State :=
  s.modPart q fun x => { x with checked := x.checked.map fun k =>
    if k.wave = g.wave ∧ k.index = g.index then
      (if g.role = .rerun then { k with heldN := k.heldN ++ [(g.desc.done, a, b)] }
       else { k with held := k.held ++ [(g.desc.done, a, b)] })
    else k }

def qdoneEff (a b : XOp) (s : State) : Eff :=
  let c := s.cur.ctx
  if !s.quiet c then .hold
  else match s.groupOf c with
  | none => .done s .seq
  | some g =>
    if g.desc.done = 0xFF then .done s .seq
    else
      let q := s.partOfCtx c
      let s1 := s.digest c 6 0 (((s.x a).setWidth 16 : BitVec 16).setWidth 64 +
        ((s.x b).setWidth 32 : BitVec 32).setWidth 64 * 65536)
      .done (match (if s.here.level = .task then g.role else .plain) with
        | .plain => s1.countWave q g.desc.done (s.x a) (s.x b)
        | .primary | .rerun => s1.holdQdone q g (s.x a) (s.x b)
        | _ => s1) .seq

/-- `qdone` (R209). -/
def execQdone (a b : XOp) (s : State) : Out := head (.qdone a b) (needX [a, b] [] []) handlerOp free (qdoneEff a b) s

end Sys2Proof.Machine
end

