-- ==== Sys2Proof/Machine/Dispatcher.lean ====
section
/-! DEFINITION. The dispatcher: launches enqueued (R208, R310, R311), the ready head wave and the deal (R312, R313), successors
(R200), checked launches (R349-R351), and the dispatcher commands (R314, R315). -/

namespace Sys2Proof.Machine

/-! ## Enqueue (R208, R308, R310, R311) -/

/-- The older of two enqueues: those of one cycle stand in the order of their places, host enqueues last; then the lower queue
number (R312). -/
def Wave.older (a b : Wave) : Bool :=
  let rank := fun (w : Wave) => match w.launcher with | some c => coreOf c | none => 2 ^ 40
  decide (a.since < b.since) || (decide (a.since = b.since) && (decide (rank a < rank b) ||
    (decide (rank a = rank b) && (decide (a.queue < b.queue) || (decide (a.queue = b.queue) && decide (a.num < b.num))))))

/-- A wave among the others, the oldest first. -/
def insertWave (w : Wave) : List Wave → List Wave
  | [] => [w]
  | a :: t => if w.older a then w :: a :: t else a :: insertWave w t

/-- The status of an enqueue and what it leaves: QDENY, then BADDESC, then QFULL. -/
def State.enqueue (s : State) (q : PartId) (n : Nat) (bytes : List Byte) (by_ : Option CtxId) : Nat × State :=
  let x := s.part q
  let cfg := SMap.look x.qcfg n (0 : BitVec 8)
  if !(x.pqm.getLsbD n && cfg.getLsbD 0) then (4, s)
  else match s.checkDesc q (cfg.getLsbD 1) bytes with
  | none => (3, s)
  | some d =>
    if Config.queueWaves ≤ (x.waves.filter fun w => w.queue == n).length then (1, s)
    else (0, s.modPart q fun y =>
      { y with waveNum := y.waveNum + 1
               waves := insertWave { num := y.waveNum, queue := n, desc := d, since := s.cycle, launcher := by_ } y.waves })

/-- LAUNCH_ENQUEUE: the first launch on its way reaches the dispatcher; its context receives the status. A launch whose task was
torn down is no longer on its way, and a teardown later in this cycle takes the wave back (R208). -/
def State.enqueueNext (s : State) (q : PartId) : State :=
  match (s.part q).launching with
  | [] => s
  | l :: rest =>
    let (st, s1) := (s.modPart q fun x => { x with launching := rest }).enqueue q l.queue l.bytes (some l.ctx)
    if l.sd = 0 then s1 else s1.modCtx l.ctx fun x => x.deliver (.s l.sd) (BitVec.ofNat 128 st) 0
def execLaunchEnqueue (q : PartId) (s : State) : Out := .next (s.enqueueNext q)

/-! ## The ready head (R311, R312) -/

/-- A dependence holds: (VALUE − θ) mod 2^32 < 2^31. -/
def Part.depends (x : Part) (w thr : Nat) : Bool := decide (w = 0xFF) || wcReached (SMap.look x.wc w (0 : Word)) thr

/-- SLOT of a queue: a written 0b00 acts as 0b11. -/
def slotBits (cfg : BitVec 8) : Nat := if bitsOf cfg.toNat 2 2 = 0 then 3 else bitsOf cfg.toNat 2 2

def Part.ready (x : Part) (w : Wave) : Bool :=
  bitOf (slotBits (SMap.look x.qcfg w.queue (0 : BitVec 8))) x.aslot && x.depends w.desc.dep0 w.desc.thr0 &&
    x.depends w.desc.dep1 w.desc.thr1

def Part.prio (x : Part) (w : Wave) : Nat := bitsOf (SMap.look x.qcfg w.queue (0 : BitVec 8)).toNat 4 3

/-- The oldest wave of each queue. -/
def Part.heads (x : Part) : List Wave :=
  (List.range 16).filterMap fun n => x.waves.find? fun w => w.queue == n

/-- The ready heads among the waves enqueued before a cycle: a teardown may still take those of the cycle itself back (R208). -/
def Part.readyHeads (x : Part) (cycle : Nat) : List Wave := x.heads.filter fun w => x.ready w && decide (w.since < cycle)

/-- The wave taken: one that was taken and could not place its next group, while it is ready; else the highest PRIO, then the older
enqueue. -/
def Part.choose (x : Part) (cycle : Nat) : Option Wave :=
  let l := x.readyHeads cycle
  match l.find? fun w => x.chosen == some w.num with
  | some w => some w
  | none => l.foldl (fun best w =>
    match best with
    | none => some w
    | some b => if x.prio b < x.prio w ∨ (x.prio b = x.prio w ∧ w.older b) then some w else best) none

/-! ## Placing a group (R34, R313) -/

/-- The state in which a launched task starts (R34). -/
def startLaunched (d : Desc) (g : Nat) (role : Role) (id : BitVec 32) (s1 s2 s4 cbase : Nat) (h : Hold) (now gtc : Nat) :
    Context :=
  let x : Context := {}
  let regs := (((x.setReg (.s 1) (BitVec.ofNat 128 s1)).setReg (.s 2) (BitVec.ofNat 128 s2)).setReg (.s 3)
    (d.arg.setWidth 128)).setReg (.s 4) (BitVec.ofNat 128 s4)
  { regs with
    pc := d.entry, run := .running, kind := .launched g, role := role, readyAt := now + 1, startCycle := now, startGtc := gtc
    csr := { regs.csr with
      ten := d.ten, cbase := BitVec.ofNat 64 cbase, chk := d.chk, sig := d.sig, budget := d.budget, budgetAt := now
      budgetOn := d.budget != 0, hkey := d.hkey, lbanks := h.lbanks, ccown := h.ccown, cbown := h.cbown, taskid := id } }

/-- A placement: the cluster, its cores with their banks. -/
structure Spot where
  cluster : ClusterId
  cores : List (Place × List Nat)
  deriving DecidableEq, Repr

/-- The holding of a group on one core: counters and buffers it receives are reset (R238, R240). -/
def State.takeCore (s : State) (q : PartId) (g : Nat) (d : Desc) (p : Place) (banks : List Nat) : State × Hold :=
  let cc := (s.freeCounters q p).take d.ccn
  let cb := (s.freeBuffers q p).take d.cbn
  let s1 := (s.banksTo p banks (.group g)).modCore p fun k =>
    { k with counters := k.counters.filter (fun e => !cc.contains e.1), buffers := k.buffers.filter (fun e => !cb.contains e.1) }
  (s1, { core := p, lbanks := BitVec.ofNat 12 (maskOf banks), ccown := BitVec.ofNat 64 (maskOf cc)
         cbown := BitVec.ofNat 16 (maskOf cb) })

/-- The tasks of a group on one core, from task index i. -/
def State.startCore (s : State) (q : PartId) (d : Desc) (g index spanIdx : Nat) (role : Role) (h : Hold) (cbase : Nat) :
    List CtxId → List (BitVec 32) → Nat → State × List (BitVec 32)
  | [], ids, _ => (s, ids)
  | c :: rest, ids, i =>
    let (id, s1, more) := match ids with
      | a :: t => (a, s, t)
      | [] => let (a, t) := s.nextTaskid q; (a, t, [])
    let s2 := s1.modCtx c fun x =>
      (startLaunched d g role id i index spanIdx cbase h (s1.nowCtx c) s1.gtc).notBefore x.readyAt
    let s3 := s2.traceIf 1 { typ := 2, ctx := c, taskid := id, a := d.entry, b := BitVec.ofNat 64 index }
    State.startCore s3 q d g index spanIdx role h cbase rest more (i + 1)

/-- The constant-bank image of a core's tasks (R381). -/
def State.imageFor (s : State) (q : PartId) (d : Desc) (cbase : Nat) (p : Place) (tasks : List CtxId) : State :=
  match s.copyImage q p d cbase with
  | .done t => t
  | .fault e => tasks.foldl (fun t c => t.modCtx c fun x => { x with imageFault := some e }) s
  | .poisoned va a => match tasks with
    | c :: _ => s.consume c va a
    | [] => s

/-- Every core of a group, from task index i: its holdings, members, and the images to copy. -/
def State.startCores (s : State) (q : PartId) (d : Desc) (g index spanIdx : Nat) (role : Role) :
    List (Place × List Nat) → List (BitVec 32) → Nat → State × List Hold × List (Place × List CtxId × Nat)
  | [], _, _ => (s, [], [])
  | (p, banks) :: rest, ids, i =>
    let (s1, h) := s.takeCore q g d p banks
    let cbase := 16384 * banks.headD 0 + d.cdst
    let tasks := ((s1.freeContexts p).take d.cpc).map (ctxAt p)
    let (s2, more) := s1.startCore q d g index spanIdx role h cbase tasks ids i
    let (s3, hs, ms) := State.startCores s2 q d g index spanIdx role rest more (i + tasks.length)
    (s3, h :: hs, (p, tasks, cbase) :: ms)

/-- A group placed on its cores. `ids` are TASKIDs to give in place of new ones (R356). -/
def State.placeGroup (s : State) (q : PartId) (wave index : Nat) (d : Desc) (role : Role) (span : Option Nat) (spanIdx : Nat)
    (ids : List (BitVec 32)) (spot : Spot) : State :=
  let g := (s.part q).groupNum
  let s0 := s.modPart q fun x => { x with groupNum := x.groupNum + 1 }
  let (s1, hs, ms) := s0.startCores q d g index spanIdx role spot.cores ids 0
  let grp : Group :=
    { num := g, wave := wave, index := index, desc := d, cluster := spot.cluster, holds := hs
      members := ms.flatMap fun e => e.2.1, span := span, spanIdx := spanIdx, role := role }
  let s2 := s1.setGroup q grp
  if d.clen = 0 then s2 else ms.foldl (fun t e => t.imageFor q d e.2.2 e.1 e.2.1) s2

/-- The groups of a span, or the one group, in the same step. `ids` are divided among the groups in order. -/
def State.placeAll (s : State) (q : PartId) (wave index : Nat) (d : Desc) (role : Role) (ids : List (BitVec 32))
    (spots : List Spot) : State :=
  let span := if d.sp then some (s.part q).groupNum else none
  let n := d.cores * d.cpc
  (spots.zipIdx).foldl (fun t e =>
    t.placeGroup q wave index d role span e.2 ((ids.drop (n * e.2)).take n) e.1) s

/-! ## Where a placement goes -/

/-- The spots of a placement from an origin cluster, with the banks that each core gives. -/
def State.spotsAt (s : State) (q : PartId) (d : Desc) (k : ClusterId) : Option (List Spot) :=
  (s.placementAt q d k).map fun l => l.map fun e =>
    { cluster := e.1, cores := e.2.map fun p => (p, ((s.banksFor p d).map (·.1)).getD []) }

/-- A cluster that can hold a group and has a fit core with banks retained under the pair. -/
def State.hasRetained (s : State) (q : PartId) (d : Desc) (k : ClusterId) : Bool :=
  ((List.range 8).map (8 * k + ·)).any fun p => s.fit q d p && s.comesRetained p d

/-- A list turned so that it starts after an element. -/
def startAfter (l : List ClusterId) (a : Option ClusterId) : List ClusterId :=
  match a with
  | none => l
  | some k => l.filter (fun j => decide (k < j)) ++ l.filter fun j => decide (j ≤ k)

/-- The visits of a new turn (R313). -/
def State.newTurn (s : State) (q : PartId) (w : Wave) : List ClusterId :=
  let lg := s.logical q
  let l := if w.desc.pinned then lg.filter fun k => decide (k % 128 = w.desc.pin) else startAfter lg w.lastAt
  if w.desc.rkey = 0 then l
  else l.filter (s.hasRetained q w.desc) ++ l.filter fun k => !s.hasRetained q w.desc k

/-- The shadow's place: the next cluster in logical order that can hold it, apart from clusters already used (R349). `s` is the
state with the primary placed. -/
def State.otherSpots (s : State) (q : PartId) (d : Desc) (after : ClusterId) (used : List ClusterId) : Option (List Spot) :=
  (startAfter (s.logical q) (some after)).findSome? fun k =>
    match s.spotsAt q d k with
    | some l => if l.any fun e => used.contains e.cluster then none else some l
    | none => none

/-- A placement of a wave from an origin, with its shadow where the launch is checked. -/
def State.placeAt (s : State) (q : PartId) (w : Wave) (spots : List Spot) : Option State :=
  let d := w.desc
  let primary := spots.map (·.cluster)
  if !d.chkd then some (s.placeAll q w.num w.placed d .plain [] spots)
  else
    let s1 := s.placeAll q w.num w.placed d .primary [] spots
    match s1.otherSpots q d (primary.headD 0) primary with
    | none => none
    | some l =>
      let mine := ((s1.part q).groups.map Prod.snd).filter fun g => g.wave == w.num && g.index == w.placed && g.role == .primary
      let ids := mine.flatMap fun g => g.members.map fun c => (s1.ctx c).csr.taskid
      let first := ((spots.head?).bind fun e => e.cores.head?).map (·.1)
      some ((s1.placeAll q w.num w.placed d .shadow ids l).modPart q fun x =>
        { x with checked := x.checked ++ [{ wave := w.num, index := w.placed, desc := d, ids := ids, first := first.getD 0
                                            primary := primary, shadow := l.map (·.cluster) }] })

/-- What a cluster receives in one visit: up to n groups, as many as fit. -/
def State.dealTo (s : State) (q : PartId) (w : Wave) (k : ClusterId) : Nat → State × Wave
  | 0 => (s, w)
  | n + 1 => match (s.spotsAt q w.desc k).bind (s.placeAt q w) with
    | none => (s, w)
    | some t => State.dealTo t q { w with placed := w.placed + 1 } k n

/-- Groups that a visit may place: up to DEAL, and of those left; no cluster has contexts for more than 32. -/
def Wave.share (w : Wave) : Nat := min (w.desc.count - w.placed) (if w.desc.deal = 0 then 32 else w.desc.deal)

/-- The first cluster of a list of visits that receives groups; the visits after it are left of the turn. -/
def State.visit (s : State) (q : PartId) (w : Wave) : List ClusterId → Option (State × Wave)
  | [] => none
  | k :: rest =>
    let (t, v) := s.dealTo q w k w.share
    if v.placed = w.placed then State.visit s q w rest else some (t, { v with lastAt := some k, turn := rest })

/-- The wave's next visit that places something: in the turn under way, else in a new one. -/
def State.deal (s : State) (q : PartId) (w : Wave) : Option (State × Wave) :=
  match s.visit q w w.turn with
  | some r => some r
  | none => s.visit q w (s.newTurn q w)

/-- A wave after a placement: it leaves its list once every group is placed. -/
def putWave (l : List Wave) (w : Wave) : List Wave :=
  if w.desc.count ≤ w.placed then l.filter fun v => v.num != w.num
  else l.map fun v => if v.num = w.num then w else v

/-! ## Successors (R200, R314) -/

/-- The cores that hold banks for a successor, with those banks. -/
def State.retaining (s : State) (k : ClusterId) (g : Nat) : List (Place × List Nat) :=
  ((List.range 8).map fun i => (8 * k + i, (s.core (8 * k + i)).banksWhere (· == .pending g))).filter fun e => e.2 != []

/-- Group 0 of a successor fits the retaining cores: the number of cores, contexts per core, BANKS, and cores that may be given
work. -/
def State.succFits (s : State) (d : Desc) (k : ClusterId) (l : List (Place × List Nat)) : Bool :=
  let free := fun (p : Place) => ((List.range 4).filter fun i => decide ((s.ctx (ctxAt p i)).run = .free)).length
  decide (l.length = d.cores) &&
    l.all (fun e => decide (e.2.length = d.banks) && decide (d.cpc ≤ free e.1) && s.healthyCore e.1) &&
    !s.quarantined k && !(s.cluster k).fenced && (d.clustersFrom k).isSome

/-- The retaining cores may be given work now, and have the counters and buffers. -/
def State.succReady (s : State) (q : PartId) (d : Desc) (l : List (Place × List Nat)) : Bool :=
  l.all fun e => decide (d.cpc ≤ (s.freeContexts e.1).length) && decide (d.ccn ≤ (s.freeCounters q e.1).length) &&
    decide (d.cbn ≤ (s.freeBuffers q e.1).length)

/-- The spots of a successor's first placement: group 0 on the retaining cores, the other groups of a span where they fit. -/
def State.succSpots (s : State) (q : PartId) (d : Desc) (k : ClusterId) (l : List (Place × List Nat)) : Option (List Spot) :=
  match d.clustersFrom k with
  | none => none
  | some r => (r.drop 1).foldr (fun j acc =>
      match acc, (if (s.logical q).contains j then s.coresFor q d j else none) with
      | some t, some c => some ({ cluster := j, cores := c.map fun p => (p, ((s.banksFor p d).map (·.1)).getD []) } :: t)
      | _, _ => none) (some []) |>.map fun t => { cluster := k, cores := l } :: t

/-- What becomes of the first successor: none while it waits. -/
def State.dispatchSucc (s : State) (q : PartId) (w : Wave) : Option State :=
  let update := fun (t : State) (v : Wave) => t.modPart q fun x => { x with succs := putWave x.succs v }
  match w.succ with
  | none => none
  | some (a, g, c) =>
    let k := clusterOf (coreOf c)
    if 0 < w.placed then (s.deal q w).map fun r => update r.1 r.2
    else
      let l := s.retaining k g
      let fail := some (((s.logSuccessor q (coreOf c) c a).dropPending k g).modPart q fun x =>
        { x with succs := x.succs.filter fun v => v.num != w.num })
      if !s.succFits w.desc k l then fail
      else if !s.succReady q w.desc l then none
      else match s.succSpots q w.desc k l with
        | none => fail
        | some spots => (s.placeAt q w spots).map fun t => update t { w with placed := 1, lastAt := some k }

/-- The wave taken cannot place its next group: its turn is over, and nothing of another queue is placed until it can (R312). -/
def Part.stay (x : Part) (w : Wave) : Part :=
  { x with chosen := some w.num, waves := x.waves.map fun v => if v.num = w.num then { v with turn := [] } else v }

/-- DISPATCH (R312): a successor before any queue; then the ready head wave, or nothing. -/
def State.dispatchNext (s : State) (q : PartId) : State :=
  match (s.part q).succs with
  | w :: _ => (s.dispatchSucc q w).getD s
  | [] =>
    match (s.part q).choose s.cycle with
    | none => s
    | some w => match s.deal q w with
      | none => s.modPart q fun x => x.stay w
      | some (t, v) => t.modPart q fun x => { x with chosen := none, waves := putWave x.waves v }
def execDispatch (q : PartId) (s : State) : Out := .next (s.dispatchNext q)

/-! ## Checked launches (R349-R351) -/

/-- The groups of one run. -/
def State.runGroups (s : State) (q : PartId) (k : Checked) (r : Role) : List Group :=
  ((s.part q).groups.map Prod.snd).filter fun g => g.wave == k.wave && g.index == k.index && g.role == r

/-- Every task of the run has ended. -/
def runEnded (l : List Group) : Bool := l != [] && l.all fun g => g.members.all g.ended.contains

/-- The digest of a run: its tasks' digests in the order of the groups and of s1. -/
def runDigest (l : List Group) : Word :=
  crc64 (l.flatMap fun g => (List.range g.members.length).flatMap fun i => bytesOfNat 8 (SMap.look g.digests i (0 : Word)).toNat)

def State.dropRun (s : State) (q : PartId) (k : Checked) (r : Role) : State :=
  (s.runGroups q k r).foldl (fun t g => t.modPart q fun x => { x with groups := SMap.drop x.groups g.num }) s

/-- The record of a checked group with what has changed. -/
def State.setChecked (s : State) (q : PartId) (k : Checked) : State :=
  s.modPart q fun x => { x with checked := x.checked.map fun j => if j.wave = k.wave ∧ j.index = k.index then k else j }
def State.dropChecked (s : State) (q : PartId) (k : Checked) : State :=
  s.modPart q fun x => { x with checked := x.checked.filter fun j => !(j.wave == k.wave && j.index == k.index) }

def Checked.clusters (k : Checked) (r : Role) : List ClusterId :=
  match r with | .primary => k.primary | .shadow => k.shadow | _ => k.referee.getD []
def Checked.used (k : Checked) : List ClusterId := k.primary ++ (k.shadow ++ k.referee.getD [])

/-- Clusters of a run written into the record. -/
def Checked.at_ (k : Checked) (r : Role) (l : List ClusterId) : Checked :=
  match r with
  | .primary => { k with primary := l }
  | .shadow => { k with shadow := l }
  | _ => { k with referee := some l }

/-- The TASKIDs a run is given: the shadow and the referee carry the primary's (R356). -/
def Checked.idsFor (k : Checked) (r : Role) : List (BitVec 32) := if r.digestOnly then k.ids else []

/-- A run placed again, or for the first time, on its origin cluster or on another one. -/
def State.placeRun (s : State) (q : PartId) (k : Checked) (r : Role) (at_ : Option ClusterId) : Option (State × Checked) :=
  let spots := match at_ with
    | some j => if s.quarantined j then s.otherSpots q k.desc j k.used else s.spotsAt q k.desc j
    | none => s.otherSpots q k.desc (k.shadow.headD 0) k.used
  spots.map fun l => (s.placeAll q k.wave k.index k.desc r (k.idsFor r) l, k.at_ r (l.map (·.cluster)))

/-- The TASKIDs and the first core of the primary's run as it is placed now (R354, R356). -/
def State.notePrimary (s : State) (q : PartId) (k : Checked) : Checked :=
  let m := (s.runGroups q k .primary).flatMap (·.members)
  { k with ids := m.map fun c => (s.ctx c).csr.taskid, first := ((m.head?).map coreOf).getD k.first }

/-- A run that gave no digest is placed again; its held completions are forgotten (R351). -/
def State.redoRun (s : State) (q : PartId) (k : Checked) (r : Role) : State :=
  let s1 := s.dropRun q k r
  let k1 : Checked := match r with | .primary => { k with held := [] } | .rerun => { k with heldN := [] } | _ => k
  match s1.placeRun q k1 r (k.clusters r).head? with
  | none => s
  | some (t, k2) => t.setChecked q (if r = .primary then t.notePrimary q k2 else k2)

def Checked.digest (k : Checked) (r : Role) : Option Word :=
  match r with | .primary => k.dP | .shadow => k.dS | .referee => k.dR | _ => k.dN
def Checked.setDigest (k : Checked) (r : Role) (d : Word) : Checked :=
  match r with
  | .primary => { k with dP := some d }
  | .shadow => { k with dS := some d }
  | .referee => { k with dR := some d }
  | _ => { k with dN := some d }

/-- The first run that has ended and has no digest yet. -/
def State.endedRun (s : State) (q : PartId) (k : Checked) : Option Role :=
  [Role.primary, .shadow, .referee, .rerun].find? fun r => (k.digest r).isNone && runEnded (s.runGroups q k r)

/-- Confirmed: the held completions are performed in issue order. -/
def State.confirm (s : State) (q : PartId) (k : Checked) (l : List (Nat × Word × Word)) : State :=
  (l.foldl (fun t e => t.countWave q e.1 e.2.1 e.2.2) s).dropChecked q k

/-- No run agrees: completions are discarded, bit 31 of STATUS is set, an event of type 6 is logged. -/
def State.disagree (s : State) (q : PartId) (k : Checked) : State :=
  let s1 := if k.desc.done = 0xFF then s
    else s.setWc q k.desc.done (SMap.look (s.part q).wc k.desc.done (0 : Word) ||| BitVec.ofNat 64 (2 ^ 63))
  (s1.logEvent q (dieOf k.first) { typ := 6, place := placeWord k.first, first := k.index, wher := k.desc.done }).dropChecked q k

/-- What the digests known so far come to. -/
def State.judge (s : State) (q : PartId) (k : Checked) : State :=
  match k.dP, k.dS with
  | some p, some d =>
    if p = d then s.confirm q k k.held
    else match k.referee with
    | none => match s.placeRun q k .referee none with
      | none => s
      | some (t, k1) => t.setChecked q k1
    | some at_ =>
      match k.dR with
      | none => s
      | some r =>
        if r = p then (k.shadow.foldl State.suspect s).confirm q k k.held
        else if r = d then
          match k.rerun, k.dN with
          | false, _ => match s.placeRun q k .rerun at_.head? with
            | none => s
            | some (t, k1) => t.setChecked q { k1 with rerun := true }
          | true, none => s
          | true, some n => if n = d then s.confirm q k k.heldN else s.disagree q k
        else s.disagree q k
  | _, _ => s

/-- CHECKED_RUN_COMPARE (R351) on the n-th checked group: a run that has ended gives its digest or is placed again; then the
digests are compared. -/
def State.compareRuns (s : State) (q : PartId) (n : Nat) : State :=
  match (s.part q).checked[n]? with
  | none => s
  | some k =>
    match s.endedRun q k with
    | none => s.judge q k
    | some r =>
      let l := s.runGroups q k r
      if l.any (·.noDigest) then s.redoRun q k r
      else
        let k1 := k.setDigest r (runDigest l)
        let s1 := (s.dropRun q k r).setChecked q k1
        -- the referee agrees with the shadow: the primary's cluster gains 1 as D_R becomes known
        let s2 := if r = .referee ∧ k1.dR = k1.dS ∧ k1.dR ≠ k1.dP then k1.primary.foldl State.suspect s1 else s1
        s2.judge q k1
def execCheckedRunCompare (q : PartId) (n : Nat) (s : State) : Out := .next (s.compareRuns q n)

/-! ## Commands (R314, R315) -/

/-- A dispatcher command in progress, carried out. -/
def State.command314 (s : State) (q : PartId) (n : Nat) (f : State → Word → Bool → State) : State :=
  match s.takeCommand q n with
  | some (v, hyp, t) => f t v hyp
  | none => s

def execKillctx (q : PartId) (s : State) : Out := .next (s.command314 q 1 fun t v hyp => t.killCmd q hyp (dargCtx v))
def execKillgrp (q : PartId) (s : State) : Out := .next (s.command314 q 2 fun t v hyp => t.killGroup q hyp (dargCtx v))
def execDrainq (q : PartId) (s : State) : Out := .next (s.command314 q 3 fun t v _ => t.drainQueue q (bitsOf v.toNat 0 4))
def execReside (q : PartId) (s : State) : Out := .next (s.command314 q 4 fun t v _ => t.setSlot q (bitsOf v.toNat 0 1))
def execRelease (q : PartId) (s : State) : Out :=
  .next (s.command314 q 5 fun t v _ => t.releaseBanks q (bitsOf v.toNat 0 1) (BitVec.ofNat 16 (bitsOf v.toNat 16 16)))

end Sys2Proof.Machine
end

