-- ==== Sys2Proof/Machine/Outside.lean ====
section
/-! DEFINITION. Bring-up (R365-R369), the host interface (R370, R371), Zavik Link (R372, R373). -/

namespace Sys2Proof.Machine

/-! ## The boot journal (R366) -/

/-- Bytes 0 to 11 of a record. -/
def JRec.head (r : JRec) : List Byte :=
  (bytesOfNat 4 (r.step % 256 + 2 ^ 8 * (r.att % 256) + 2 ^ 16 * (r.res % 256)) ++ bytesOfNat 4 r.start) ++ bytesOfNat 4 0
/-- The 16 bytes of a record. -/
def JRec.bytes (r : JRec) : List Byte := r.head ++ bytesOfNat 4 r.check
/-- A record as the firmware writes it. -/
def mkRec (step att res start : Nat) : JRec :=
  let r : JRec := { step := step, att := att, res := res, start := start, check := 0 }
  { r with check := crc32 r.head }
/-- A record whose CHECK fails is ignored. -/
def JRec.good (r : JRec) : Bool := r.check == crc32 r.head

/-- Failed attempts of a step's two forms since each last succeeded, with the form of an attempt without a result. -/
structure Fails where
  plain : Nat := 0
  alt : Nat := 0
  open_ : Option Bool := none
  deriving DecidableEq, Repr

def Fails.fail (f : Fails) : Fails :=
  match f.open_ with
  | some true => { f with alt := f.alt + 1, open_ := none }
  | some false => { f with plain := f.plain + 1, open_ := none }
  | none => f
def Fails.take (f : Fails) (r : JRec) : Fails :=
  match r.res with
  | 0 => { f.fail with open_ := some false }
  | 4 => { f.fail with open_ := some true }
  | 1 => match f.open_ with
    | some true => { f with alt := 0, open_ := none }
    | some false => { f with plain := 0, open_ := none }
    | none => f
  | 2 => f.fail
  | _ => f

/-- The counts of a step from the journal. -/
def failsOf (j : List JRec) (step : Nat) : Fails := ((j.filter fun r => r.step == step && r.good).foldl Fails.take {}).fail

def stepOptional (n : Nat) : Bool := n == 4 || n == 6 || decide (9 ≤ n)
def stepAlternate (n : Nat) : Bool := n == 2 || n == 3 || n == 7

/-- How a step is decided: run in its own form or the alternate one, skipped, or recovery. -/
inductive Decision where
  | run (alt : Bool) | skip | recover
  deriving DecidableEq, Repr

def decideStep (j : List JRec) (n : Nat) : Decision :=
  let f := failsOf j n
  if f.plain < 2 then .run false
  else if stepOptional n then .skip
  else if stepAlternate n && decide (f.alt < 2) then .run true
  else .recover

/-- What a step came to in a start. -/
inductive StepRes where
  | ok (alt : Bool) | skipped | recovery
  deriving DecidableEq, Repr

/-- The attempts of a step in start k, from attempt `att` on: `ok` is the step's own check of a form, `outs` what else its
attempts come to. A step is decided at most five times. -/
def runStep (k n : Nat) (ok : Bool → Bool) : Nat → Nat → List Bool → List JRec → List JRec × StepRes
  | 0, _, _, j => (j, .recovery)
  | fuel + 1, att, outs, j =>
    match decideStep j n with
    | .skip => (j ++ [mkRec n att 3 k], .skipped)
    | .recover => (j, .recovery)
    | .run alt =>
      let j1 := j ++ [mkRec n att (if alt then 4 else 0) k]
      if outs.headD true && ok alt then (j1 ++ [mkRec n att 1 k], .ok alt)
      else runStep k n ok fuel (att + 1) outs.tail (j1 ++ [mkRec n att 2 k])

/-- The outcomes given for a step. -/
def bootOuts (b : BootInput) (n : Nat) : List Bool := ((b.attempts.find? fun e => e.1 == n).map (·.2)).getD []

/-- Steps one after another, up to recovery; the results in order. -/
def runSteps (k : Nat) (ok : Nat → Bool → Bool) (outs : Nat → List Bool) :
    List Nat → List JRec → List JRec × List (Nat × StepRes)
  | [], j => (j, [])
  | n :: rest, j =>
    match runStep k n (ok n) 5 1 (outs n) j with
    | (j1, .recovery) => (j1, [(n, .recovery)])
    | (j1, r) => let (j2, l) := runSteps k ok outs rest j1; (j2, (n, r) :: l)

/-! ## Images (R365) -/

/-- The header of an image that may run: magic, type, length, zeros. -/
def bootImageOk (typ : Nat) (l : List Byte) : Bool :=
  let n := fieldAt l 8 8
  decide (fieldAt l 0 4 = 0x5746474E) && decide (fieldAt l 4 2 = typ) && decide (n % 64 = 0) && decide (fieldAt l 0x20 32 = 0) &&
    decide (l.length = 64 + n + 96 + 1452)
def imageType (step : Nat) : Nat := if step = 2 then 1 else if step = 8 then 2 else 3

/-- An image that may run: its header, an SVN not below the fused minimum of its TYPE, and both signatures. -/
def Package.accepts (x : Package) (typ : Nat) (l : List Byte) : Bool :=
  bootImageOk typ l && decide (SMap.look x.minSvn typ 0 ≤ fieldAt l 6 2) && Config.ecdsaOk typ l && Config.lmsOk typ l

/-- The image of a step in one of its forms: the firmware from flash copy A or B, the others as they are given. -/
def Package.imageOf (x : Package) (b : BootInput) (n : Nat) (alt : Bool) : List Byte :=
  if n = 2 then SMap.look x.flash alt.toNat [] else ((b.images.find? fun e => e.1 == n).map (·.2)).getD []

/-- A number that a package of the fabric has: a running one. A package that the state does not list runs as reset left it (log 4). -/
def State.onFabric (s : State) (g : PkgId) : Bool := (s.pkg g).powered

/-- A step's own check: its image is accepted; the number that the journal gives the package is unique on its fabric. -/
def State.stepOk (s : State) (g : PkgId) (b : BootInput) (n : Nat) (alt : Bool) : Bool :=
  let x := s.pkg g
  if n = 6 then decide (b.pkgid.toNat = g) || !s.onFabric b.pkgid.toNat
  else if n = 2 ∨ 8 ≤ n then x.accepts (imageType n) (x.imageOf b n alt)
  else true

/-- An image's body at its load address: a die-store window address of die 0, else a physical address. -/
def State.loadImage (s : State) (g : PkgId) (l : List Byte) : State :=
  let a := fieldAt l 0x10 8
  let body := (l.drop 0x40).take (fieldAt l 8 8)
  s.writeRun (if windowOf a = some .die then dieAt (2 * g) (a - 0x20000000) else hbmAt g a) body

/-! ## Power (R366) -/

/-- A package's volatile state is lost; what the hypervisor keeps in the journal's reserved area stays: QUAR (R367). -/
def State.wipe (s : State) (g : PkgId) : State :=
  let mine := fun (a : Nat) =>
    if a < dieBase then decide (a / 2 ^ 48 = g)
    else if a < scratchBase then decide ((a - dieBase) / 2 ^ 27 = g)
    else if a < localBase then decide ((a - scratchBase) / 2 ^ 28 = g)
    else decide (pkgOf ((a - localBase) / 2 ^ 18) = g)
  { s with
    ctxs := s.ctxs.filter fun e => decide (pkgOf (coreOf e.1) ≠ g)
    cores := s.cores.filter fun e => decide (pkgOf e.1 ≠ g)
    clusters := s.clusters.filter fun e => decide (pkgOfCluster e.1 ≠ g)
    dies := (s.dies.filter fun e => decide (e.1 / 2 ≠ g) || e.2.quar != 0).map fun e =>
      if e.1 / 2 = g then (e.1, { quar := e.2.quar }) else e
    parts := s.parts.filter fun e => decide (e.1 / 16 ≠ g)
    mem := s.mem.filter fun e => !mine e.1
    full := s.full.filter fun w => !mine (8 * w)
    tags := s.tags.filter fun e => !mine (32 * e.1)
    poison := s.poison.filter fun w => !mine (8 * w)
    flying := s.flying.filter fun f => decide (pkgOf f.dst ≠ g)
    gangs := s.gangs.filter fun e => decide (pkgOf (coreOf e.leader) ≠ g) }

/-- A cluster is harvested (R367): bad, quarantined in the previous start, or without a healthy core. -/
def clusterBad (b : BootInput) (bad : List Nat) (quar : Nat → Bool) (k : Nat) : Bool :=
  b.badClusters.contains k || quar k || (List.range 8).all fun i => bad.contains (8 * k + i)

/-- The harvest maps of step 5, as core and cluster lists of the package. -/
def State.harvest (s : State) (g : PkgId) (b : BootInput) (tested : Bool) (quar : Nat → Bool) : State :=
  let bad := b.badCores ++ if tested then b.failedCores else []
  let ks := (List.range 128).filter (clusterBad b bad quar)
  let cores := (List.range 1024).filter fun n => bad.contains n || ks.contains (n / 8)
  let word := fun (i : Nat) => BitVec.ofNat 64 (maskOf ((cores.filter fun n => decide (n / 64 = i)).map (· % 64)))
  let s1 := s.modPkg g fun x =>
    { x with hmapc := (List.range 16).foldl (fun m i => if word i = 0 then m else SMap.put m i (word i)) [] }
  (List.range 2).foldl (fun t d => t.modDie (2 * g + d) fun x =>
    { x with hmapk := BitVec.ofNat 64 (maskOf ((ks.filter fun k => decide (k / 64 = d)).map (· % 64))) }) s1

/-- The ports of step 6. -/
def bootPorts (b : BootInput) : SMap Port :=
  b.links.foldl (fun m e => SMap.put m (e.1 % 16) { up := true, peerPkg := e.2.1, peerPort := e.2.2 % 16 }) []

/-- A context starts at the entry of an image. -/
def State.startImage (s : State) (c : CtxId) (level : Level) (l : List Byte) : State :=
  s.modCtx c fun x =>
    { x with run := .running, level := level, pc := BitVec.ofNat 64 (fieldAt l 0x18 8), readyAt := max x.readyAt (s.nowCtx c + 1) }

/-- The hypervisor starts on system core 0 of die 0 at its entry. -/
def State.startHyp (s : State) (g : PkgId) (l : List Byte) : State :=
  (s.loadImage g l).startImage (ctxAt (systemCore (2 * g) 0) 0) .hyp l

/-- A partition boots: it has the clusters that the hypervisor gives it, if they are no other partition's, and its supervisor starts
on the first healthy core of them (R338). -/
def State.startPart (s : State) (g : PkgId) (p : Nat) (b : BootInput) (l : List Byte) : State :=
  let (u, v) := ((b.sets.find? fun e => e.1 == p).map (·.2)).getD (0, 0)
  let s1 := if s.setFree g p (fun q => q.pcl0) u && s.setFree g p (fun q => q.pcl1) v then
      s.modPart (16 * g + p) fun x => { x with pcl0 := u, pcl1 := v } else s
  let s2 := s1.loadImage g l
  match (s2.logical (16 * g + p)).head? with
  | none => s2
  | some k => match ((List.range 8).map (8 * k + ·)).find? s2.healthyCore with
    | some c => s2.startImage (ctxAt c 0) .sup l
    | none => s2

/-- What one step's result leaves. -/
def State.applyStep (s : State) (g : PkgId) (b : BootInput) (tested : Bool) (quar : Nat → Bool) (e : Nat × StepRes) : State :=
  match e.2 with
  | .ok alt =>
    let l := (s.pkg g).imageOf b e.1 alt
    if e.1 = 2 then s.loadImage g l
    else if e.1 = 5 then s.harvest g b tested quar
    else if e.1 = 6 then s.modPkg g fun x => { x with pkgid := some b.pkgid, ports := bootPorts b }
    else if e.1 = 8 then s.startHyp g l
    else if 9 ≤ e.1 then s.startPart g (e.1 - 9) b l
    else s
  | .recovery => s.modPkg g fun x => { x with recovery := true }
  | .skipped => s

/-- The steps of a start: the partitions are those whose image the input gives. -/
def bootSteps (b : BootInput) : List Nat :=
  [1, 2, 3, 4, 5, 6, 7, 8] ++ ((List.range 16).map (9 + ·)).filter fun n => b.images.any fun e => e.1 == n

/-- A package as it comes up: the flash with the journal, the fuses and the start number stay. -/
def freshPkg (x : Package) : Package :=
  { journal := x.journal, startNum := x.startNum + 1, flash := x.flash, minSvn := x.minSvn }

/-- A package takes the number that step 6 gives it: what is kept of it moves there, and the far ends of its links show it. -/
def State.renumber (s : State) (g m : PkgId) : State :=
  if m = g then s
  else
    let l := SMap.put (SMap.put s.pkgs m (s.pkg g)) g ({ powered := false } : Package)
    { s with pkgs := l.map fun e =>
        (e.1, { e.2 with ports := e.2.ports.map fun p => (p.1, { p.2 with peerPkg := if p.2.peerPkg = g then m else p.2.peerPkg }) }) }

/-- POWER_ON (R366): a start of a package without power. -/
def State.powerUp (s : State) (g : PkgId) (b : BootInput) : State :=
  if (s.pkg g).powered then s
  else
    let quar := fun (k : Nat) => s.quarantined (128 * g + k)
    let s1 := (({ s.wipe g with dies := (s.wipe g).dies.filter fun e => decide (e.1 / 2 ≠ g) } : State)).modPkg g freshPkg
    let n := (s1.pkg g).startNum
    let (j, l) := runSteps n (s1.stepOk g b) (bootOuts b) (bootSteps b) (s1.pkg g).journal
    -- a core that failed step 4 at this start, even where the step was then skipped
    let tested := j.any fun r => r.step == 4 && r.start == n && r.res == 0
    let m := if l.any fun e => e.1 == 6 && e.2 != .skipped && e.2 != .recovery then b.pkgid.toNat else g
    l.foldl (fun t e => t.applyStep m b tested quar e) ((s1.modPkg g fun x => { x with journal := j }).renumber g m)
def execPowerOn (g : PkgId) (b : BootInput) (s : State) : Out := .next (s.powerUp g b)

/-- A start in which power fails in an attempt of a step: the steps before it succeed, the attempt has no result. -/
def lossIn (x : Package) (n : Nat) : Package :=
  let k := x.startNum + 1
  let ok := fun (m : Nat) (alt : Bool) => decide (m ≠ 2) || x.accepts 1 (SMap.look x.flash alt.toNat [])
  let (j, l) := runSteps k ok (fun _ => []) ((List.range n).filter (1 ≤ ·)) x.journal
  if l.any fun e => e.2 == .recovery then { x with journal := j, startNum := k }
  else match decideStep j n with
  | .run alt => { x with journal := j ++ [mkRec n 1 (if alt then 4 else 0) k], startNum := k }
  | .skip => { x with journal := j ++ [mkRec n 1 3 k], startNum := k }
  | .recover => { x with journal := j, startNum := k }

/-- POWER_LOSS (R366): of a package that runs (step 0), or in step n of the start of one without power. -/
def State.powerDown (s : State) (g : PkgId) (n : Nat) : State :=
  if (s.pkg g).powered then
    (s.wipe g).modPkg g fun x =>
      { journal := x.journal, startNum := x.startNum, flash := x.flash, minSvn := x.minSvn, powered := false }
  else if n = 0 ∨ 24 < n then s
  else s.modPkg g fun x => lossIn x n
def execPowerLoss (g : PkgId) (step : Nat) (s : State) : Out := .next (s.powerDown g step)

/-! ## The host (R370, R371) -/

def State.fn (s : State) (g : PkgId) (vf : Nat) : VirtFn := SMap.look (s.pkg g).fns vf {}
def State.modFn (s : State) (g : PkgId) (vf : Nat) (f : VirtFn → VirtFn) : State :=
  s.modPkg g fun x => { x with fns := SMap.put x.fns vf (f (SMap.look x.fns vf {})) }
/-- A virtual function answers: it is enabled, and the package has not come up in recovery. -/
def State.fnUp (s : State) (g : PkgId) (vf : Nat) : Bool := (s.fn g vf).enabled && (s.pkg g).powered && !(s.pkg g).recovery

/-- The status word of a queue at reset. -/
def statusReset : BitVec 32 := 0x80000000

/-- HOST_DOORBELL (R371): the slot is copied and bit 31 of the status cleared; a doorbell while it is clear is ignored. The check
follows as the cycle ends, after the device launches of the cycle (R312). -/
def State.doorbell (s : State) (g : PkgId) (vf q : Nat) (v : BitVec 32) : State :=
  let f := s.fn g vf
  let old := SMap.look f.status q statusReset
  if !s.fnUp g vf ∨ v ≠ 1 ∨ !old.getLsbD 31 then s
  else
    let bytes := (List.range 64).map fun i => SMap.look f.slots (64 * q + i) (0 : Byte)
    s.modFn g vf fun x => { x with status := SMap.put x.status q (old &&& 0x7FFFFFFF), rung := x.rung ++ [(q, bytes)] }

/-- A copied slot is checked and the status written. -/
def State.checkSlot (s : State) (g : PkgId) (vf : Nat) (r : Nat × List Byte) : State :=
  let (st, s1) := s.enqueue (16 * g + vf) r.1 r.2 none
  s1.modFn g vf fun x => { x with status := SMap.put x.status r.1 (BitVec.ofNat 32 (2 ^ 31 + st)) }
/-- Every slot copied in this cycle. -/
def State.checkDoorbells (s : State) : State :=
  s.pkgs.foldl (fun t e => e.2.fns.foldl (fun t f =>
    f.2.rung.foldl (fun t r => t.checkSlot e.1 f.1 r) (t.modFn e.1 f.1 fun x => { x with rung := [] })) t) s
def execHostDoorbell (g : PkgId) (vf q : Fin 16) (v : BitVec 32) (s : State) : Out := .next (s.doorbell g vf.val q.val v)

/-- Insertion of a range by its base. -/
def insertRange (r : Nat × Nat) : List (Nat × Nat) → List (Nat × Nat)
  | [] => [r]
  | a :: t => if r.1 < a.1 then r :: a :: t else a :: insertRange r t
/-- A partition's ranges in 64 KiB units, base and end, by base. -/
def Part.ranges (x : Part) : List (Nat × Nat) :=
  ((List.range 8).filterMap fun k =>
    let r := (SMap.look x.pmr k (0 : Word)).toNat
    if bitsOf r 32 31 = 0 then none else some (bitsOf r 0 32, bitsOf r 0 32 + bitsOf r 32 31)).foldr insertRange []

/-- The physical address of an offset in BAR 2: each address of the ranges counts once (R382). -/
def barAddr : List (Nat × Nat) → Nat → Nat → Option Nat
  | [], _, _ => none
  | (a, b) :: t, low, off =>
    let lo := max a low * 2 ^ 16
    let hi := b * 2 ^ 16
    if hi ≤ lo then barAddr t low off
    else if off < hi - lo then some (lo + off)
    else barAddr t b (off - (hi - lo))

/-- HOST_MEMORY_ACCESS (R370, R371): a write to the partition's memory or to a descriptor slot; reads change nothing, and a
request that leaves the ranges is an Unsupported Request. In recovery function 0 writes a firmware image to flash (R366). -/
def State.hostAccess (s : State) (g : PkgId) (vf : Nat) (a : HostAccess) : State :=
  match a with
  | .flashWrite n l =>
    if (s.pkg g).powered && (s.pkg g).recovery then s.modPkg g fun x => { x with flash := SMap.put x.flash n.val l } else s
  | _ =>
  if !s.fnUp g vf then s
  else match a with
  | .bar2Write off bytes =>
    let l := (runFrom off bytes.length).map (barAddr (s.part (16 * g + vf)).ranges 0)
    if l.all Option.isSome then
      let places := l.map fun x => hbmAt g (x.getD 0)
      (s.setBytes (places.zip bytes)).clearPoison places
    else s
  | .slotWrite q off bytes =>
    if q < 16 ∧ off + bytes.length ≤ 64 then
      s.modFn g vf fun x => { x with slots := (bytes.zipIdx).foldl (fun m e => SMap.put m (64 * q + off + e.2) e.1) x.slots }
    else s
  | .bar2Read .. | .statusRead .. | .flashWrite .. => s
def execHostMemoryAccess (g : PkgId) (vf : Fin 16) (a : HostAccess) (s : State) : Out := .next (s.hostAccess g vf.val a)

/-- FUNCTION_LEVEL_RESET (R371). A slot copied and not yet checked is dropped (log 46). -/
def execFunctionLevelReset (g : PkgId) (vf : Fin 16) (s : State) : Out :=
  .next (if (s.pkg g).powered then s.modFn g vf.val fun x => { x with status := [], rung := [] } else s)
/-- FUNCTION_ENABLE (R371). -/
def execFunctionEnable (g : PkgId) (vf : Fin 16) (s : State) : Out :=
  .next (if (s.pkg g).powered ∧ !(s.pkg g).recovery then s.modFn g vf.val fun x => { x with enabled := true, status := [], rung := [] } else s)

/-! ## Zavik Link (R372, R373) -/

def State.modPort (s : State) (g : PkgId) (n : Nat) (f : Port → Port) : State :=
  s.modPkg g fun x => { x with ports := SMap.put x.ports n (f (SMap.look x.ports n {})) }

/-- A core's pieces in flight on a port are lost: their elements fail with REASON 1. -/
def State.losePieces (s : State) (g : PkgId) (n : Nat) (p : Place) : State :=
  (s.core p).transit.foldl (fun t x =>
    if x.path.contains (g, n) && (t.core p).transit.contains x then
      let u := t.modCore p fun k => { k with transit := k.transit.erase x }
      match u.command p x.cmd with
      | some e => u.loseElem p e x (1, e.place)
      | none => u
    else t) s

/-- A message's path leads through a port. -/
def Flying.usesPort (f : Flying) (g : PkgId) (n : Nat) : Bool := (f.path.getD []).contains (g, n)

/-- A message in flight is lost and logged on die 0 of the transmitting package. -/
def State.loseMessage (s : State) (g : PkgId) (f : Flying) : State :=
  ({ s with flying := s.flying.filter fun h => h.seq != f.seq } : State).logEvent (16 * g + f.bank) (2 * g)
    { typ := 8, reason := 1, place := f.msg.splace, first := f.msg.id, wher := f.dst }

/-- LINK_PORT_DOWN (R373). -/
def State.portDown (s : State) (g : PkgId) (n : Nat) : State :=
  if !(SMap.look (s.pkg g).ports n {}).up then s
  else
    let s1 := (s.cores.map (·.1)).foldl (fun t p => t.losePieces g n p) s
    let s2 := (s.flying.filter (·.usesPort g n)).foldl (fun t f => t.loseMessage g f) s1
    s2.modPort g n fun x => { x with up := false }
def execLinkPortDown (g : PkgId) (n : Fin 16) (s : State) : Out := .next (s.portDown g n.val)

/-- FLIT_RETRANSMISSION (R372). -/
def execFlitRetransmission (g : PkgId) (n : Fin 16) (s : State) : Out :=
  .next (if (SMap.look (s.pkg g).ports n.val {}).up then
    s.modPort g n.val fun x => { x with errcnt := min 0xFFFFFFFF (x.errcnt + 1) } else s)
/-- PORT_DEGRADED (R372). -/
def execPortDegraded (g : PkgId) (n : Fin 16) (s : State) : Out :=
  .next (if (SMap.look (s.pkg g).ports n.val {}).up then s.modPort g n.val fun x => { x with degr := true } else s)

end Sys2Proof.Machine
end

