-- ==== Sys2Proof/Machine/Plain.lean ====
section
/-! DEFINITION. Plain loads and stores (R221), bit-granular access (R222), format-aware access (R223), prefetch (R224) and tags
(R225). -/

namespace Sys2Proof.Machine

/-! ## Plain loads and stores (R221) -/

/-- `ld` (R221). -/
def execLd (d : SReg) (a : SReg) (o : OOp) (size : BitVec 2) (sx : Bool) (s : State) : Out :=
  head (.ld d a o size sx) (needMem a o [] [] [.s d]) free free
    (loadAt (.ld d a o size sx) (sizeBytes size) false allBytes a o (.s d)) s
/-- `st` (R221). -/
def execSt (a : SReg) (o : OOp) (b : XOp) (size : BitVec 2) (s : State) : Out :=
  head (.st a o b size) (needMem a o [b] [] []) free free
    (storeAt (.st a o b size) (sizeBytes size) allBytes a o fun s i => byteOf (s.x b).toNat i) s
/-- `ldv` (R221): bytes that the predicate excludes are neither accessed nor checked. -/
def execLdv (d : VReg) (a : SReg) (o : OOp) (n : PReg) (s : State) : Out :=
  head (.ldv d a o n) (needMem a o [] (keepRead n d) [.v d]) free free
    (fun s => loadAt (.ldv d a o n) 16 false (s.pr n).getLsbD a o (.v d) s) s
/-- `stv` (R221). -/
def execStv (a : SReg) (o : OOp) (v : VReg) (n : PReg) (s : State) : Out :=
  head (.stv a o v n) (needMem a o [] [.v v, .p n] []) free free
    (fun s => storeAt (.stv a o v n) 16 (s.pr n).getLsbD a o (fun s i => byteOf (s.vr v).toNat i) s) s

/-! ## Bit-granular access (R222) -/

/-- The bytes of stream bits j to j + w − 1. -/
def bitBytes (j w : Nat) : List Nat := runFrom (j / 8) ((j + w - 1) / 8 + 1 - j / 8)

/-- Every byte must lie in local memory, in a bank held. -/
def bitCheck (g : Agent) (acc : Acc) (l : List Nat) : Option Trap :=
  match l.find? fun va => windowOf va ≠ some .loc with
  | some va => some { cause := .xlateMiss, fva := BitVec.ofNat 64 va, detail := xlateDetail 0 acc.code 5 }
  | none => (l.find? fun va => !g.holdsBank va).map fun va => xlateTrap acc (BitVec.ofNat 64 va) 0 6

/-- A width of 1 to 64. -/
def widthOk (w : Word) : Bool := decide (1 ≤ w.toNat) && decide (w.toNat ≤ 64)

/-- bN := j + w with INC set. -/
def State.bitStep (s : State) (m : MB) (w : Nat) : State :=
  if m.inc then s.result 1 (.b m.b) ((s.here.breg m.b + BitVec.ofNat 64 w).setWidth 128) 0 else s
def mbWrites (m : MB) : List RegName := if m.inc then [.b m.b] else []

/-- The access to the bytes of bits j to j + w − 1. -/
def State.bitReq (s : State) (i : Instr) (j w : Nat) (d : Option RegName) : FabReq :=
  { seq := 0, ctx := s.cur.ctx, instr := i, ptr := BitVec.ofNat 64 (j / 8)
    bytes := (bitBytes j w).map fun va => (va - j / 8, localAt (coreOf s.cur.ctx) va)
    a := BitVec.ofNat 64 j, b := BitVec.ofNat 64 w, dst := d }

/-- The touched bytes with bits j to j + w − 1 replaced. -/
def bitPut (l : List Byte) (j w : Nat) (v : Word) : List Byte :=
  let n := natOfBytes l
  let lo := j % 8
  bytesOfNat l.length (n - bitsOf n lo w * 2 ^ lo + v.toNat % 2 ^ w * 2 ^ lo)

def ldbitEff (d : SReg) (a : XOp) (m : MB) (s : State) : Eff :=
  let c := s.cur.ctx
  let j := (s.here.breg m.b).toNat
  let w := (s.x a).toNat
  let l := bitBytes j w
  if s.acqPending c then .hold
  else match bitCheck (s.agent c) .load l with
  | some t => .trap t
  | none =>
    (s.bitStep m w).access (s.bitReq (.ldbit d a m) j w (some (.s d))) l.length false

def stbitEff (a b : XOp) (m : MB) (s : State) : Eff :=
  let c := s.cur.ctx
  let j := (s.here.breg m.b).toNat
  let w := (s.x b).toNat
  let l := bitBytes j w
  if s.acqPending c then .hold
  else match bitCheck (s.agent c) .store l with
  | some t => .trap t
  | none =>
    let r := s.bitReq (.stbit a b m) j w none
    (s.bitStep m w).access { r with data := bitPut (s.bytesOf (r.bytes.map (·.2))) j w (s.x a) } l.length false

/-- `ldbit` (R222). -/
def execLdbit (d : SReg) (a : XOp) (m : MB) (s : State) : Out :=
  head (.ldbit d a m) (needX [a] [.b m.b] (.s d :: mbWrites m)) free (operandOk [{ ops := [a], ok := fun s => widthOk (s.x a) }]) (ldbitEff d a m) s
/-- `stbit` (R222). -/
def execStbit (a b : XOp) (m : MB) (s : State) : Out :=
  head (.stbit a b m) (needX [a, b] [.b m.b] (mbWrites m)) free (operandOk [{ ops := [b], ok := fun s => widthOk (s.x b) }]) (stbitEff a b m) s
/-- `bset` (R222). -/
def execBset (n : BReg) (a : XOp) (s : State) : Out :=
  head (.bset n a) (needX [a] [] [.b n]) free free
    (fun s => .done (s.result 1 (.b n) ((s.x a).setWidth 128) 0) .seq) s

/-! ## Format-aware access (R223) -/

/-- The format that the base pointer names. -/
def State.baseFmt (s : State) (a : SReg) : Option Kind := kindOf (fmtOf (s.here.sreg a))
def lanesOf (m : MC) : Nat := 128 / (tidxKind m.tidx.toNat).width

/-- OVF of stf: an integer format or F8A, F8B. -/
def ovfFits (k : Kind) (ovf : Bool) : Bool :=
  match k with
  | .o4 => false
  | .int .. => true
  | .flt f => f.f8 || !ovf

/-- The converted elements of stf with their flags. -/
def stfElems (k : Kind) (m : MC) (v : Vec) : List (Nat × SW) :=
  let t := tidxKind m.tidx.toNat
  (List.range (128 / t.width)).map fun i => convert m.rnd.toNat m.ovf k (t.value (lane v t.width i))

def stfEff (i : Instr) (a : SReg) (o : OOp) (v : VReg) (m : MC) (s0 : State) : Eff :=
  let k := (s0.baseFmt a).getD .o4
  let n := rowBytes k (lanesOf m)
  memAt .store 1 n allBytes a o (fun s ptr l =>
    let el := stfElems k m (s.vr v)
    let d := packStream k.width (el.map (·.1))
    let f := el.foldl (fun x e => x ||| e.2) (0 : SW)
    ((s.modHere fun x => (x.addFlags f).raise f).noteStore (vaOf ptr) n true l d).access
      { seq := 0, ctx := s.cur.ctx, instr := i, ptr := ptr, bytes := l, data := d
        a := BitVec.ofNat 64 (lanesOf m * k.width % 8) } n true) s0

/-- `ldf` (R223). -/
def execLdf (d : VReg) (a : SReg) (o : OOp) (m : MC) (s : State) : Out :=
  head (.ldf d a o m) (needMem a o [] [] [.v d]) free (operandOk [{ ok := fun s => (s.baseFmt a).isSome }])
    (fun s => loadAt (.ldf d a o m) (rowBytes ((s.baseFmt a).getD .o4) (lanesOf m)) true allBytes a o (.v d) s) s
/-- `stf` (R223). -/
def execStf (a : SReg) (o : OOp) (v : VReg) (m : MC) (s : State) : Out :=
  head (.stf a o v m) (needMem a o [] [.v v] []) free
    (operandOk [{ ok := fun s => match s.baseFmt a with | some k => ovfFits k m.ovf | none => false }])
    (stfEff (.stf a o v m) a o v m) s

/-! ## Prefetch and tags (R224, R225) -/

/-- The translation of a page of global memory comes into the caches. A page without R, or an S page at task level, is taken as a
failed walk: nothing is cached and nothing traps, where R224 speaks of the walk alone (DESIGN CHOICE, log 86). -/
def pfEff (a : SReg) (o : OOp) (s : State) : Eff :=
  match effAddr (s.here.sreg a) (s.off o) with
  | none => .done s .seq
  | some ptr =>
    if windowOf (vaOf ptr) = some .glob then
      match s.leafFor (s.agent s.cur.ctx) .load (vaOf ptr) true with
      | .ok (s1, _) => .done s1 .seq
      | .error _ => .done s .seq
    else .done s .seq

/-- The effective address lies in global memory. -/
def tagsetOk (a : SReg) (o : OOp) (s : State) : Bool :=
  match effAddr (s.here.sreg a) (s.off o) with
  | none => true
  | some ptr => windowOf (vaOf ptr) == some .glob

/-- The page needs W and T; KEY is not checked. The tag changes as the head issues (log 13). -/
def tagsetEff (a : SReg) (o : OOp) (b : XOp) (s : State) : Eff :=
  let c := s.cur.ctx
  if s.acqPending c then .hold
  else match effAddr (s.here.sreg a) (s.off o) with
  | none => .trap (ptrOvf (s.here.sreg a))
  | some ptr =>
    match s.resolve (s.agent c) .tag ptr [vaOf ptr] (decide (vaOf ptr % 32 = 0)) false true with
    | .error t => .trap t
    | .ok (s1, l) =>
      let t : BitVec 4 := (s1.x b).setWidth 4
      let s2 := s1.digest c 1 (BitVec.ofNat 64 (vaOf ptr)) (t.setWidth 64)
      .done (if s2.silent c then s2 else s2.setTag (l.headD 0) t) .seq

/-- `pf` (R224). -/
def execPf (a : SReg) (o : OOp) (s : State) : Out := head (.pf a o) (needMem a o [] [] []) free free (pfEff a o) s
/-- `tagset` (R225). -/
def execTagset (a : SReg) (o : OOp) (b : XOp) (s : State) : Out :=
  head (.tagset a o b) (needMem a o [b] [] []) free (operandOk [{ ops := [ooX o], ok := tagsetOk a o }]) (tagsetEff a o b) s

end Sys2Proof.Machine
end

