-- ==== Sys2Proof/Machine/Privileged.lean ====
section
/-! DEFINITION. The privileged heads (R212-R215): each traps PRIV at task level (R173). -/

namespace Sys2Proof.Machine

def privOp (s : State) : Option Cause := if s.here.level = .task then some .priv else none

/-! ## eret (R212, R331) -/

/-- No trap is recorded: ILLEGAL_OP. -/
def eretEarly (s : State) : Option Cause :=
  match privOp s with
  | some c => some c
  | none => if s.here.trapRec.isNone then some .illegalOp else none

/-- The return waits for results that the supervisor's own loads still have to write, and until the units have room for the requests
that it enters again (R264). -/
def eretEff (s : State) : Eff :=
  let c := s.cur.ctx
  match s.here.trapRec with
  | none => .trap { cause := .illegalOp }
  | some r =>
    if s.here.busy ≠ [] ∨ !s.returnRoom c r then .hold
    else
      let s1 := s.returnFromTrap c r
      .done (s1.modCtx c fun x => if x.run = .running ∨ x.run = .free then { x with readyAt := s.nowCtx c + 1 + s.cur.sc } else x) .stay

/-- `eret` (R212). -/
def execEret (s : State) : Out := head .eret (noSlot {}) eretEarly free eretEff s

/-! ## tlbinv (R213) -/

def State.dropLeaves (s : State) (f : TlbEntry → Bool) : State :=
  { s with
    cores := s.cores.map fun e => (e.1, { e.2 with tlb := e.2.tlb.filter fun x => !f x })
    clusters := s.clusters.map fun e => (e.1, { e.2 with tlb := e.2.tlb.filter fun x => !f x }) }

def tlbinvEff (a b : XOp) (s : State) : Eff :=
  let q := s.partOfCtx s.cur.ctx
  let va := vaOf (s.x a)
  .done (s.dropLeaves fun e => if s.x b = 0 then e.covers q va else decide (e.part = q)) .seq

/-- `tlbinv` (R213). -/
def execTlbinv (a b : XOp) (s : State) : Out :=
  head (.tlbinv a b) (needX [a, b] [] []) privOp (operandOk [{ ops := [b], ok := fun s => decide ((s.x b).toNat ≤ 1) }]) (tlbinvEff a b) s

/-! ## msave and mrest (R214) -/

/-- The context of this core that a names. -/
def State.coreCtx (s : State) (a : XOp) : CtxId := ctxAt (coreOf s.cur.ctx) ((s.x a).toNat % 4)

/-- The byte of an image at an offset. -/
def pieceByte (l : List (Nat × List Byte)) (i : Nat) : Byte :=
  match l.find? fun e => decide (e.1 ≤ i) && decide (i < e.1 + e.2.length) with
  | some e => e.2.getD (i - e.1) 0
  | none => 0

/-- An image and its marks go to places of memory, and the AU is no longer open. -/
def State.putImage (s : State) (c : CtxId) (places : List Nat) (marks : CellMarks) (l : List Byte) : State :=
  ((s.setBytes (places.zip l)).setMarks (places.headD 0) marks).modCtx c fun y => { y with auOpen := false, arrayCmds := 0 }

/-- The AU of a context goes into places of memory, from the array or from its frame. -/
def State.scanInto (s : State) (c : CtxId) (places : List Nat) : State :=
  let x := s.ctx c
  match x.auFrame with
  | some off =>
    let a := dieAt (dieOf (coreOf c)) off
    s.putImage c places (s.marksAt a) (s.slice a places.length)
  | none =>
    let (s1, a, cmds) := s.takeAu c
    let l := imagePieces (x.tcsb.getD 0) (s1.mstatWord c) cmds a
    s1.putImage c places a.marks ((List.range places.length).map (pieceByte l))

/-- The scan-out of `msave` (R214): an AU that stands in an image marked by `mrest` is copied from there. -/
def State.msaveInto (s : State) (t : CtxId) (places : List Nat) : Except Trap State :=
  match (s.cluster (clusterOf (coreOf t))).images.find? fun e => e.1 == t with
  | none => .ok ((s.scanInto t places).freeFrames t)
  | some (_, w) =>
    match s.readAuImage t (BitVec.ofNat 64 w) places.length with
    | .error e => .error e
    | .ok (s1, a, b) => .ok ((s1.putImage t places (s1.marksAt a) b).freeFrames t)

/-- A fault on the write is the SAVE_FAULT of the context whose AU is saved (R333). -/
def msaveEff (a : XOp) (b : SCOp) (s : State) : Eff :=
  let c := s.cur.ctx
  let t := s.coreCtx a
  let ptr := s.sc b
  if !s.quiet c then .hold
  else if ptr.toNat % 8 ≠ 0 then .trap { cause := .align, fva := ptr }
  else
    let n := if (s.ctx t).auOpen then Config.frameImageBytes else 64
    match s.resolve (s.agent c) .store ptr (runFrom (vaOf ptr) n) true true true with
    | .error _ => .done (s.saveFault t) .seq
    | .ok (s1, l) =>
      if l.any s1.poisoned then .done (s1.saveFault t) .seq
      else if (s1.ctx t).auOpen then
        match s1.msaveInto t l with
        | .error e => .trap e
        | .ok s2 => .done s2 .seq
      else .done (s1.setBytes (l.zip (bytesOfNat 32 ((s1.ctx t).tcsb.getD 0).toNat ++ bytesOfNat 8 (s1.mstatWord t).toNat ++
          List.replicate 24 0))) .seq

/-- An image that shows an open AU is marked. -/
def mrestEff (a : XOp) (b : SCOp) (s : State) : Eff :=
  let c := s.cur.ctx
  let t := s.coreCtx a
  let ptr := s.sc b
  let vas := runFrom (vaOf ptr) 64
  if !s.quiet c then .hold
  else if ptr.toNat % 8 ≠ 0 then .trap { cause := .align, fva := ptr }
  else match s.resolve (s.agent c) .load ptr vas true true true with
  | .error e => .trap e
  | .ok (s1, l) =>
    match s1.poisonedTrap ptr vas l with
    | some e => .trap e
    | none =>
      if bitOf (fieldAt (s1.bytesOf l) 0x20 8) 0 then
        .done ((s1.modCluster (clusterOf (coreOf t)) fun k =>
          { k with images := k.images.filter (fun e => e.1 != t) ++ [(t, ptr.toNat)] }).modCtx t fun x =>
            { x with auOpen := true, auMarked := true, arrayCmds := imageCmds (s1.bytesOf l) }) .seq
      else .done s1 .seq

def ctxOk (a : XOp) : State → Option Cause := operandOk [{ ops := [a], ok := fun s => decide ((s.x a).toNat ≤ 3) }]

/-- `msave` (R214). -/
def execMsave (a : XOp) (b : SCOp) (s : State) : Out :=
  head (.msave a b) (needX [a, scX b] [] []) privOp (ctxOk a) (msaveEff a b) s
/-- `mrest` (R214). -/
def execMrest (a : XOp) (b : SCOp) (s : State) : Out :=
  head (.mrest a b) (needX [a, scX b] [] []) privOp (ctxOk a) (mrestEff a b) s

/-! ## htset (R215) -/

/-- The entry is locked as the head issues; the head completes in its next turn, once the value is visible. -/
def htsetEff (a : XOp) (b : SCOp) (s : State) : Eff :=
  let q := s.partOfCtx s.cur.ctx
  let n := (s.x a).toNat
  if s.here.wait.isSome then .done (s.setHandler q n (s.sc b)) .seq
  else .wait (s.modPart q fun x => { x with locked := natInsert x.locked n })

/-- `htset` (R215). -/
def execHtset (a : XOp) (b : SCOp) (s : State) : Out :=
  head (.htset a b) (needX [a, scX b] [] []) privOp (operandOk [{ ops := [a], ok := fun s => decide ((s.x a).toNat ≤ 1023) }]) (htsetEff a b) s

end Sys2Proof.Machine
end

