-- ==== Sys2Proof/Machine/Issue.lean ====
section
/-! DEFINITION. What a context does in its turn: settle results, take a trap that is due, fetch, check and decode the next head
(R47, R156-R159, R165, R358, R359), or take one from the gang's stream (R42). -/

namespace Sys2Proof.Machine

/-- What a turn comes to: a head to run, or a new state without one. -/
inductive Turn where
  | run (i : Instr) (s : State)
  | idle (s : State)
  deriving DecidableEq, Repr

/-! ## Single-step (R359) -/

/-- Every asynchronous operation that a stepped head started has drained, and of a leader's head, every member still in the gang
has issued it (R318 j). -/
def State.drained (s : State) (c : CtxId) (st : Stepped) : Bool :=
  let k := s.core (coreOf c)
  !(k.fabric.any fun r => r.ctx == c && decide (st.seq ≤ r.seq)) &&
    !((s.unitReqs c).any fun r => decide (st.seq ≤ r.seq)) &&
    !(k.port.any fun e => e.ctx == c && decide (st.seq ≤ e.seq)) &&
    !(st.array && decide ((s.ctx c).arrayCmds ≠ 0)) &&
    !(st.pilot && k.pilotQ.any fun r => match r with | .dload d .. => d == c | .penc d .. => d == c | .pdec d .. => d == c) &&
    !(st.launch && (s.part (s.partOfCtx c)).launching.any fun l => l.ctx == c) &&
    (match s.gangWith c with
      | some g => decide (g.leader ≠ c) || g.members.all fun m => (s.ctx m).csr.gang != 2 || (s.ctx m).fwd.isEmpty
      | none => true)

/-! ## Breakpoints (R358) -/

def State.breakAt (s : State) (c : CtxId) (ptr : Word) : Bool :=
  let x := s.ctx c
  let q := s.part (s.partOfCtx c)
  decide (x.level = .task) && !x.bpPass && decide (x.role ≠ .shadow) && decide (x.role ≠ .referee) &&
    (List.range 4).any fun k =>
      let b := SMap.look q.bpc k (0 : Word)
      b.getLsbD 32 && samePtr (SMap.look q.bpa k (0 : Word)) ptr && (b.getLsbD 33 || b.setWidth 32 == x.csr.taskid)

/-! ## Fetch (R47) -/

/-- The buffer after a line is fetched: it holds two. -/
def Context.addLine (x : Context) (va : Nat) (l : Line) : Context :=
  { x with lines := (va, l) :: (x.lines.filter fun e => e.1 != va).take 1 }

/-- The line of a pointer: from the buffer, or fetched. -/
def State.needLine (s : State) (c : CtxId) (ptr : Word) : Except Trap (State × Line) :=
  match (s.ctx c).lines.find? fun e => e.1 == lineVa ptr with
  | some e => .ok (s, e.2)
  | none =>
    match s.fetchLine c (lineVa ptr) with
    | .error t => .error t
    | .ok (s1, l) => .ok (s1.modCtx c fun x => x.addLine (lineVa ptr) l, l)

/-- The fetch of the next sequential line while the buffer has room: it may happen early, and a failure leaves no trace. -/
def State.fetchAhead (s : State) (c : CtxId) : State :=
  let x := s.ctx c
  let va := match x.lines.find? fun e => e.1 == lineVa x.pc with
    | some _ => (lineVa x.pc + 64) % 2 ^ 52
    | none => lineVa x.pc
  if x.run ≠ .running ∨ 2 ≤ x.lines.length ∨ x.lines.any (fun e => e.1 == va) ∨ !x.fwd.isEmpty then s
  else match s.fetchLine c va with
    | .error _ => s
    | .ok (s1, l) => s1.modCtx c fun y => { y with lines := y.lines ++ [(va, l)] }

/-- The line checks of R156, R158 and R159 at a pointer. A wrong signature comes before a head index that the line does not have:
the spec gives no order (DESIGN CHOICE, log 69). -/
def lineTrap (x : Context) (ptr : Word) (l : Line) : Option Cause :=
  if !lineFormed l then some .illegalLine
  else if x.csr.sig && !lineSigOk l then some .sigMismatch
  else if headIx ptr = 0 ∨ lineHc l < headIx ptr then some .illegalLine
  else none

/-- A head of the line at a pointer, decoded: PRIV comes between ILLEGAL_OP and ILLEGAL_OPERAND (R165). -/
def State.readHead (s : State) (c : CtxId) (ptr : Word) (l : Line) : Turn :=
  let k := headIx ptr
  let h := l.getD k 0
  let t := headTail l k
  let r := Raw.ofWords h t
  let trap := fun (z : Cause) => Turn.idle (s.takeTrap c { cause := z })
  match decodeRaw r with
  | .op => trap .illegalOp
  | .operand =>
    let csr := match csrOfRaw r with
      | some (n, w) => s.csrDenied c n w (w && decide (h.toNat % 16 ≠ 1))
      | none => false
    if (decide (h.toNat / 512 = 0x18) && decide ((s.ctx c).level = .task)) || csr then trap .priv else trap .illegalOperand
  | .ok i =>
    let cur : Issue := { ctx := c, ptr := ptr, hc := lineHc l, h := h, t := t.headD 0, sc := headSc h, forwarded := false, seq := s.seq }
    .run i { s with cur := cur }

/-- Fetch and decode at the context's own pointer. -/
def State.fetchTurn (s : State) (c : CtxId) : Turn :=
  let ptr := (s.ctx c).pc
  match s.needLine c ptr with
  | .error t => .idle (s.raiseTrap c t)
  | .ok (s1, l) =>
    match lineTrap (s1.ctx c) ptr l with
    | some z => .idle (s1.takeTrap c { cause := z })
    | none => s1.readHead c ptr l

/-! ## Gangs (R42, R43) -/

/-- A leader waits while a follower's buffer is full (R43). -/
def State.gangFull (s : State) (c : CtxId) : Bool :=
  match s.gangWith c with
  | none => false
  | some g => decide (g.leader = c) && g.members.any fun m => decide (m ≠ c) && decide (Config.forwardSlots ≤ (s.ctx m).fwd.length)

/-- Whether a follower takes its heads from the stream: in the gang, or still taking the delay slots of its detachment. -/
def State.onStream (s : State) (c : CtxId) : Bool :=
  let x := s.ctx c
  x.csr.gang == 2 || !x.fwd.isEmpty ||
    (x.csr.gang == 3 && decide (0 < x.gangSlots) &&
      (match s.gangWith c with | some g => (s.ctx g.leader).csr.gang == 1 | none => false))

/-- The next head of the stream, once the leader's issue cycle and the skew allow it. -/
def State.streamTurn (s : State) (c : CtxId) : Turn :=
  match (s.ctx c).fwd with
  | [] => .idle (s.modCtx c fun x => { x.endStream with heldAt := some s.cycle })
  | f :: _ =>
    if s.nowCtx c < f.due then .idle (s.modCtx c fun x => { x with heldAt := some s.cycle })
    else .run f.instr { s with cur := { f.issue with seq := s.seq } }

/-! ## The turn -/

/-- The flags that a request may raise (R67, R70): an overflow of the division on signed types only. -/
def UnitReq.mayRaise (r : UnitReq) : SW :=
  match r.instr with
  | .div .. | .rem .. => fDZ ||| fOF
  | .vdiv _ _ _ m | .vrem _ _ _ m => if m.uns then fDZ else fDZ ||| fOF
  | .vexp2 .. => fIX ||| fOF ||| fUF ||| fNV
  | .vlog2 .. | .vrsqrt .. => fIX ||| fNV ||| fDZ
  | .vrcp .. => fIX ||| fOF ||| fUF ||| fNV ||| fDZ
  | .vsqrt .. => fIX ||| fNV
  | .vtanh .. => fIX ||| fUF ||| fNV
  | _ => fDZ

/-- R265: a pending unit request may raise an enabled flag. -/
def State.unitsHold (s : State) (c : CtxId) : Bool := (s.unitReqs c).any fun r => r.mayRaise &&& (s.ctx c).csr.ten != 0

/-- An `ldf` that is not yet performed may raise an enabled flag: ARITH comes before the next head (R24). -/
def State.ldfHolds (s : State) (c : CtxId) : Bool := (s.fabricOf c).any fun r => r.mayRaise &&& (s.ctx c).csr.ten != 0

/-- An ARITH trap may still come before the next head (R24, R265). -/
def State.arithHolds (s : State) (c : CtxId) : Bool := s.unitsHold c || s.ldfHolds c

/-- A trap that comes before the next head: one that is due, the image's, STEP, WATCHDOG, which waits for what may raise ARITH; with
`none` for a hold. -/
def State.beforeHead (s : State) (c : CtxId) : Option (Option Trap) :=
  let x := s.ctx c
  match x.due with
  | some t => some (some t)
  | none =>
    match x.imageFault with
    | some t => if x.level = .task then some (some t) else none
    | none =>
      match x.stepDue with
      | some st => some (if s.drained c st then some { cause := .step, next := true } else none)
      | none => if decide (x.level = .task) && s.budgetOver c then
          some (if s.arithHolds c then none else some { cause := .watchdog })
        else none

/-- The context is not yet ready, or must not issue. -/
def State.notReady (s : State) (c : CtxId) : Bool :=
  let x := s.ctx c
  decide (s.nowCtx c < x.readyAt) || s.gangFull c || s.arithHolds c

/-- A context's turn to issue. -/
def State.prepare (s0 : State) (c : CtxId) : Turn :=
  let held := fun (s : State) => Turn.idle (s.modCtx c fun x => { x with heldAt := some s.cycle })
  if (s0.ctx c).run ≠ .running ∨ (s0.ctx c).inChain then held s0
  else
    let s := s0.modCtx c fun x => x.settle (s0.nowCtx c)
    match s.beforeHead c with
    | some (some t) => .idle (s.takeTrap c t)
    | some none => held s
    | none =>
      if s.notReady c then held s
      else match (s.ctx c).wait with
      | some w => .run w.instr { s with cur := w.issue }
      | none =>
      if (s.ctx c).csr.gang == 2 && (s.ctx c).csr.stp then .idle (s.modCtx c Context.detach)
      else
        let stream := s.onStream c
        if stream && (s.ctx c).fwd.isEmpty then s.streamTurn c
        else if s.breakAt c (s.ctx c).pc then .idle (s.takeTrap c { cause := .brk })
        else if stream then s.streamTurn c
        else s.fetchTurn c

/-! ## A task placed from outside (log 12) -/

/-- The 64 bytes of a line. -/
def lineBytes (l : Line) : List Byte := (l.take 32).flatMap fun h => bytesOfNat 2 h.toNat

/-- A context made to run a launched task at head 1 of line 0 of its local memory, holding bank 0, with its turn next. -/
def State.placeHead (s : State) (c : CtxId) (line : List Byte) : State :=
  let s1 := (s.writeRun (localAt (coreOf c) 0) line).setBank (coreOf c) 0 (.group 0)
  let s2 := s1.modCtx c fun x =>
    { x with
      run := .running, level := .task, kind := if x.kind = .none then .launched 0 else x.kind, pc := 1, dsn := 0, npc := none
      lines := [], wait := none, due := none, stepDue := none, imageFault := none, readyAt := 0, fwd := [], gangEnd := none
      gangSlots := 0
      csr := { x.csr with lbanks := x.csr.lbanks ||| 1, wde := false, gang := 0, stp := false, sig := false, budgetOn := false
                          budgetSpent := false } }
  { s2 with poison := s2.poison.filter (fun w => decide (w < wordIx (localAt (coreOf c) 0)) ||
              decide (wordIx (localAt (coreOf c) 0) + 8 ≤ w)), agenda := [.issue c] }

end Sys2Proof.Machine
end

