-- ==== Sys2Proof/Machine/Reliability.lean ====
section
/-! DEFINITION. Events of fetch, gangs and traps; of basins, repair and supply (R342-R347, R353, R374); of trace and dumps
(R360, R363); and the commands that control-register writes give (R246, R307, R344, R345, R357). -/

namespace Sys2Proof.Machine

/-! ## Fetch, gangs, traps -/

/-- LINE_FETCH (R47): the fetch of the next line ahead of its head. -/
def execLineFetch (c : CtxId) (s : State) : Out := .next (s.fetchAhead c)

/-- GANG_FORWARD (R42): a follower with a forwarded head takes it in the next move. -/
def execGangForward (c : CtxId) (s : State) : Out :=
  .next (if decide ((s.ctx c).run = .running) && !(s.ctx c).inChain && s.onStream c && !(s.ctx c).fwd.isEmpty &&
      !(s.agenda.contains (.issue c)) then
    { s with agenda := .issue c :: s.agenda } else s)

/-- TAKE_TRAP (R326): the trap that comes before the context's next head. -/
def execTakeTrap (c : CtxId) (s : State) : Out :=
  .next (if (s.ctx c).run ≠ .running then s else
    match s.beforeHead c with
    | some (some t) => s.takeTrap c t
    | _ => s)

/-- WATCHDOG (R40): BUDGET is spent and no other trap is due. -/
def execWatchdog (c : CtxId) (s : State) : Out :=
  .next (if decide ((s.ctx c).run = .running) && decide ((s.ctx c).level = .task) && s.budgetOver c && (s.ctx c).due.isNone &&
      (s.ctx c).imageFault.isNone && (s.ctx c).stepDue.isNone && !s.arithHolds c then
    s.takeTrap c { cause := .watchdog } else s)

/-! ## Commands of control registers -/

/-- INBOX_REPRESENT (R307). -/
def execInboxRepresent (p : Place) (s : State) : Out := .next (s.representInbox p)
/-- INBOX_DISCARD (R307). -/
def execInboxDiscard (p : Place) (s : State) : Out := .next (s.discardInbox p)
/-- DECODE_TABLE_LOAD (R246). -/
def execDecodeTableLoad (q : PartId) (s : State) : Out := .next (s.loadPending q)
/-- DELAY_TABLE_CLEAR (R357). -/
def execDelayTableClear (p : Place) (s : State) : Out := .next (s.clearDelays p)
/-- UNFENCE (R344). -/
def execUnfence (q : PartId) (k : Fin 16) (s : State) : Out := .next (s.unfence q k.val)
/-- RESET (R344). -/
def execReset (q : PartId) (k : Fin 16) (s : State) : Out := .next (s.resetCommand q k.val)
/-- BANK_DROP (R345). -/
def execBankDrop (g : PkgId) (v : Word) (s : State) : Out := .next (s.dropBank g v)
/-- TUG_UNIT_MOVE (R346). -/
def execTugUnitMove (g : PkgId) (s : State) : Out := .next (s.moveUnit g)

/-! ## Errors, walks, supply -/

/-- UNCORRECTABLE_CONSUMPTION (R342): work of a context consumes an error at a VA, which stands at a physical address. -/
def execUncorrectableConsumption (c : CtxId) (va : Word) (pa : Nat) (s : State) : Out :=
  .next (s.consume c va (hbmAt (pkgOf (coreOf c)) pa))

/-- TABLE_WALK (R319, R322): a walk for a miss of a cluster of the part; a successful leaf is cached. -/
def execTableWalk (k : ClusterId) (q : PartId) (va : Nat) (s : State) : Out :=
  .next (if s.partOf (8 * k) ≠ q ∨ windowOf va ≠ some .glob then s
    else
      let g : Agent := { core := 8 * k, part := q, level := .task, hkey := 0, lbanks := 0 }
      match s.cached g va false, s.walk q va with
      | none, .ok (w, level) =>
        s.cacheLeaf g { part := q, va := va / 2 ^ pageLg level, lg := pageLg level, leaf := w } false
      | _, _ => s)

/-- Windows in a row that passed PFTH, the first of them included, after which an array is failing (R353). -/
def failingPasses : Nat := 11

/-- CORRECTED_ERROR_WINDOW (R353): the end of a cluster's 1 ms window with its count of corrected errors. -/
def State.errorWindow (s : State) (k : ClusterId) (count : Nat) : State :=
  let x := s.cluster k
  if count ≤ (s.pkg (pkgOfCluster k)).pfth.toNat then s.modCluster k fun y => { y with passes := 0 }
  else
    let s1 := s.modCluster k fun y => { y with passes := min failingPasses (y.passes + 1), supply := 450, frozenSupply := true }
    if failingPasses ≤ x.passes + 1 then s1.quarantine k 2 else s1
def execCorrectedErrorWindow (k : ClusterId) (count : Nat) (s : State) : Out := .next (s.errorWindow k count)

/-- VOLTAGE_CONTROLLER_REQUEST (R353): a lower supply is refused to a frozen cluster. -/
def execVoltageControllerRequest (k : ClusterId) (mv : Nat) (s : State) : Out :=
  .next (if (s.cluster k).frozenSupply ∧ mv < (s.cluster k).supply then s else s.modCluster k fun x => { x with supply := mv })

/-- CLUSTER_UNFREEZE (R353). -/
def execClusterUnfreeze (k : ClusterId) (s : State) : Out :=
  .next (s.modCluster k fun x => { x with frozenSupply := false, passes := 0 })

/-- CLOCK_SLOWING (R374): n cycles of the 1.2 GHz count are withheld from a cluster. -/
def execClockSlowing (k : ClusterId) (n : Nat) (s : State) : Out :=
  .next (s.modCluster k fun x => { x with lost := min s.cycle (x.lost + n) })

/-! ## Samples (R360) -/

/-- TRACE_SAMPLE: each context of the core that is running a task, at a multiple of PER. -/
def State.sample (s : State) (p : Place) : State :=
  let t := (s.part (s.partOf p)).trctl
  let per := bitsOf t.toNat 16 16
  if !t.getLsbD 0 ∨ per = 0 ∨ s.gtc % per ≠ 0 ∨ (s.core p).sampledAt = some s.gtc then s
  else
    let s1 := s.modCore p fun k => { k with sampledAt := some s.gtc }
    (List.range 4).foldl (fun u i =>
      let c := ctxAt p i
      let x := u.ctx c
      if x.run = .running ∧ x.kind ≠ .none then
        u.traceIf 0 { typ := 1, ctx := c, taskid := x.csr.taskid, a := x.pc, b := BitVec.ofNat 64 (u.budgetLeft c) }
      else u) s1
def execTraceSample (p : Place) (s : State) : Out := .next (s.sample p)

/-! ## Dumps (R363) -/

/-- The 64-byte header of a record. -/
def dumpHeader (d : Dump) (cause seq : Nat) (trunc saved : Bool) (gtc len : Nat) : List Byte :=
  bytesOfNat 8 (cause % 256 + 2 ^ 8 * seq + 2 ^ 10 * trunc.toNat + 2 ^ 11 * saved.toNat + 2 ^ 12 * d.taskid.toNat) ++
    bytesOfNat 8 (placeWord (coreOf d.ctx) + 2 ^ 22 * ctxNo d.ctx) ++ bytesOfNat 8 gtc ++ bytesOfNat 8 len ++ List.replicate 32 0

/-- n bytes from a place among cells that were kept. -/
def keptRun (l : Memory) (a n : Nat) : List Byte := sliceFrom n a (l.filter fun e => decide (a ≤ e.1) && decide (e.1 < a + n))

/-- What follows the header: the save area, and the array frame and the banks as they stood when the dump was asked for; nothing
where the context was killed without a save. -/
def State.dumpBody (s : State) (d : Dump) : List Byte :=
  let p := coreOf d.ctx
  let ctl := (s.part (s.partOf p)).dumpctl
  if !d.saved then []
  else
    let frame := match d.frame with
      | some f => if ctl.getLsbD 1 then keptRun d.kept (dieAt (dieOf p) f) Config.frameBytes else []
      | none => []
    let banks := if ctl.getLsbD 2 then
        ((List.range 12).filter d.lbanks.getLsbD).flatMap fun i => keptRun d.kept (localAt p (16384 * i)) 16384
      else []
    s.slice (dieAt (dieOf p) d.save) 4096 ++ (frame ++ banks)

/-- A record at DUMPP, cut at the area's end. -/
def State.putDump (s : State) (d : DieId) (x : Dump) (cause seq : Nat) (saved : Bool) (body : List Byte) : State :=
  let base := bitsOf (s.die d).dumpb.toNat 0 28
  let size := bitsOf (s.die d).dumpb.toNat 32 28
  let off := (s.die d).dumpp.toNat
  let full := 64 + body.length
  let room := size - off
  let trunc := decide (room < full)
  let l := (dumpHeader x cause seq trunc saved s.gtc (min room full) ++ body).take room
  (s.writeRun (dieAt d (base + off)) l).modDie d fun y =>
    { y with dumpp := BitVec.ofNat 64 (off + l.length), dumpFull := y.dumpFull || trunc }

/-- DUMP_WRITE: the oldest pending dump, with its second record where there is one; its context is free again. A consumption of this
cycle first has its reset (R342). -/
def State.writeDump (s : State) (d : DieId) : State :=
  match (s.die d).dumps with
  | [] => s
  | x :: rest =>
    if (s.cluster (clusterOf (coreOf x.ctx))).consumed.isSome then s else
    let s1 := s.putDump d x x.cause 1 x.saved (s.dumpBody x)
    let s2 := match x.extra with
      | some k => s1.putDump d x k 2 false []
      | none => s1
    let s3 := s2.modDie d fun y => { y with dumps := rest }
    if (s3.ctx x.ctx).run = .dumping then s3.freeCtx x.ctx else s3
def execDumpWrite (d : DieId) (s : State) : Out := .next (s.writeDump d)

end Sys2Proof.Machine
end

