-- ==== Sys2Proof/Machine/Scalar.lean ====
section
/-! DEFINITION. The scalar families: arithmetic (R185), logic and shifts (R187), bit counts and fields (R188, R189), moves (R190),
compare and predicates (R191, R192), fat pointers (R193), time and identity (R194). -/

namespace Sys2Proof.Machine

/-- Two sources and a scalar result of fixed latency. -/
def alu (i : Instr) (lat : Nat) (f : Word → Word → Word) (d : SReg) (a b : XOp) : State → Out :=
  head i (needX [a, b] [] [.s d]) free free fun s => .done (s.setS lat d (f (s.x a) (s.x b))) .seq

/-- One source. -/
def alu1 (i : Instr) (f : Word → Word) (d : SReg) (a : XOp) : State → Out :=
  head i (needX [a] [] [.s d]) free free fun s => .done (s.setS 1 d (f (s.x a))) .seq

/-! ## Arithmetic (R185) -/

def mulHigh (a b : Word) : Word := BitVec.ofInt 64 (a.toInt * b.toInt / 2 ^ 64)
def mulHighN (a b : Word) : Word := BitVec.ofNat 64 (a.toNat * b.toNat / 2 ^ 64)
def minS (a b : Word) : Word := if a.slt b then a else b
def maxS (a b : Word) : Word := if a.slt b then b else a
def minU (a b : Word) : Word := if a.ult b then a else b
def maxU (a b : Word) : Word := if a.ult b then b else a

/-- `add` (R185). -/
def execAdd (d : SReg) (a b : XOp) (s : State) : Out := alu (.add d a b) 1 (fun x y => x + y) d a b s
/-- `sub` (R185). -/
def execSub (d : SReg) (a b : XOp) (s : State) : Out := alu (.sub d a b) 1 (fun x y => x - y) d a b s
/-- `mul` (R185). -/
def execMul (d : SReg) (a b : XOp) (s : State) : Out := alu (.mul d a b) 3 (fun x y => x * y) d a b s
/-- `mulh` (R185). -/
def execMulh (d : SReg) (a b : XOp) (s : State) : Out := alu (.mulh d a b) 3 mulHigh d a b s
/-- `mulhn` (R185). -/
def execMulhn (d : SReg) (a b : XOp) (s : State) : Out := alu (.mulhn d a b) 3 mulHighN d a b s
/-- `min` (R185). -/
def execMin (d : SReg) (a b : XOp) (s : State) : Out := alu (.min d a b) 1 minS d a b s
/-- `max` (R185). -/
def execMax (d : SReg) (a b : XOp) (s : State) : Out := alu (.max d a b) 1 maxS d a b s
/-- `minn` (R185). -/
def execMinn (d : SReg) (a b : XOp) (s : State) : Out := alu (.minn d a b) 1 minU d a b s
/-- `maxn` (R185). -/
def execMaxn (d : SReg) (a b : XOp) (s : State) : Out := alu (.maxn d a b) 1 maxU d a b s

/-! ## Logic and shifts (R187): the count is b[5:0] -/

def countOf (b : Word) : Nat := b.toNat % 64

/-- `and` (R187). -/
def execAnd (d : SReg) (a b : XOp) (s : State) : Out := alu (.and d a b) 1 (fun x y => x &&& y) d a b s
/-- `or` (R187). -/
def execOr (d : SReg) (a b : XOp) (s : State) : Out := alu (.or d a b) 1 (fun x y => x ||| y) d a b s
/-- `xor` (R187). -/
def execXor (d : SReg) (a b : XOp) (s : State) : Out := alu (.xor d a b) 1 (fun x y => x ^^^ y) d a b s
/-- `andn` (R187). -/
def execAndn (d : SReg) (a b : XOp) (s : State) : Out := alu (.andn d a b) 1 (fun x y => x &&& ~~~y) d a b s
/-- `shl` (R187). -/
def execShl (d : SReg) (a b : XOp) (s : State) : Out := alu (.shl d a b) 1 (fun x y => x <<< countOf y) d a b s
/-- `shr` (R187). -/
def execShr (d : SReg) (a b : XOp) (s : State) : Out := alu (.shr d a b) 1 (fun x y => x >>> countOf y) d a b s
/-- `sra` (R187). -/
def execSra (d : SReg) (a b : XOp) (s : State) : Out := alu (.sra d a b) 1 (fun x y => x.sshiftRight (countOf y)) d a b s
/-- `rotl` (R187). -/
def execRotl (d : SReg) (a b : XOp) (s : State) : Out := alu (.rotl d a b) 1 (fun x y => x.rotateLeft (countOf y)) d a b s

/-! ## Bit counts and fields (R188, R189) -/

/-- Bits of a word, from bit 63 down. -/
def leadingZeros (a : Word) : Nat := ((List.range 64).takeWhile fun i => !a.getLsbD (63 - i)).length
def trailingZeros (a : Word) : Nat := ((List.range 64).takeWhile fun i => !a.getLsbD i).length
def onesIn (a : Word) : Nat := ((List.range 64).filter fun i => a.getLsbD i).length

/-- The width b[5:0], with 0 standing for 64. -/
def widthOf (b : Word) : Nat := if b.toNat % 64 = 0 then 64 else b.toNat % 64
def signExt (a : Word) (w : Nat) : Word := BitVec.ofInt 64 (signedOf w a.toNat)
def zeroExt (a : Word) (w : Nat) : Word := BitVec.ofNat 64 (a.toNat % 2 ^ w)
/-- The n bits from bit p, zero above bit 63. -/
def fieldGet (a : Word) (p n : Nat) : Word := BitVec.ofNat 64 (a.toNat / 2 ^ p % 2 ^ n)
/-- Bits p to min(p + n − 1, 63) of d become the low bits of a. -/
def fieldPut (d a : Word) (p n : Nat) : Word :=
  let m := BitVec.ofNat 64 ((2 ^ n - 1) * 2 ^ p)
  (d &&& ~~~m) ||| (BitVec.ofNat 64 (a.toNat * 2 ^ p) &&& m)

/-- `clz` (R188). -/
def execClz (d : SReg) (a : XOp) (s : State) : Out := alu1 (.clz d a) (fun x => BitVec.ofNat 64 (leadingZeros x)) d a s
/-- `ctz` (R188). -/
def execCtz (d : SReg) (a : XOp) (s : State) : Out := alu1 (.ctz d a) (fun x => BitVec.ofNat 64 (trailingZeros x)) d a s
/-- `popc` (R188). -/
def execPopc (d : SReg) (a : XOp) (s : State) : Out := alu1 (.popc d a) (fun x => BitVec.ofNat 64 (onesIn x)) d a s
/-- `sext` (R188). -/
def execSext (d : SReg) (a b : XOp) (s : State) : Out := alu (.sext d a b) 1 (fun x y => signExt x (widthOf y)) d a b s
/-- `zext` (R188). -/
def execZext (d : SReg) (a b : XOp) (s : State) : Out := alu (.zext d a b) 1 (fun x y => zeroExt x (widthOf y)) d a b s
/-- `bfx` (R189): the length is the modifier's n plus 1. -/
def execBfx (d : SReg) (a b : XOp) (n : Fin 64) (s : State) : Out :=
  alu (.bfx d a b n) 1 (fun x y => fieldGet x (countOf y) (n.val + 1)) d a b s
/-- `bfi` (R189): sd is read and written. -/
def execBfi (d : SReg) (a b : XOp) (n : Fin 64) (s : State) : Out :=
  head (.bfi d a b n) (needX [a, b] [.s d] [.s d]) free free
    (fun s => .done (s.setS 1 d (fieldPut (s.here.sreg d) (s.x a) (countOf (s.x b)) (n.val + 1))) .seq) s

/-! ## Moves and selection (R190) -/

/-- `li` (R190). -/
def execLi (d : SReg) (k : Lit) (s : State) : Out :=
  head (.li d k) (needX [] [] [.s d]) free free (fun s => .done (s.setS 1 d (litWord k)) .seq) s
/-- `lih` (R190): bits [31:0] of sd are kept. -/
def execLih (d : SReg) (k : Lit) (s : State) : Out :=
  head (.lih d k) (needX [] [.s d] [.s d]) free free
    (fun s => .done (s.setS 1 d (k ++ (s.here.sreg d).setWidth 32)) .seq) s
/-- `mov` (R190). -/
def execMov (d : SReg) (a : XOp) (s : State) : Out := alu1 (.mov d a) id d a s
/-- `sel` (R190). -/
def execSel (d : SReg) (n : PReg) (a b : XOp) (s : State) : Out :=
  head (.sel d n a b) (needX [a, b] [.p n] [.s d]) free free
    (fun s => .done (s.setS 1 d (if (s.pr n).getLsbD 0 then s.x a else s.x b)) .seq) s

/-! ## Compare and predicates (R191, R192) -/

/-- The conditions of R191 by code. -/
def condHolds (c : Nat) (a b : Word) : Bool :=
  match c with
  | 0 => a == b
  | 1 => a != b
  | 2 => a.slt b
  | 3 => !a.slt b
  | 4 => !b.slt a
  | 5 => b.slt a
  | 6 => a.ult b
  | 7 => !a.ult b
  | 8 => !b.ult a
  | 9 => b.ult a
  | 10 => (a &&& b) != 0
  | _ => (a &&& b) == 0

/-- All ones or none. -/
def predOf (c : Bool) : Half := if c then BitVec.allOnes 16 else 0

/-- `cmp` (R191). -/
def execCmp (pd : PReg) (cond : BitVec 4) (a b : XOp) (s : State) : Out :=
  head (.cmp pd cond a b) (needX [a, b] [] [.p pd]) free free
    (fun s => .done (s.setP 1 pd (predOf (condHolds cond.toNat (s.x a) (s.x b))) 0) .seq) s
/-- `pl.and` (R192). -/
def execPlAnd (pd pa : PReg) (s : State) : Out :=
  head (.plAnd pd pa) (needX [] [.p pd, .p pa] [.p pd]) free free (fun s => .done (s.setP 1 pd (s.pr pd &&& s.pr pa) 0) .seq) s
/-- `pl.or` (R192). -/
def execPlOr (pd pa : PReg) (s : State) : Out :=
  head (.plOr pd pa) (needX [] [.p pd, .p pa] [.p pd]) free free (fun s => .done (s.setP 1 pd (s.pr pd ||| s.pr pa) 0) .seq) s
/-- `pl.not` (R192). -/
def execPlNot (pd pa : PReg) (s : State) : Out :=
  head (.plNot pd pa) (needX [] [.p pa] [.p pd]) free free (fun s => .done (s.setP 1 pd (~~~(s.pr pa)) 0) .seq) s

/-! ## Fat pointers (R193) -/

/-- FMT := b[4:0], BLG := b[7:5]. -/
def withFmt (a b : Word) : Word :=
  BitVec.ofNat 64 (a.toNat % 2 ^ 52 + bitsOf b.toNat 5 3 * 2 ^ 52 + bitsOf b.toNat 0 5 * 2 ^ 55 + a.toNat / 2 ^ 60 * 2 ^ 60)
/-- KEY := b[3:0]. -/
def withKey (a b : Word) : Word := BitVec.ofNat 64 (a.toNat % 2 ^ 60 + b.toNat % 16 * 2 ^ 60)
/-- KEY, FMT, BLG or VA. -/
def fieldOf (a : Word) (k : Nat) : Word :=
  match k with
  | 0 => BitVec.ofNat 64 (bitsOf a.toNat 60 4)
  | 1 => BitVec.ofNat 64 (bitsOf a.toNat 55 5)
  | 2 => BitVec.ofNat 64 (bitsOf a.toNat 52 3)
  | _ => BitVec.ofNat 64 (bitsOf a.toNat 0 52)

/-- `ptradd` (R193). -/
def execPtradd (d : SReg) (a b : XOp) (s : State) : Out :=
  head (.ptradd d a b) (needX [a, b] [] [.s d]) free free
    (fun s => match effAddr (s.x a) (s.x b) with
      | none => .trap (ptrOvf (s.x a))
      | some w => .done (s.setS 1 d w) .seq) s
/-- `ptrfmt` (R193). -/
def execPtrfmt (d : SReg) (a b : XOp) (s : State) : Out := alu (.ptrfmt d a b) 1 withFmt d a b s
/-- `ptrtag` (R193). -/
def execPtrtag (d : SReg) (a b : XOp) (s : State) : Out := alu (.ptrtag d a b) 1 withKey d a b s
/-- `ptrfld` (R193): a k above 3 traps ILLEGAL_OPERAND. -/
def execPtrfld (d : SReg) (a b : XOp) (s : State) : Out :=
  head (.ptrfld d a b) (needX [a, b] [] [.s d]) free (operandOk [{ ops := [b], ok := fun s => decide ((s.x b).toNat ≤ 3) }])
    (fun s => .done (s.setS 1 d (fieldOf (s.x a) (s.x b).toNat)) .seq) s

/-! ## Time and identity (R194) -/

/-- `gtc` (R194). -/
def execGtc (d : SReg) (s : State) : Out :=
  head (.gtc d) (needX [] [] [.s d]) free free (fun s => .done (s.setS 2 d (BitVec.ofNat 64 s.gtc)) .seq) s

/-- The identity word (R194). -/
def State.identity (s : State) (c : CtxId) : Word :=
  let p := coreOf c
  BitVec.ofNat 64 (ctxNo c + 4 * placeWord p + 2 ^ 24 * (s.logicalCore (pkgOf p) (p % 1024) % 1024))
/-- `ctxid` (R194). -/
def execCtxid (d : SReg) (s : State) : Out :=
  head (.ctxid d) (needX [] [] [.s d]) free free (fun s => .done (s.setS 1 d (s.identity s.cur.ctx)) .seq) s

end Sys2Proof.Machine
end

