-- ==== Sys2Proof/Machine/Simd.lean ====
section
/-! DEFINITION. The vector families of fixed latency (R249-R262): integer and floating lanes, logic and shifts, compare and select,
scalar transfers, reductions, conversion and packing, thresholds. Latencies are those of R167. -/

namespace Sys2Proof.Machine

/-- Two vector sources. -/
def needVV (a b : VReg) (n : PReg) (d : VReg) : Need := { reads := [.v a, .v b] ++ keepRead n d, writes := [.v d] }
/-- One. -/
def needV (a : VReg) (n : PReg) (d : VReg) : Need := { reads := .v a :: keepRead n d, writes := [.v d] }

/-- A head that gives a vector with flags. -/
def vecHead (i : Instr) (n : Need) (lat : Nat) (d : VReg) (f : State → Vec × SW) : State → Out :=
  head i n free free fun s => let (v, fl) := f s; .done (s.setV lat d v fl) .seq

/-! ## Integer lanes (R250) -/

/-- Lanes of an exact integer, written wrapped or clamped. -/
def intLanes (m : MI) (s : State) (d a b : VReg) (f : Int → Int → Int) : Vec × SW :=
  let w := widBits m.wid
  mapLanes w (s.pr m.pred) (s.vr d) fun i => intToInt w (!m.uns) m.satm (f (laneInt m (s.vr a) i) (laneInt m (s.vr b) i))

def vint (i : Instr) (lat : Nat) (f : Int → Int → Int) (d a b : VReg) (m : MI) : State → Out :=
  vecHead i (needVV a b m.pred d) lat d fun s => intLanes m s d a b f
def vint1 (i : Instr) (f : Int → Int) (d a : VReg) (m : MI) : State → Out :=
  vecHead i (needV a m.pred d) 1 d fun s => intLanes m s d a a fun x _ => f x

/-- `vadd` on integers (R250). -/
def execVaddInt (d a b : VReg) (m : MI) (s : State) : Out := vint (.vaddInt d a b m) 1 (fun x y => x + y) d a b m s
/-- `vsub` on integers (R250). -/
def execVsubInt (d a b : VReg) (m : MI) (s : State) : Out := vint (.vsubInt d a b m) 1 (fun x y => x - y) d a b m s
/-- `vmul` on integers (R250). -/
def execVmulInt (d a b : VReg) (m : MI) (s : State) : Out := vint (.vmulInt d a b m) 3 (fun x y => x * y) d a b m s
/-- `vmulh` (R250). -/
def execVmulh (d a b : VReg) (m : MI) (s : State) : Out :=
  vint (.vmulh d a b m) 3 (fun x y => x * y / 2 ^ widBits m.wid) d a b m s
/-- `vmin` on integers (R250). -/
def execVminInt (d a b : VReg) (m : MI) (s : State) : Out := vint (.vminInt d a b m) 1 min d a b m s
/-- `vmax` on integers (R250). -/
def execVmaxInt (d a b : VReg) (m : MI) (s : State) : Out := vint (.vmaxInt d a b m) 1 max d a b m s
/-- `vabs` on integers (R250). -/
def execVabsInt (d a : VReg) (m : MI) (s : State) : Out := vint1 (.vabsInt d a m) (fun x => (x.natAbs : Int)) d a m s
/-- `vneg` on integers (R250). -/
def execVnegInt (d a : VReg) (m : MI) (s : State) : Out := vint1 (.vnegInt d a m) (fun x => -x) d a m s

/-! ## Floating lanes (R252) -/

/-- Lanes of the modifier's format: d, a and b as values. -/
def fltLanes (m : MF) (s : State) (d a b : VReg) (f : FVal → FVal → FVal → FVal × SW) : Vec × SW :=
  let k := ftyFmt m.fty
  let val := fun (v : VReg) (i : Nat) => k.value (lane (s.vr v) k.width i)
  mapLanes k.width (s.pr m.pred) (s.vr d) fun i => roundRes k m.rnd.toNat (f (val d i) (val a i) (val b i))

def vflt (i : Instr) (lat : Nat) (f : FVal → FVal → FVal × SW) (d a b : VReg) (m : MF) : State → Out :=
  vecHead i (needVV a b m.pred d) lat d fun s => fltLanes m s d a b fun _ x y => f x y
/-- The fused heads read vd (R252). -/
def vfused (i : Instr) (f : FVal → FVal → FVal → FVal × SW) (d a b : VReg) (m : MF) : State → Out :=
  vecHead i { reads := [.v a, .v b, .v d, .p m.pred], writes := [.v d] } 4 d fun s => fltLanes m s d a b f

/-- A sign change or removal: exact, a NaN gives the default NaN. -/
def signVal (f : Bool → Bool) : FVal → FVal × SW
  | .nan s => (.nan false, flagIf s fNV)
  | .inf n => (.inf (f n), 0)
  | .fin n m e => (.fin (f n) m e, 0)
def vsign (i : Instr) (f : Bool → Bool) (d a : VReg) (m : MF) : State → Out :=
  vecHead i (needV a m.pred d) 1 d fun s => fltLanes m s d a a fun _ x _ => signVal f x

/-- `vadd` on floats (R252). -/
def execVaddFloat (d a b : VReg) (m : MF) (s : State) : Out := vflt (.vaddFloat d a b m) 4 (addVal m.rnd.toNat) d a b m s
/-- `vsub` on floats (R252). -/
def execVsubFloat (d a b : VReg) (m : MF) (s : State) : Out :=
  vflt (.vsubFloat d a b m) 4 (fun x y => addVal m.rnd.toNat x y.negate) d a b m s
/-- `vmul` on floats (R252). -/
def execVmulFloat (d a b : VReg) (m : MF) (s : State) : Out := vflt (.vmulFloat d a b m) 4 mulVal d a b m s
/-- `vfma` (R252). -/
def execVfma (d a b : VReg) (m : MF) (s : State) : Out := vfused (.vfma d a b m) (fmaVal m.rnd.toNat) d a b m s
/-- `vfms` (R252). -/
def execVfms (d a b : VReg) (m : MF) (s : State) : Out :=
  vfused (.vfms d a b m) (fun z x y => fmaVal m.rnd.toNat z x.negate y) d a b m s
/-- `vmin` on floats (R252). -/
def execVminFloat (d a b : VReg) (m : MF) (s : State) : Out := vflt (.vminFloat d a b m) 2 (minmaxVal false) d a b m s
/-- `vmax` on floats (R252). -/
def execVmaxFloat (d a b : VReg) (m : MF) (s : State) : Out := vflt (.vmaxFloat d a b m) 2 (minmaxVal true) d a b m s
/-- `vabs` on floats (R252). -/
def execVabsFloat (d a : VReg) (m : MF) (s : State) : Out := vsign (.vabsFloat d a m) (fun _ => false) d a m s
/-- `vneg` on floats (R252). -/
def execVnegFloat (d a : VReg) (m : MF) (s : State) : Out := vsign (.vnegFloat d a m) (fun n => !n) d a m s

/-! ## Logic, shifts and bit counts (R253) -/

/-- Byte lanes under a byte predicate. -/
def vbytes (i : Instr) (f : Nat → Nat → Nat) (d a b : VReg) (n : PReg) : State → Out :=
  vecHead i (needVV a b n d) 1 d fun s =>
    (mapBytes (s.pr n) (s.vr d) fun j => f (lane (s.vr a) 8 j) (lane (s.vr b) 8 j), 0)

/-- `vand` (R253). -/
def execVand (d a b : VReg) (n : PReg) (s : State) : Out := vbytes (.vand d a b n) (fun x y => x &&& y) d a b n s
/-- `vor` (R253). -/
def execVor (d a b : VReg) (n : PReg) (s : State) : Out := vbytes (.vor d a b n) (fun x y => x ||| y) d a b n s
/-- `vxor` (R253). -/
def execVxor (d a b : VReg) (n : PReg) (s : State) : Out := vbytes (.vxor d a b n) (fun x y => x ^^^ y) d a b n s
/-- `vandn` (R253). -/
def execVandn (d a b : VReg) (n : PReg) (s : State) : Out := vbytes (.vandn d a b n) (fun x y => x &&& (255 - y)) d a b n s
/-- `vnot` (R253). -/
def execVnot (d a : VReg) (n : PReg) (s : State) : Out :=
  vecHead (.vnot d a n) (needV a n d) 1 d (fun s => (mapBytes (s.pr n) (s.vr d) fun j => 255 - lane (s.vr a) 8 j, 0)) s

/-- Lanes shifted by lanes of vb, modulo the lane width. -/
def vshift (i : Instr) (f : Nat → Nat → Nat → Nat) (d a b : VReg) (m : MI) : State → Out :=
  vecHead i (needVV a b m.pred d) 1 d fun s =>
    let w := widBits m.wid
    mapLanes w (s.pr m.pred) (s.vr d) fun j => (f w (lane (s.vr a) w j) (lane (s.vr b) w j % w), 0)

/-- `vshl` (R253). -/
def execVshl (d a b : VReg) (m : MI) (s : State) : Out := vshift (.vshl d a b m) (fun w x n => x * 2 ^ n % 2 ^ w) d a b m s
/-- `vshr` (R253). -/
def execVshr (d a b : VReg) (m : MI) (s : State) : Out := vshift (.vshr d a b m) (fun _ x n => x / 2 ^ n) d a b m s
/-- `vsra` (R253). -/
def execVsra (d a b : VReg) (m : MI) (s : State) : Out :=
  vshift (.vsra d a b m) (fun w x n => wrapTo w (signedOf w x / 2 ^ n)) d a b m s

def vcount (i : Instr) (f : Nat → Nat → Nat) (d a : VReg) (m : MI) : State → Out :=
  vecHead i (needV a m.pred d) 1 d fun s =>
    let w := widBits m.wid
    mapLanes w (s.pr m.pred) (s.vr d) fun j => (f w (lane (s.vr a) w j), 0)

/-- `vclz` (R253). -/
def execVclz (d a : VReg) (m : MI) (s : State) : Out := vcount (.vclz d a m) (fun w x => w - bitlen x) d a m s
/-- `vpopc` (R253). -/
def execVpopc (d a : VReg) (m : MI) (s : State) : Out :=
  vcount (.vpopc d a m) (fun w x => ((List.range w).filter (bitOf x)).length) d a m s

/-! ## Compare, select, rearrange (R254, R255) -/

/-- A predicate from the outcomes of lanes of w bits: every bit of a lane's bytes. -/
def predLanes (w : Nat) (f : Nat → Bool) : Half :=
  BitVec.ofNat 16 ((List.range 16).foldl (fun a i => a + if f (i / (w / 8)) then 2 ^ i else 0) 0)

def intCond (c : Nat) (a b : Int) : Bool :=
  match c with
  | 0 => decide (a = b)
  | 1 => decide (a ≠ b)
  | 2 => decide (a < b)
  | 3 => decide (b ≤ a)
  | 4 => decide (a ≤ b)
  | _ => decide (b < a)

def fltCond (c : Nat) (a b : FVal) : Bool × SW :=
  let un := a.isNan || b.isNan
  let sig := a.isSnan || b.isSnan
  match c with
  | 0 => (eqVal a b, flagIf sig fNV)
  | 1 => (!eqVal a b, flagIf sig fNV)
  | 2 => (!un && ltVal a b, flagIf un fNV)
  | 3 => (!un && !ltVal a b, flagIf un fNV)
  | 4 => (!un && !ltVal b a, flagIf un fNV)
  | 5 => (!un && ltVal b a, flagIf un fNV)
  | 6 => (un, flagIf sig fNV)
  | _ => (!un, flagIf sig fNV)

/-- The condition literal lies in 0 to n. -/
def litOk (k : Lit) (n : Int) : State → Option Cause := operandOk [{ ok := fun _ => decide (0 ≤ k.toInt) && decide (k.toInt ≤ n) }]

/-- `vcmp` on integers (R254). -/
def execVcmpInt (a b : VReg) (cond : Lit) (m : MI) (s : State) : Out :=
  head (.vcmpInt a b cond m) { reads := [.v a, .v b], writes := [.p m.pred] } free (litOk cond 5)
    (fun s => .done (s.setP 1 m.pred (predLanes (widBits m.wid) fun i =>
      intCond cond.toNat (laneInt m (s.vr a) i) (laneInt m (s.vr b) i)) 0) .seq) s

/-- `vcmp` on floats (R254). -/
def execVcmpFloat (a b : VReg) (cond : Lit) (m : MF) (s : State) : Out :=
  head (.vcmpFloat a b cond m) { reads := [.v a, .v b], writes := [.p m.pred] } free (litOk cond 7)
    (fun s =>
      let k := ftyFmt m.fty
      let f := fun i => fltCond cond.toNat (k.value (lane (s.vr a) k.width i)) (k.value (lane (s.vr b) k.width i))
      .done (s.setP 2 m.pred (predLanes k.width fun i => (f i).1)
        ((List.range (128 / k.width)).foldl (fun x i => x ||| (f i).2) 0)) .seq) s

/-- `vsel` (R255). -/
def execVsel (d a b : VReg) (n : PReg) (s : State) : Out :=
  vecHead (.vsel d a b n) { reads := [.v a, .v b, .p n], writes := [.v d] } 1 d
    (fun s => (mapBytes (s.pr n) (s.vr b) fun i => lane (s.vr a) 8 i, 0)) s
/-- `vperm` (R255). -/
def execVperm (d a b : VReg) (n : PReg) (s : State) : Out :=
  vecHead (.vperm d a b n) (needVV a b n d) 2 d
    (fun s => (mapBytes (s.pr n) (s.vr d) fun i =>
      let c := lane (s.vr b) 8 i
      if bitOf c 7 then 0 else lane (s.vr a) 8 (c % 16), 0)) s
/-- `vext` (R255). -/
def execVext (d a b : VReg) (k : Fin 16) (s : State) : Out :=
  vecHead (.vext d a b k) { reads := [.v a, .v b], writes := [.v d] } 1 d
    (fun s => (ofLanes 8 ((List.range 16).map fun i =>
      if i + k.val < 16 then lane (s.vr a) 8 (i + k.val) else lane (s.vr b) 8 (i + k.val - 16)), 0)) s
/-- `vmov` (R255). -/
def execVmov (d a : VReg) (n : PReg) (s : State) : Out :=
  vecHead (.vmov d a n) (needV a n d) 1 d (fun s => (mapBytes (s.pr n) (s.vr d) fun i => lane (s.vr a) 8 i, 0)) s

/-! ## Scalar transfers (R256) -/

def lanesIn (size : BitVec 2) : Nat := 16 / sizeBytes size
/-- A lane index below the lane count. -/
def laneOk (b : XOp) (size : BitVec 2) : State → Option Cause := operandOk [{ ops := [b], ok := fun s => decide ((s.x b).toNat < lanesIn size) }]

/-- `vbcast` (R256). -/
def execVbcast (d : VReg) (a : XOp) (size : BitVec 2) (s : State) : Out :=
  vecHead (.vbcast d a size) (needX [a] [] [.v d]) 1 d
    (fun s => (ofLanes (8 * sizeBytes size) (List.replicate (lanesIn size) (s.x a).toNat), 0)) s
/-- `vins` (R256). -/
def execVins (d : VReg) (a b : XOp) (size : BitVec 2) (s : State) : Out :=
  head (.vins d a b size) (needX [a, b] [.v d] [.v d]) free (laneOk b size)
    (fun s =>
      let w := 8 * sizeBytes size
      .done (s.setV 1 d (ofLanes w ((List.range (lanesIn size)).map fun i =>
        if i = (s.x b).toNat then (s.x a).toNat else lane (s.vr d) w i)) 0) .seq) s
/-- `vget` (R256). -/
def execVget (d : SReg) (a : VReg) (b : XOp) (size : BitVec 2) (sx : Bool) (s : State) : Out :=
  head (.vget d a b size sx) (needX [b] [.v a] [.s d]) free (laneOk b size)
    (fun s =>
      let w := 8 * sizeBytes size
      let x := lane (s.vr a) w (s.x b).toNat
      .done (s.setS 1 d (if sx then BitVec.ofInt 64 (signedOf w x) else BitVec.ofNat 64 x)) .seq) s

/-! ## Reductions and dot products (R257, R258) -/

/-- The active lanes of a vector, from the lowest. -/
def activeInts (m : MI) (s : State) (a : VReg) : List Int :=
  ((List.range (128 / widBits m.wid)).filter (active (s.pr m.pred) (widBits m.wid))).map (laneInt m (s.vr a))
def activeFlts (m : MF) (s : State) (a : VReg) : List FVal :=
  let k := ftyFmt m.fty
  ((List.range (128 / k.width)).filter (active (s.pr m.pred) k.width)).map fun i => k.value (lane (s.vr a) k.width i)

def reduceHead (i : Instr) (lat : Nat) (d : SReg) (a : VReg) (n : PReg) (f : State → Nat × SW) : State → Out :=
  head i { reads := [.v a, .p n], writes := [.s d] } free free fun s =>
    let (x, fl) := f s
    .done (s.result lat (.s d) (BitVec.ofNat 128 x) fl) .seq

/-- `vrsum` on integers (R257). -/
def execVrsumInt (d : SReg) (a : VReg) (m : MI) (s : State) : Out :=
  reduceHead (.vrsumInt d a m) 2 d a m.pred
    (fun s => intToInt 64 true m.satm ((activeInts m s a).foldl (fun x y => x + y) 0)) s
/-- `vrmax` on integers (R257). -/
def execVrmaxInt (d : SReg) (a : VReg) (m : MI) (s : State) : Out :=
  reduceHead (.vrmaxInt d a m) 2 d a m.pred
    (fun s => (wrapTo 64 ((activeInts m s a).foldl max (intMin (widBits m.wid) (!m.uns))), 0)) s
/-- `vrmin` on integers (R257). -/
def execVrminInt (d : SReg) (a : VReg) (m : MI) (s : State) : Out :=
  reduceHead (.vrminInt d a m) 2 d a m.pred
    (fun s => (wrapTo 64 ((activeInts m s a).foldl min (intMax (widBits m.wid) (!m.uns))), 0)) s

/-- Accumulator lane j of a dot product. -/
def dotLane (m : MI) (s : State) (d a b : VReg) (j : Nat) : Nat × SW :=
  let w := 4 * widBits m.wid
  let acc : Int := if m.uns then (lane (s.vr d) w j : Nat) else signedOf w (lane (s.vr d) w j)
  let dot := (List.range 4).foldl (fun x k => x + laneInt m (s.vr a) (4 * j + k) * laneInt m (s.vr b) (4 * j + k)) acc
  intToInt w (!m.uns) m.satm dot

/-- `vdot4` (R258). -/
def execVdot4 (d a b : VReg) (m : MI) (s : State) : Out :=
  vecHead (.vdot4 d a b m) { reads := [.v a, .v b, .v d, .p m.pred], writes := [.v d] } 3 d
    (fun s => mapLanes (4 * widBits m.wid) (s.pr m.pred) (s.vr d) (dotLane m s d a b)) s

/-- The extreme of the lanes that are no NaN, taken together. -/
def extreme (wantMax : Bool) (l : List FVal) : FVal × SW :=
  if l.any FVal.isSnan then (.nan false, fNV)
  else if !l.isEmpty && l.all FVal.isNan then (.nan false, 0)
  else ((l.filter fun x => !x.isNan).foldl (fun x y => (minmaxVal wantMax x y).1) (.inf wantMax), 0)

/-- `vrsum` on floats (R257). -/
def execVrsumFloat (d : SReg) (a : VReg) (m : MF) (s : State) : Out :=
  reduceHead (.vrsumFloat d a m) 6 d a m.pred
    (fun s => roundRes (ftyFmt m.fty) m.rnd.toNat (sumVals m.rnd.toNat (activeFlts m s a))) s
/-- `vrmax` on floats (R257). -/
def execVrmaxFloat (d : SReg) (a : VReg) (m : MF) (s : State) : Out :=
  reduceHead (.vrmaxFloat d a m) 2 d a m.pred (fun s => roundRes (ftyFmt m.fty) rne (extreme true (activeFlts m s a))) s
/-- `vrmin` on floats (R257). -/
def execVrminFloat (d : SReg) (a : VReg) (m : MF) (s : State) : Out :=
  reduceHead (.vrminFloat d a m) 2 d a m.pred (fun s => roundRes (ftyFmt m.fty) rne (extreme false (activeFlts m s a))) s

/-! ## Conversion and packing (R259-R261) -/

/-- Lanes 0 to n − 1 converted, the rest zero. -/
def cvtLanes (src : Nat) (m : MC) (v : Vec) : Vec × SW :=
  let f := tidxKind src
  let t := tidxKind m.tidx.toNat
  let l := (List.range (128 / max f.width t.width)).map fun i => convert m.rnd.toNat m.ovf t (f.value (lane v f.width i))
  (ofLanes t.width (l.map (·.1)), l.foldl (fun x e => x ||| e.2) 0)

/-- `vcvt` (R259). -/
def execVcvt (d a : VReg) (src : Lit) (m : MC) (s : State) : Out :=
  head (.vcvt d a src m) { reads := [.v a], writes := [.v d] } free (litOk src 10)
    (fun s => let (v, f) := cvtLanes src.toNat m (s.vr a); .done (s.setV 2 d v f) .seq) s

/-- Storage formats by code (R260). -/
def subKind (c : Nat) : Kind :=
  match c with
  | 0 => .int 2 true | 1 => .int 4 true | 2 => .int 4 false | 3 => .o4 | 4 => .int 6 true | _ => .int 6 false

/-- Elements mk to mk + m − 1 lie in the register. -/
def packOk (k : Lit) (m width : Nat) : State → Option Cause :=
  operandOk [{ ok := fun _ => decide (0 ≤ k.toInt) && decide (m * k.toNat + m ≤ 128 / width) }]

/-- The elements of a register in a storage format, and OTR. -/
def regElems (k : Kind) (v : Vec) : List Val × Bool := rowValues k (bytesOfNat 16 v.toNat) (128 / k.width)

/-- `vpack` (R260). -/
def execVpack (d a : VReg) (k : Lit) (dst : BitVec 3) (satm : Bool) (s : State) : Out :=
  let w := (subKind dst.toNat).width
  let sg := match subKind dst.toNat with | .int _ g => g | _ => true
  head (.vpack d a k dst satm) { reads := [.v a, .v d], writes := [.v d] } free (packOk k 16 w)
    (fun s =>
      let l := (List.range 16).map fun i => intToInt w sg satm (signedOf 8 (lane (s.vr a) 8 i))
      let lo := 16 * k.toNat * w
      let old := (s.vr d).toNat
      let new := old - bitsOf old lo (16 * w) * 2 ^ lo + (l.map (·.1)).foldr (fun e x => e % 2 ^ w + 2 ^ w * x) 0 * 2 ^ lo
      .done (s.setV 2 d (BitVec.ofNat 128 new) (l.foldl (fun x e => x ||| e.2) 0)) .seq) s

/-- `vunpk` (R260): `tgt` chooses FP16 lanes. -/
def execVunpk (d a : VReg) (k : Lit) (src : BitVec 3) (tgt : Bool) (s : State) : Out :=
  let f := subKind src.toNat
  let m := if tgt then 8 else 16
  head (.vunpk d a k src tgt) { reads := [.v a], writes := [.v d] } free (packOk k m f.width)
    (fun s =>
      let (l, otr) := regElems f (s.vr a)
      let t : Kind := if tgt then .flt fp16 else .int 8 true
      let l := ((l.drop (m * k.toNat)).take m).map fun x => (convert rne false t x).1
      .done (s.setV 2 d (ofLanes t.width l) (flagIf otr fOTR)) .seq) s

/-- What `vo4p` has packed so far: outlier bytes, nibbles (last first), flags. -/
structure Packing where
  bytes : List (Nat × Nat) := []
  nibs : List Nat := []
  flags : SW := 0

/-- The first free byte after byte k of the row. -/
def freeByte (l : List (Nat × Nat)) (k : Nat) : Option Nat :=
  ((List.range 8).filter (k < ·)).find? fun j => !l.any fun e => e.1 == j

/-- Element i of `vo4p` (R261). -/
def packStep (mode : Mode) (st : Packing) (i : Nat) (x : FVal) : Packing :=
  let put := fun (n : Nat) (f : SW) => { st with nibs := n :: st.nibs, flags := st.flags ||| f }
  if st.bytes.any fun e => e.1 == i / 2 then put 0 (flagIf (!x.isZero) fOTR)
  else
    let small := match x with
      | .fin n m e =>
        let (z, ix) := roundInt mode n m e
        if -7 ≤ z ∧ z ≤ 7 then some (wrapTo 4 z, flagIf ix fIX) else none
      | _ => none
    match small with
    | some (n, f) => put n f
    | none =>
      match freeByte st.bytes (i / 2) with
      | some j =>
        let (c, f) := convert mode false (.flt f8a) (.flt x)
        { (put 8 f) with bytes := (j, c) :: st.bytes }
      | none => match x with
        | .nan _ => put 0 fNV
        | _ => put (wrapTo 4 (if x.neg then -7 else 7)) (fSAT ||| fIX)

/-- The row of 16 elements. -/
def packRow (mode : Mode) (l : List FVal) : Vec × SW :=
  let st := ((List.range 16).zip l).foldl (fun p e => packStep mode p e.1 e.2) {}
  let nibs := st.nibs.reverse
  (ofLanes 8 ((List.range 8).map fun k => match st.bytes.find? fun e => e.1 == k with
    | some e => e.2
    | none => nibs.getD (2 * k) 0 + 16 * nibs.getD (2 * k + 1) 0), st.flags)

/-- `vo4p` (R261). -/
def execVo4p (d a b : VReg) (rnd : BitVec 3) (s : State) : Out :=
  vecHead (.vo4p d a b rnd) { reads := [.v a, .v b], writes := [.v d] } 3 d
    (fun s => packRow rnd.toNat ((List.range 16).map fun i =>
      fp16.value (if i < 8 then lane (s.vr a) 16 i else lane (s.vr b) 16 (i - 8)))) s

/-! ## Thresholds (R262) -/

/-- The lanes copied or dropped, and DROPMAG. -/
def thrLanes (m : MF) (s : State) (d a : VReg) (theta : FVal) : Vec × Word :=
  let k := ftyFmt m.fty
  let drop := fun i => active (s.pr m.pred) k.width i && dropped theta (k.value (lane (s.vr a) k.width i))
  ((mapLanes k.width (s.pr m.pred) (s.vr d) fun i => (if drop i then 0 else lane (s.vr a) k.width i, 0)).1,
    ((List.range (128 / k.width)).filter drop).foldl (fun x i => dropAdd x (dropAmount (k.value (lane (s.vr a) k.width i))))
      s.here.csr.dropmag)

/-- `vthr` (R262). -/
def execVthr (d a : VReg) (b : XOp) (m : MF) (s : State) : Out :=
  head (.vthr d a b m) (needX [b] (.v a :: keepRead m.pred d) [.v d]) free (operandOk [{ ops := [b], ok := fun s => thetaOk ((s.x b).toNat % 65536) }])
    (fun s =>
      let (v, mag) := thrLanes m s d a (fp16.value ((s.x b).toNat % 65536))
      .done ((s.modCsr s.cur.ctx fun r => { r with dropmag := mag }).setV 2 d v 0) .seq) s

end Sys2Proof.Machine
end

