-- ==== Sys2Proof/Machine/Units.lean ====
section
/-! DEFINITION. The divider (R186, R251) and the special-function unit (R263) of a core: requests, service and results (R264). -/

namespace Sys2Proof.Machine

/-! ## What a request computes -/

/-- The lanes of a vector division (R251): value, flags. -/
def divLanes (m : MI) (rem : Bool) (r : UnitReq) : Vec × SW :=
  let w := widBits m.wid
  mapLanes w r.pred r.old fun i =>
    let (q, k, f) := divide w (!m.uns) (lane r.a w i) (lane r.b w i)
    (if rem then k else q, f)

/-- The lanes of a special function (R263): its number by F and its modifier. -/
def specialLanes (m : MF) (fn : Nat) (r : UnitReq) : Vec × SW :=
  let f := ftyFmt m.fty
  mapLanes f.width r.pred r.old fun i => special f fn m.rnd.toNat (f.value (lane r.a f.width i))

def scalarDiv (signed rem : Bool) (r : UnitReq) : Vec × SW :=
  let (q, k, f) := divide 64 signed r.a.toNat r.b.toNat
  (BitVec.ofNat 128 (if rem then k else q), f)

/-- The result of a request with its flags. -/
def UnitReq.result (r : UnitReq) : Vec × SW :=
  match r.instr with
  | .div .. => scalarDiv true false r
  | .divn .. => scalarDiv false false r
  | .rem .. => scalarDiv true true r
  | .remn .. => scalarDiv false true r
  | .vdiv _ _ _ m => divLanes m false r
  | .vrem _ _ _ m => divLanes m true r
  | .vexp2 _ _ m => specialLanes m 0 r
  | .vlog2 _ _ m => specialLanes m 1 r
  | .vrcp _ _ m => specialLanes m 2 r
  | .vrsqrt _ _ m => specialLanes m 3 r
  | .vsqrt _ _ m => specialLanes m 4 r
  | .vtanh _ _ m => specialLanes m 5 r
  | _ => (r.old, 0)

/-- Lanes that a predicate leaves active. -/
def activeLanes (p : Half) (w : Nat) : Nat := ((List.range (128 / w)).filter (active p w)).length

/-- Cycles of a division request (R68). -/
def UnitReq.divCycles (r : UnitReq) : Nat :=
  let vec := fun (m : MI) =>
    let w := widBits m.wid
    ((List.range (128 / w)).filter (active r.pred w)).foldl (fun n i =>
      n + divideCycles w (!m.uns) (lane r.a w i) (lane r.b w i)) 0
  match r.instr with
  | .div .. | .rem .. => divideCycles 64 true r.a.toNat r.b.toNat
  | .vdiv _ _ _ m | .vrem _ _ _ m => vec m
  | _ => divideCycles 64 false r.a.toNat r.b.toNat

/-- Active lanes of a special-function request. -/
def UnitReq.sfuLanes (r : UnitReq) : Nat :=
  match r.instr with
  | .vexp2 _ _ m | .vlog2 _ _ m | .vrcp _ _ m | .vrsqrt _ _ m | .vsqrt _ _ m | .vtanh _ _ m =>
    activeLanes r.pred (ftyFmt m.fty).width
  | _ => 0

/-! ## Entering a request (R264) -/

/-- The request of the head under issue. -/
def State.unitReq (s : State) (i : Instr) (a b : Vec) (pred : Half) (old : Vec) : UnitReq :=
  { ctx := s.cur.ctx, instr := i, h := s.cur.h, t := s.cur.t, a := a, b := b, pred := pred, old := old, seq := s.seq
    since := s.nowCtx s.cur.ctx }

/-- A head that finds the queue full holds: the queue of 8 counts the request in service and those of which the result is not
yet written (DEDUCED, log 68). -/
def enterUnit (r : UnitReq) (s : State) : Eff :=
  let p := coreOf s.cur.ctx
  let u := if r.isDiv then (s.core p).div else (s.core p).sfu
  if Config.unitQueueSlots ≤ u.held then .hold
  else .done ((s.enterReqs p [r]).modHere fun x => x.addBusy r.dst) .seq

def divHead (i : Instr) (d : SReg) (a b : XOp) : State → Out :=
  head i (needX [a, b] [] [.s d]) free free fun s =>
    enterUnit (s.unitReq i ((s.x a).setWidth 128) ((s.x b).setWidth 128) 0xFFFF 0) s

def vdivHead (i : Instr) (d a b : VReg) (m : MI) : State → Out :=
  head i { reads := [.v a, .v b] ++ keepRead m.pred d, writes := [.v d] } free free fun s =>
    enterUnit (s.unitReq i (s.vr a) (s.vr b) (s.pr m.pred) (s.vr d)) s

def sfuHead (i : Instr) (d a : VReg) (m : MF) : State → Out :=
  head i { reads := .v a :: keepRead m.pred d, writes := [.v d] } free free fun s =>
    enterUnit (s.unitReq i (s.vr a) 0 (s.pr m.pred) (s.vr d)) s

/-- `div` (R186). -/
def execDiv (d : SReg) (a b : XOp) (s : State) : Out := divHead (.div d a b) d a b s
/-- `divn` (R186). -/
def execDivn (d : SReg) (a b : XOp) (s : State) : Out := divHead (.divn d a b) d a b s
/-- `rem` (R186). -/
def execRem (d : SReg) (a b : XOp) (s : State) : Out := divHead (.rem d a b) d a b s
/-- `remn` (R186). -/
def execRemn (d : SReg) (a b : XOp) (s : State) : Out := divHead (.remn d a b) d a b s
/-- `vdiv` (R251). -/
def execVdiv (d a b : VReg) (m : MI) (s : State) : Out := vdivHead (.vdiv d a b m) d a b m s
/-- `vrem` (R251). -/
def execVrem (d a b : VReg) (m : MI) (s : State) : Out := vdivHead (.vrem d a b m) d a b m s
/-- `vexp2` (R263). -/
def execVexp2 (d a : VReg) (m : MF) (s : State) : Out := sfuHead (.vexp2 d a m) d a m s
/-- `vlog2` (R263). -/
def execVlog2 (d a : VReg) (m : MF) (s : State) : Out := sfuHead (.vlog2 d a m) d a m s
/-- `vrcp` (R263). -/
def execVrcp (d a : VReg) (m : MF) (s : State) : Out := sfuHead (.vrcp d a m) d a m s
/-- `vrsqrt` (R263). -/
def execVrsqrt (d a : VReg) (m : MF) (s : State) : Out := sfuHead (.vrsqrt d a m) d a m s
/-- `vsqrt` (R263). -/
def execVsqrt (d a : VReg) (m : MF) (s : State) : Out := sfuHead (.vsqrt d a m) d a m s
/-- `vtanh` (R263). -/
def execVtanh (d a : VReg) (m : MF) (s : State) : Out := sfuHead (.vtanh d a m) d a m s

/-! ## Service and results (R264) -/

/-- A request's result is written with its flags. -/
def State.unitResult (s : State) (r : UnitReq) : State :=
  let (v, f) := r.result
  s.modCtx r.ctx fun x => x.deliver r.dst v f

/-- The next request of a free unit, if it may start in this cycle. -/
def SharedUnit.ready (u : SharedUnit) (now : Nat) : Option UnitReq :=
  match u.queue with
  | r :: _ => if u.freeAt ≤ now ∧ r.since < now then some r else none
  | [] => none

/-- The special-function unit: a request whose 2 + a cycles have passed leaves it, and the next one starts. -/
def SharedUnit.sfuStep (u : SharedUnit) (now : Nat) : SharedUnit :=
  let u1 : SharedUnit := match u.service with
    | some e => if u.freeAt ≤ now then { u with service := none, results := u.results ++ [e] } else u
    | none => u
  match u1.service, u1.ready now with
  | none, some r =>
    { u1 with queue := u1.queue.tail, service := some (r, now + 8 + r.sfuLanes), freeAt := now + 2 + r.sfuLanes }
  | _, _ => u1

/-- SFU_SERVICE (R264). -/
def execSfuService (p : Place) (s : State) : Out :=
  .next (s.modCore p fun x => { x with sfu := x.sfu.sfuStep (s.now p) })

/-- SFU_RESULT: the oldest result that is ready is written (R69, R70, R265). -/
def execSfuResult (p : Place) (s : State) : Out :=
  match (s.core p).sfu.results.find? fun e => decide (e.2 ≤ s.now p) with
  | none => .next s
  | some e =>
    .next ((s.modCore p fun x => { x with sfu := { x.sfu with results := x.sfu.results.filter (· != e) } }).unitResult e.1)

/-- The divider takes its next request while it is free. -/
def SharedUnit.divStep (u : SharedUnit) (now : Nat) : SharedUnit :=
  match u.service, u.ready now with
  | none, some r =>
    { u with queue := u.queue.tail, service := some (r, now + r.divCycles), freeAt := now + r.divCycles }
  | _, _ => u

/-- DIVIDER_SERVICE (R264). -/
def execDividerService (p : Place) (s : State) : Out :=
  .next (s.modCore p fun x => { x with div := x.div.divStep (s.now p) })

/-- DIVIDER_RESULT: the request in service has had its cycles (R67, R68, R265). -/
def execDividerResult (p : Place) (s : State) : Out :=
  match (s.core p).div.service with
  | some (r, t) =>
    if t ≤ s.now p then .next ((s.modCore p fun x => { x with div := { x.div with service := none } }).unitResult r)
    else .next s
  | none => .next s

end Sys2Proof.Machine
end

