-- ==== Sys2Proof/Machine/Waits.lean ====
section
/-! DEFINITION. The end of a wait (R220): the waiting heads, tried again. -/

namespace Sys2Proof.Machine

/-- The heads that wait (R220); for any other one nothing happens. -/
def waitingHead (i : Instr) (s : State) : Out :=
  match i with
  | .ldfe d a o => execLdfe d a o s
  | .ldfeE d a o => execLdfeE d a o s
  | .stfeW a o b => execStfeW a o b s
  | .ccWait d a b nt => execCcWait d a b nt s
  | .cbAcq d a t => execCbAcq d a t s
  | .cbTake d a t => execCbTake d a t s
  | .gbar => execGbar s
  | .sbar => execSbar s
  | .gform a b => execGform a b s
  | .gjoin t => execGjoin t s
  | .mwait => execMwait s
  | .mstat d a => execMstat d a s
  | .htset a b => execHtset a b s
  | _ => .next s

/-- WAIT_SATISFIED (R220): a waiting head whose condition holds performs its effect; one whose condition does not hold stays.
It is tried only where no trap comes first. -/
def execWaitSatisfied (c : CtxId) (s : State) : Out :=
  match (s.ctx c).wait with
  | none => .next s
  | some w =>
    if (s.ctx c).run ≠ .running ∨ (s.beforeHead c).isSome ∨ s.notReady c then .next s
    else waitingHead w.instr { s.modCtx c (fun x => x.settle (s.nowCtx c)) with cur := w.issue }

end Sys2Proof.Machine
end

