-- ==== Sys2Proof/Machine/Weights.lean ====
section
/-! DEFINITION. Weight-driven execution (R109-R128, R286, R287): entry, the fetch and checks of a block, its units, the links. -/

namespace Sys2Proof.Machine

/-! ## Blocks (R110, R111) -/

/-- A block's fields. -/
structure WBlock where
  opc : Nat
  fl : Nat
  plen : Nat
  bfmt : Nat
  route : Nat
  dcore : Nat
  dslot : Nat
  succ : Int
  check : Nat
  pay : List Byte
  deriving DecidableEq, Repr

def wblockOf (l : List Byte) : WBlock :=
  { opc := fieldAt l 0 1, fl := fieldAt l 1 1, plen := fieldAt l 2 2, bfmt := fieldAt l 4 1, route := fieldAt l 5 1
    dcore := fieldAt l 6 1, dslot := fieldAt l 7 1, succ := signedOf 32 (fieldAt l 8 4), check := fieldAt l 12 4
    pay := (l.drop 16).take (min 240 (fieldAt l 2 2)) }
def WBlock.z (b : WBlock) : Bool := bitOf b.fl 0
def WBlock.num (b : WBlock) (off n : Nat) : Nat := fieldAt b.pay off n

def opNone : Nat := 0x00
def opLoad : Nat := 0x01
def opSwap : Nat := 0x02
def opStream : Nat := 0x03
def opDrain : Nat := 0x04
def opAtoms : Nat := 0x08
def opBranch : Nat := 0x10
def opCall : Nat := 0x11
def opReturn : Nat := 0x12
def opTail : Nat := 0x13
def opExit : Nat := 0x14

/-- A payload length that the opcode admits (R114). -/
def plenOk (opc n : Nat) : Bool :=
  decide (n ≤ 240) &&
    (if opc = opNone then true
    else if opc = opLoad then decide (1 ≤ n)
    else if opc = opSwap ∨ opc = opReturn then decide (n = 0)
    else if opc = opAtoms then decide (n = 32)
    else decide (n = 8))

def namesSlot (opc : Nat) : Bool := opc == opStream || opc == opDrain || opc == opAtoms

/-- Step 4 of R112: the KIND of a header that breaks R110, R111, R114, R115 or R120. -/
def headerKind (b : WBlock) (core : Nat) : Option Nat :=
  if !([opNone, opLoad, opSwap, opStream, opDrain, opAtoms, opBranch, opCall, opReturn, opTail, opExit].contains b.opc) then some 0
  else if !plenOk b.opc b.plen then some 2
  else if bitOf b.fl 1 ∨ bitsOf b.fl 6 2 ≠ 0 ∨ (b.z ∧ b.opc ≠ opLoad) then some 2
  else if b.opc ≠ opLoad ∧ (b.bfmt ≠ 0 ∨ b.route ≠ 0) then some 2
  else if 8 ≤ b.dcore ∨ 16 ≤ b.dslot then some 2
  else if !namesSlot b.opc && (decide (b.dcore ≠ 0) || decide (b.dslot ≠ 0)) then some 2
  else if (b.opc = opStream ∨ b.opc = opAtoms) ∧ b.dcore ≠ core then some 2
  else if b.opc = opCall ∧ b.succ = 0 then some 2
  else if (b.opc = opReturn ∨ b.opc = opTail ∨ b.opc = opExit) ∧ b.succ ≠ 0 then some 2
  else none

/-- The detail word of WDE_BLOCK. -/
def blockTrap (kind beat : Nat) : Trap := { cause := .wdeBlock, detail := BitVec.ofNat 64 (kind + 16 * beat), origin := 3 }

/-! ## Zero-run coding (R113) -/

/-- The expanded bytes, each with the payload byte that supplied it; none for a literal run that passes the payload. -/
def zExpand (pl : List Byte) : Nat → Nat → Option (List (Byte × Nat))
  | 0, _ => some []
  | f + 1, i =>
    match pl[i]? with
    | none => some []
    | some t =>
      let n := t.toNat % 128 + 1
      if t.toNat < 128 then
        if pl.length < i + 1 + n then none
        else (zExpand pl f (i + 1 + n)).map fun r => ((List.range n).map fun k => (pl.getD (i + 1 + k) 0, i + 1 + k)) ++ r
      else (zExpand pl f (i + 1)).map fun r => List.replicate n (0, i) ++ r

def WBlock.expand (b : WBlock) : Option (List (Byte × Nat)) :=
  if b.z then
    match zExpand b.pay 240 0 with
    | some l => if l.length ≤ 960 then some l else none
    | none => none
  else some b.pay.zipIdx

/-! ## Units (R123) -/

/-- Units of a block: one for a load whose payload does not expand, which that unit traps (R113). -/
def WBlock.units (b : WBlock) : Nat :=
  if b.opc = opLoad then (match b.expand with | some l => ceilDiv l.length 16 | none => 1) else if b.opc = opAtoms then 2 else 1

/-- The beat that a unit is charged to. -/
def WBlock.beat (b : WBlock) (unit : Nat) : Nat :=
  if b.plen = 0 then 0
  else if b.opc = opLoad then
    match (b.expand.getD [])[16 * unit]? with
    | some e => 1 + e.2 / 16
    | none => 1 + (b.plen - 1) / 16
  else if b.opc = opAtoms then (if unit = 0 then 1 else 2)
  else 1

/-- A context's chain, with WDS kept in step (R122). -/
def State.setWde (s : State) (c : CtxId) (w : Wde) : State :=
  s.modCtx c fun x => { x with wde := w, csr := { x.csr with wds := wdsWord w false } }

/-- A trap of the block in progress at a beat. -/
def State.wdeTrap (s : State) (c : CtxId) (beat : Nat) (t : Trap) : State :=
  let w := (s.ctx c).wde
  (s.setWde c { w with beat := beat }).raiseTrap c { t with origin := 3 }

/-! ## Fetch (R109, R112) -/

/-- Bytes of the block in progress after steps 1 to 3 of R112. -/
def State.fetchBlock (s : State) (c : CtxId) : Except Trap (State × List Byte) :=
  let g := s.agent c
  let va := vaOf (s.ctx c).wde.block
  let ptr := BitVec.ofNat 64 va
  match s.leafFor g .wde va false with
  | .error (level, reason) => .error (if reason = 2 then { cause := .wdePerm, fva := ptr } else xlateTrap .wde ptr level reason)
  | .ok (s1, e) =>
    let places := runFrom (hbmAt (g.part / 16) (e.pa va)) 256
    match s1.poisonedTrap ptr (runFrom va 256) places with
    | some t => .error t
    | none =>
      let l := s1.bytesOf places
      if crc32 (l.take 12 ++ l.drop 16) ≠ fieldAt l 12 4 then .error (blockTrap 1 0) else .ok (s1, l)

/-- The fetch of a block with every check of R112; OPC stands in the record once the check word has matched (R124). -/
def State.wdeFetch (s : State) (c : CtxId) : State :=
  match s.fetchBlock c with
  | .error t => s.wdeTrap c 0 t
  | .ok (s1, l) =>
    let b := wblockOf l
    let w := (s1.ctx c).wde
    match headerKind b (coreOf c % 8) with
    | some k => (s1.setWde c { w with opc := b.opc }).wdeTrap c 0 (blockTrap k 0)
    | none => s1.setWde c { w with opc := b.opc, fetched := some l, beat := b.beat w.unit }

/-! ## What a unit comes to -/

inductive WRes where
  /-- not done: it cannot begin now, or its command is in the array's queue -/
  | wait (s : State)
  | trap (t : Trap)
  /-- done: the sequencer goes on by SUCC after the last unit -/
  | did (s : State)
  /-- done, and the chain continues at an address with a link stack -/
  | go (s : State) (next : Nat) (stack : List Word)
  /-- done, and the chain ends with a value (R121) -/
  | over (s : State) (v : Word)
  deriving DecidableEq, Repr

/-- An operand limit of a command is a payload fault in WDE (R117). -/
def wdeFault (beat : Nat) (t : Trap) : Trap := if t.cause = .illegalOperand then blockTrap 3 beat else t

/-- The address in slot k of the slot table (R115). -/
def State.slotEntry (s : State) (c : CtxId) (k : Nat) : Except Trap (State × Word) :=
  match s.svcRead (s.agent c) (BitVec.ofNat 64 (vaOf (s.ctx c).wde.slots + 8 * k)) 8 false with
  | .error t => .error t
  | .ok (s1, b) => .ok (s1, wordOfBytes b)

/-- The array as a load-stationary or accumulate-atoms unit needs it: the context's AU in it and every earlier command done. -/
def State.auIdle (s : State) (c : CtxId) : Bool :=
  let x := s.ctx c
  let a := (s.cluster (clusterOf (coreOf c))).arr
  decide (a.owner = some c) && !a.frozen && !x.auHeld && !x.auMarked && decide (x.arrayCmds = 0)

/-- While the array is not yet the context's, its AU is opened and waits for the grant. -/
def State.seekAu (s : State) (c : CtxId) : State :=
  if s.otherAu c ∨ (s.ctx c).auMarked then s else s.modCtx c Context.openAu

/-- A command of the chain enters the core's queue as the context's own heads' commands do. The unit is done when the array has
served it: a fault inside the command, or a trap while it is queued, finds its unit not done (R100, R123, R318; DEDUCED, log 43). -/
def State.wdePush (s : State) (c : CtxId) (img : BitVec 256) : WRes := .wait (if s.arrayBusy c then s else s.pushCmd c img)

/-- A command of the chain stands in the core's queue, or may stand in a saved AU that is not back yet. -/
def State.unitQueued (s : State) (c : CtxId) : Bool :=
  (s.ctx c).auMarked || (s.core (coreOf c)).arrayQ.any fun q => decide (q.ctx = c) && q.flag 2

/-- The unit is a command in the array's queue. -/
def WBlock.queues (b : WBlock) (unit : Nat) : Bool :=
  b.opc == opSwap || b.opc == opStream || b.opc == opDrain || (b.opc == opAtoms && unit != 0)

def isWde : Nat := 4

/-! ### Load-stationary (R116) -/

/-- Position and code of the elements whose last bit lies in unit i. -/
def loadUnit (fmt : Nat) (b : WBlock) (l : List Byte) (i : Nat) : List (Nat × Nat) × Bool :=
  match kindOf fmt with
  | none => ([], false)
  | some k =>
    let total := 8 * l.length / k.width
    let pos := fun (e : Nat) => 128 * (8 * (b.route / 16) + e / 8) + 8 * (b.route % 16) + e % 8
    let es := (List.range total).filter fun e => decide ((k.width * (e + 1) - 1) / 128 = i)
    match k with
    | .o4 =>
      let rows := (es.filter fun e => e % 8 == 7).map (· / 8)
      rows.foldl (fun a r =>
        let (codes, o) := o4Decode (bytesAt l (4 * r) 4) 8
        (a.1 ++ (codes.zipIdx).map (fun e => (pos (8 * r + e.2), o4Code e.1)), a.2 || o)) ([], false)
    | _ => (es.map fun e => (pos e, streamBits l (e * k.width) k.width), false)

def State.unitLoad (s : State) (c : CtxId) (t : BitVec 256) (b : WBlock) : WRes :=
  let w := (s.ctx c).wde
  if b.bfmt ≠ tFmtw t then .trap (blockTrap 3 0)
  else match b.expand with
  | none => .trap (blockTrap 7 1)
  | some x =>
    let l := x.map (·.1)
    let total := 8 * l.length / ((kindOf b.bfmt).getD .o4).width
    if total % 8 ≠ 0 ∨ 128 < 8 * (b.route / 16) + total / 8 then .trap (blockTrap 3 (b.beat w.unit))
    else if !s.auIdle c then .wait (s.seekAu c)
    else
      let (ws, otr) := loadUnit b.bfmt b l w.unit
      let s1 := s.modArr (clusterOf (coreOf c)) fun a =>
        { a with shadow := putWeights a.shadow (fun i => ws.any fun e => e.1 == i) ws }
      .did (s1.quietFlags c (flagIf otr fOTR))

/-! ### Swap, stream and drain (R117) -/

def State.unitSwap (s : State) (c : CtxId) : WRes := s.wdePush c (imageOf [(0, 1, codeMswap), (1, 1, isWde)])

/-- A slot's address keeps the limits of its command: 8-byte aligned, and the region in a window it may lie in, with every bank
held (R117, R274, R275). -/
def wdeSlotOk (near : Bool) (g : Agent) (acc : Acc) (ptr : Word) (n : Nat) : Bool :=
  decide (vaOf ptr % 8 = 0) && (regionTraps near g acc ptr n).isEmpty

def State.unitStream (s : State) (c : CtxId) (t : BitVec 256) (b : WBlock) : WRes :=
  let r := b.num 2 1
  let stride := b.num 4 4
  if b.num 3 1 ≠ 0 ∨ stride % 8 ≠ 0 ∨ !mstrmLimits t (b.num 0 1) (b.num 1 1) r stride then .trap (blockTrap 3 1)
  else match s.slotEntry c b.dslot with
  | .error e => .trap e
  | .ok (s1, src) =>
    if !wdeSlotOk true (s1.agent c) .load src (spanBytes r stride (lineBytesOf t (tFmts t))) then .trap (blockTrap 3 1)
    else s1.wdePush c (imageOf [(0, 1, codeMstrm), (1, 1, isWde), (2, 2, if r = 1 then 0 else stride), (4, 1, b.num 0 1),
        (5, 1, b.num 1 1), (6, 1, r), (8, 8, src.toNat)])

def State.unitDrain (s : State) (c : CtxId) (t : BitVec 256) (b : WBlock) : WRes :=
  let r := b.num 2 1
  let stride := b.num 4 4
  let p := b.num 0 1
  let far := decide (b.dcore ≠ coreOf c % 8)
  if b.num 3 1 ≠ 0 ∨ stride % 8 ≠ 0 ∨ panelsOf t ≤ p ∨ !mdrainLimits t (2 ^ p) (b.num 1 1) r stride 0 then .trap (blockTrap 3 1)
  else match s.slotEntry c b.dslot with
  | .error e => .trap e
  | .ok (s1, dst) =>
    let rows := (List.range r).map fun i => vaOf dst + i * stride
    let img := imageOf [(0, 1, codeMdrain), (1, 1, isWde + 8 * far.toNat), (4, 1, 2 ^ p), (5, 1, b.num 1 1), (6, 1, r),
      (7, 1, if far then b.dcore else 0), (8, 8, if far then vaOf dst else dst.toNat), (20, 4, if r = 1 then 0 else stride)]
    let ok := if far then decide (vaOf dst % 8 = 0) && s1.groupHolds c (8 * clusterOf (coreOf c) + b.dcore) rows (outBytesOf t)
      else wdeSlotOk false (s1.agent c) .store dst (drainBytes t (2 ^ p) r stride 0)
    if ok then s1.wdePush c img else .trap (blockTrap 3 1)

/-! ### Accumulate-atoms (R118) -/

/-- The payload's values and the slots' addresses. -/
structure Atoms where
  tab : Word
  scl : Word
  wt : Word
  p : Nat
  b0 : Nat
  m : Nat
  stride : Nat
  src : Word
  out : Word
  deriving DecidableEq, Repr

def atomsPay (b : WBlock) (src out : Word) : Atoms :=
  { tab := wordOfBytes b.pay, scl := wordOfBytes (b.pay.drop 8), wt := wordOfBytes (b.pay.drop 16), p := b.num 24 1, b0 := b.num 25 1
    m := b.num 26 2, stride := b.num 28 2, src := src, out := out }

def Atoms.ok (a : Atoms) (t : BitVec 256) (b : WBlock) : Bool :=
  decide (tFmts t = 0x0C) && decide (tFmtw t = fmtOf a.tab) && decide (a.p < panelsOf t) && decide (a.b0 ≤ 127) &&
    decide (1 ≤ a.m) && decide (a.m ≤ tCols t) && decide (a.stride % 8 = 0) && decide (lineBytesOf t (tFmtw t) ≤ a.stride) &&
    decide (a.stride ≤ 65528) && decide (b.num 30 1 < 16) && decide (b.num 31 1 = 0)

def Atoms.aimg (a : Atoms) (t : BitVec 256) (len : Nat) : AimgDesc :=
  { recs := vaOf a.src, rstr := 8 + 2 * len, nb := 1, pnl := a.p, m := a.m, tab := a.tab, scl := a.scl, out := vaOf a.out
    ostr := 2 * tRows t, start := 0 }

/-- The record's first word: its L and whether it is an escape record. -/
def State.recordHead (s : State) (c : CtxId) (a : Atoms) : Nat × Bool × Option Nat :=
  let h := s.readRun (localAt (coreOf c) (vaOf a.src)) 8
  (fieldAt h 1 1, bitOf (fieldAt h 0 1) 4, lOf (fieldAt h 1 1))

/-- Beat 1: the gather, or the load of W_t, and the swap. Only a code record's gather reads the scales, whose limit is `aimg`'s
(R283). -/
def State.atomsGather (s : State) (c : CtxId) (t : BitVec 256) (a : Atoms) : WRes :=
  match s.recordHead c a with
  | (_, _, none) => .trap (blockTrap 3 1)
  | (_, esc, some len) =>
    if tRows t < len then .trap (blockTrap 3 1)
    else if !s.auIdle c ∨ !s.quiet c then .wait (s.seekAu c)
    else
      let svc :=
        if esc then
          if !mldsLimits t (vaOf a.wt) a.p a.stride false then Svc.fault (blockTrap 3 1)
          else if a.wt.toNat % 8 ≠ 0 then .fault { cause := .align, fva := a.wt }
          else s.serveMlds c t { ctx := c, img := imageOf [(0, 1, codeMlds), (2, 2, a.stride), (4, 1, a.p), (8, 8, a.wt.toNat)] }
        else s.serveAimg c t { ctx := c, img := aimgImage (a.aimg t len) }
      match svc with
      | .done s1 => .did (s1.serveMswap c)
      | .fault e => .trap (wdeFault 1 e)
      | _ => .wait s

/-- Beat 2: the stream, with which the escape count rises. -/
def State.atomsStream (s : State) (c : CtxId) (a : Atoms) : WRes :=
  let (_, esc, len) := s.recordHead c a
  let row := [(0, 1, codeMstrm), (4, 1, a.p), (5, 1, a.b0), (6, 1, 1)]
  let img := if esc then imageOf (row ++ [(1, 1, isWde + 2), (7, 1, len.getD 0), (8, 8, vaOf a.src + 8)])
    else imageOf (row ++ [(1, 1, isWde), (8, 8, vaOf a.out)])
  s.wdePush c img

/-- A DSLOT address that is not 8-byte aligned traps ALIGN, as an access to it does: R118 does not name it among the causes of KIND 3
(DESIGN CHOICE, log 75). A record in no held bank: log 43. -/
def State.unitAtoms (s : State) (c : CtxId) (t : BitVec 256) (b : WBlock) : WRes :=
  let g := s.agent c
  let unit := (s.ctx c).wde.unit
  let beat := b.beat unit
  match s.slotEntry c b.dslot with
  | .error e => .trap e
  | .ok (s1, src) => match s1.slotEntry c (b.num 30 1 % 16) with
    | .error e => .trap e
    | .ok (s2, out) =>
      let a := atomsPay b src out
      let n := 2 * tRows t
      if !a.ok t b ∨ vaOf out % 8 ≠ 0 ∨ (localRegion g .store out n).isSome then .trap (blockTrap 3 beat)
      else match localRegion g .load src 8 with
      | some e => .trap (wdeFault beat e)
      | none =>
        if vaOf src % 8 ≠ 0 then .trap { cause := .align, fva := src }
        else if unit ≠ 0 then s2.atomsStream c a
        else if !s2.isFull (localAt (coreOf c) (vaOf src)) then .wait s2
        else match s2.poisonedTrap src (runFrom (vaOf src) 8) (runFrom (localAt (coreOf c) (vaOf src)) 8) with
        | some e => .trap e
        | none => s2.atomsGather c t a

/-! ### Links (R119, R120) -/

/-- A block address at an offset in blocks; KIND 6 outside the global-memory window. -/
def linkTarget (block : Word) (off : Int) (beat : Nat) : Except Trap Nat :=
  let a := (vaOf block : Int) + 256 * off
  if 0x100000000 ≤ a ∧ a < 2 ^ 52 then .ok a.toNat else .error (blockTrap 6 beat)

/-- Where the chain goes after a block's effect: its successor, or the link stack (R120). -/
def afterBlock (w : Wde) (b : WBlock) (beat : Nat) : Except Trap (Nat × List Word) :=
  if b.succ ≠ 0 then
    match linkTarget w.block b.succ beat with
    | .ok a => .ok (a, w.stack)
    | .error t => .error t
  else match w.stack with
    | a :: rest => .ok (vaOf a, rest)
    | [] => .error (blockTrap 8 beat)

/-- The condition of a branch; none while commands that decide it are not done. -/
def State.branchCond (s : State) (c : CtxId) (b : WBlock) : Option Bool :=
  let x := s.ctx c
  match b.num 0 1 with
  | 0 => if x.arrayDone then some ((s.mstatWord c).getLsbD 1) else none
  | 1 => some (decide (b.num 2 2 < x.wde.esc))
  | k => some (x.wde.flags.getLsbD (k - 2))

def State.unitBranch (s : State) (c : CtxId) (b : WBlock) : WRes :=
  let w := (s.ctx c).wde
  let taken := signedOf 32 (b.num 4 4)
  if 5 < b.num 0 1 ∨ 2 ≤ b.num 1 1 ∨ taken = 0 then .trap (blockTrap 3 1)
  else match s.branchCond c b with
  | none => .wait s
  | some v =>
    let dest := if v == bitOf (b.num 1 1) 0 then
        match linkTarget w.block taken 1 with
        | .ok a => Except.ok (a, w.stack)
        | .error t => .error t
      else afterBlock w b 1
    match dest with
    | .ok (a, st) => .go s a st
    | .error t => .trap t

/-- A payload pointer to a block. -/
def payTarget (b : WBlock) : Except Trap Nat :=
  let a := vaOf (wordOfBytes b.pay)
  if a % 256 ≠ 0 then .error (blockTrap 3 1)
  else if 0x100000000 ≤ a then .ok a else .error (blockTrap 6 1)

def State.unitCall (s : State) (c : CtxId) (b : WBlock) : WRes :=
  let w := (s.ctx c).wde
  match payTarget b with
  | .error t => .trap t
  | .ok a =>
    if 8 ≤ w.stack.length then .trap (blockTrap 4 1)
    else match linkTarget w.block b.succ 1 with
    | .error t => .trap t
    | .ok r => .go s a (BitVec.ofNat 64 r :: w.stack)

def State.unitReturn (s : State) (c : CtxId) : WRes :=
  match (s.ctx c).wde.stack with
  | [] => .trap (blockTrap 5 0)
  | a :: rest => .go s (vaOf a) rest

def State.unitTail (s : State) (c : CtxId) (b : WBlock) : WRes :=
  match payTarget b with
  | .error t => .trap t
  | .ok a => .go s a (s.ctx c).wde.stack

/-- An exit waits for the chain's array commands (R121). -/
def State.unitExit (s : State) (c : CtxId) (b : WBlock) : WRes :=
  if (s.ctx c).arrayDone then .over s (wordOfBytes b.pay) else .wait s

/-! ### One unit -/

/-- An array block without a valid TCSB traps MCFG_STATE. -/
def State.withTcsb (s : State) (c : CtxId) (f : BitVec 256 → WRes) : WRes :=
  match (s.ctx c).tcsb with
  | none => .trap { cause := .mcfgState }
  | some t => f t

def State.wdeUnit (s : State) (c : CtxId) (b : WBlock) : WRes :=
  if b.queues (s.ctx c).wde.unit && s.unitQueued c then .wait s
  else if b.opc = opLoad then s.withTcsb c fun t => s.unitLoad c t b
  else if b.opc = opSwap then s.withTcsb c fun _ => s.unitSwap c
  else if b.opc = opStream then s.withTcsb c fun t => s.unitStream c t b
  else if b.opc = opDrain then s.withTcsb c fun t => s.unitDrain c t b
  else if b.opc = opAtoms then s.withTcsb c fun t => s.unitAtoms c t b
  else if b.opc = opBranch then s.unitBranch c b
  else if b.opc = opCall then s.unitCall c b
  else if b.opc = opReturn then s.unitReturn c
  else if b.opc = opTail then s.unitTail c b
  else if b.opc = opExit then s.unitExit c b
  else .did s

/-- WOP on the program flags (R111). -/
def wop (fl : Nat) (f : BitVec 4) : BitVec 4 :=
  let bit := (1#4) <<< bitsOf fl 4 2
  match bitsOf fl 2 2 with
  | 1 => f ||| bit
  | 2 => f &&& ~~~bit
  | 3 => f ^^^ bit
  | _ => f

/-- A block is complete: WOP, NBLK, a step's end (R111, R122, R127). -/
def State.blockDone (s : State) (c : CtxId) (b : WBlock) : State :=
  let w := (s.ctx c).wde
  (s.setWde c { w with flags := wop b.fl w.flags, nblk := w.nblk + 1, fetched := none, unit := 0, beat := 0, opc := 0 }).modCtx c
    fun x => { x with stepDue := if x.csr.stp then some { seq := s.seq, array := true } else none }

def State.wdeGo (s : State) (c : CtxId) (b : WBlock) (next : Nat) (stack : List Word) : State :=
  let s1 := s.blockDone c b
  let w := (s1.ctx c).wde
  s1.setWde c { w with block := BitVec.ofNat 64 next, stack := stack }

/-- The chain is over (R121): sd is written and the context resumes at the head after `wdenter`. -/
def State.wdeOver (s : State) (c : CtxId) (b : WBlock) (v : Word) : State :=
  (s.blockDone c b).modCtx c fun x =>
    let y := ({ x with pend := discardPending x.pend (.s x.wde.sd) 0 } : Context).setReg (.s x.wde.sd) (v.setWidth 128)
    { y with wde := {}, readyAt := max x.readyAt (s.nowCtx c + 1), csr := { y.csr with wde := false, wds := wdsWord x.wde true } }

/-- After the last unit of a block without a transfer of its own. A fault of its SUCC is charged to the beat of the last unit and
finds every unit done: the record's unit index is then the number of units (DESIGN CHOICE, log 74). -/
def State.afterUnits (s : State) (c : CtxId) (b : WBlock) : State :=
  let w := (s.ctx c).wde
  if w.unit < b.units then s
  else match afterBlock w b (b.beat (b.units - 1)) with
    | .ok (a, st) => s.wdeGo c b a st
    | .error t => s.wdeTrap c (b.beat (b.units - 1)) t

/-- The next unit of the block fetched, one a cycle. -/
def State.runUnit (s : State) (c : CtxId) (b : WBlock) : State :=
  let w := (s.ctx c).wde
  let held := fun (t : State) => t.modCtx c fun x => { x with heldAt := some s.cycle }
  if b.units ≤ w.unit ∧ b.expand.isSome then held (s.afterUnits c b)
  else match s.wdeUnit c b with
  | .wait s1 => held s1
  | .trap t => s.wdeTrap c (if t.cause = .wdeBlock then bitsOf t.detail.toNat 4 4 else b.beat w.unit) t
  | .did s1 =>
    let v := (s1.ctx c).wde
    held ((s1.setWde c { v with unit := w.unit + 1, beat := b.beat (w.unit + 1) }).afterUnits c b)
  | .go s1 a st => held (s1.wdeGo c b a st)
  | .over s1 v => held (s1.wdeOver c b v)

/-! ## The sequencer's turn -/

def State.inWde (s : State) (c : CtxId) : Bool := decide ((s.ctx c).run = .running) && (s.ctx c).inChain

/-- The turn of a context in weight-driven execution: a trap between units, the fetch, or a unit. -/
def State.wdeTurn (s0 : State) (c : CtxId) : State :=
  if !s0.inWde c then s0
  else
    let s := s0.modCtx c fun x => x.settle (s0.nowCtx c)
    match s.beforeHead c with
    | some (some t) => s.takeTrap c t
    | some none => s.modCtx c fun x => { x with heldAt := some s.cycle }
    | none => match (s.ctx c).wde.fetched with
      | none => s.wdeFetch c
      | some l => s.runUnit c (wblockOf l)

/-- WDE_BLOCK_FETCH (R112). -/
def execWdeBlockFetch (c : CtxId) (s : State) : Out :=
  .next (if s.inWde c && (s.beforeHead c).isNone && (s.ctx c).wde.fetched.isNone then s.wdeFetch c else s)

/-- A unit of the block fetched, if its opcode is the one named. -/
def State.unitOf (s : State) (c : CtxId) (opc : Nat) : State :=
  if !s.inWde c ∨ (s.beforeHead c).isSome then s
  else match (s.ctx c).wde.fetched with
    | none => s
    | some l => if (wblockOf l).opc = opc then s.runUnit c (wblockOf l) else s

/-- The no-op block (R114). -/
def execWdeNoOp (c : CtxId) (s : State) : Out := .next (s.unitOf c opNone)
/-- A unit of load-stationary (R116). -/
def execLoadStationary (c : CtxId) (s : State) : Out := .next (s.unitOf c opLoad)
/-- The swap block (R114). -/
def execWdeSwap (c : CtxId) (s : State) : Out := .next (s.unitOf c opSwap)
/-- The stream block (R117). -/
def execWdeStream (c : CtxId) (s : State) : Out := .next (s.unitOf c opStream)
/-- The drain block (R117). -/
def execWdeDrain (c : CtxId) (s : State) : Out := .next (s.unitOf c opDrain)
/-- A beat of accumulate-atoms (R118). -/
def execAccumulateAtoms (c : CtxId) (s : State) : Out := .next (s.unitOf c opAtoms)
/-- Branch-on-flag (R119). -/
def execBranchOnFlag (c : CtxId) (s : State) : Out := .next (s.unitOf c opBranch)
/-- Call-tensor (R120). -/
def execCallTensor (c : CtxId) (s : State) : Out := .next (s.unitOf c opCall)
/-- The return block (R120). -/
def execWdeReturn (c : CtxId) (s : State) : Out := .next (s.unitOf c opReturn)
/-- Tail (R120). -/
def execTail (c : CtxId) (s : State) : Out := .next (s.unitOf c opTail)
/-- Exit (R121). -/
def execExit (c : CtxId) (s : State) : Out := .next (s.unitOf c opExit)

/-! ## Heads -/

/-- The gang is left first: a leader's ends, a follower detaches (R127). -/
def State.leaveGang (s : State) : State :=
  match s.here.csr.gang.toNat, s.gangWith s.cur.ctx with
  | 1, some g => s.dissolveGang g (some (ptrAfter s.cur.ptr s.cur.hc))
  | 2, _ => s.modHere Context.detach
  | _, _ => s

def wdenterEff (d : SReg) (a : XOp) (b : SCOp) (w : Lit) (s : State) : Eff :=
  let c := s.cur.ctx
  let head := s.x a
  let slots := s.sc b
  let out := if (windowOf (vaOf head)) = some .glob then [] else [xlateTrap .wde head 0 5]
  engChecks (regionTraps false (s.agent c) .load slots 128 ++ out) [(slots, 8), (head, 256)]
    (let s1 := s.leaveGang
     .done ((s1.setWde c { block := BitVec.ofNat 64 (vaOf head), slots := BitVec.ofNat 64 (vaOf slots), sd := d
                           flags := w.setWidth 4 }).modHere fun x => { x with csr := { x.csr with wde := true }, lines := [] }) .seq)

/-- `wdenter` (R121, R286). -/
def execWdenter (d : SReg) (a : XOp) (b : SCOp) (w : Lit) (s : State) : Out :=
  head (.wdenter d a b w) (noSlot (needX [a, scX b] [] [.s d])) free
    (operandOk [{ ok := fun _ => decide (0 ≤ w.toInt) && decide (w.toInt ≤ 15) },
      { ops := [scX b], ok := fun s => regionLimit false (s.sc b) 128 }])
    (wdenterEff d a b w) s

/-- `wdstat` (R287). -/
def execWdstat (d : SReg) (s : State) : Out :=
  head (.wdstat d) (needX [] [] [.s d]) free free (fun s => .done (s.setS 1 d s.here.csr.wds) .seq) s

end Sys2Proof.Machine
end

