-- ==== Sys2Proof/Machine/Dispatch.lean ====
section
/-! DEFINITION. One arm per instruction and event: its meaning, or a rejection by name. -/

namespace Sys2Proof.Machine

def exec (i : Instr) (s : State) : Host.Outcome State Fault Refusal :=
  match i with
  | .add d a b => Sys2Proof.Machine.execAdd d a b s
  | .sub d a b => Sys2Proof.Machine.execSub d a b s
  | .mul d a b => Sys2Proof.Machine.execMul d a b s
  | .mulh d a b => Sys2Proof.Machine.execMulh d a b s
  | .mulhn d a b => Sys2Proof.Machine.execMulhn d a b s
  | .min d a b => Sys2Proof.Machine.execMin d a b s
  | .max d a b => Sys2Proof.Machine.execMax d a b s
  | .minn d a b => Sys2Proof.Machine.execMinn d a b s
  | .maxn d a b => Sys2Proof.Machine.execMaxn d a b s
  | .div d a b => Sys2Proof.Machine.execDiv d a b s
  | .divn d a b => Sys2Proof.Machine.execDivn d a b s
  | .rem d a b => Sys2Proof.Machine.execRem d a b s
  | .remn d a b => Sys2Proof.Machine.execRemn d a b s
  | .and d a b => Sys2Proof.Machine.execAnd d a b s
  | .or d a b => Sys2Proof.Machine.execOr d a b s
  | .xor d a b => Sys2Proof.Machine.execXor d a b s
  | .andn d a b => Sys2Proof.Machine.execAndn d a b s
  | .shl d a b => Sys2Proof.Machine.execShl d a b s
  | .shr d a b => Sys2Proof.Machine.execShr d a b s
  | .sra d a b => Sys2Proof.Machine.execSra d a b s
  | .rotl d a b => Sys2Proof.Machine.execRotl d a b s
  | .clz d a => Sys2Proof.Machine.execClz d a s
  | .ctz d a => Sys2Proof.Machine.execCtz d a s
  | .popc d a => Sys2Proof.Machine.execPopc d a s
  | .sext d a b => Sys2Proof.Machine.execSext d a b s
  | .zext d a b => Sys2Proof.Machine.execZext d a b s
  | .bfx d a b n => Sys2Proof.Machine.execBfx d a b n s
  | .bfi d a b n => Sys2Proof.Machine.execBfi d a b n s
  | .li d k => Sys2Proof.Machine.execLi d k s
  | .lih d k => Sys2Proof.Machine.execLih d k s
  | .mov d a => Sys2Proof.Machine.execMov d a s
  | .sel d n a b => Sys2Proof.Machine.execSel d n a b s
  | .cmp pd cond a b => Sys2Proof.Machine.execCmp pd cond a b s
  | .plAnd pd pa => Sys2Proof.Machine.execPlAnd pd pa s
  | .plOr pd pa => Sys2Proof.Machine.execPlOr pd pa s
  | .plNot pd pa => Sys2Proof.Machine.execPlNot pd pa s
  | .ptradd d a b => Sys2Proof.Machine.execPtradd d a b s
  | .ptrfmt d a b => Sys2Proof.Machine.execPtrfmt d a b s
  | .ptrtag d a b => Sys2Proof.Machine.execPtrtag d a b s
  | .ptrfld d a b => Sys2Proof.Machine.execPtrfld d a b s
  | .gtc d => Sys2Proof.Machine.execGtc d s
  | .ctxid d => Sys2Proof.Machine.execCtxid d s
  | .br n t => Sys2Proof.Machine.execBr n t s
  | .bra t => Sys2Proof.Machine.execBra t s
  | .jmp a => Sys2Proof.Machine.execJmp a s
  | .jmpr a b => Sys2Proof.Machine.execJmpr a b s
  | .call t => Sys2Proof.Machine.execCall t s
  | .callr a => Sys2Proof.Machine.execCallr a s
  | .ret => Sys2Proof.Machine.execRet s
  | .jtab a b c d => Sys2Proof.Machine.execJtab a b c d s
  | .lp a t => Sys2Proof.Machine.execLp a t s
  | .halt => Sys2Proof.Machine.execHalt s
  | .haltR a => Sys2Proof.Machine.execHaltR a s
  | .trap a => Sys2Proof.Machine.execTrap a s
  | .nop => Sys2Proof.Machine.execNop s
  | .sigchk k => Sys2Proof.Machine.execSigchk k s
  | .msgdone => Sys2Proof.Machine.execMsgdone s
  | .gform a b => Sys2Proof.Machine.execGform a b s
  | .gleave => Sys2Proof.Machine.execGleave s
  | .gjoin t => Sys2Proof.Machine.execGjoin t s
  | .gbar => Sys2Proof.Machine.execGbar s
  | .sbar => Sys2Proof.Machine.execSbar s
  | .launch d a b => Sys2Proof.Machine.execLaunch d a b s
  | .qdone a b => Sys2Proof.Machine.execQdone a b s
  | .csrr d k => Sys2Proof.Machine.execCsrr d k s
  | .csrw k a => Sys2Proof.Machine.execCsrw k a s
  | .csrset k a => Sys2Proof.Machine.execCsrset k a s
  | .csrclr k a => Sys2Proof.Machine.execCsrclr k a s
  | .ifence => Sys2Proof.Machine.execIfence s
  | .eret => Sys2Proof.Machine.execEret s
  | .tlbinv a b => Sys2Proof.Machine.execTlbinv a b s
  | .msave a b => Sys2Proof.Machine.execMsave a b s
  | .mrest a b => Sys2Proof.Machine.execMrest a b s
  | .htset a b => Sys2Proof.Machine.execHtset a b s
  | .ld d a o size sx => Sys2Proof.Machine.execLd d a o size sx s
  | .st a o b size => Sys2Proof.Machine.execSt a o b size s
  | .ldv d a o n => Sys2Proof.Machine.execLdv d a o n s
  | .stv a o v n => Sys2Proof.Machine.execStv a o v n s
  | .ldbit d a m => Sys2Proof.Machine.execLdbit d a m s
  | .stbit a b m => Sys2Proof.Machine.execStbit a b m s
  | .bset n a => Sys2Proof.Machine.execBset n a s
  | .ldf d a o m => Sys2Proof.Machine.execLdf d a o m s
  | .stf a o v m => Sys2Proof.Machine.execStf a o v m s
  | .pf a o => Sys2Proof.Machine.execPf a o s
  | .tagset a o b => Sys2Proof.Machine.execTagset a o b s
  | .fence kind scope => Sys2Proof.Machine.execFence kind scope s
  | .ldacq d a o m => Sys2Proof.Machine.execLdacq d a o m s
  | .strel a o b m => Sys2Proof.Machine.execStrel a o b m s
  | .amoAdd d a o b m => Sys2Proof.Machine.execAmoAdd d a o b m s
  | .amoAnd d a o b m => Sys2Proof.Machine.execAmoAnd d a o b m s
  | .amoOr d a o b m => Sys2Proof.Machine.execAmoOr d a o b m s
  | .amoXor d a o b m => Sys2Proof.Machine.execAmoXor d a o b m s
  | .amoMin d a o b m => Sys2Proof.Machine.execAmoMin d a o b m s
  | .amoMax d a o b m => Sys2Proof.Machine.execAmoMax d a o b m s
  | .amoMinn d a o b m => Sys2Proof.Machine.execAmoMinn d a o b m s
  | .amoMaxn d a o b m => Sys2Proof.Machine.execAmoMaxn d a o b m s
  | .amoSwap d a o b m => Sys2Proof.Machine.execAmoSwap d a o b m s
  | .cas d a o b c m => Sys2Proof.Machine.execCas d a o b c m s
  | .ldfe d a o => Sys2Proof.Machine.execLdfe d a o s
  | .ldfeE d a o => Sys2Proof.Machine.execLdfeE d a o s
  | .stfe a o b => Sys2Proof.Machine.execStfe a o b s
  | .stfeW a o b => Sys2Proof.Machine.execStfeW a o b s
  | .feSet a o => Sys2Proof.Machine.execFeSet a o s
  | .feClr a o => Sys2Proof.Machine.execFeClr a o s
  | .feTst pd a o => Sys2Proof.Machine.execFeTst pd a o s
  | .waitSatisfied c => Sys2Proof.Machine.execWaitSatisfied c s
  | .send a b c => Sys2Proof.Machine.execSend a b c s
  | .inb d q => Sys2Proof.Machine.execInb d q s
  | .sendl d a b c e f => Sys2Proof.Machine.execSendl d a b c e f s
  | .get a b c d e => Sys2Proof.Machine.execGet a b c d e s
  | .put a b c d e => Sys2Proof.Machine.execPut a b c d e s
  | .getx a b c d e f size => Sys2Proof.Machine.execGetx a b c d e f size s
  | .putx a b c d e f size => Sys2Proof.Machine.execPutx a b c d e f size s
  | .ccSet a b scope => Sys2Proof.Machine.execCcSet a b scope s
  | .ccRd d a w => Sys2Proof.Machine.execCcRd d a w s
  | .ccWait d a b nt => Sys2Proof.Machine.execCcWait d a b nt s
  | .cbCfg a b c d eng => Sys2Proof.Machine.execCbCfg a b c d eng s
  | .cbAcq d a t => Sys2Proof.Machine.execCbAcq d a t s
  | .cbPub a => Sys2Proof.Machine.execCbPub a s
  | .cbTake d a t => Sys2Proof.Machine.execCbTake d a t s
  | .cbRel a => Sys2Proof.Machine.execCbRel a s
  | .cpy a b c d cb => Sys2Proof.Machine.execCpy a b c d cb s
  | .cpyz a b c d e dir => Sys2Proof.Machine.execCpyz a b c d e dir s
  | .vaddInt d a b m => Sys2Proof.Machine.execVaddInt d a b m s
  | .vsubInt d a b m => Sys2Proof.Machine.execVsubInt d a b m s
  | .vmulInt d a b m => Sys2Proof.Machine.execVmulInt d a b m s
  | .vmulh d a b m => Sys2Proof.Machine.execVmulh d a b m s
  | .vminInt d a b m => Sys2Proof.Machine.execVminInt d a b m s
  | .vmaxInt d a b m => Sys2Proof.Machine.execVmaxInt d a b m s
  | .vabsInt d a m => Sys2Proof.Machine.execVabsInt d a m s
  | .vnegInt d a m => Sys2Proof.Machine.execVnegInt d a m s
  | .vaddFloat d a b m => Sys2Proof.Machine.execVaddFloat d a b m s
  | .vsubFloat d a b m => Sys2Proof.Machine.execVsubFloat d a b m s
  | .vmulFloat d a b m => Sys2Proof.Machine.execVmulFloat d a b m s
  | .vfma d a b m => Sys2Proof.Machine.execVfma d a b m s
  | .vfms d a b m => Sys2Proof.Machine.execVfms d a b m s
  | .vminFloat d a b m => Sys2Proof.Machine.execVminFloat d a b m s
  | .vmaxFloat d a b m => Sys2Proof.Machine.execVmaxFloat d a b m s
  | .vabsFloat d a m => Sys2Proof.Machine.execVabsFloat d a m s
  | .vnegFloat d a m => Sys2Proof.Machine.execVnegFloat d a m s
  | .vdiv d a b m => Sys2Proof.Machine.execVdiv d a b m s
  | .vrem d a b m => Sys2Proof.Machine.execVrem d a b m s
  | .vand d a b n => Sys2Proof.Machine.execVand d a b n s
  | .vor d a b n => Sys2Proof.Machine.execVor d a b n s
  | .vxor d a b n => Sys2Proof.Machine.execVxor d a b n s
  | .vandn d a b n => Sys2Proof.Machine.execVandn d a b n s
  | .vnot d a n => Sys2Proof.Machine.execVnot d a n s
  | .vshl d a b m => Sys2Proof.Machine.execVshl d a b m s
  | .vshr d a b m => Sys2Proof.Machine.execVshr d a b m s
  | .vsra d a b m => Sys2Proof.Machine.execVsra d a b m s
  | .vclz d a m => Sys2Proof.Machine.execVclz d a m s
  | .vpopc d a m => Sys2Proof.Machine.execVpopc d a m s
  | .vcmpInt a b cond m => Sys2Proof.Machine.execVcmpInt a b cond m s
  | .vcmpFloat a b cond m => Sys2Proof.Machine.execVcmpFloat a b cond m s
  | .vsel d a b n => Sys2Proof.Machine.execVsel d a b n s
  | .vperm d a b n => Sys2Proof.Machine.execVperm d a b n s
  | .vext d a b k => Sys2Proof.Machine.execVext d a b k s
  | .vmov d a n => Sys2Proof.Machine.execVmov d a n s
  | .vbcast d a size => Sys2Proof.Machine.execVbcast d a size s
  | .vins d a b size => Sys2Proof.Machine.execVins d a b size s
  | .vget d a b size sx => Sys2Proof.Machine.execVget d a b size sx s
  | .vrsumInt d a m => Sys2Proof.Machine.execVrsumInt d a m s
  | .vrmaxInt d a m => Sys2Proof.Machine.execVrmaxInt d a m s
  | .vrminInt d a m => Sys2Proof.Machine.execVrminInt d a m s
  | .vdot4 d a b m => Sys2Proof.Machine.execVdot4 d a b m s
  | .vrsumFloat d a m => Sys2Proof.Machine.execVrsumFloat d a m s
  | .vrmaxFloat d a m => Sys2Proof.Machine.execVrmaxFloat d a m s
  | .vrminFloat d a m => Sys2Proof.Machine.execVrminFloat d a m s
  | .vcvt d a src m => Sys2Proof.Machine.execVcvt d a src m s
  | .vpack d a k dst satm => Sys2Proof.Machine.execVpack d a k dst satm s
  | .vunpk d a k src tgt => Sys2Proof.Machine.execVunpk d a k src tgt s
  | .vo4p d a b rnd => Sys2Proof.Machine.execVo4p d a b rnd s
  | .vthr d a b m => Sys2Proof.Machine.execVthr d a b m s
  | .vexp2 d a m => Sys2Proof.Machine.execVexp2 d a m s
  | .vlog2 d a m => Sys2Proof.Machine.execVlog2 d a m s
  | .vrcp d a m => Sys2Proof.Machine.execVrcp d a m s
  | .vrsqrt d a m => Sys2Proof.Machine.execVrsqrt d a m s
  | .vsqrt d a m => Sys2Proof.Machine.execVsqrt d a m s
  | .vtanh d a m => Sys2Proof.Machine.execVtanh d a m s
  | .sfuService p => Sys2Proof.Machine.execSfuService p s
  | .sfuResult p => Sys2Proof.Machine.execSfuResult p s
  | .dividerService p => Sys2Proof.Machine.execDividerService p s
  | .dividerResult p => Sys2Proof.Machine.execDividerResult p s
  | .mcfg a => Sys2Proof.Machine.execMcfg a s
  | .mlds a b c d cmp => Sys2Proof.Machine.execMlds a b c d cmp s
  | .mswap => Sys2Proof.Machine.execMswap s
  | .mstrm a b c d e => Sys2Proof.Machine.execMstrm a b c d e s
  | .mdrain a b c d e f => Sys2Proof.Machine.execMdrain a b c d e f s
  | .mzero => Sys2Proof.Machine.execMzero s
  | .mwait => Sys2Proof.Machine.execMwait s
  | .mstat d a => Sys2Proof.Machine.execMstat d a s
  | .mmask a b c => Sys2Proof.Machine.execMmask a b c s
  | .arrayArbitration k => Sys2Proof.Machine.execArrayArbitration k s
  | .mldsService k => Sys2Proof.Machine.execMldsService k s
  | .mswapService k => Sys2Proof.Machine.execMswapService k s
  | .mstrmService k => Sys2Proof.Machine.execMstrmService k s
  | .mdrainService k => Sys2Proof.Machine.execMdrainService k s
  | .mzeroService k => Sys2Proof.Machine.execMzeroService k s
  | .mmaskService k => Sys2Proof.Machine.execMmaskService k s
  | .auRestore k => Sys2Proof.Machine.execAuRestore k s
  | .dload a b c => Sys2Proof.Machine.execDload a b c s
  | .dsel k => Sys2Proof.Machine.execDsel k s
  | .pcfg a b c => Sys2Proof.Machine.execPcfg a b c s
  | .penc a b z => Sys2Proof.Machine.execPenc a b z s
  | .pdec a b => Sys2Proof.Machine.execPdec a b s
  | .aimg d v a b => Sys2Proof.Machine.execAimg d v a b s
  | .dloadService k => Sys2Proof.Machine.execDloadService k s
  | .pencService k => Sys2Proof.Machine.execPencService k s
  | .pdecService k => Sys2Proof.Machine.execPdecService k s
  | .aimgService k => Sys2Proof.Machine.execAimgService k s
  | .kvcommit a b c d e => Sys2Proof.Machine.execKvcommit a b c d e s
  | .kvcommitService p n => Sys2Proof.Machine.execKvcommitService p n s
  | .wdenter d a b w => Sys2Proof.Machine.execWdenter d a b w s
  | .wdstat d => Sys2Proof.Machine.execWdstat d s
  | .wdeBlockFetch c => Sys2Proof.Machine.execWdeBlockFetch c s
  | .wdeNoOp c => Sys2Proof.Machine.execWdeNoOp c s
  | .loadStationary c => Sys2Proof.Machine.execLoadStationary c s
  | .wdeSwap c => Sys2Proof.Machine.execWdeSwap c s
  | .wdeStream c => Sys2Proof.Machine.execWdeStream c s
  | .wdeDrain c => Sys2Proof.Machine.execWdeDrain c s
  | .accumulateAtoms c => Sys2Proof.Machine.execAccumulateAtoms c s
  | .branchOnFlag c => Sys2Proof.Machine.execBranchOnFlag c s
  | .callTensor c => Sys2Proof.Machine.execCallTensor c s
  | .wdeReturn c => Sys2Proof.Machine.execWdeReturn c s
  | .tail c => Sys2Proof.Machine.execTail c s
  | .exit c => Sys2Proof.Machine.execExit c s
  | .lineFetch c => Sys2Proof.Machine.execLineFetch c s
  | .gangForward c => Sys2Proof.Machine.execGangForward c s
  | .takeTrap c => Sys2Proof.Machine.execTakeTrap c s
  | .watchdog c => Sys2Proof.Machine.execWatchdog c s
  | .gjtoExpiry g => Sys2Proof.Machine.execGjtoExpiry g s
  | .messageDelivery n => Sys2Proof.Machine.execMessageDelivery n s
  | .handlerStart p => Sys2Proof.Machine.execHandlerStart p s
  | .lockedEntryTimeout p => Sys2Proof.Machine.execLockedEntryTimeout p s
  | .releasedOpEnqueue c => Sys2Proof.Machine.execReleasedOpEnqueue c s
  | .engineCommandStart p => Sys2Proof.Machine.execEngineCommandStart p s
  | .engineDataPiece p n => Sys2Proof.Machine.execEngineDataPiece p n s
  | .engineElementWrite p n => Sys2Proof.Machine.execEngineElementWrite p n s
  | .sendlEntry p n => Sys2Proof.Machine.execSendlEntry p n s
  | .cpyCbSlotTake p n => Sys2Proof.Machine.execCpyCbSlotTake p n s
  | .cpyzBlock p n => Sys2Proof.Machine.execCpyzBlock p n s
  | .counterIncrement p n => Sys2Proof.Machine.execCounterIncrement p n s
  | .counterError p n => Sys2Proof.Machine.execCounterError p n s
  | .launchEnqueue q => Sys2Proof.Machine.execLaunchEnqueue q s
  | .dispatch q => Sys2Proof.Machine.execDispatch q s
  | .checkedRunCompare q n => Sys2Proof.Machine.execCheckedRunCompare q n s
  | .killctx q => Sys2Proof.Machine.execKillctx q s
  | .killgrp q => Sys2Proof.Machine.execKillgrp q s
  | .drainq q => Sys2Proof.Machine.execDrainq q s
  | .reside q => Sys2Proof.Machine.execReside q s
  | .release q => Sys2Proof.Machine.execRelease q s
  | .inboxRepresent p => Sys2Proof.Machine.execInboxRepresent p s
  | .inboxDiscard p => Sys2Proof.Machine.execInboxDiscard p s
  | .decodeTableLoad q => Sys2Proof.Machine.execDecodeTableLoad q s
  | .delayTableClear p => Sys2Proof.Machine.execDelayTableClear p s
  | .unfence q k => Sys2Proof.Machine.execUnfence q k s
  | .reset q k => Sys2Proof.Machine.execReset q k s
  | .uncorrectableConsumption c va pa => Sys2Proof.Machine.execUncorrectableConsumption c va pa s
  | .bankDrop g v => Sys2Proof.Machine.execBankDrop g v s
  | .tugUnitMove g => Sys2Proof.Machine.execTugUnitMove g s
  | .tableWalk k q va => Sys2Proof.Machine.execTableWalk k q va s
  | .correctedErrorWindow k count => Sys2Proof.Machine.execCorrectedErrorWindow k count s
  | .traceSample p => Sys2Proof.Machine.execTraceSample p s
  | .dumpWrite d => Sys2Proof.Machine.execDumpWrite d s
  | .hostDoorbell g vf q v => Sys2Proof.Machine.execHostDoorbell g vf q v s
  | .hostMemoryAccess g vf a => Sys2Proof.Machine.execHostMemoryAccess g vf a s
  | .functionLevelReset g vf => Sys2Proof.Machine.execFunctionLevelReset g vf s
  | .powerOn g b => Sys2Proof.Machine.execPowerOn g b s
  | .powerLoss g step => Sys2Proof.Machine.execPowerLoss g step s
  | .linkPortDown g n => Sys2Proof.Machine.execLinkPortDown g n s
  | .fabricDelivery p n => Sys2Proof.Machine.execFabricDelivery p n s
  | .functionEnable g vf => Sys2Proof.Machine.execFunctionEnable g vf s
  | .voltageControllerRequest k mv => Sys2Proof.Machine.execVoltageControllerRequest k mv s
  | .clusterUnfreeze k => Sys2Proof.Machine.execClusterUnfreeze k s
  | .clockSlowing k n => Sys2Proof.Machine.execClockSlowing k n s
  | .flitRetransmission g n => Sys2Proof.Machine.execFlitRetransmission g n s
  | .portDegraded g n => Sys2Proof.Machine.execPortDegraded g n s

end Sys2Proof.Machine
end

