-- ==== Sys2Proof/Machine/Schedule.lean ====
section
/-! DEFINITION. Which move comes next when the agenda is empty (log 1), and where a move belongs. -/

namespace Sys2Proof.Machine

/-- A new cycle: the resets that consumptions of the old one call for (R342, R344), the check of its doorbells (R371), and the
contexts that it freed take work again (R49). -/
def State.nextCycle (s : State) : State :=
  let t := s.resetConsumed.checkDoorbells
  { t with cycle := t.cycle + 1, freed := [] }

/-- A core has issued in this cycle of its own clock (R48, R374). -/
def State.issuedNow (s : State) (p : Place) : Bool := (s.core p).issuedAt.any fun t => decide (s.now p ≤ t)

/-- The context of a core that issues now: the first in round-robin order after the last (R48). -/
def State.issuer (s : State) (p : Place) : Option CtxId :=
  let k := s.core p
  if s.issuedNow p then none
  else ((List.range 4).map fun i => ctxAt p ((k.lastIssued + 1 + i) % 4)).find? fun c =>
    let x := s.ctx c
    decide (x.run = .running) && !x.inChain && decide (x.heldAt ≠ some s.cycle)

/-- The cores that hold a context. -/
def State.busyCores (s : State) : List Place := s.focus :: (s.ctxs.map fun e => coreOf e.1)

/-- Events that a core's units may be ready for. -/
def coreEvents (k : Core) (p : Place) : List Instr :=
  [.sfuService p, .sfuResult p, .dividerService p, .dividerResult p, .handlerStart p, .lockedEntryTimeout p, .engineCommandStart p,
    .traceSample p] ++
    (k.fabric.map fun r => .fabricDelivery p r.seq) ++
    (k.port.flatMap fun e => [.engineDataPiece p e.seq, .sendlEntry p e.seq, .cpyCbSlotTake p e.seq, .cpyzBlock p e.seq,
      .kvcommitService p e.seq, .counterIncrement p e.seq, .counterError p e.seq]) ++
    ((List.range k.transit.length).map fun i => .engineElementWrite p i)

/-- Events of a partition's part. A decision to place comes before the heads of its cycle: a context freed in a cycle is placed
on in the next one at the earliest (R49). -/
def partEvents (x : Part) (q : PartId) (fresh : Bool) : List Instr :=
  [.killctx q, .killgrp q, .drainq q, .reside q, .release q, .launchEnqueue q] ++ (if fresh then [.dispatch q] else []) ++
    (List.range x.checked.length).map fun n => .checkedRunCompare q n

/-- No core has issued in this cycle. -/
def State.cycleFresh (s : State) : Bool := s.cores.all fun e => !s.issuedNow e.1

/-- The clusters that the state names, by themselves or by a core. -/
def State.liveClusters (s : State) : List ClusterId :=
  (s.clusters.map (·.1) ++ s.cores.map fun e => clusterOf e.1).foldl natInsert []

/-- Moves that may be possible now, other than an issue. -/
def State.candidates (s : State) : List Move :=
  (s.parts.flatMap fun e => (partEvents e.2 e.1 s.cycleFresh).map .event) ++
    (s.cores.flatMap fun e => (coreEvents e.2 e.1).map .event) ++
    (s.messages.map fun f => .event (.messageDelivery f.seq)) ++
    (s.gangs.map fun g => .event (.gjtoExpiry g.num)) ++
    (s.ctxs.flatMap fun e => [.wde e.1, .event (.releasedOpEnqueue e.1)]) ++
    (s.liveClusters.flatMap fun k => [.array k, .event (.dloadService k), .event (.pencService k), .event (.pdecService k)]) ++
    s.dies.map fun e => .event (.dumpWrite e.1)

/-- A move that happens now: it changes the state. A chain does one thing a cycle once it is held. -/
def State.happens (s : State) (m : Move) : Bool :=
  match m with
  | .event i => match exec i s with
    | .next t => decide (t ≠ s)
    | _ => true
  | .array k => decide (s.arrayTurn k ≠ s)
  | .wde c => s.inWde c && decide ((s.ctx c).heldAt ≠ some s.cycle)
  | _ => true

/-- A move of a unit or of the fabric that can happen now. -/
def State.dueMove (s : State) : Option Move := s.candidates.find? s.happens

/-- The Tug's next unit, once nothing issues in this cycle. -/
def State.tugMove (s : State) : Option Move := (s.pkgs.find? fun e => e.2.tugActive).map fun e => .event (.tugUnitMove e.1)

def State.nextMove (s : State) : Move :=
  match s.dueMove with
  | some m => m
  | none => match s.busyCores.findSome? s.issuer with
    | some c => .issue c
    | none => (s.tugMove).getD .tick

/-- The package whose power a move needs. -/
def Move.home : Move → Option PkgId
  | .issue c => some (pkgOf (coreOf c))
  | .wde c => some (pkgOf (coreOf c))
  | .array k => some (pkgOfCluster k)
  | .tick => none
  | .event _ => none

end Sys2Proof.Machine
end

