-- ==== Sys2Proof/Machine/Step.lean ====
section
/-! DEFINITION. One step of the machine, and an instruction put where the next step fetches it. -/

namespace Sys2Proof.Machine

/-- Run a move: a context's turn, a cycle, a unit of weight-driven execution, an array command or an event. -/
def State.runMove (s : State) (m : Move) : Host.Outcome State Fault Refusal :=
  match m.home with
  | some g => if (s.pkg g).powered then runPowered s m else .fault .unpowered
  | none => runPowered s m
where
  runPowered (s : State) : Move → Host.Outcome State Fault Refusal
    | .issue c => match s.prepare c with
      | .run i t => exec i t
      | .idle t => .next t
    | .tick => .next s.nextCycle
    | .wde c => .next (s.wdeTurn c)
    | .array k => .next (s.arrayTurn k)
    | .event i => exec i s

/-- The next move: the first of the agenda, else the one that `nextMove` finds (log 1). -/
def step (s : State) : Host.Outcome State Fault Refusal :=
  match s.agenda with
  | m :: rest => ({ s with agenda := rest } : State).runMove m
  | [] => s.runMove s.nextMove

/-- Context 0 of the focus core runs a task that holds bank 0, its next line holds the instruction alone, and its turn is next
(log 12). -/
def State.withFetchWord (s : State) (nbits w : Nat) : State :=
  s.placeHead (4 * s.focus) (lineBytes (tableLine nbits w))

end Sys2Proof.Machine
end

