-- ==== Sys2Proof/Safety.lean ====
section
/-! DEFINITION. The terms of the statements: when a head may issue, what a register holds, what a head leaves unchanged, and the
invariant that every step keeps. -/

namespace Sys2Proof.Machine

/-! ## When a head may issue -/

/-- The fixed-latency results due by a cycle are written; `State.prepare` sees to it before every head (R166). -/
def Context.caughtUp (x : Context) (now : Nat) : Bool := x.pend.all fun p => decide (now < p.due)

/-- The head under issue meets none of the checks that every head shares (R165): no interlock (R168), no earlier access of its
context to near memory with events still to come (R129), no DELAY_SLOT (R171, R197), no STALL_SHORT (R169), and every constant-bank
entry it names can be read (R22). -/
structure State.Ready (s : State) (n : Need) : Prop where
  whole : s.splitPending s.cur.ctx = false
  unlocked : s.here.interlocked n = false
  slot : s.here.slotBad n s.cur.ptr = false
  stall : s.here.stallShort n (s.nowCtx s.cur.ctx) = false
  consts : s.constFault n = none
  settled : s.here.caughtUp (s.nowCtx s.cur.ctx) = true

/-! ## What registers hold -/

/-- A value as a register holds it. -/
def fitReg (r : RegName) (w : Vec) : Vec :=
  match r with
  | .s _ | .b _ => (w.setWidth 64).setWidth 128
  | .v _ => w
  | .p _ => (w.setWidth 16).setWidth 128

/-- What a register of a context holds once the fixed-latency results on their way are written (R166). -/
def State.val (s : State) (c : CtxId) (r : RegName) : Vec := (s.ctx c).flush.readReg r
/-- SW likewise (R24). A pending result whose register a later head overwrites still brings its flags here (DEDUCED, log 8). -/
def State.sw (s : State) (c : CtxId) : SW := (s.ctx c).flush.csr.sw
/-- The scalar register `d` of the context under issue. -/
def State.sval (s : State) (d : SReg) : Vec := s.val s.cur.ctx (.s d)

/-! ## What a head leaves -/

/-- A context that the head under issue has freed: nothing of its task is left but the cycle from which a task on it may issue (R166). -/
def State.freedHere (s : State) : Context := { readyAt := s.nowCtx s.cur.ctx + 1 + s.cur.sc }

/-- An inbox slot without the time at which its message reached the inbox head (R233). -/
def InSlot.bare (m : InSlot) : InSlot := { m with headAt := none }

/-- A context without its registers and SW, which have statements of their own, and without what issuing any head may change:
where it continues (R170, R197), the stall count (R166), DSIG (R203), its part in a gang (R42-R44), a due ARITH trap (R24), the
interlocked registers (R168), the digest of a checked run (R350), and the barrier head its followers have (R207). -/
def Context.kept (x : Context) : Context :=
  { x with
    s := Vector.replicate 32 0, v := Vector.replicate 32 0, p := Vector.replicate 8 0, b := Vector.replicate 4 0
    pc := 0, dsn := 0, npc := none, lines := [], readyAt := 0, heldAt := none, wait := none, bpPass := false, stepDue := none
    sent := none, fwd := [], gangEnd := none, gangSlots := 0, due := none, pend := [], busy := [], digest := 0
    csr := { x.csr with sw := 0, lpcnt := 0, dsig := 0, gang := 0 } }

/-- A core without the mark of the context that issued last (R48) and the translations it caches (R322). -/
def Core.kept (x : Core) : Core := { x with lastIssued := 0, issuedAt := none, tlb := [] }
/-- A cluster without the translations it caches (R322). -/
def Cluster.kept (x : Cluster) : Cluster := { x with tlb := [] }

/-- Every register keeps its value but those listed, each with its context. -/
def RegsKept (s t : State) (l : List (CtxId × RegName)) : Prop := ∀ c r, (c, r) ∉ l → t.val c r = s.val c r
/-- The flags of every context are as before, but for `f`, ORed into SW of the context under issue (R24); those of results on their
way are counted as `State.sw` counts them (log 8). -/
def FlagsSet (s t : State) (f : SW) : Prop := ∀ c, t.sw c = if c = s.cur.ctx then s.sw c ||| f else s.sw c
/-- Every control register, AU and task of every context is as before, but for `own` on the context under issue. -/
def ContextsKept (s t : State) (own : Context → Context) : Prop :=
  ∀ c, (t.ctx c).kept = if c = s.cur.ctx then own (s.ctx c).kept else (s.ctx c).kept
/-- Every byte of memory but those at the places listed, and every tag (R225) and uncorrectable error (R342). -/
def BytesKept (s t : State) (l : List Nat) : Prop := (∀ a, a ∉ l → t.byte a = s.byte a) ∧ t.tags = s.tags
/-- Every full/empty bit (R30). -/
def FullKept (s t : State) : Prop := t.full = s.full
/-- Every core, but for `own` on the core of the context under issue, and every cluster. -/
def CoresKept (s t : State) (own : Core → Core) : Prop :=
  (∀ p, (t.core p).kept = if p = coreOf s.cur.ctx then own (s.core p).kept else (s.core p).kept) ∧
    ∀ k, (t.cluster k).kept = (s.cluster k).kept
/-- Everything above the cores, the special cells of saved AUs (R106), the contexts freed (R49), and time. -/
structure UnitsKept (s t : State) : Prop where
  dies : t.dies = s.dies
  pkgs : t.pkgs = s.pkgs
  parts : t.parts = s.parts
  freed : t.freed = s.freed
  imageMarks : t.imageMarks = s.imageMarks
  flying : t.flying = s.flying
  cycle : t.cycle = s.cycle

/-- The full/empty bits (R30) and the uncorrectable errors (R342) are as before. -/
structure MarksKept (s t : State) : Prop where
  full : t.full = s.full
  poison : t.poison = s.poison

/-- All that may differ is the registers `l` of the context under issue, the flags `f` it sets, what `own` says of the context
and `core` of its core, the bytes at `places`, and what `Context.kept` leaves out. -/
structure Spares (s t : State) (l : List RegName) (f : SW) (own : Context → Context) (core : Core → Core) (places : List Nat) :
    Prop where
  regs : RegsKept s t (l.map fun r => (s.cur.ctx, r))
  flags : FlagsSet s t f
  contexts : ContextsKept s t own
  bytes : BytesKept s t places
  cores : CoresKept s t core
  units : UnitsKept s t

/-- LPCNT of every context is as before, but one less where the head under issue ends a pass of its loop (R197). -/
def LoopsKept (s t : State) : Prop :=
  ∀ c, (t.ctx c).csr.lpcnt =
    if c = s.cur.ctx ∧ s.here.atLoopEnd s.cur.ptr = true then s.here.csr.lpcnt - 1 else (s.ctx c).csr.lpcnt

/-- The head under issue was fetched by its context, or comes from a gang's stream that has not ended (R44). -/
def State.ownStream (s : State) : Prop := s.cur.forwarded = true → s.here.gangEnd = none

/-- DSIG takes in the first two words of the head under issue (R203). -/
def Signed (s t : State) : Prop := (t.ctx s.cur.ctx).csr.dsig = (s.here.csr.dsig.rotateLeft 1 ^^^ s.cur.h) ^^^ s.cur.t

/-- Where a context goes on after a head that is no transfer: at the next head, and from the second delay slot at the transfer's
target if it was taken (R170). The head at LPEND of an active loop goes to LPBEG after two delay slots, unless the count ends with it
(R197). -/
def FollowsOn (s t : State) : Prop :=
  s.ownStream →
    let x := t.ctx s.cur.ctx
    let next := ptrAfter s.cur.ptr s.cur.hc
    if s.here.atLoopEnd s.cur.ptr = true then
      x.pc = next ∧ x.dsn = 1 ∧ x.npc = if s.here.csr.lpcnt = 1 then none else some s.here.csr.lpbeg
    else if s.here.dsn = 0 then x.pc = next ∧ x.dsn = 0
    else if s.here.dsn = 1 then x.pc = next ∧ x.dsn = 2 ∧ x.npc = s.here.npc
    else x.pc = s.here.npc.getD next ∧ x.dsn = 0

/-- A head that is no transfer goes on in sequence, and DSIG takes in its first two words (R203). -/
structure Proceeds (s t : State) : Prop where
  signed : s.ownStream → Signed s t
  follows : FollowsOn s t

/-- The frame of a head, but for where its context goes on. -/
structure Keeps (s t : State) (l : List RegName) (f : SW) (own : Context → Context) (core : Core → Core) (places : List Nat) :
    Prop extends Spares s t l f own core places where
  loops : LoopsKept s t

/-- THE FRAME of a head that is no transfer. -/
structure Leaves (s t : State) (l : List RegName) (f : SW) (own : Context → Context) (core : Core → Core) (places : List Nat) :
    Prop extends Keeps s t l f own core places where
  proceeds : Proceeds s t

/-- A head that writes the registers `l`, sets the flags `f`, and changes nothing else but where its context goes on. A hard-wired
register keeps its value (R22). -/
structure Sets (s t : State) (l : List (RegName × Vec)) (f : SW) : Prop where
  writes : ∀ e ∈ l, t.val s.cur.ctx e.1 = if e.1.wired then s.val s.cur.ctx e.1 else e.2
  frame : Keeps s t (l.map (·.1)) f id id []
  marks : MarksKept s t

/-- A head that is no transfer, writes the registers `l`, sets the flags `f`, and changes nothing else. -/
structure Computes (s t : State) (l : List (RegName × Vec)) (f : SW) : Prop extends Sets s t l f where
  proceeds : Proceeds s t

/-- The two heads after a transfer are its delay slots; then it goes to its target, or on after them (R170). -/
structure Transfers (s t : State) (target : Option Word) : Prop where
  pc : (t.ctx s.cur.ctx).pc = ptrAfter s.cur.ptr s.cur.hc
  slot : (t.ctx s.cur.ctx).dsn = 1
  npc : (t.ctx s.cur.ctx).npc = target
  signed : Signed s t

/-- A register of the context under issue waits for an interlocked result (R168); a hard-wired one never does. -/
def Awaits (s t : State) (r : RegName) : Prop := r.wired = false → r ∈ (t.ctx s.cur.ctx).busy

/-- A head that goes on in sequence and changes nothing but its own part, as `part` says (R306). -/
def OnOwnPart (s t : State) (part : Part → Part) : Prop :=
  Leaves s { t with parts := s.parts } [] 0 id id [] ∧ MarksKept s t ∧
    ∀ r, t.part r = if r = s.partOfCtx s.cur.ctx then part (s.part r) else s.part r
/-- The same of its own die. -/
def OnOwnDie (s t : State) (die : Die → Die) : Prop :=
  Leaves s { t with dies := s.dies } [] 0 id id [] ∧ MarksKept s t ∧
    ∀ r, t.die r = if r = dieOf (coreOf s.cur.ctx) then die (s.die r) else s.die r
/-- The same of its own cluster. -/
def OnOwnCluster (s t : State) (cluster : Cluster → Cluster) : Prop :=
  Leaves s { t with clusters := s.clusters } [] 0 id id [] ∧ MarksKept s t ∧
    ∀ k, t.cluster k = if k = clusterOf (coreOf s.cur.ctx) then cluster (s.cluster k) else s.cluster k
/-- The same of its own package. -/
def OnOwnPackage (s t : State) (pkg : Package → Package) : Prop :=
  Leaves s { t with pkgs := s.pkgs } [] 0 id id [] ∧ MarksKept s t ∧
    ∀ g, t.pkg g = if g = pkgOf (coreOf s.cur.ctx) then pkg (s.pkg g) else s.pkg g
/-- A head whose one effect is the step that follows at once. -/
def Follows (s t : State) (i : Instr) : Prop := Computes s t [] 0 ∧ t.agenda = .event i :: s.agenda

/-- `csrw`, `csrset` and `csrclr` of register n write a, the register or a, and the register and not a, and then `after` says what
holds (R210). -/
def State.Writes (s : State) (n : Nat) (a : XOp) (after : Word → State → Prop) : Prop :=
  ∀ e ∈ [(Instr.csrw (BitVec.ofNat 32 n) a, s.x a), (.csrset (BitVec.ofNat 32 n) a, s.csrRead s.cur.ctx n ||| s.x a),
      (.csrclr (BitVec.ofNat 32 n) a, s.csrRead s.cur.ctx n &&& ~~~(s.x a))],
    ∃ t, exec e.1 s = .next t ∧ after e.2 t
/-- `csrw` of register n. -/
def State.WritesOnly (s : State) (n : Nat) (a : XOp) (after : State → Prop) : Prop :=
  ∃ t, exec (.csrw (BitVec.ofNat 32 n) a) s = .next t ∧ after t
/-- `csrw` of register n with a value that the register does not take. -/
def State.Refuses (s : State) (n : Nat) (a : XOp) : Prop :=
  exec (.csrw (BitVec.ofNat 32 n) a) s = .next (s.raiseTrap s.cur.ctx { cause := .illegalOperand })

/-! ## Accesses -/

/-- The head under issue may access the n bytes at [a + o], of which `keep` says which take part: no earlier acquire holds it
(R134), its address is in range (R217), and the checks of R219 find the bytes at the places `l`. -/
structure State.Reaches (s : State) (acc : Acc) (align n : Nat) (keep : Nat → Bool) (a : SReg) (o : OOp) (ptr : Word)
    (l : List Nat) : Prop where
  free : s.acqPending s.cur.ctx = false
  address : effAddr (s.here.sreg a) (s.off o) = some ptr
  found : ∃ s1, s.resolve (s.agent s.cur.ctx) acc ptr (((List.range n).filter keep).map (vaOf ptr + ·))
    (decide (vaOf ptr % align = 0)) true true = .ok (s1, l)

/-- An access that a head makes: of the bytes below n that `keep` admits, at `places`; a store's bytes, the register of a load, what
issuing it leaves (flags and registers), and what else its requests hold. -/
structure Access where
  instr : Instr
  ptr : Word
  places : List Nat
  n : Nat
  bytewise : Bool := false
  keep : Nat → Bool := allBytes
  data : List Byte := []
  dst : Option RegName := none
  flags : SW := 0
  regs : List RegName := []
  acq : Bool := false
  sync : Bool := false
  also : FabReq → Prop := fun _ => True

/-- The indices of its bytes. -/
def Access.idx (x : Access) : List Nat := (List.range x.n).filter x.keep
/-- Its events (R129). -/
def Access.events (x : Access) : List (List Nat) := eventsOf (vaOf x.ptr) x.n x.bytewise x.idx
/-- It is at most one event, in local memory or scratchpad: it is performed as its head issues. -/
def Access.Near (x : Access) : Prop := (∀ a ∈ x.places, scratchBase ≤ a) ∧ x.events.length ≤ 1
/-- It leaves as requests: it goes to die store or global memory, which the fabric serves (R138), or is more than one event. -/
def Access.Leaves (x : Access) : Prop := (x.places ≠ [] ∧ ∀ a ∈ x.places, a < scratchBase) ∨ 1 < x.events.length

/-- No byte holds an uncorrectable error (R342). -/
def State.Sound (s : State) (l : List Nat) : Prop := ∀ a ∈ l, s.poisoned a = false

/-- A store of the bytes `d` to the places `l`: they hold them, the errors of words written whole are gone, and no full/empty bit
changes. -/
structure Stores (s t : State) (l : List Nat) (d : List Byte) : Prop where
  bytes : ∀ e ∈ l.zip d, t.byte e.1 = e.2
  full : t.full = s.full
  poison : t.poison = s.poison.filter fun w => !(List.range 8).all fun i => l.contains (8 * w + i)

/-- An access has left: the core holds one more request for each of its events, in order, with the bytes of the event; its register
waits, and nothing else changes but what the head writes of itself. -/
def Access.Sent (x : Access) (s t : State) : Prop :=
  let of := fun (ev : List Nat) => (x.idx.zip x.places).filter fun e => ev.contains e.1
  ∃ l : List FabReq, l.map (·.bytes) = x.events.map of ∧
    l.map (·.data) = x.events.map (fun ev => (((x.idx.zip x.places).zip x.data).filter fun e => ev.contains e.1.1).map (·.2)) ∧
    l.map (·.seq) = (List.range l.length).map (s.seq + ·) ∧
    (∀ q ∈ l, q.ctx = s.cur.ctx ∧ q.instr = x.instr ∧ q.ptr = x.ptr ∧ q.dst = x.dst ∧ q.head = s.seq ∧ q.got = [] ∧
      q.acq = x.acq ∧ q.sync = x.sync ∧ q.silent = s.silent s.cur.ctx ∧ x.also q) ∧
    (∀ r ∈ x.dst, Awaits s t r) ∧ MarksKept s t ∧
    Machine.Leaves s t x.regs x.flags id (fun k => { k with fabric := k.fabric ++ l }) []

/-! ## The units of a core -/

/-- Nothing but the core of the context under issue changes, and in it what `core` says. -/
def OnCore (s t : State) (l : List RegName) (core : Core → Core) : Prop := Leaves s t l 0 id core [] ∧ MarksKept s t

/-- A core with a counter or a buffer replaced. -/
def Core.withCounter (k : Core) (n : Nat) (x : Counter) : Core := { k with counters := SMap.put k.counters n x }
def Core.withBuffer (k : Core) (n : Nat) (x : Buffer) : Core := { k with buffers := SMap.put k.buffers n x }

/-- The command enters the port of the copy engine (R243). -/
def Enters (s t : State) (l : List RegName) (e : EngCmd) : Prop :=
  OnCore s t l fun k => { k with port := k.port ++ [{ e with seq := s.seq }] }

/-- The port of the copy engine takes one more command of a task that is no handler (R235, R243). -/
abbrev State.portFree (s : State) : Prop :=
  inHandler s = false ∧ s.acqPending s.cur.ctx = false ∧ (s.core (coreOf s.cur.ctx)).port.length < 32

/-- The word of a counter's status (R238). -/
def statusOf (x : Counter) (v : Word) : Prop :=
  v.extractLsb' 0 32 = x.value ∧ v.getLsbD 32 = x.err ∧ v.extractLsb' 33 3 = x.scope ∧ v.extractLsb' 36 4 = 0 ∧
    v.toNat / 2 ^ 40 = min x.deliv (2 ^ 24 - 1)

/-- A head that waits (R220): it keeps its place, and nothing else changes. -/
def Waits (s t : State) : Prop :=
  Spares s t [] 0 id id [] ∧ MarksKept s t ∧ (t.ctx s.cur.ctx).wait.isSome = true ∧ (t.ctx s.cur.ctx).pc = s.here.pc

/-! ## Lanes (R249) -/

/-- Lane i of w bits. -/
def laneAt (w : Nat) (v : Vec) (i : Nat) : BitVec w := v.extractLsb' (w * i) w
/-- Lane i of w bits is active: its lowest byte's predicate bit. -/
def laneOn (p : Half) (w i : Nat) : Bool := p.getLsbD (w / 8 * i)
/-- An active lane i holds `g i`, another one what it held. -/
def LanesAre (w : Nat) (p : Half) (old v : Vec) (g : Nat → BitVec w) : Prop :=
  ∀ i, i < 128 / w → laneAt w v i = if laneOn p w i then g i else laneAt w old i
/-- Lane i as an integer. -/
def laneNum (m : MI) (v : Vec) (i : Nat) : Int :=
  if m.uns then (laneAt (widBits m.wid) v i).toNat else (laneAt (widBits m.wid) v i).toInt
/-- The bounds of w bits. -/
def lowBound (w : Nat) (uns : Bool) : Int := if uns then 0 else -2 ^ (w - 1)
def highBound (w : Nat) (uns : Bool) : Int := if uns then 2 ^ w - 1 else 2 ^ (w - 1) - 1
/-- An exact integer as w bits hold it: wrapped, or the nearest bound with SATM. -/
def fitInt (w : Nat) (m : MI) (x : Int) : BitVec w :=
  BitVec.ofInt w (if m.satm then max (lowBound w m.uns) (min (highBound w m.uns) x) else x)
/-- SAT is set where SATM is and an active lane's integer leaves the bounds. -/
def SatFlag (w : Nat) (m : MI) (p : Half) (g : Nat → Int) (f : SW) : Prop :=
  ((m.satm = true ∧ ∃ i, i < 128 / w ∧ laneOn p w i = true ∧ (g i < lowBound w m.uns ∨ highBound w m.uns < g i)) → f = fSAT) ∧
    ((m.satm = false ∨ ∀ i, i < 128 / w → laneOn p w i = true → lowBound w m.uns ≤ g i ∧ g i ≤ highBound w m.uns) → f = 0)
/-- A predicate holds a lane's outcome in every bit of the lane. -/
def PredIs (w : Nat) (p : Half) (g : Nat → Prop) : Prop := ∀ j, j < 16 → (p.getLsbD j = true ↔ g (j / (w / 8)))
/-- The flags of active lanes together. -/
def lanesFlags (w : Nat) (p : Half) (g : Nat → SW) : SW :=
  ((List.range (128 / w)).filter (laneOn p w)).foldl (fun x i => x ||| g i) 0

/-! ## Atomic operations -/

/-- The atomic heads (R227, R228). -/
def atomicHeads (d a : SReg) (o : OOp) (b : XOp) (m : MO) : List Instr :=
  [.amoAdd d a o b m, .amoAnd d a o b m, .amoOr d a o b m, .amoXor d a o b m, .amoMin d a o b m, .amoMax d a o b m,
    .amoMinn d a o b m, .amoMaxn d a o b m, .amoSwap d a o b m]

/-- What an atomic operation leaves in memory of an old value, by its operand, in w bits (R227). -/
def atomicResults (w : Nat) (old x : BitVec w) : List (BitVec w) :=
  [old + x, old &&& x, old ||| x, old ^^^ x, if old.slt x then old else x, if old.slt x then x else old,
    if old.ult x then old else x, if old.ult x then x else old, x]

/-! ## The matrix array and the Pilot -/

/-- An array command of the context under issue enters its core's queue, and opens its AU (R89, R268). -/
def Queues (s t : State) (l : List RegName) (img : BitVec 256) (own : Context → Context) : Prop :=
  MarksKept s t ∧ Leaves s t l 0
    (fun x => { own x with auOpen := true, mstat := if x.auOpen then x.mstat else 0, arrayCmds := x.arrayCmds + 1 })
    (fun k => { k with arrayQ := k.arrayQ ++ [{ ctx := s.cur.ctx, img := img }] }) []

/-- What an event leaves of the state but for memory: `ctx`, `core` and `cluster` say what becomes of each context, core and
cluster, the translations cached apart (R322), and everything above them is as before. -/
structure Changes (s t : State) (ctx : CtxId → Context → Context) (core : Place → Core → Core)
    (cluster : ClusterId → Cluster → Cluster) : Prop where
  contexts : ∀ c, t.ctx c = ctx c (s.ctx c)
  cores : ∀ p, { t.core p with tlb := [] } = { core p (s.core p) with tlb := [] }
  clusters : ∀ k, { t.cluster k with tlb := [] } = { cluster k (s.cluster k) with tlb := [] }
  units : UnitsKept s t

/-- `f` of the one named and no other. -/
def onOnly {α : Type} (k : Nat) (f : α → α) (j : Nat) (x : α) : α := if j = k then f x else x
/-- No other. -/
def onNone {α : Type} (_ : Nat) (x : α) : α := x
/-- Every byte and every mark of memory (R30, R225, R342) is as before. -/
def MemoryKept (s t : State) : Prop := BytesKept s t [] ∧ MarksKept s t

/-- A command of a chain has been served: its unit is done (R123), and the row of an escape record counts in ESCCNT (R118). -/
def Context.unitDone (x : Context) (q : ACmd) : Context :=
  if q.flag 2 = true ∧ x.csr.wde = true then
    let w : Wde := { x.wde with unit := x.wde.unit + 1, esc := if q.code = 0x03 ∧ q.flag 1 = true then min 0xFFFF (x.wde.esc + 1) else x.wde.esc }
    { x with wde := w, csr := { x.csr with wds := wdsWord w false } }
  else x

/-- The array of a cluster has served q, the first command of the AU it holds, of context c: `arr` is what it now holds, the command
has left its core's queue, and `own` says what else became of the context (R94, R268). -/
def Served (s t : State) (k : ClusterId) (c : CtxId) (q : ACmd) (arr : MArray) (own : Context → Context) : Prop :=
  Changes s t (onOnly c fun x => { (own x).unitDone q with arrayCmds := (own x).arrayCmds - 1 })
    (onOnly (coreOf c) fun x => { x with arrayQ := x.arrayQ.eraseP fun q => q.ctx == c })
    (onOnly k fun x => { x with arr := { arr with row := 0 } })

/-- The array of a cluster holds the AU of context c and serves its command q, an image that keeps the limits of its CODE, with
TCSB `tile`. -/
structure State.Serves (s : State) (k : ClusterId) (c : CtxId) (q : ACmd) (tile : BitVec 256) (code : Nat) : Prop where
  next : s.arrayHead k = some (c, q)
  home : clusterOf (coreOf c) = k
  tcsb : (s.ctx c).tcsb = some tile
  keeps : imageKeeps tile q = true
  code : q.code = code

/-- Node i and its ancestors in a parent list (R277). -/
inductive Anc (parents : List Nat) : Nat → Nat → Prop
  | self (i : Nat) : Anc parents i i
  | up (i j : Nat) : parents.getD i 0xFF ≠ 0xFF → Anc parents (parents.getD i 0xFF) j → Anc parents i j

/-- What the array holds of a cell, in units of the window's least place: the accumulator and the carries, those that have been
spilled among them (R98, R99). -/
def cellSum (x : Nat) (st : BwState × ACell) : Int :=
  st.2.a.toInt + 2 ^ 24 * (carryOf x st.1.bw + carryOf x st.1.spills.flatten)

/-- The i-th core of the arbiter's scan: cores in order, starting after the one served last (R90). -/
def Cluster.scanned (x : Cluster) (k : ClusterId) (i : Nat) : Place := 8 * k + (x.arrayLast + 1 + i) % 8

/-- With the array free the arbiter's next AU is that of context c, on the i-th core of its scan: the first one that is ready and
whose core has credit. Where no ready core has any, every credit first reloads from MQW. -/
structure State.Picks (s : State) (k : ClusterId) (i : Nat) (c : CtxId) (credits : List Nat) : Prop where
  vacant : (s.cluster k).arr.owner = none
  within : i < 8
  ready : s.auReady ((s.cluster k).scanned k i) = some c
  kept : (∃ j, j < 8 ∧ (s.auReady ((s.cluster k).scanned k j)).isSome = true ∧
    0 < (s.cluster k).credit ((s.cluster k).scanned k j)) → credits = (s.cluster k).credits
  reloaded : (∀ j, j < 8 → (s.auReady ((s.cluster k).scanned k j)).isSome = true →
    (s.cluster k).credit ((s.cluster k).scanned k j) = 0) → credits = (List.range 8).map (mqwOf (s.cluster k).mqw)
  funded : 0 < credits.getD ((s.cluster k).scanned k i % 8) 0
  first : ∀ j, j < i → (s.auReady ((s.cluster k).scanned k j)).isSome = true →
    credits.getD ((s.cluster k).scanned k j % 8) 0 = 0

/-- A cluster whose arbiter has served core p: its credit is one less (R90). -/
def Cluster.charged (x : Cluster) (p : Place) (credits : List Nat) : Cluster :=
  { x with arrayLast := p % 8, credits := credits.set (p % 8) (credits.getD (p % 8) 0 - 1) }
/-- A cluster without the frame, the mark and the image of a context's AU. -/
def Cluster.unheld (x : Cluster) (c : CtxId) : Cluster :=
  { x with frames := x.frames.filter (fun e => e.2 != c), marks := x.marks.filter (· != c)
           images := x.images.filter (fun e => e.1 != c) }
/-- A context whose AU continues: nothing holds it, and no mark is left. -/
def Context.unheld (x : Context) : Context := { x with auFrame := none, auMarked := false, auHeld := false }

/-- The Pilot of a cluster is free, and the next request is r, the oldest of core p, the first core after the one served last whose
queue is not empty (R84). -/
def State.PilotTakes (s : State) (k : ClusterId) (p : Place) (r : PilotReq) (rest : List PilotReq) : Prop :=
  (s.cluster k).pilotFreeAt ≤ s.now (8 * k) ∧ coreOf r.ctx = p ∧ (s.core p).pilotQ = r :: rest ∧
    ∃ i, i < 8 ∧ p = 8 * k + ((s.cluster k).pilotLast + 1 + i) % 8 ∧
      ∀ j, j < i → (s.core (8 * k + ((s.cluster k).pilotLast + 1 + j) % 8)).pilotQ = []

/-- The request has been served: it has left its queue, its context has the flags `f`, silently, and the Pilot is occupied until
`till`. -/
def PilotServed (s t : State) (k : ClusterId) (p : Place) (c : CtxId) (rest : List PilotReq) (f : SW) (till : Nat) : Prop :=
  Changes s t (onOnly c fun x => x.addFlags f) (onOnly p fun x => { x with pilotQ := rest })
    (onOnly k fun x => { x with pilotLast := p % 8, pilotFreeAt := till })

/-- Whole words of own local memory hold the bytes `d` from an address on, and are full. -/
def WordsWritten (s t : State) (p : Place) (va : Nat) (d : List Byte) : Prop :=
  BytesKept s t ((runFrom va (roundUp d.length 8)).map (localAt p)) ∧
    ∀ j, j < d.length → t.byte (localAt p (va + j)) = d.getD j 0 ∧ t.isFull (localAt p (va + j)) = true

/-- The heads that may wait (R220). -/
def waitingHeads (d : SReg) (a b : XOp) (r : SReg) (o : OOp) (m : SCOp) (l : Lit) (f : Bool) : List Instr :=
  [.ldfe d r o, .ldfeE d r o, .stfeW r o b, .ccWait d a b f, .cbAcq d a f, .cbTake d a f, .gbar, .sbar, .gform a b, .gjoin l,
    .mwait, .mstat d a, .htset a m]

/-! ## The copy engine -/

/-- A port with a command replaced, or without it. -/
def Core.withCommand (x : Core) (e : EngCmd) : Core := { x with port := x.port.map fun f => if f.seq = e.seq then e else f }
def Core.noCommand (x : Core) (n : Nat) : Core := { x with port := x.port.filter fun f => f.seq != n }
/-- A command of a port, with the number it was issued with. -/
abbrev State.InPort (s : State) (p : Place) (n : Nat) (e : EngCmd) : Prop := s.command p n = some e
/-- The first command of a port that has not started (R243). -/
def Core.Next (x : Core) (e : EngCmd) : Prop :=
  e.started = false ∧ ∃ l m, x.port = l ++ e :: m ∧ ∀ f ∈ l, f.started = true
/-- Every element of a command has been read, and no piece of it is in transit. -/
def State.Ended (s : State) (p : Place) (e : EngCmd) : Prop :=
  e.started = true ∧ e.total ≤ e.next ∧ ∀ x ∈ (s.core p).transit, x.cmd ≠ e.seq
/-- A port after a command's end: the command is gone, and `cpy.cb` has published its slot (R289). -/
def Core.ended (x : Core) (n : Nat) (e : EngCmd) (b : Buffer) : Core :=
  if e.kind = .cpyCb then (x.noCommand n).withBuffer e.tab { b with pidx := b.pidx + 1, filled := b.filled + 1 }
  else x.noCommand n
/-- The bytes of a piece stand at consecutive places of one word, which is full where words have full bits. -/
def PieceWritten (s t : State) (a : Nat) (d : List Byte) : Prop :=
  BytesKept s t (runFrom a d.length) ∧ (∀ j, j < d.length → t.byte (a + j) = d.getD j 0) ∧
    t.full = if hasFull a then natInsert s.full (wordIx a) else s.full

/-! ## Weight-driven execution -/

/-- A context is in weight-driven execution with unit n of the fetched block b of `opc` next, and no trap comes first. -/
structure State.AtUnit (s : State) (c : CtxId) (b : WBlock) (opc n : Nat) : Prop where
  running : (s.ctx c).run = .running
  chain : (s.ctx c).inChain = true
  clear : s.beforeHead c = none
  block : ∃ l, (s.ctx c).wde.fetched = some l ∧ wblockOf l = b
  opcode : b.opc = opc
  unit : (s.ctx c).wde.unit = n
  more : n < b.units

/-- A context is in weight-driven execution at the end of the fetched block b of `opc`, every unit done, and no trap comes first. -/
structure State.AtEnd (s : State) (c : CtxId) (b : WBlock) (opc : Nat) : Prop where
  running : (s.ctx c).run = .running
  chain : (s.ctx c).inChain = true
  clear : s.beforeHead c = none
  block : ∃ l, (s.ctx c).wde.fetched = some l ∧ wblockOf l = b
  opcode : b.opc = opc
  done : b.units ≤ (s.ctx c).wde.unit
  whole : b.expand.isSome = true

/-- The chain after block b, at its next block: NBLK, the program flags (R111, R122), the link stack. -/
def Wde.went (w : Wde) (b : WBlock) (next : Nat) (stack : List Word) : Wde :=
  { w with block := BitVec.ofNat 64 next, stack := stack, flags := wop b.fl w.flags, nblk := w.nblk + 1, fetched := none, unit := 0
           beat := 0, opc := 0 }
/-- A context whose chain stands at `w`; it issues again in a later cycle. WDS follows (R122). -/
def Context.sequenced (x : Context) (cycle : Nat) (w : Wde) : Context :=
  { x with wde := w, heldAt := some cycle, csr := { x.csr with wds := wdsWord w false } }
/-- A context whose chain goes on after a block; a stepped one stops there, once its array commands are done (R127). -/
def Context.wentOn (x : Context) (cycle seq : Nat) (w : Wde) : Context :=
  { x.sequenced cycle w with stepDue := if x.csr.stp then some { seq := seq, array := true } else none }
/-- The context cannot go on in this cycle. -/
def State.heldNow (s : State) (c : CtxId) : State := s.modCtx c fun x => { x with heldAt := some s.cycle }
/-- A context with one command more in the queue of its core, its AU open (R89). -/
def Context.queued (x : Context) : Context :=
  { x with auOpen := true, mstat := if x.auOpen then x.mstat else 0, arrayCmds := x.arrayCmds + 1 }

/-- The chain goes on from block b by its successor or link stack (R120); `own`, `core` and `cluster` are the effect of the block. -/
def GoesOn (s t : State) (c : CtxId) (b : WBlock) (esc : Nat) (own : Context → Context) (core : Core → Core)
    (cluster : Cluster → Cluster) : Prop :=
  ∀ next stack, afterBlock (s.ctx c).wde b (b.beat (b.units - 1)) = .ok (next, stack) →
    MemoryKept s t ∧ Changes s t (onOnly c fun x => (own x).wentOn s.cycle s.seq { x.wde.went b next stack with esc := esc })
      (onOnly (coreOf c) core) (onOnly (clusterOf (coreOf c)) cluster)

/-- An array block puts its command into the queue of its core, or waits while that takes none (R117, R268); its context is held until
the command has been served. -/
def Commands (s : State) (c : CtxId) (i : Instr) (img : BitVec 256) : Prop :=
  if s.arrayBusy c = true then exec i s = .next (s.heldNow c)
  else ∃ t, exec i s = .next t ∧ MemoryKept s t ∧ Changes s t (onOnly c fun x => { x.queued with heldAt := some s.cycle })
    (onOnly (coreOf c) fun x => { x with arrayQ := x.arrayQ ++ [{ ctx := c, img := img }] }) onNone

/-! ## Basins and rings -/

/-- What a basin reset leaves of a cluster (R343): it is fenced, its array and dictionary slots are clear, and on each of its cores no
context runs and the inbox, engine, counters, buffers, queues and units are empty. -/
structure BasinReset (t : State) (k : ClusterId) : Prop where
  fenced : (t.cluster k).fenced = true
  array : (t.cluster k).arr = {}
  slots : (t.cluster k).dicts = []
  contexts : ∀ i j, i < 8 → j < 4 → (t.ctx (ctxAt (8 * k + i) j)).run = .free ∨ (t.ctx (ctxAt (8 * k + i) j)).run = .dumping
  cores : ∀ i, i < 8 → let x := t.core (8 * k + i)
    x.inbox = [] ∧ x.outq = [] ∧ x.port = [] ∧ x.transit = [] ∧ x.fabric = [] ∧ x.counters = [] ∧ x.buffers = [] ∧
      x.arrayQ = [] ∧ x.pilotQ = [] ∧ x.sfu = {} ∧ x.div = {}

/-- Everything but memory, contexts and what is cached of translations is as before, but for what `part` does to part q. -/
def OnPart (s t : State) (q : PartId) (part : Part → Part) : Prop :=
  MemoryKept s t ∧ Changes { s with parts := [] } { t with parts := [] } onNone onNone onNone ∧
    ∀ r, t.part r = onOnly q part r (s.part r)
/-- The same for one package. -/
def OnPackage (s t : State) (g : PkgId) (pkg : Package → Package) : Prop :=
  MemoryKept s t ∧ Changes { s with pkgs := [] } { t with pkgs := [] } onNone onNone onNone ∧
    ∀ r, t.pkg r = onOnly g pkg r (s.pkg r)
/-- The same for one cluster. -/
def OnCluster (s t : State) (k : ClusterId) (cluster : Cluster → Cluster) : Prop :=
  MemoryKept s t ∧ Changes s t onNone onNone (onOnly k cluster)

/-- Bytes stand at consecutive places from `a`, and no other byte changes. -/
def RunWritten (s t : State) (a : Nat) (l : List Byte) : Prop :=
  BytesKept s t (runFrom a l.length) ∧ ∀ j, j < l.length → t.byte (a + j) = l.getD j 0

end Sys2Proof.Machine
end

