-- ==== Sys2Proof/Certificates/Slice0/Obligations.lean ====
section
/-! DEFINITION. The statements about the NGC-2, each a proposition about the model. A statement about an instruction gives the
state it goes to from every state in which it may issue, and what it leaves unchanged. -/

open Sys2Proof Sys2Proof.Machine

/-! ## Scalar heads -/

/-- R185: each two-source arithmetic head writes its 64-bit result to sd and changes nothing else; a write to s0 is discarded
(R22).
R187: the logic and shift heads, with the count in b[5:0]. -/
def Obligations.ScalarArithmeticAndLogicResults : Prop :=
  (∀ (s : State) (d : SReg) (a b : XOp), s.Ready (needX [a, b] [] [.s d]) →
     ∀ e ∈ ([(.add d a b, BitVec.ofNat 64 ((s.x a).toNat + (s.x b).toNat)),
         (.sub d a b, BitVec.ofInt 64 ((s.x a).toNat - (s.x b).toNat)),
         (.mul d a b, BitVec.ofNat 64 ((s.x a).toNat * (s.x b).toNat)),
         (.mulh d a b, BitVec.ofInt 64 ((s.x a).toInt * (s.x b).toInt / 2 ^ 64)),
         (.mulhn d a b, BitVec.ofNat 64 ((s.x a).toNat * (s.x b).toNat / 2 ^ 64)),
         (.min d a b, BitVec.ofInt 64 (min (s.x a).toInt (s.x b).toInt)),
         (.max d a b, BitVec.ofInt 64 (max (s.x a).toInt (s.x b).toInt)),
         (.minn d a b, BitVec.ofNat 64 (min (s.x a).toNat (s.x b).toNat)),
         (.maxn d a b, BitVec.ofNat 64 (max (s.x a).toNat (s.x b).toNat))] : List (Instr × Word)),
       ∃ t, exec e.1 s = .next t ∧ Computes s t [(.s d, e.2.setWidth 128)] 0) ∧
  (∀ (s : State) (d : SReg) (a b : XOp), s.Ready (needX [a, b] [] [.s d]) →
     ∀ e ∈ ([(.and d a b, s.x a &&& s.x b), (.or d a b, s.x a ||| s.x b), (.xor d a b, s.x a ^^^ s.x b),
         (.andn d a b, s.x a &&& ~~~(s.x b)),
         (.shl d a b, BitVec.ofNat 64 ((s.x a).toNat * 2 ^ ((s.x b).toNat % 64))),
         (.shr d a b, BitVec.ofNat 64 ((s.x a).toNat / 2 ^ ((s.x b).toNat % 64))),
         (.sra d a b, BitVec.ofInt 64 ((s.x a).toInt / 2 ^ ((s.x b).toNat % 64))),
         (.rotl d a b, BitVec.ofNat 64 ((s.x a).toNat * 2 ^ ((s.x b).toNat % 64) +
           (s.x a).toNat * 2 ^ ((s.x b).toNat % 64) / 2 ^ 64))] : List (Instr × Word)),
       ∃ t, exec e.1 s = .next t ∧ Computes s t [(.s d, e.2.setWidth 128)] 0)

/-- R188: the bit counts, of a zero too, and the extensions, with width 64 where b[5:0] is 0.
R189: `bfx` takes n bits from bit p = b[5:0]; `bfi` replaces bits p to min(p + n − 1, 63) of sd and keeps the others. -/
def Obligations.BitCountAndFieldResults : Prop :=
  ((∀ (s : State) (d : SReg) (a : XOp), s.Ready (needX [a] [] [.s d]) →
     (∃ t n, exec (.clz d a) s = .next t ∧ Computes s t [(.s d, BitVec.ofNat 128 n)] 0 ∧ n ≤ 64 ∧
       (∀ i, i < n → (s.x a).getLsbD (63 - i) = false) ∧ (n < 64 → (s.x a).getLsbD (63 - n) = true)) ∧
     (∃ t n, exec (.ctz d a) s = .next t ∧ Computes s t [(.s d, BitVec.ofNat 128 n)] 0 ∧ n ≤ 64 ∧
       (∀ i, i < n → (s.x a).getLsbD i = false) ∧ (n < 64 → (s.x a).getLsbD n = true)) ∧
     ∃ t, exec (.popc d a) s = .next t ∧
       Computes s t [(.s d, BitVec.ofNat 128 ((List.range 64).countP fun i => (s.x a).getLsbD i))] 0) ∧
   ∀ (s : State) (d : SReg) (a b : XOp), s.Ready (needX [a, b] [] [.s d]) →
     let w := if (s.x b).toNat % 64 = 0 then 64 else (s.x b).toNat % 64
     (∃ t, exec (.sext d a b) s = .next t ∧ Computes s t [(.s d, (((s.x a).setWidth w).signExtend 64).setWidth 128)] 0) ∧
     ∃ t, exec (.zext d a b) s = .next t ∧ Computes s t [(.s d, (((s.x a).setWidth w).setWidth 64).setWidth 128)] 0) ∧
  ((∀ (s : State) (d : SReg) (a b : XOp) (n : Fin 64), s.Ready (needX [a, b] [] [.s d]) →
     ∃ t, exec (.bfx d a b n) s = .next t ∧
       Computes s t [(.s d, BitVec.ofNat 128 ((s.x a).toNat / 2 ^ ((s.x b).toNat % 64) % 2 ^ (n.val + 1)))] 0) ∧
   ∀ (s : State) (d : SReg) (a b : XOp) (n : Fin 64), s.Ready (needX [a, b] [.s d] [.s d]) →
     ∃ (t : State) (v : Word), exec (.bfi d a b n) s = .next t ∧ Computes s t [(.s d, v.setWidth 128)] 0 ∧
       ∀ i, i < 64 → v.getLsbD i =
         if (s.x b).toNat % 64 ≤ i ∧ i < (s.x b).toNat % 64 + (n.val + 1) then (s.x a).getLsbD (i - (s.x b).toNat % 64)
         else (s.here.sreg d).getLsbD i)

/-- R190, R194: the moves, the selection, `gtc` and the identity word of `ctxid`.
R191, R192: `cmp` writes all ones or zero to pd by its condition, the predicate heads combine whole predicates, and a write
to p0 is discarded. -/
def Obligations.MoveSelectAndCompareResults : Prop :=
  ((∀ (s : State) (d : SReg) (k : Lit), s.Ready (needX [] [] [.s d]) →
     ∃ t, exec (.li d k) s = .next t ∧ Computes s t [(.s d, (k.signExtend 64).setWidth 128)] 0) ∧
   (∀ (s : State) (d : SReg) (k : Lit), s.Ready (needX [] [.s d] [.s d]) →
     ∃ (t : State) (v : Word), exec (.lih d k) s = .next t ∧ Computes s t [(.s d, v.setWidth 128)] 0 ∧
       v.extractLsb' 32 32 = k ∧ v.setWidth 32 = (s.here.sreg d).setWidth 32) ∧
   (∀ (s : State) (d : SReg) (a : XOp), s.Ready (needX [a] [] [.s d]) →
     ∃ t, exec (.mov d a) s = .next t ∧ Computes s t [(.s d, (s.x a).setWidth 128)] 0) ∧
   (∀ (s : State) (d : SReg) (n : PReg) (a b : XOp), s.Ready (needX [a, b] [.p n] [.s d]) →
     ∃ t, exec (.sel d n a b) s = .next t ∧
       Computes s t [(.s d, (if (s.pr n).getLsbD 0 then s.x a else s.x b).setWidth 128)] 0) ∧
   (∀ (s : State) (d : SReg), s.Ready (needX [] [] [.s d]) →
     ∃ t, exec (.gtc d) s = .next t ∧ Computes s t [(.s d, (BitVec.ofNat 64 s.gtc).setWidth 128)] 0) ∧
   ∀ (s : State) (d : SReg), s.Ready (needX [] [] [.s d]) →
     ∃ (t : State) (v : Word), exec (.ctxid d) s = .next t ∧ Computes s t [(.s d, v.setWidth 128)] 0 ∧
       v.toNat % 4 = s.cur.ctx % 4 ∧ v.toNat / 4 % 2 ^ 22 = placeWord (coreOf s.cur.ctx) ∧
       v.toNat / 2 ^ 24 = s.logicalCore (pkgOf (coreOf s.cur.ctx)) (coreOf s.cur.ctx % 1024)) ∧
  ((∀ (s : State) (pd : PReg) (c : BitVec 4) (a b : XOp), s.Ready (needX [a, b] [] [.p pd]) → c.toNat ≤ 11 →
     ∃ (t : State) (holds : Bool), exec (.cmp pd c a b) s = .next t ∧
       Computes s t [(.p pd, if holds then BitVec.ofNat 128 0xFFFF else 0)] 0 ∧
       (holds = true ↔ [s.x a = s.x b, s.x a ≠ s.x b, (s.x a).toInt < (s.x b).toInt, (s.x b).toInt ≤ (s.x a).toInt,
         (s.x a).toInt ≤ (s.x b).toInt, (s.x b).toInt < (s.x a).toInt, (s.x a).toNat < (s.x b).toNat,
         (s.x b).toNat ≤ (s.x a).toNat, (s.x a).toNat ≤ (s.x b).toNat, (s.x b).toNat < (s.x a).toNat,
         s.x a &&& s.x b ≠ 0, s.x a &&& s.x b = 0].getD c.toNat False)) ∧
   (∀ (s : State) (pd pa : PReg), s.Ready (needX [] [.p pd, .p pa] [.p pd]) →
     (∃ t, exec (.plAnd pd pa) s = .next t ∧ Computes s t [(.p pd, (s.pr pd &&& s.pr pa).setWidth 128)] 0) ∧
     ∃ t, exec (.plOr pd pa) s = .next t ∧ Computes s t [(.p pd, (s.pr pd ||| s.pr pa).setWidth 128)] 0) ∧
   ∀ (s : State) (pd pa : PReg), s.Ready (needX [] [.p pa] [.p pd]) →
     ∃ t, exec (.plNot pd pa) s = .next t ∧ Computes s t [(.p pd, (~~~(s.pr pa)).setWidth 128)] 0)

/-- R193: `ptradd` adds to VA and keeps the other fields, or traps PTR_OVF with sd unchanged; `ptrfmt` and `ptrtag` replace their
fields; `ptrfld` reads one, and traps ILLEGAL_OPERAND for a k above 3. -/
def Obligations.FatPointerResults : Prop :=
  ∀ (s : State) (d : SReg) (a b : XOp), s.Ready (needX [a, b] [] [.s d]) →
    (let v : Int := ((s.x a).toNat % 2 ^ 52 : Nat) + (s.x b).toInt
      if 0 ≤ v ∧ v ≤ 2 ^ 52 - 1 then
        ∃ t, exec (.ptradd d a b) s = .next t ∧
          Computes s t [(.s d, (BitVec.ofNat 64 ((s.x a).toNat / 2 ^ 52 * 2 ^ 52 + v.toNat)).setWidth 128)] 0
      else ∃ z : Trap, z.cause = .ptrOvf ∧ exec (.ptradd d a b) s = .next (s.raiseTrap s.cur.ctx z)) ∧
    (∃ (t : State) (v : Word), exec (.ptrfmt d a b) s = .next t ∧ Computes s t [(.s d, v.setWidth 128)] 0 ∧
      v.extractLsb' 55 5 = (s.x b).extractLsb' 0 5 ∧ v.extractLsb' 52 3 = (s.x b).extractLsb' 5 3 ∧
      v.extractLsb' 60 4 = (s.x a).extractLsb' 60 4 ∧ v.extractLsb' 0 52 = (s.x a).extractLsb' 0 52) ∧
    (∃ (t : State) (v : Word), exec (.ptrtag d a b) s = .next t ∧ Computes s t [(.s d, v.setWidth 128)] 0 ∧
      v.extractLsb' 60 4 = (s.x b).extractLsb' 0 4 ∧ v.extractLsb' 0 60 = (s.x a).extractLsb' 0 60) ∧
    (if (s.x b).toNat ≤ 3 then
      ∃ t, exec (.ptrfld d a b) s = .next t ∧ Computes s t [(.s d,
        ([((s.x a).extractLsb' 60 4).setWidth 128, ((s.x a).extractLsb' 55 5).setWidth 128,
          ((s.x a).extractLsb' 52 3).setWidth 128, ((s.x a).extractLsb' 0 52).setWidth 128].getD (s.x b).toNat 0))] 0
    else exec (.ptrfld d a b) s = .next (s.raiseTrap s.cur.ctx { cause := .illegalOperand }))

/-! ## The divider and the special-function unit -/

/-- R264: a divider head enters one request, with its operand values as they stand, at the tail of the divider's queue, and its
destination waits for the result; a head that finds the queue full holds. That the queue of 8 counts the requests in service and those
whose result is not yet written is the model's choice (log 68).
R263, R264: a special-function head enters one request in the special-function unit's queue, or holds while it is full. -/
def Obligations.UnitHeadsEnterRequests : Prop :=
  ((∀ (s : State) (d : SReg) (a b : XOp), s.Ready (needX [a, b] [] [.s d]) →
     ∀ i ∈ ([.div d a b, .divn d a b, .rem d a b, .remn d a b] : List Instr),
       if (s.core (coreOf s.cur.ctx)).div.held < 8 then
         ∃ (t : State) (r : UnitReq), exec i s = .next t ∧ r.ctx = s.cur.ctx ∧ r.instr = i ∧
           r.a = (s.x a).setWidth 128 ∧ r.b = (s.x b).setWidth 128 ∧ Awaits s t (.s d) ∧ MarksKept s t ∧
           Leaves s t [.s d] 0 id (fun k => { k with div := { k.div with queue := k.div.queue ++ [r] } }) []
       else exec i s = .next s.hold) ∧
   ∀ (s : State) (d a b : VReg) (m : MI), s.Ready { reads := [.v a, .v b] ++ keepRead m.pred d, writes := [.v d] } →
     ∀ i ∈ ([.vdiv d a b m, .vrem d a b m] : List Instr),
       if (s.core (coreOf s.cur.ctx)).div.held < 8 then
         ∃ (t : State) (r : UnitReq), exec i s = .next t ∧ r.ctx = s.cur.ctx ∧ r.instr = i ∧ r.a = s.vr a ∧ r.b = s.vr b ∧
           r.pred = s.pr m.pred ∧ r.old = s.vr d ∧ Awaits s t (.v d) ∧ MarksKept s t ∧
           Leaves s t [.v d] 0 id (fun k => { k with div := { k.div with queue := k.div.queue ++ [r] } }) []
       else exec i s = .next s.hold) ∧
  (∀ (s : State) (d a : VReg) (m : MF), s.Ready { reads := .v a :: keepRead m.pred d, writes := [.v d] } →
     ∀ i ∈ ([.vexp2 d a m, .vlog2 d a m, .vrcp d a m, .vrsqrt d a m, .vsqrt d a m, .vtanh d a m] : List Instr),
       if (s.core (coreOf s.cur.ctx)).sfu.held < 8 then
         ∃ (t : State) (r : UnitReq), exec i s = .next t ∧ r.ctx = s.cur.ctx ∧ r.instr = i ∧ r.a = s.vr a ∧
           r.pred = s.pr m.pred ∧ r.old = s.vr d ∧ Awaits s t (.v d) ∧ MarksKept s t ∧
           Leaves s t [.v d] 0 id (fun k => { k with sfu := { k.sfu with queue := k.sfu.queue ++ [r] } }) []
       else exec i s = .next s.hold)

/-- R264: a free unit takes the oldest request of its queue in the cycle after it came there; the divider is occupied for the
request's latency (R68), the special-function unit for 2 + a cycles, a the active lanes, and its result can be read 8 + a cycles
after the start.
R264, R24: a result that is due is written to the request's destination and its flags are ORed into SW; nothing else of any
context changes.
R67: the scalar divider's quotient and remainder with their flags, for a zero divisor, for −2^63 ÷ −1, and otherwise the
quotient truncated toward zero with the remainder a − q·b. -/
def Obligations.UnitsServeAndDeliverRequests : Prop :=
  ((∀ (s : State) (p : Place) (r : UnitReq) (l : List UnitReq), (s.core p).div.queue = r :: l → (s.core p).div.service = none →
     (s.core p).div.freeAt ≤ s.now p → r.since < s.now p →
     ∃ t, exec (.dividerService p) s = .next t ∧ (t.core p).div.queue = l ∧
       (t.core p).div.service = some (r, s.now p + r.divCycles) ∧ (t.core p).div.freeAt = s.now p + r.divCycles) ∧
   ∀ (s : State) (p : Place) (r : UnitReq) (l : List UnitReq), (s.core p).sfu.queue = r :: l → (s.core p).sfu.service = none →
     (s.core p).sfu.freeAt ≤ s.now p → r.since < s.now p →
     ∃ t, exec (.sfuService p) s = .next t ∧ (t.core p).sfu.queue = l ∧
       (t.core p).sfu.service = some (r, s.now p + 8 + r.sfuLanes) ∧ (t.core p).sfu.freeAt = s.now p + 2 + r.sfuLanes) ∧
  (∀ (s : State) (p : Place) (r : UnitReq) (n : Nat), n ≤ s.now p →
     (∀ q ∈ (s.ctx r.ctx).pend, q.reg ≠ some r.dst) →
     ∀ e ∈ ([(Instr.dividerResult p, (s.core p).div.service = some (r, n)),
         (Instr.sfuResult p, (s.core p).sfu.results.find? (fun e => decide (e.2 ≤ s.now p)) = some (r, n))] :
         List (Instr × Prop)), e.2 →
       ∃ t, exec e.1 s = .next t ∧
         t.val r.ctx r.dst = (if r.dst.wired then s.val r.ctx r.dst else fitReg r.dst r.result.1) ∧
         t.sw r.ctx = s.sw r.ctx ||| r.result.2 ∧ RegsKept s t [(r.ctx, r.dst)] ∧ (∀ c, (t.ctx c).kept = (s.ctx c).kept) ∧
         (∀ c, c ≠ r.ctx → t.sw c = s.sw c) ∧ BytesKept s t [] ∧ MarksKept s t ∧ UnitsKept s t) ∧
  (∀ (r : UnitReq) (d : SReg) (x y : XOp),
     let a : Word := r.a.setWidth 64
     let b : Word := r.b.setWidth 64
     let q := if b = 0 then (BitVec.allOnes 64, fDZ) else if a = BitVec.intMin 64 ∧ b = BitVec.allOnes 64 then (a, fOF)
       else (BitVec.ofInt 64 (a.toInt.tdiv b.toInt), 0)
     let m := if b = 0 then (a, fDZ) else if a = BitVec.intMin 64 ∧ b = BitVec.allOnes 64 then (0, fOF)
       else (BitVec.ofInt 64 (a.toInt - a.toInt.tdiv b.toInt * b.toInt), 0)
     let qn := if b = 0 then (BitVec.allOnes 64, fDZ) else (BitVec.ofNat 64 (a.toNat / b.toNat), 0)
     let mn := if b = 0 then (a, fDZ) else (BitVec.ofNat 64 (a.toNat % b.toNat), 0)
     (r.instr = .div d x y → (r.result.1.setWidth 64, r.result.2) = q) ∧
     (r.instr = .rem d x y → (r.result.1.setWidth 64, r.result.2) = m) ∧
     (r.instr = .divn d x y → (r.result.1.setWidth 64, r.result.2) = qn) ∧
     (r.instr = .remn d x y → (r.result.1.setWidth 64, r.result.2) = mn))

/-! ## Control transfers, loops, the end of tasks -/

/-- R170, R195, R184: the transfers and their targets; a taken one continues there after its two delay slots.
R170, R195: `call` and `callr` write the return point, the head after the second delay slot, to s31 as they issue, and read
their source first.
R196: `jtab` goes to the entry of its table that the index names, read as a plain load, or to its last operand where the
index is not below the count.
R197: `lp` with a count sets LPCNT, LPBEG to the head after it and LPEND to its label; with a count of 0 outside a delay slot
it goes on at the head after the loop's two delay slots. That the new count stands where `lp` itself ends an active loop is the model's
choice (DEDUCED, log 22), as the pointer is where a line on the way cannot be read (log 11).
A target on a line that cannot be read is a free value (log 11). -/
def Obligations.TransfersCallsTablesAndLoops : Prop :=
  ((∀ (s : State) (n : PReg) (k : Lit), s.ownStream → s.Ready (noSlot { reads := [.p n] }) →
     ∃ t, exec (.br n k) s = .next t ∧ Sets s t [] 0 ∧
       Transfers s t (if (s.pr n).getLsbD 0 then some (BitVec.ofNat 64 (lineVa s.cur.ptr) + k.signExtend 64) else none)) ∧
   (∀ (s : State) (k : Lit), s.ownStream → s.Ready (noSlot {}) →
     ∃ t, exec (.bra k) s = .next t ∧ Sets s t [] 0 ∧
       Transfers s t (some (BitVec.ofNat 64 (lineVa s.cur.ptr) + k.signExtend 64))) ∧
   (∀ (s : State) (a : SCOp), s.ownStream → s.Ready (noSlot (needX [scX a] [] [])) →
     ∃ t, exec (.jmp a) s = .next t ∧ Sets s t [] 0 ∧ Transfers s t (some (s.sc a))) ∧
   (∀ (s : State) (a : SCOp) (b : XOp), s.ownStream → s.Ready (noSlot (needX [scX a, b] [] [])) →
     ∃ t, exec (.jmpr a b) s = .next t ∧ Sets s t [] 0 ∧ Transfers s t (some (s.sc a + s.x b))) ∧
   ∀ (s : State), s.ownStream → s.Ready (noSlot { reads := [.s 31] }) →
     ∃ t, exec .ret s = .next t ∧ Sets s t [] 0 ∧ Transfers s t (some (s.here.sreg 31))) ∧
  (∀ (s : State) (r : Word), s.ownStream → s.ptrLater s.cur.ctx 3 s.cur.ptr = some r →
     (∀ k : Lit, s.Ready (noSlot { writes := [.s 31] }) →
       ∃ t, exec (.call k) s = .next t ∧ Sets s t [(.s 31, r.setWidth 128)] 0 ∧
         Transfers s t (some (BitVec.ofNat 64 (lineVa s.cur.ptr) + k.signExtend 64))) ∧
     ∀ a : SCOp, s.Ready (noSlot (needX [scX a] [] [.s 31])) →
       ∃ t, exec (.callr a) s = .next t ∧ Sets s t [(.s 31, r.setWidth 128)] 0 ∧ Transfers s t (some (s.sc a))) ∧
  (∀ (s : State) (a : XOp) (b : SCOp) (c : XOp) (d : SCOp), s.ownStream → s.Ready (noSlot (needX [a, scX b, c, scX d] [] [])) →
     (s.x c ≤ s.x a → ∃ t, exec (.jtab a b c d) s = .next t ∧ Sets s t [] 0 ∧ Transfers s t (some (s.sc d))) ∧
     ∀ (s1 : State) (l : List Nat), s.x a < s.x c → s.quiet s.cur.ctx = true → (s.sc b).toNat % 8 = 0 →
       let va := vaOf (s.sc b) + 8 * (s.x a).toNat
       va < 2 ^ 52 → s.resolve (s.agent s.cur.ctx) .load (withVa (s.sc b) va) (runFrom va 8) true true true = .ok (s1, l) →
       (∀ p ∈ l, s.poisoned p = false) →
       ∃ t, exec (.jtab a b c d) s = .next t ∧ Sets s t [] 0 ∧ Transfers s t (some (wordOfBytes (l.map s.byte)))) ∧
  (∀ (s : State) (a : XOp) (k : Lit), s.ownStream → s.Ready (needX [a] [] []) →
     let fin := BitVec.ofNat 64 (lineVa s.cur.ptr) + k.signExtend 64
     ∀ r, (s.x a = 0 → s.here.dsn = 0 → s.ptrLater s.cur.ctx 3 fin = some r) →
       ∃ t, exec (.lp a k) s = .next t ∧ (t.ctx s.cur.ctx).csr.lpcnt = s.x a ∧
         (s.here.dsn = 0 → (t.ctx s.cur.ctx).pc = if s.x a = 0 then r else ptrAfter s.cur.ptr s.cur.hc) ∧
         Signed s t ∧ Spares s t [] 0 (fun x => { x with csr := { x.csr with lpbeg := ptrAfter s.cur.ptr s.cur.hc, lpend := fin } }) id [] ∧
         (∀ c, c ≠ s.cur.ctx → (t.ctx c).csr.lpcnt = (s.ctx c).csr.lpcnt) ∧ MarksKept s t)

/-- R170, R197, R203: `nop` goes on at the next head, from the second delay slot at the transfer's target if it was taken; at
LPEND of an active loop it counts LPCNT down and, while it stays above 0, goes to LPBEG after two delay slots; DSIG takes in its first
two words. The same is part of `Computes` and `Leaves`, so that every statement made of them says it of its own heads.
R168: a head one of whose registers waits for an interlocked result does not issue: of each family one head with the registers
that it reads and writes, its constant-bank operands among them.
That the interlock is checked before the operands is the model's choice (log 28). -/
def Obligations.HeadsGoOnInSequence : Prop :=
  (∀ (s : State), s.Ready {} →
     ∃ t, exec .nop s = .next t ∧ Computes s t [] 0 ∧
       (s.ownStream → s.here.atLoopEnd s.cur.ptr = true → (t.ctx s.cur.ctx).csr.lpcnt = s.here.csr.lpcnt - 1)) ∧
  (∀ (s : State) (d r : SReg) (u v w : VReg) (p q : PReg) (a b : XOp) (c e : SCOp) (o : OOp) (mi : MI) (mf : MF) (mo : MO)
     (k : Lit) (g : BitVec 2),
     ∀ f ∈ [(needX [a, b] [] [.s d], Instr.add d a b), (needX [a, b] [.p p] [.s d], .sel d p a b),
         (needX [] [.p p, .p q] [.p p], .plAnd p q), (noSlot { reads := [.p p] }, .br p k),
         (noSlot (needX [a, scX c, b, scX e] [] []), .jtab a c b e), (noSlot { reads := [.s 31] }, .ret),
         (needX [] [] [.s d], .csrr d k), (needX [a] [] [], .csrw k a), (needX [a, scX c] [] [], .msave a c),
         (needMem r o [] [] [.s d], .ld d r o g false), (needMem r o [b] [] [], .st r o b g),
         (needMem r o [] [.v u, .p p] [], .stv r o u p), (needMem r o [b] [] [.s d], .amoAdd d r o b mo),
         (needMem r o [] [] [.s d], .ldfe d r o), ({ writes := [.v u] }, .inb u k), (needX [a] [] [.s d], .cbAcq d a false),
         ({ reads := .v v :: .v w :: keepRead mi.pred u, writes := [.v u] }, .vaddInt u v w mi),
         ({ reads := [.v v, .v w, .v u, .p mf.pred], writes := [.v u] }, .vfma u v w mf),
         (needX [scX c, scX e] [] [], .pdec c e), (needX [scX c, b] [] [.s d, .v u], .aimg d u c b)],
       s.here.interlocked f.1 = true → exec f.2 s = .next s.hold)

/-- R171: each of the heads that a delay slot refuses traps DELAY_SLOT in one, once the checks that come before it have passed: the
control transfers, the return from a loop's end among them, the heads that end a task or trap, those of gangs, `wdenter` and
`sigchk`. -/
def Obligations.DelaySlotsRefuseHeads : Prop :=
  ∀ s : State, s.here.dsn ≠ 0 →
    let refuses := fun (n : Need) (i : Instr) => s.here.interlocked n = false → s.splitPending s.cur.ctx = false →
      exec i s = .next (s.raiseTrap s.cur.ctx { cause := .delaySlot })
    (∀ n k, refuses { reads := [.p n] } (.br n k)) ∧ (∀ k, refuses {} (.bra k)) ∧
    (∀ a, refuses (needX [scX a] [] []) (.jmp a)) ∧ (∀ a b, refuses (needX [scX a, b] [] []) (.jmpr a b)) ∧
    (∀ k, refuses { writes := [.s 31] } (.call k)) ∧ (∀ a, refuses (needX [scX a] [] [.s 31]) (.callr a)) ∧
    refuses { reads := [.s 31] } .ret ∧ (∀ a b c d, refuses (needX [a, scX b, c, scX d] [] []) (.jtab a b c d)) ∧
    (s.here.atLoopEnd s.cur.ptr = true → refuses {} .nop) ∧
    (inHandler s = false → refuses {} .halt ∧ (∀ a, refuses (needX [scX a] [] []) (.haltR a)) ∧
      ∀ a b, 2 ≤ (s.x a).toNat → (s.x a).toNat ≤ 64 → gformOk (s.x a).toNat (s.x b).toNat s = true → refuses (needX [a, b] [] []) (.gform a b)) ∧
    (inHandler s = true → refuses {} .msgdone) ∧ (∀ a, refuses (needX [a] [] []) (.trap a)) ∧
    (s.here.level ≠ .task → s.here.trapRec.isSome = true → refuses {} .eret) ∧
    refuses {} .gleave ∧ (∀ k, refuses {} (.gjoin k)) ∧ (∀ k : Lit, 0 ≤ k.toInt → k.toInt ≤ 0xFFFF → refuses {} (.sigchk k)) ∧
    ∀ (d : SReg) (a : XOp) (b : SCOp) (w : Lit), 0 ≤ w.toInt → w.toInt ≤ 15 → regionLimit false (s.sc b) 128 = true →
      refuses (needX [a, scX b] [] [.s d]) (.wdenter d a b w)

/-- R199, R35: `halt`, once what it waits for is done, ends the task: its context is free and holds nothing but the cycle from which
a task on it may issue (R166), and no register of another context changes. `halt.r` likewise, and traps ALIGN for an address that is not a multiple of 64.
R38, R201: `msgdone` of a handler that has nothing to send frees its inbox slot and its context; the other slots keep their
messages.
R202, R204, R211: `trap` takes its trap, with the operand as detail and EPC at the head after it, once it has issued;
`sigchk` compares where SIG is set, and clears DSIG; `ifence` empties the fetch buffer once earlier stores are performed. -/
def Obligations.TasksEndTrapAndCheckSignatures : Prop :=
  ((∀ (s : State), s.Ready (noSlot {}) → inHandler s = false → s.haltReady s.cur.ctx = true →
     ∃ t, exec .halt s = .next t ∧ t.ctx s.cur.ctx = s.freedHere ∧ (∀ c r, c ≠ s.cur.ctx → t.val c r = s.val c r) ∧
       t.cycle = s.cycle) ∧
   ∀ (s : State) (a : SCOp), s.Ready (noSlot (needX [scX a] [] [])) → inHandler s = false →
     if (s.sc a).toNat % 64 ≠ 0 then
       exec (.haltR a) s = .next (s.raiseTrap s.cur.ctx { cause := .align, fva := s.sc a })
     else s.haltReady s.cur.ctx = true →
       ∃ t, exec (.haltR a) s = .next t ∧ t.ctx s.cur.ctx = s.freedHere ∧ (∀ c r, c ≠ s.cur.ctx → t.val c r = s.val c r) ∧
         t.cycle = s.cycle) ∧
  (∀ (s : State) (e : Nat), s.Ready (noSlot {}) → s.here.kind = .handler e → s.unitsDone s.cur.ctx = true →
     s.here.sendBuf = [] →
     ∃ t, exec .msgdone s = .next t ∧ t.ctx s.cur.ctx = s.freedHere ∧
       (t.core (coreOf s.cur.ctx)).inbox.map InSlot.bare =
         ((s.core (coreOf s.cur.ctx)).inbox.filter fun m => m.num != e).map InSlot.bare ∧
       (∀ c r, c ≠ s.cur.ctx → t.val c r = s.val c r) ∧ t.cycle = s.cycle) ∧
  ((∀ (s : State) (a : XOp), s.Ready (noSlot (needX [a] [] [])) →
     ∃ s1, Computes s s1 [] 0 ∧ exec (.trap a) s = .next (s1.takeTrap s.cur.ctx { cause := .trap, detail := s.x a, next := true })) ∧
   (∀ (s : State) (k : Lit), s.Ready (noSlot {}) → 0 ≤ k.toInt → k.toInt ≤ 0xFFFF →
     if s.here.csr.sig = true ∧ s.here.csr.dsig ≠ k.setWidth 16 then
       exec (.sigchk k) s = .next (s.raiseTrap s.cur.ctx { cause := .sigMismatch })
     else ∃ t, exec (.sigchk k) s = .next t ∧ Sets s t [] 0 ∧ FollowsOn s t ∧ (t.ctx s.cur.ctx).csr.dsig = 0) ∧
   ∀ (s : State), s.Ready {} → ((s.fabricOf s.cur.ctx).any FabReq.writes) = false →
     ∃ t, exec .ifence s = .next t ∧ Computes s t [] 0 ∧ (t.ctx s.cur.ctx).lines = [])

/-! ## Gangs, barriers, launches -/

/-- R41, R205: the last `gform` of a gang completes with all its members' heads: the lowest position leads (GANG 1), the others
follow (GANG 2); an earlier arrival waits.
R44, R206: a leader's `gleave` ends its gang, a follower's detaches it (GANG 3), any other one has no effect.
R45, R206: `gjoin` outside a gang, or of a follower in step, goes to its label; of a leader or a detached member, the last
arrival sends every member it waited for there, back in the gang, and an earlier one waits; another label traps GANG.
How members wait and when one detaches are the model's choices (log 23, log 54). -/
def Obligations.GangsFormLeaveAndRejoin : Prop :=
  (∀ (s : State) (a b : XOp), s.Ready (noSlot (needX [a, b] [] [])) → inHandler s = false → 2 ≤ (s.x a).toNat →
     (s.x a).toNat ≤ 64 → gformOk (s.x a).toNat (s.x b).toNat s = true →
     s.gformRefused s.cur.ctx (s.x a).toNat (s.x b).toNat = false →
     let g := s.gformGang s.cur.ctx (s.x a).toNat (s.x b).toNat
     let members := s.byPosition g.arrived (s.x b).toNat (s.x a).toNat
     ∃ t, exec (.gform a b) s = .next t ∧ Spares s t [] 0 id id [] ∧ MarksKept s t ∧
       if g.arrived.length < (s.x a).toNat then (t.ctx s.cur.ctx).wait.isSome = true ∧ t.gangs = putGang s.gangs g
       else (∃ h ∈ t.gangs, h.formed = true ∧ h.members = members ∧ h.leader = members.headD s.cur.ctx) ∧
         ∀ m ∈ members, (t.ctx m).csr.gang = if m = members.headD s.cur.ctx then 1 else 2) ∧
  (∀ (s : State), s.Ready (noSlot {}) →
     ∃ t, exec .gleave s = .next t ∧ Computes s t [] 0 ∧
       (s.here.csr.gang = 0 → t.gangs = s.gangs ∧ (t.ctx s.cur.ctx).csr.gang = 0) ∧
       (∀ g, s.here.csr.gang = 1 → s.gangWith s.cur.ctx = some g →
         t.gangs = s.gangs.filter (fun h => h.num != g.num) ∧ (t.ctx s.cur.ctx).csr.gang = 0) ∧
       (s.here.csr.gang = 2 → t.gangs = s.gangs ∧ (t.ctx s.cur.ctx).csr.gang = 3) ∧
       (s.here.csr.gang = 3 → t.gangs = s.gangs ∧ (t.ctx s.cur.ctx).csr.gang = 3)) ∧
  (∀ (s : State) (k : Lit), s.ownStream → s.Ready (noSlot {}) →
     let ptr := BitVec.ofNat 64 (lineVa s.cur.ptr) + k.signExtend 64
     ((s.here.csr.gang = 0 ∨ s.here.csr.gang = 2 ∨ s.gangWith s.cur.ctx = none) →
       ∃ t, exec (.gjoin k) s = .next t ∧ Sets s t [] 0 ∧ (t.ctx s.cur.ctx).pc = ptr ∧ (t.ctx s.cur.ctx).dsn = 0 ∧ Signed s t) ∧
     ∀ g, (s.here.csr.gang = 1 ∨ s.here.csr.gang = 3) → s.gangWith s.cur.ctx = some g → s.cur.ctx ∈ s.joinNeeds g →
       if ∃ p, g.joinPtr = some p ∧ samePtr p ptr = false then
         exec (.gjoin k) s = .next (s.raiseTrap s.cur.ctx { cause := .gang })
       else ∃ t, exec (.gjoin k) s = .next t ∧ Spares s t [] 0 id id [] ∧ MarksKept s t ∧
         if ∀ m ∈ s.joinNeeds g, m = s.cur.ctx ∨ m ∈ g.arrived then
           (t.ctx s.cur.ctx).pc = ptr ∧ ∀ m ∈ s.joinNeeds g, (t.ctx m).csr.gang = if m = g.leader then 1 else 2
         else (t.ctx s.cur.ctx).wait.isSome = true)

/-- R207: the last context of its group (or, for `sbar` in a span of several, of its span) to reach a barrier lets every other
one go on; an earlier one waits there.
R220: a waiting head whose context may go on is tried again as it was issued; it completes or goes on waiting as that head
does. Nothing happens where no head waits.
That an arrival is a parked context, which reads its operands again, is the model's choice (log 54, log 58). -/
def Obligations.BarriersReleaseAndWaitersRetry : Prop :=
  (∀ (s : State), s.Ready {} → inHandler s = false → s.quiet s.cur.ctx = true →
     ∀ e ∈ [(Instr.gbar, false), (Instr.sbar, s.barrierWide s.cur.ctx .sbar)],
       ∃ t, exec e.1 s = .next t ∧ Spares s t [] 0 id id [] ∧ MarksKept s t ∧
         if ∀ m ∈ s.barrierPeers s.cur.ctx e.2, m = s.cur.ctx ∨ s.arrivedAt e.2 m = true then
           ∀ m ∈ s.barrierPeers s.cur.ctx e.2, (t.ctx m).wait = none
         else (t.ctx s.cur.ctx).wait.isSome = true) ∧
  ((∀ (s : State) (c : CtxId), (s.ctx c).wait = none → exec (.waitSatisfied c) s = .next s) ∧
   ∀ (s : State) (c : CtxId) (w : Waiting) (d r : SReg) (a b : XOp) (o : OOp) (m : SCOp) (l : Lit) (f : Bool),
     (s.ctx c).wait = some w → (s.ctx c).run = .running → s.beforeHead c = none → s.notReady c = false →
     w.instr ∈ waitingHeads d a b r o m l f →
     ∃ t, exec (.waitSatisfied c) s = .next t ∧
       exec w.instr { s.modCtx c (fun x => x.settle (s.nowCtx c)) with cur := w.issue } = .next t)

/-- R208: `launch` hands the 64 bytes at its pointer to the dispatcher and its destination waits for the answer; a shadow or
referee run (R349) gets 0 at once.
R209, R311, R349: `qdone` of a group with a completion counter adds a[15:0] to its bits [31:0] and ORs b[31:0] into bits [63:32];
without one, or in a shadow or referee run, it changes nothing; in a primary run or its re-run the counter keeps its value until the
group is confirmed. What a supervisor does on the context is none of the run.
That a launch waits at issue for earlier stores is the model's choice (log 14). -/
def Obligations.LaunchesAndWaveCompletions : Prop :=
  (∀ (s : State) (d : SReg) (a : SCOp) (b : XOp), s.Ready (needX [scX a, b] [] [.s d]) → (s.x b).toNat ≤ 15 →
     s.quiet s.cur.ctx = true → ∀ (s1 : State) (l : List Nat),
     s.resolve (s.agent s.cur.ctx) .load (s.sc a) (runFrom (vaOf (s.sc a)) 64) (decide (vaOf (s.sc a) % 64 = 0)) true true =
       .ok (s1, l) → (∀ p ∈ l, s.poisoned p = false) →
     ∃ t, exec (.launch d a b) s = .next t ∧
       if s.silent s.cur.ctx then Computes s t [(.s d, 0)] 0
       else (t.part (s.partOfCtx s.cur.ctx)).launching = (s.part (s.partOfCtx s.cur.ctx)).launching ++
           [{ ctx := s.cur.ctx, sd := d, queue := (s.x b).toNat, bytes := l.map s.byte }] ∧
         Awaits s t (.s d) ∧ Proceeds s t ∧ RegsKept s t [] ∧ ContextsKept s t id ∧ FlagsSet s t 0 ∧ LoopsKept s t ∧
         BytesKept s t [] ∧ MarksKept s t) ∧
  (∀ (s : State) (a b : XOp), s.Ready (needX [a, b] [] []) → inHandler s = false → s.quiet s.cur.ctx = true →
     (∀ g, s.groupOf s.cur.ctx = some g → (g.desc.done = 0xFF ∨
         (s.here.level = .task ∧ (g.role = .shadow ∨ g.role = .referee))) →
       ∃ t, exec (.qdone a b) s = .next t ∧ Computes s t [] 0) ∧
     (∀ g, s.groupOf s.cur.ctx = some g → s.here.level = .task → (g.role = .primary ∨ g.role = .rerun) →
       ∃ t, exec (.qdone a b) s = .next t ∧ (t.part (s.partOfCtx s.cur.ctx)).wc = (s.part (s.partOfCtx s.cur.ctx)).wc ∧
         Leaves s { t with parts := s.parts } [] 0 id id [] ∧ MarksKept s t) ∧
     ∀ g, s.groupOf s.cur.ctx = some g → g.desc.done ≠ 0xFF → (g.role = .plain ∨ s.here.level ≠ .task) →
       ∃ (t : State) (w : Word), exec (.qdone a b) s = .next t ∧
         t.part (s.partOfCtx s.cur.ctx) = { s.part (s.partOfCtx s.cur.ctx) with
           wc := SMap.put (s.part (s.partOfCtx s.cur.ctx)).wc g.desc.done w } ∧
         w.extractLsb' 0 32 = (SMap.look (s.part (s.partOfCtx s.cur.ctx)).wc g.desc.done (0 : Word)).extractLsb' 0 32 +
           ((s.x a).extractLsb' 0 16).setWidth 32 ∧
         w.extractLsb' 32 32 = (SMap.look (s.part (s.partOfCtx s.cur.ctx)).wc g.desc.done (0 : Word)).extractLsb' 32 32 |||
           (s.x b).extractLsb' 0 32 ∧
         Leaves s { t with parts := s.parts, pkgs := s.pkgs } [] 0 id id [] ∧ MarksKept s t)

/-! ## Control registers and privileged heads -/

/-- R210, R23, R368, R372: `csrr` reads the registers of its context and what every level sees of its package, the status of a
buffer that it owns (R240), and the weights of its cluster's array queue, of which a 0 reads as 1 (R90).
R210, R23: `csrw` writes a, `csrset` ORs it in and `csrclr` clears its bits, in the registers of the context that every
level may write; CBASE keeps its three low bits zero, and of MODE only CHK is written (R25).
R24, R210, R197: a write of SW comes after the flag settings of earlier heads; one of LPCNT gives the count of the active
loop.
R311, R306: a wave counter is read by every level, as an acquire at task level; above task level a write of one goes to the
counter alone, where no MSI-X vector has a threshold on it (R371).
How writes to some registers are read is the model's choice (log 31), and so is that a write of a wave counter waits for no
store (log 83). -/
def Obligations.ControlRegistersAreReadAndWritten : Prop :=
  (∀ (s : State) (d : SReg), s.Ready (needX [] [] [.s d]) →
     let r := s.here.csr
     (∀ e ∈ ([(2, r.ten.setWidth 64), (3, r.cbase), (4, r.hkey.setWidth 64), (5, r.mode), (6, BitVec.ofNat 64 (s.budgetLeft s.cur.ctx)), (7, r.taskid.setWidth 64), (8, BitVec.ofNat 64 s.gtc),
         (9, r.lbanks.setWidth 64), (0xA, r.gjto.setWidth 64), (0xB, r.pconf), (0xC, r.dropmag), (0xD, r.wds), (0xE, r.lpcnt), (0xF, r.lpbeg),
         (0x10, r.lpend), (0x11, r.dsig.setWidth 64), (0x12, s.here.breg 0), (0x13, s.here.breg 1), (0x14, s.here.breg 2),
         (0x15, s.here.breg 3), (0x16, r.ccown), (0x17, r.cbown.setWidth 64)] : List (Nat × Word)),
       ∃ t, exec (.csrr d (BitVec.ofNat 32 e.1)) s = .next t ∧ Computes s t [(.s d, e.2.setWidth 128)] 0) ∧
     (s.here.pend.all (fun p => p.flags == 0) = true →
       ∃ t, exec (.csrr d 1) s = .next t ∧ Computes s t [(.s d, (s.sw s.cur.ctx).setWidth 128)] 0) ∧
     let p := coreOf s.cur.ctx
     let reads := fun (n : Nat) (w : Word) =>
       ∃ t, exec (.csrr d (BitVec.ofNat 32 n)) s = .next t ∧ Computes s t [(.s d, w.setWidth 128)] 0
     (∀ i, i < 16 → reads (0x30 + i) (SMap.look (s.pkg (pkgOf p)).hmapc i 0) ∧
       (r.cbown.getLsbD i = true → reads (0x20 + i) (SMap.look (s.core p).buffers i {}).status)) ∧
     reads 0x40 (s.die (2 * pkgOf p)).hmapk ∧ reads 0x41 (s.die (2 * pkgOf p + 1)).hmapk ∧
     (∀ g, (s.pkg (pkgOf p)).pkgid = some g → reads 0x42 (g.setWidth 64)) ∧
     ∃ w : Word, reads 0xC0 w ∧ w.extractLsb' 32 32 = 0 ∧ ∀ i, i < 8 →
       let m := (s.cluster (clusterOf p)).mqw.extractLsb' (4 * i) 4
       w.extractLsb' (4 * i) 4 = if m = 0 then 1 else m) ∧
  (∀ (s : State) (a : XOp), s.Ready (needX [a] [] []) →
     ∀ r ∈ ([(2, s.here.csr.ten.setWidth 64, fun v x => { x with csr := { x.csr with ten := v.setWidth 7 } }),
         (3, s.here.csr.cbase, fun v x => { x with csr := { x.csr with cbase := v &&& ~~~(7 : Word) } }),
         (5, s.here.csr.mode, fun v x => { x with csr := { x.csr with chk := v.getLsbD 0 } }),
         (0xA, s.here.csr.gjto.setWidth 64, fun v x => { x with csr := { x.csr with gjto := v.setWidth 32 } }),
         (0xC, s.here.csr.dropmag, fun v x => { x with csr := { x.csr with dropmag := v } }),
         (0xF, s.here.csr.lpbeg, fun v x => { x with csr := { x.csr with lpbeg := v } }),
         (0x10, s.here.csr.lpend, fun v x => { x with csr := { x.csr with lpend := v } })] :
         List (Nat × Word × (Word → Context → Context))),
       ∀ e ∈ [(Instr.csrw (BitVec.ofNat 32 r.1) a, s.x a), (.csrset (BitVec.ofNat 32 r.1) a, r.2.1 ||| s.x a),
           (.csrclr (BitVec.ofNat 32 r.1) a, r.2.1 &&& ~~~(s.x a))],
         ∃ t, exec e.1 s = .next t ∧ Leaves s t [] 0 (r.2.2 e.2) id [] ∧ MarksKept s t) ∧
  (∀ (s : State) (a : XOp), s.Ready (needX [a] [] []) →
     (∀ e ∈ [(Instr.csrw 1 a, (s.x a).setWidth 7), (.csrset 1 a, s.sw s.cur.ctx ||| (s.x a).setWidth 7),
         (.csrclr 1 a, s.sw s.cur.ctx &&& ~~~((s.x a).setWidth 7))],
       ∃ t, exec e.1 s = .next t ∧ t.sw s.cur.ctx = e.2 ∧ RegsKept s t [] ∧ ContextsKept s t id ∧
         (∀ c, c ≠ s.cur.ctx → t.sw c = s.sw c) ∧ LoopsKept s t ∧ BytesKept s t [] ∧ MarksKept s t ∧ CoresKept s t id ∧
         UnitsKept s t ∧ Proceeds s t) ∧
     (s.here.atLoopEnd s.cur.ptr = false →
       ∃ t, exec (.csrw 0xE a) s = .next t ∧ Spares s t [] 0 id id [] ∧ MarksKept s t ∧ Proceeds s t ∧
         (t.ctx s.cur.ctx).csr.lpcnt = s.x a ∧ ∀ c, c ≠ s.cur.ctx → (t.ctx c).csr.lpcnt = (s.ctx c).csr.lpcnt)) ∧
  (∀ (s : State) (i : Nat), i < 256 →
     (∀ d : SReg, s.Ready (needX [] [] [.s d]) →
       (s.here.level = .task → s.acqPending s.cur.ctx = false ∧ s.syncPending s.cur.ctx = false) →
       ∃ t, exec (.csrr d (BitVec.ofNat 32 (0x400 + i))) s = .next t ∧
         Computes s t [(.s d, (SMap.look (s.part (s.partOfCtx s.cur.ctx)).wc i (0 : Word)).setWidth 128)] 0) ∧
     ∀ a : XOp, s.Ready (needX [a] [] []) → s.here.level ≠ .task →
       (∀ e ∈ (s.part (s.partOfCtx s.cur.ctx)).thresholds, e.2.1 ≠ i) →
       s.Writes (0x400 + i) a fun v t => OnOwnPart s { t with pkgs := s.pkgs } (fun x => { x with wc := SMap.put x.wc i v }) ∧
         ∀ g, t.pkg g = s.pkg g)

/-- R307, R308, R325, R340, R341, R357, R372: above task level `csrr` reads the registers of the partition, the core, the cluster
and the die, and of the hypervisor those of the package and of the partition that HPSEL selects.
R307, R308, R325, R357, R90: above task level `csrw`, `csrset` and `csrclr` write the RW fields of the registers of the
partition, the core, the cluster and the die, and a save area, frame, SAPROT or dump area only where R325 and R357 let it lie.
R307, R314, R341, R344, R246, R357: the command registers that a supervisor writes. Each gives a step that follows at once, or,
of DCMD, a command that the dispatcher carries out; a value that names no command is ILLEGAL_OPERAND. A basin takes a rectangle
of the partition's clusters that meets no other basin, and keeps its own while it or the new one is fenced.
R340, R338, R382, R372, R352: the hypervisor's registers of its package and of the partition that HPSEL selects. A resource of a
partition changes only while no task of it is placed and no other partition holds it. A quarantine bit is only ever set.
That HBANKS refuses a bank that a group holds or that is retained or reserved, that the banks it names are handler banks at
once, and that a write to a fenced basin has no effect, are the model's readings (DEDUCED, log 31); so are the low bits of
SABASE and AFBASE, which are ignored, and the SAPROT that is refused (DEDUCED, log 21). -/
def Obligations.PrivilegedRegistersAreReadAndWritten : Prop :=
  (∀ (s : State) (d : SReg), s.Ready (needX [] [] [.s d]) → s.here.level ≠ .task →
     let p := coreOf s.cur.ctx
     let q := s.part (s.partOf p)
     let k := s.core p
     let j := s.cluster (clusterOf p)
     let e := s.die (dieOf p)
     let g := s.pkg (pkgOf p)
     let h := s.part (16 * pkgOf p + g.hpsel)
     let reads := fun (n : Nat) (w : Word) =>
       ∃ t, exec (.csrr d (BitVec.ofNat 32 n)) s = .next t ∧ Computes s t [(.s d, w.setWidth 128)] 0
     (∀ i, i < 16 →
       (∃ w : Word, reads (0x100 + i) w ∧ (let c := SMap.look q.qcfg i (0x0C : BitVec 8)
         w.extractLsb' 0 2 = c.extractLsb' 0 2 ∧ w.extractLsb' 2 2 = (if c.extractLsb' 2 2 = 0 then 3 else c.extractLsb' 2 2) ∧
           w.extractLsb' 4 3 = c.extractLsb' 4 3 ∧ w.getLsbD 7 = false ∧
           (w >>> 8).toNat = min 32 (q.waves.filter fun x => x.queue == i).length)) ∧
       (∃ w : Word, reads (0x140 + i) w ∧ w.setWidth 15 = (SMap.look q.basins i (0 : BitVec 16)).setWidth 15 ∧
         w.getLsbD 15 = (s.basinClusters (s.partOf p) i).any (fun c => (s.cluster c).fenced) ∧ w >>> 16 = 0) ∧
       (let y := SMap.look k.delays i {};
         (y.valid = false → reads (0x180 + i) 0) ∧
         (y.valid = true → reads (0x180 + i) (BitVec.ofNat 64 (y.place % 2 ^ 22 + 2 ^ 22 + 2 ^ 32 * (y.count % 2 ^ 32)))) ∧
         reads (0x190 + i) (BitVec.ofNat 64 y.transit) ∧ reads (0x1A0 + i) (BitVec.ofNat 64 y.wait) ∧
         reads (0x1B0 + i) (BitVec.ofNat 64 y.run)) ∧
       (i < 4 → reads (0x160 + i) (SMap.look q.bpa i 0) ∧ reads (0x164 + i) (SMap.look q.bpc i 0))) ∧
     (∀ r ∈ ([(0x110, k.hbanks.setWidth 64), (0x111, q.hmode.setWidth 64), (0x112, k.hcbase), (0x113, q.hbudget), (0x114, k.hccown),
         (0x115, k.hcbown.setWidth 64), (0x117, k.hhkey.setWidth 64), (0x121, q.darg),
         (0x122, BitVec.ofNat 64 (q.aslot % 2) ||| if q.dcmd.isSome then 2 else 0), (0x130, q.ptroot), (0x131, q.tvec),
         (0x132, k.sabase), (0x133, j.afbase), (0x134, BitVec.ofNat 64 (max 1 (min 8 j.afcnt.toNat))), (0x135, q.saprot),
         (0x136, q.crcb), (0x137, q.elogb), (0x138, BitVec.ofNat 64 (ringWord e.elogHead e.elogOvr e.elogTail)), (0x139, q.elogm),
         (0x168, e.trb), (0x169, BitVec.ofNat 64 (ringWord e.trpHead e.trpOvr e.trpTail)), (0x16A, q.trctl),
         (0x1C0, q.czt ||| if q.cztFail then 0x8000000000000000 else 0), (0x1C8, e.dumpb), (0x1C9, e.dumpp),
         (0x1CA, BitVec.ofNat 64 (min 4 e.dumps.length + 8 * e.dumpFull.toNat + 2 ^ 16 * (e.dumpLost % 2 ^ 16))),
         (0x1CB, q.dumpctl)] : List (Nat × Word)), reads r.1 r.2) ∧
     (s.here.level = .hyp →
       (∀ r ∈ ([(0x200, BitVec.ofNat 64 g.hpsel), (0x201, h.pcl0), (0x202, h.pcl1), (0x203, h.phbm.setWidth 64),
           (0x204, h.pqm.setWidth 64), (0x210, if g.suspth = 0 then 1 else g.suspth.setWidth 64), (0x211, (s.die (2 * pkgOf p)).quar),
           (0x212, (s.die (2 * pkgOf p + 1)).quar), (0x213, g.pfth.setWidth 64), (0x220, g.hdrop), (0x250, g.zlrta.setWidth 64),
           (0x251, (SMap.look g.routes g.zlrta.toNat (0 : BitVec 16)).setWidth 64)] : List (Nat × Word)), reads r.1 r.2) ∧
       (∀ i, i < 8 → reads (0x205 + i) (SMap.look h.pmr i 0)) ∧
       (∀ i, i < 16 → reads (0x240 + i) (BitVec.ofNat 64 (SMap.look g.ports i {}).word)) ∧
       ∀ i, i < 128 → reads (0x280 + i) ((s.cluster (clusterAt (pkgOf p) (i % 16) (i / 16))).susp.setWidth 64))) ∧
  (∀ (s : State) (a : XOp), s.Ready (needX [a] [] []) → s.here.level ≠ .task →
     let q := s.part (s.partOfCtx s.cur.ctx)
     let v := s.x a
     let onCore := fun (t : State) (f : Core → Core) => Leaves s t [] 0 id f [] ∧ MarksKept s t
     (∀ r ∈ ([(0x111, fun v x => { x with hmode := v.setWidth 2 }), (0x113, fun v x => { x with hbudget := v }),
         (0x121, fun v x => { x with darg := v }), (0x130, fun v x => { x with ptroot := v &&& 0xFFFFFFFF0000 }),
         (0x131, fun v x => { x with tvec := v }), (0x136, fun v x => { x with crcb := v &&& 0xFFFFFFFFFFF8 }),
         (0x137, fun v x => { x with elogb := v &&& 0xF3FFFFE0 }), (0x139, fun v x => { x with elogm := v &&& 0x800003FF003FFFFF }),
         (0x16A, fun v x => { x with trctl := v &&& 0xFFFF000F }), (0x1CB, fun v x => { x with dumpctl := v &&& 7 })] :
         List (Nat × (Word → Part → Part))), s.Writes r.1 a fun v t => OnOwnPart s t (r.2 v)) ∧
     (∀ i, i < 16 → s.Writes (0x100 + i) a fun v t =>
       OnOwnPart s t fun x => { x with qcfg := SMap.put x.qcfg i (v.setWidth 8 &&& 0x7F) }) ∧
     (∀ i, i < 4 → (s.Writes (0x160 + i) a fun v t => OnOwnPart s t fun x => { x with bpa := SMap.put x.bpa i v }) ∧
       s.Writes (0x164 + i) a fun v t => OnOwnPart s t fun x => { x with bpc := SMap.put x.bpc i (v &&& 0x3FFFFFFFF) }) ∧
     (∀ r ∈ ([(0x112, fun v x => { x with hcbase := v }), (0x114, fun v x => { x with hccown := v }),
         (0x115, fun v x => { x with hcbown := v.setWidth 16 }), (0x117, fun v x => { x with hhkey := v.setWidth 16 })] :
         List (Nat × (Word → Core → Core))), s.Writes r.1 a fun v t => onCore t (r.2 v)) ∧
     (let p := coreOf s.cur.ctx
       let held := fun i => (s.core p).banks.getD i .off
       if ((List.range 12).any fun i => v.getLsbD i && held i != .off && held i != .handler) = true then s.Refuses 0x110 a
       else s.WritesOnly 0x110 a fun t => (t.core p).hbanks = v.setWidth 12 ∧
         (∀ i, i < 12 → v.getLsbD i = true → (t.core p).banks.getD i .off = .handler) ∧ RegsKept s t [] ∧ ContextsKept s t id ∧
         Proceeds s t) ∧
     (s.Writes 0xC0 a fun v t => OnOwnCluster s t fun x => { x with mqw := v.setWidth 32 }) ∧
     (∀ r ∈ ([(0x138, fun v x => { x with elogTail := v.toNat / 2 ^ 32 % 2 ^ 16 }),
         (0x168, fun v x => { x with trb := v &&& 0xF3FFFFE0 }), (0x169, fun v x => { x with trpTail := v.toNat / 2 ^ 32 % 2 ^ 16 }),
         (0x1C9, fun v x => { x with dumpp := v &&& 0xFFFFFFF, dumpFull := false })] : List (Nat × (Word → Die → Die))),
       s.Writes r.1 a fun v t => OnOwnDie s t (r.2 v)) ∧
     (let b := v &&& 0xFFFFFFFFFFFFC000
       if q.savesAt b 16384 = true then s.WritesOnly 0x132 a fun t => onCore t fun x => { x with sabase := b } else s.Refuses 0x132 a) ∧
     (let b := v &&& 0xFFFFFFFFFFFFE000
       if q.savesAt b (Config.frameBytes * (s.cluster (clusterOf (coreOf s.cur.ctx))).frameCount) = true then
         s.WritesOnly 0x133 a fun t => OnOwnCluster s t fun x => { x with afbase := b }
       else s.Refuses 0x133 a) ∧
     (let k := s.cluster (clusterOf (coreOf s.cur.ctx))
       if 8 < v.toNat % 16 ∨ (k.afbase ≠ 0 ∧
           q.savesAt k.afbase (Config.frameBytes * ({ k with afcnt := v.setWidth 4 } : Cluster).frameCount) = false) then
         s.Refuses 0x134 a
       else s.WritesOnly 0x134 a fun t => OnOwnCluster s t fun x => { x with afcnt := v.setWidth 4 }) ∧
     (let b := v &&& 0x0FFFC0000FFFC000
       if s.saprotCovers (s.partOfCtx s.cur.ctx) b = true then
         s.WritesOnly 0x135 a fun t => OnOwnPart s t fun x => { x with saprot := b }
       else s.Refuses 0x135 a) ∧
     (let b := v &&& 0x0FFFF0000FFFF000
       if b.toNat / 2 ^ 32 = 0 ∨ q.protectsRange (b.toNat % 2 ^ 28) (b.toNat / 2 ^ 32) = true then
         s.WritesOnly 0x1C8 a fun t => OnOwnDie s t fun x => { x with dumpb := b }
       else s.Refuses 0x1C8 a)) ∧
  (∀ (s : State) (a : XOp), s.Ready (needX [a] [] []) → s.here.level ≠ .task →
     let c := s.cur.ctx
     let q := s.partOfCtx c
     let v := s.x a
     (if v.toNat % 4 = 3 then s.Refuses 0x116 a
       else s.WritesOnly 0x116 a fun t => match v.toNat % 4 with
         | 0 => Computes s t [] 0
         | 1 => Follows s t (.inboxRepresent (coreOf c))
         | _ => Follows s t (.inboxDiscard (coreOf c))) ∧
     (if v.toNat = 0 ∨ 5 < v.toNat then s.Refuses 0x120 a
       else if (s.part q).dcmd.isSome then exec (.csrw 0x120 a) s = .next s.hold
       else s.WritesOnly 0x120 a fun t => OnOwnPart s t fun x =>
         { x with dcmd := some (v.toNat, x.darg, s.cycle, s.here.level == .hyp) }) ∧
     (∀ k : Fin 16, (v.toNat = 0x10 + k.val → s.WritesOnly 0x150 a fun t => Follows s t (.unfence q k)) ∧
       (v.toNat = 0x20 + k.val → s.WritesOnly 0x150 a fun t => Follows s t (.reset q k))) ∧
     (v.toNat < 0x10 ∨ 0x30 ≤ v.toNat → s.Refuses 0x150 a) ∧
     (s.WritesOnly 0x1C0 a fun t => OnOwnPart s t (fun x => { x with cztPending := some (v, c) }) ∧
       t.agenda = .event (.decodeTableLoad q) :: s.agenda) ∧
     (s.WritesOnly 0x1C4 a fun t =>
       if v.getLsbD 0 then Follows s t (.delayTableClear (coreOf c)) else Computes s t [] 0) ∧
     ∀ i, i < 16 →
       if s.basinOk q i (v.toNat % 2 ^ 15) = false then s.Refuses (0x140 + i) a
       else s.WritesOnly (0x140 + i) a fun t =>
         if ((s.basinClusters q i).any fun j => (s.cluster j).fenced) = true ∨
             (v.getLsbD 14 = true ∧ ((basinRect (v.toNat % 2 ^ 15) (q / 16)).any fun j => (s.cluster j).fenced) = true) then
           Computes s t [] 0
         else OnOwnPart s t fun x => { x with basins := SMap.put x.basins i ((v.setWidth 15).setWidth 16) }) ∧
  (∀ (s : State) (a : XOp), s.Ready (needX [a] [] []) → s.here.level = .hyp →
     let g := pkgOf (coreOf s.cur.ctx)
     let bank := (s.pkg g).hpsel
     let v := s.x a
     let resource := fun (n : Nat) (ok : Bool) (f : Part → Part) =>
       if s.partIdle (16 * g + bank) = true ∧ ok = true then
         s.WritesOnly n a fun t => Leaves s { t with parts := s.parts } [] 0 id id [] ∧ MarksKept s t ∧
           ∀ r, t.part r = if r = 16 * g + bank then f (s.part r) else s.part r
       else s.Refuses n a
     (∀ r ∈ ([(0x200, fun v x => { x with hpsel := v.toNat % 16 }), (0x213, fun v x => { x with pfth := v.setWidth 32 }),
         (0x250, fun v x => { x with zlrta := v.setWidth 12 }),
         (0x251, fun v x => { x with routes := SMap.put x.routes x.zlrta.toNat (v.setWidth 16) })] :
         List (Nat × (Word → Package → Package))), s.Writes r.1 a fun v t => OnOwnPackage s t (r.2 v)) ∧
     resource 0x201 (s.setFree g bank (fun q => q.pcl0) v) (fun x => { x with pcl0 := v }) ∧
     resource 0x202 (s.setFree g bank (fun q => q.pcl1) v) (fun x => { x with pcl1 := v }) ∧
     resource 0x203 (s.setFree g bank (fun q => q.phbm.setWidth 64) (v &&& 0xFF)) (fun x => { x with phbm := v.setWidth 8 }) ∧
     resource 0x204 (s.setFree g bank (fun q => q.pqm.setWidth 64) (v &&& 0xFFFF)) (fun x => { x with pqm := v.setWidth 16 }) ∧
     (∀ i, i < 8 → resource (0x205 + i) (s.pmrOk g bank (v &&& 0x7FFFFFFFFFFFFFFF))
       fun x => { x with pmr := SMap.put x.pmr i (v &&& 0x7FFFFFFFFFFFFFFF) }) ∧
     (∀ e, e < 2 → s.WritesOnly (0x211 + e) a fun t => Leaves s { t with dies := s.dies } [] 0 id id [] ∧ MarksKept s t ∧
       ∀ r, t.die r = if r = 2 * g + e then { s.die r with quar := (s.die r).quar ||| v } else s.die r) ∧
     (s.WritesOnly 0x220 a fun t => Follows s t (.bankDrop g v)) ∧
     ((∀ k, pkgOfCluster k = g → (s.cluster k).susp.toNat < max 1 (v.toNat % 256)) →
       s.WritesOnly 0x210 a fun t => OnOwnPackage s t fun x => { x with suspth := v.setWidth 8 }) ∧
     ∀ i, i < 128 → v.toNat % 256 < max 1 (s.pkg g).suspth.toNat → let k := clusterAt g (i % 16) (i / 16)
       s.WritesOnly (0x280 + i) a fun t => Leaves s { t with clusters := s.clusters } [] 0 id id [] ∧ MarksKept s t ∧
         ∀ j, t.cluster j = if j = k then { s.cluster j with susp := v.setWidth 8 } else s.cluster j)

/-- R6, R23, R210: a number that names no register traps ILLEGAL_OPERAND, an access that the level may not make traps PRIV, and a
write to a register without writable fields changes nothing. That an unnamed number is ILLEGAL_OPERAND at every level is the model's
reading (DEDUCED, log 28), and so is that a write above task level of a register without writable fields has no effect (DEDUCED,
log 31).
R173, R306, R212: every head of MAJ 0x18 traps PRIV at task level; `eret` with no trap recorded traps ILLEGAL_OP. -/
def Obligations.AccessAndPrivilegeAreChecked : Prop :=
  ((∀ (s : State) (d : SReg) (k : Lit), s.Ready (needX [] [] [.s d]) →
     (∀ n, csrNum k = some n → csrNamed n = false →
       exec (.csrr d k) s = .next (s.raiseTrap s.cur.ctx { cause := .illegalOperand })) ∧
     (csrNum k = none → exec (.csrr d k) s = .next (s.raiseTrap s.cur.ctx { cause := .illegalOperand })) ∧
     (∀ n, csrNum k = some n → csrNamed n = true → n < 0x400 → (0x100 ≤ n ∧ s.here.level = .task ∨
         0x200 ≤ n ∧ s.here.level = .sup ∨ n ∈ [0x116, 0x120, 0x150, 0x1C4]) →
       exec (.csrr d k) s = .next (s.raiseTrap s.cur.ctx { cause := .priv }))) ∧
   ∀ (s : State) (a : XOp), s.Ready (needX [a] [] []) →
     (s.here.level = .task → ∀ n, n ∈ [4, 6, 7, 8, 9, 0xB, 0xD, 0x11, 0x12, 0x15, 0x16, 0x17] →
       exec (.csrw (BitVec.ofNat 32 n) a) s = .next (s.raiseTrap s.cur.ctx { cause := .priv })) ∧
     (s.here.level ≠ .task → ∀ n, n ∈ [4, 6, 7, 8, 9, 0xB, 0xD, 0x11, 0x12, 0x15, 0x16, 0x17] →
       ∃ t, exec (.csrw (BitVec.ofNat 32 n) a) s = .next t ∧ Computes s t [] 0)) ∧
  (∀ (s : State) (a b : XOp) (c : SCOp),
     (s.here.level = .task → ∀ e ∈ [(Instr.eret, noSlot {}), (.tlbinv a b, needX [a, b] [] []),
         (.msave a c, needX [a, scX c] [] []), (.mrest a c, needX [a, scX c] [] []), (.htset a c, needX [a, scX c] [] [])],
       s.here.interlocked e.2 = false → exec e.1 s = .next (s.raiseTrap s.cur.ctx { cause := .priv })) ∧
     (s.here.level ≠ .task → s.here.trapRec = none → s.here.interlocked (noSlot {}) = false →
       exec .eret s = .next (s.raiseTrap s.cur.ctx { cause := .illegalOp })))

/-- R212, R331: `eret` with RES 0 resumes a task that is no handler: task level, the pointer, the delay-slot state and the
registers that its save area now holds; memory and other contexts' registers are untouched. It waits
while the units of its core have no room for the requests that it enters again (R264, log 65). MODE.WDE stands twice in the area, in
bit 11 of the record's first word and in the MODE word: that the one of them which no longer holds its old value is restored, and that
value where neither was changed, is the model's reading (DEDUCED, log 20).
R212, R331, R363: what RES of the save area says otherwise: 1 restarts and 2 ends the task, a handler's RES 0 frees its
context, so that its context is free again (or, of RES 2 with dumps on, waits for its dump), and 3 is ILLEGAL_OP above task level,
which stops the context (R334). Other contexts keep their registers.
Which requests the words of the save area name where the trap did not write them is the model's choice (log 65); of the two
copies of MODE.WDE the changed one is restored (log 20). -/
def Obligations.EretResumesFromTheSaveArea : Prop :=
  (∀ (s : State) (r : TrapRec), s.Ready (noSlot {}) → s.here.level ≠ .task → s.here.trapRec = some r → s.here.busy = [] →
     inHandler s = false → r.imageFault = false → s.here.run = .running →
     (∀ a ∈ runFrom (dieAt (dieOf (coreOf s.cur.ctx)) r.save) 4096, s.poisoned a = false) →
     let l := s.slice (dieAt (dieOf (coreOf s.cur.ctx)) r.save) 4096
     bitsOf (fieldAt l 0 8) 18 2 = 0 →
     if s.returnRoom s.cur.ctx r = false then exec .eret s = .next s.hold
     else ∃ t, exec .eret s = .next t ∧
       (let x := t.ctx s.cur.ctx;
         x.level = .task ∧ x.run = .running ∧ x.trapRec = none ∧ x.pc = BitVec.ofNat 64 (fieldAt l 8 8) ∧
         x.dsn = bitsOf (fieldAt l 0 8) 8 2 ∧ (x.dsn ≠ 0 → x.npc = some (BitVec.ofNat 64 (fieldAt l 0x10 8))) ∧
         x.csr.wde = wdeAfter s.here.csr.wde (bitOf (fieldAt l 0 8) 11) (bitOf (fieldAt l (0x370 + 24) 8) 3)) ∧
       (∀ i : SReg, i ≠ 0 → t.val s.cur.ctx (.s i) = BitVec.ofNat 128 (fieldAt l (0x40 + 8 * i.val) 8)) ∧
       (∀ i : VReg, t.val s.cur.ctx (.v i) = BitVec.ofNat 128 (fieldAt l (0x140 + 16 * i.val) 16)) ∧
       (∀ i : PReg, i ≠ 0 → t.val s.cur.ctx (.p i) = BitVec.ofNat 128 (fieldAt l (0x340 + 2 * i.val) 2)) ∧
       (∀ i : BReg, t.val s.cur.ctx (.b i) = BitVec.ofNat 128 (fieldAt l (0x350 + 8 * i.val) 8)) ∧
       t.sw s.cur.ctx = BitVec.ofNat 7 (fieldAt l 0x370 8) ∧ (∀ c q, c ≠ s.cur.ctx → t.val c q = s.val c q) ∧
       BytesKept s t [] ∧ MarksKept s t) ∧
  (∀ (s : State) (r : TrapRec), s.Ready (noSlot {}) → s.here.level ≠ .task → s.here.trapRec = some r → s.here.busy = [] →
     s.here.run = .running → (∀ a ∈ runFrom (dieAt (dieOf (coreOf s.cur.ctx)) r.save) 4096, s.poisoned a = false) →
     let res := bitsOf (fieldAt (s.slice (dieAt (dieOf (coreOf s.cur.ctx)) r.save) 4096) 0 8) 18 2
     let dumps := (s.part (s.partOfCtx s.cur.ctx)).dumpctl.getLsbD 0
     ∃ t, exec .eret s = .next t ∧ (∀ c q, c ≠ s.cur.ctx → t.val c q = s.val c q) ∧
       (res = 3 → (t.ctx s.cur.ctx).run = .stopped) ∧
       (((res = 0 ∧ inHandler s = true) ∨ res = 1 ∨ (res = 2 ∧ dumps = false)) → t.ctx s.cur.ctx = s.freedHere) ∧
       (res = 2 → (t.ctx s.cur.ctx).run = .free ∨ (t.ctx s.cur.ctx).run = .dumping))

/-- R213: `tlbinv` drops the cached translations of one page, or of the whole partition, everywhere, and changes nothing else.
R215: `htset` locks its entry as it issues and holds the next head; in its next turn the entry holds the code pointer,
unlocked, and is empty for a pointer of 0. (A message that has met the entry locked for too long is bounced first, R233: the statement
is about a time when none has.)
R214: `msave` of a context without an open AU writes the 64 bytes TCSB, MSTAT and zeros; of one with an AU, in the array or in a
frame, it leaves the AU closed; nothing outside the image changes.
R214: `mrest` marks the AU of an image that shows one open, and marks nothing for another image.
The two turns of `htset` are the model's choice (log 40), and so is the context that a fault of `msave` names (log 39). -/
def Obligations.SupervisorHeadsDoTheirWork : Prop :=
  (∀ (s : State) (a b : XOp), s.Ready (needX [a, b] [] []) → s.here.level ≠ .task → (s.x b).toNat ≤ 1 →
     let gone := fun (e : TlbEntry) => e.part = s.partOfCtx s.cur.ctx ∧
       ((s.x b).toNat = 1 ∨ e.va = (s.x a).toNat % 2 ^ 52 / 2 ^ e.lg);
     ∃ t, exec (.tlbinv a b) s = .next t ∧ Computes s t [] 0 ∧
       (∀ p e, e ∈ (t.core p).tlb ↔ e ∈ (s.core p).tlb ∧ ¬ gone e) ∧
       ∀ k e, e ∈ (t.cluster k).tlb ↔ e ∈ (s.cluster k).tlb ∧ ¬ gone e) ∧
  (∀ (s : State) (a : XOp) (b : SCOp), s.Ready (needX [a, scX b] [] []) → s.here.level ≠ .task → (s.x a).toNat ≤ 1023 →
     let q := s.partOfCtx s.cur.ctx
     (∀ p m, s.lockedOut p = some m → s.partOf p = q → m.msg.hidx ≠ (s.x a).toNat) →
     ∃ t, exec (.htset a b) s = .next t ∧ RegsKept s t [] ∧ ContextsKept s t id ∧ BytesKept s t [] ∧ MarksKept s t ∧
       if s.here.wait.isSome then
         (t.part q).handlers = (if s.sc b = 0 then SMap.drop (s.part q).handlers (s.x a).toNat
           else SMap.put (s.part q).handlers (s.x a).toNat (s.sc b)) ∧
         (s.x a).toNat ∉ (t.part q).locked ∧ (t.ctx s.cur.ctx).wait = none
       else (t.part q).handlers = (s.part q).handlers ∧ (s.x a).toNat ∈ (t.part q).locked ∧
         (t.ctx s.cur.ctx).wait.isSome = true) ∧
  (∀ (s : State) (a : XOp) (b : SCOp), s.Ready (needX [a, scX b] [] []) → s.here.level ≠ .task → (s.x a).toNat ≤ 3 →
     s.quiet s.cur.ctx = true → (s.sc b).toNat % 8 = 0 → Memory.wf s.mem = true →
     let c := s.coreCtx a
     (∀ e ∈ (s.cluster (clusterOf (coreOf c))).images, e.1 ≠ c) →
     ∀ (s1 : State) (l : List Nat), s.resolve (s.agent s.cur.ctx) .store (s.sc b)
         (runFrom (vaOf (s.sc b)) (if (s.ctx c).auOpen then Config.frameImageBytes else 64)) true true true = .ok (s1, l) →
       (∀ p ∈ l, s.poisoned p = false) → l.Nodup →
       ∃ t, exec (.msave a b) s = .next t ∧ RegsKept s t [] ∧ BytesKept s t l ∧ MarksKept s t ∧ Proceeds s t ∧ (t.ctx c).auOpen = false ∧
         ((s.ctx c).auOpen = false → ContextsKept s t id ∧
           l.map (Memory.get t.mem) = bytesOfNat 32 ((s.ctx c).tcsb.getD 0).toNat ++ bytesOfNat 8 (s.mstatWord c).toNat ++
             List.replicate 24 0)) ∧
  (∀ (s : State) (a : XOp) (b : SCOp), s.Ready (needX [a, scX b] [] []) → s.here.level ≠ .task → (s.x a).toNat ≤ 3 →
     s.quiet s.cur.ctx = true → (s.sc b).toNat % 8 = 0 →
     ∀ (s1 : State) (l : List Nat),
       s.resolve (s.agent s.cur.ctx) .load (s.sc b) (runFrom (vaOf (s.sc b)) 64) true true true = .ok (s1, l) →
       (∀ p ∈ l, s.poisoned p = false) →
       ∃ t, exec (.mrest a b) s = .next t ∧ RegsKept s t [] ∧ BytesKept s t [] ∧ MarksKept s t ∧ Proceeds s t ∧
         if bitOf (fieldAt (l.map s.byte) 0x20 8) 0 then
           (t.ctx (s.coreCtx a)).auOpen = true ∧ (t.ctx (s.coreCtx a)).auMarked = true
         else Computes s t [] 0)

/-! ## Memory -/

/-- R221, R223, R226, R129: a load of local memory or scratchpad that is one event performs as it issues: its destination takes the
bytes, extended; `ldv` keeps the bytes that its predicate excludes; `ldf` converts its row. A load-acquire of any scope waits for
earlier synchronising accesses (R134).
R221, R223, R226, R129: a store to local memory or scratchpad that is one event performs as it issues: the places take the low
bytes of the source; `stv` the bytes its predicate includes; `stf` the row of its converted elements, where the last byte keeps the
bits beyond the row. No register and no other byte changes.
That a single event is performed as its head issues is the model's choice (log 16). -/
def Obligations.NearLoadsAndStoresAccessMemory : Prop :=
  (∀ (s : State) (a : SReg) (o : OOp) (ptr : Word) (l : List Nat), s.Sound l →
     (∀ (d : SReg) (size : BitVec 2) (sx : Bool), s.Ready (needMem a o [] [] [.s d]) →
       s.Reaches .load 1 (2 ^ size.toNat) allBytes a o ptr l →
       ({ instr := .ld d a o size sx, ptr := ptr, places := l, n := 2 ^ size.toNat } : Access).Near →
       ∃ t, exec (.ld d a o size sx) s = .next t ∧ Computes s t [(.s d, let n := natOfBytes (l.map s.byte);
         if sx then ((BitVec.ofNat (8 * 2 ^ size.toNat) n).signExtend 64).setWidth 128 else BitVec.ofNat 128 n)] 0) ∧
     (∀ (d : VReg) (n : PReg), s.Ready (needMem a o [] (keepRead n d) [.v d]) →
       s.Reaches .load 1 16 (s.pr n).getLsbD a o ptr l →
       ({ instr := .ldv d a o n, ptr := ptr, places := l, n := 16, keep := (s.pr n).getLsbD } : Access).Near →
       ∃ (t : State) (v : Vec), exec (.ldv d a o n) s = .next t ∧ Computes s t [(.v d, v)] 0 ∧
         ∀ i, i < 16 → v.extractLsb' (8 * i) 8 =
           match (((List.range 16).filter (s.pr n).getLsbD).zip l).find? (fun e => e.1 == i) with
           | some e => s.byte e.2
           | none => (s.vr d).extractLsb' (8 * i) 8) ∧
     (∀ (d : VReg) (m : MC) (k : Kind), s.Ready (needMem a o [] [] [.v d]) → kindOf (fmtOf (s.here.sreg a)) = some k →
       s.Reaches .load 1 (rowBytes k (lanesOf m)) allBytes a o ptr l →
       ({ instr := .ldf d a o m, ptr := ptr, places := l, n := rowBytes k (lanesOf m), bytewise := true } : Access).Near →
       let r := ldfLanes (fmtOf (s.here.sreg a)) m (l.map s.byte)
       ∃ t, exec (.ldf d a o m) s = .next t ∧ Computes s t [(.v d, r.1)] r.2) ∧
     ∀ (d : SReg) (m : MO), s.Ready (needMem a o [] [] [.s d]) → s.syncPending s.cur.ctx = false →
       s.Reaches .load (2 ^ m.size.toNat) (2 ^ m.size.toNat) allBytes a o ptr l → (∀ p ∈ l, scratchBase ≤ p) →
       ∃ t, exec (.ldacq d a o m) s = .next t ∧ Computes s t [(.s d, BitVec.ofNat 128 (natOfBytes (l.map s.byte)))] 0) ∧
  (∀ (s : State) (a : SReg) (o : OOp) (ptr : Word) (l : List Nat), l.Nodup → Memory.wf s.mem = true →
     (∀ (b : XOp) (size : BitVec 2), s.Ready (needMem a o [b] [] []) →
       s.Reaches .store 1 (2 ^ size.toNat) allBytes a o ptr l →
       ({ instr := .st a o b size, ptr := ptr, places := l, n := 2 ^ size.toNat } : Access).Near →
       ∃ t, exec (.st a o b size) s = .next t ∧ Leaves s t [] 0 id id l ∧
         Stores s t l ((List.range (2 ^ size.toNat)).map fun i => (s.x b).extractLsb' (8 * i) 8)) ∧
     (∀ (v : VReg) (n : PReg), s.Ready (needMem a o [] [.v v, .p n] []) → s.Reaches .store 1 16 (s.pr n).getLsbD a o ptr l →
       ({ instr := .stv a o v n, ptr := ptr, places := l, n := 16, keep := (s.pr n).getLsbD } : Access).Near →
       ∃ t, exec (.stv a o v n) s = .next t ∧ Leaves s t [] 0 id id l ∧
         Stores s t l (((List.range 16).filter (s.pr n).getLsbD).map fun i => (s.vr v).extractLsb' (8 * i) 8)) ∧
     (∀ (v : VReg) (m : MC) (k : Kind), s.Ready (needMem a o [] [.v v] []) → kindOf (fmtOf (s.here.sreg a)) = some k →
       ovfFits k m.ovf = true → s.Reaches .store 1 (rowBytes k (lanesOf m)) allBytes a o ptr l →
       ({ instr := .stf a o v m, ptr := ptr, places := l, n := rowBytes k (lanesOf m), bytewise := true } : Access).Near →
       let el := stfElems k m (s.vr v)
       let row := packStream k.width (el.map (·.1))
       let r := lanesOf m * k.width % 8
       ∃ t, exec (.stf a o v m) s = .next t ∧ Leaves s t [] (el.foldl (fun x e => x ||| e.2) 0) id id l ∧
         Stores s t l (if r = 0 then row else row.dropLast ++
           [BitVec.ofNat 8 ((row.getLastD 0).toNat % 2 ^ r + (s.byte (l.getLastD 0)).toNat / 2 ^ r * 2 ^ r)])) ∧
     ∀ (b : XOp) (m : MO), s.Ready (needMem a o [b] [] []) →
       s.syncPending s.cur.ctx = false → s.quiet s.cur.ctx = true →
       s.Reaches .store (2 ^ m.size.toNat) (2 ^ m.size.toNat) allBytes a o ptr l → (∀ p ∈ l, scratchBase ≤ p) →
       ∃ t, exec (.strel a o b m) s = .next t ∧ Leaves s t [] 0 id id l ∧
         Stores s t l ((List.range (2 ^ m.size.toNat)).map fun i => (s.x b).extractLsb' (8 * i) 8))

/-- R138, R129: a load, store or atomic operation on die store or global memory, and one of several events elsewhere, leaves as
requests for its bytes, one an event; its destination waits for the answer. An acquire or a release waits
at issue for what it orders, whatever its scope (R134).
R138, R221, R223, R226-R228: a request that the fabric may deliver now is performed, and gone. Of a load of several events
one that is not the last leaves its bytes with the others; the last one writes the register, from the bytes as each event found them.
A store puts its bytes into memory, unless it goes there through the fabric and a shadow or referee run made it (R349); an atomic
operation reads, modifies and writes at once.
That an event is performed at once on one memory that all see, and the order of the fabric, are the model's choices (log 16). -/
def Obligations.FarAccessesGoThroughTheFabric : Prop :=
  (∀ (s : State) (d a : SReg) (e : VReg) (o : OOp) (b c : XOp) (n : PReg) (m : MO) (mc : MC) (k : Kind) (size : BitVec 2) (sx : Bool)
     (ptr : Word) (l : List Nat),
     let leaves := fun (w : Need) (acc : Acc) (align : Nat) (x : Access) => s.Ready w → s.Reaches acc align x.n x.keep a o ptr l →
       x.Leaves → ∃ t, exec x.instr s = .next t ∧ x.Sent s t
     let w := 2 ^ size.toNat
     let z := 2 ^ m.size.toNat
     let bytes := fun (v : Word) (n : Nat) => (List.range n).map fun i => v.extractLsb' (8 * i) 8
     leaves (needMem a o [] [] [.s d]) .load 1 { instr := .ld d a o size sx, ptr := ptr, places := l, n := w, dst := some (.s d) } ∧
     leaves (needMem a o [b] [] []) .store 1 { instr := .st a o b size, ptr := ptr, places := l, n := w, data := bytes (s.x b) w } ∧
     leaves (needMem a o [] (keepRead n e) [.v e]) .load 1
       { instr := .ldv e a o n, ptr := ptr, places := l, n := 16, keep := (s.pr n).getLsbD, dst := some (.v e) } ∧
     leaves (needMem a o [] [.v e, .p n] []) .store 1
       { instr := .stv a o e n, ptr := ptr, places := l, n := 16, keep := (s.pr n).getLsbD
         data := ((List.range 16).filter (s.pr n).getLsbD).map fun i => (s.vr e).extractLsb' (8 * i) 8 } ∧
     (kindOf (fmtOf (s.here.sreg a)) = some k →
       leaves (needMem a o [] [] [.v e]) .load 1
         { instr := .ldf e a o mc, ptr := ptr, places := l, n := rowBytes k (lanesOf mc), bytewise := true, dst := some (.v e) } ∧
       (ovfFits k mc.ovf = true →
         let el := stfElems k mc (s.vr e)
         leaves (needMem a o [] [.v e] []) .store 1
           { instr := .stf a o e mc, ptr := ptr, places := l, n := rowBytes k (lanesOf mc), bytewise := true
             data := packStream k.width (el.map (·.1)), flags := el.foldl (fun x y => x ||| y.2) 0
             also := fun q => q.a.toNat =
               if (q.bytes.map (·.1)).contains (rowBytes k (lanesOf mc) - 1) then lanesOf mc * k.width % 8 else 0 })) ∧
     (s.syncPending s.cur.ctx = false →
       leaves (needMem a o [] [] [.s d]) .load z
         { instr := .ldacq d a o m, ptr := ptr, places := l, n := z, dst := some (.s d), acq := true, sync := true } ∧
       (s.quiet s.cur.ctx = true →
         leaves (needMem a o [b] [] []) .store z
           { instr := .strel a o b m, ptr := ptr, places := l, n := z, data := bytes (s.x b) z, sync := true }) ∧
       ((m.ord.getLsbD 1 = true → s.quiet s.cur.ctx = true) →
         (∀ i ∈ atomicHeads d a o b m, leaves (needMem a o [b] [] [.s d]) .atomic z
           { instr := i, ptr := ptr, places := l, n := z, dst := some (.s d), acq := m.ord.getLsbD 0
             sync := true, also := fun q => q.a = s.x b }) ∧
         leaves (needMem a o [b, c] [] [.s d]) .atomic z
           { instr := .cas d a o b c m, ptr := ptr, places := l, n := z, dst := some (.s d), acq := m.ord.getLsbD 0
             sync := true, also := fun q => q.a = s.x b ∧ q.b = s.x c }))) ∧
  (∀ (s : State) (p : Place) (n : Nat) (q : FabReq), s.deliverable p n = some q →
     let places := q.bytes.map (·.2)
     let rest := (s.core p).fabric.filter fun r => r.seq != n
     let read := q.bytes.map fun e => (e.1, s.byte e.2)
     let got := byIndex (q.got ++ read)
     let settled := fun (t : State) => exec (.fabricDelivery p n) s = .next t ∧ UnitsKept s t ∧ ∀ c, (t.ctx c).kept = (s.ctx c).kept
     let silent := fun (t : State) => ∀ c, t.sw c = s.sw c
     (q.dst.isSome = true → s.Sound places → (∃ o ∈ rest, o.head = q.head) →
       ∃ t, settled t ∧ silent t ∧ RegsKept s t [] ∧ BytesKept s t [] ∧ MarksKept s t ∧ (t.core p).fabric = rest.map fun o => q.take o read) ∧
     (s.Sound places → (∀ o ∈ rest, o.head ≠ q.head) →
       let loads := fun (d : RegName) (w : Vec) (f : SW) => q.dst = some d → ∃ t, settled t ∧ (t.core p).fabric = rest ∧
         (d.wired = false → t.val q.ctx d = w) ∧ RegsKept s t [(q.ctx, d)] ∧
         (∀ c, t.sw c = if c = q.ctx then s.sw c ||| f else s.sw c) ∧ BytesKept s t [] ∧ MarksKept s t
       let value := natOfBytes (got.map (·.2))
       (q.data = [] → ∀ (d : SReg) (a : SReg) (o : OOp) (size : BitVec 2) (m : MO),
         (got.map (·.1) = List.range (2 ^ size.toNat) →
           (q.instr = .ld d a o size false → loads (.s d) (BitVec.ofNat 128 value) 0) ∧
           (q.instr = .ld d a o size true →
             loads (.s d) (((BitVec.ofNat (8 * 2 ^ size.toNat) value).signExtend 64).setWidth 128) 0)) ∧
         (got.map (·.1) = List.range (2 ^ m.size.toNat) → q.instr = .ldacq d a o m → loads (.s d) (BitVec.ofNat 128 value) 0)) ∧
       (q.data = [] → ∀ (d : VReg) (a : SReg) (o : OOp) (n : PReg), q.instr = .ldv d a o n → ∀ v : Vec,
         (∀ i, i < 16 → v.extractLsb' (8 * i) 8 = match got.find? (fun e => e.1 == i) with
           | some e => e.2
           | none => (((s.ctx q.ctx).settle (s.nowCtx q.ctx)).vreg d).extractLsb' (8 * i) 8) → loads (.v d) v 0) ∧
       (q.data = [] → ∀ (d : VReg) (a : SReg) (o : OOp) (m : MC), q.instr = .ldf d a o m →
         let r := ldfLanes (fmtOf q.ptr) m (q.got ++ read |> byIndex |>.map (·.2))
         loads (.v d) r.1 r.2)) ∧
     (q.dst = none → q.data.length = q.bytes.length → places.Nodup → Memory.wf s.mem = true →
       (∀ a ∈ places, ¬ (isDie a = true ∧ lpctOff ≤ (a - dieBase) % 2 ^ 26)) →
       let stores := fun (d : List Byte) => ∃ t, settled t ∧ silent t ∧ (t.core p).fabric = rest ∧ RegsKept s t [] ∧
         if q.silent = true ∧ viaFabric places = true then BytesKept s t [] ∧ MarksKept s t
         else BytesKept s t places ∧ Stores s t places d
       (∀ (a : SReg) (o : OOp) (b : XOp) (size : BitVec 2) (m : MO) (v : VReg) (k : PReg),
         q.instr ∈ [Instr.st a o b size, .strel a o b m, .stv a o v k] → stores q.data) ∧
       ∀ (a : SReg) (o : OOp) (v : VReg) (m : MC), q.instr = .stf a o v m →
         stores (if q.a = 0 then q.data else q.data.dropLast ++ [BitVec.ofNat 8 ((q.data.getLastD 0).toNat % 2 ^ q.a.toNat +
           (s.byte (places.getLastD 0)).toNat / 2 ^ q.a.toNat * 2 ^ q.a.toNat)])) ∧
     ∀ (d a : SReg) (o : OOp) (b c : XOp) (m : MO), q.dst = some (.s d) → q.got = [] → q.data = [] → q.silent = false →
       q.bytes.map (·.1) = List.range (2 ^ m.size.toNat) → s.Sound places → places.Nodup → Memory.wf s.mem = true →
       (∀ o ∈ rest, o.head ≠ q.head) → (∀ a ∈ places, ¬ (isDie a = true ∧ lpctOff ≤ (a - dieBase) % 2 ^ 26)) →
       let w := 8 * 2 ^ m.size.toNat
       let old := BitVec.ofNat w (natOfBytes (places.map s.byte))
       let put := fun (v : BitVec w) => ∃ t, settled t ∧ silent t ∧ (t.core p).fabric = rest ∧
         (d ≠ 0 → t.val q.ctx (.s d) = old.setWidth 128) ∧ RegsKept s t [(q.ctx, .s d)] ∧ BytesKept s t places ∧ t.full = s.full ∧
         natOfBytes (places.map t.byte) = v.toNat
       (∀ e ∈ (atomicHeads d a o b m).zip (atomicResults w old (q.a.setWidth w)), q.instr = e.1 → put e.2) ∧
       (q.instr = .cas d a o b c m → put (if old = q.a.setWidth w then q.b.setWidth w else old)))

/-- R227, R228: an atomic operation on local memory or scratchpad is one read-modify-write: the register takes the old value,
zero-extended, and the bytes the new one; `cas` writes only where the old value equals b.
That acquires and releases wait until what they order is performed, of every scope, is the model's choice (log 14, log 67), and
so is that a near atomic is performed as it issues (DESIGN CHOICE, log 16). -/
def Obligations.NearAtomicsReadModifyWrite : Prop :=
  ∀ (s : State) (d a : SReg) (o : OOp) (b c : XOp) (m : MO) (ptr : Word) (l : List Nat), (∀ p ∈ l, scratchBase ≤ p) →
    s.Sound l → l.Nodup → Memory.wf s.mem = true →
    s.syncPending s.cur.ctx = false → (m.ord.getLsbD 1 = true → s.quiet s.cur.ctx = true) →
    s.Reaches .atomic (2 ^ m.size.toNat) (2 ^ m.size.toNat) allBytes a o ptr l →
    let w := 8 * 2 ^ m.size.toNat
    let old := BitVec.ofNat w (natOfBytes (l.map s.byte))
    let put := fun (t : State) (v : BitVec w) =>
      t.val s.cur.ctx (.s d) = (if d = 0 then 0 else old.setWidth 128) ∧ Leaves s t [.s d] 0 id id l ∧ t.full = s.full ∧
        natOfBytes (l.map t.byte) = v.toNat
    (s.Ready (needMem a o [b] [] [.s d]) →
      ∀ e ∈ (atomicHeads d a o b m).zip (atomicResults w old ((s.x b).setWidth w)), ∃ t, exec e.1 s = .next t ∧ put t e.2) ∧
    (s.Ready (needMem a o [b, c] [] [.s d]) → ∃ t, exec (.cas d a o b c m) s = .next t ∧
      put t (if old = (s.x b).setWidth w then (s.x c).setWidth w else old))

/-- R217, R219: a memory head whose sum leaves 52 bits traps PTR_OVF, and one whose bytes fail a check takes the trap of that check,
with no effect: the plain loads and stores, the format-aware, synchronising and atomic ones, and the full/empty heads.
R219, R27, R320, R321, R325, R328, R31: the checks of an access, in their order: one window, the alignment, the banks of local
memory, in die store the protected range and the LPCT window (R369), in global memory the walk of the first byte's page, its
permissions, and the tag of a byte on a tag-checked page.
ACCESS of the full/empty heads (load for `ldfe`, `ldfe.e` and `fe.tst`, store for the others), and that R229 comes before R219
outside the LPCT window, are the model's readings (DEDUCED, log 50). -/
def Obligations.MemoryHeadsAreChecked : Prop :=
  (∀ (s : State) (d a : SReg) (e : VReg) (pd n : PReg) (o : OOp) (b c : XOp) (m : MO) (mc : MC) (size : BitVec 2) (sx : Bool),
     s.acqPending s.cur.ctx = false → s.syncPending s.cur.ctx = false → s.quiet s.cur.ctx = true →
     let checked := fun (w : Need) (i : Instr) (acc : Acc) (align bytes : Nat) (keep : Nat → Bool) => s.Ready w →
       (effAddr (s.here.sreg a) (s.off o) = none →
         ∃ z : Trap, z.cause = .ptrOvf ∧ exec i s = .next (s.raiseTrap s.cur.ctx z)) ∧
       ∀ (ptr : Word) (z : Trap), effAddr (s.here.sreg a) (s.off o) = some ptr →
         s.resolve (s.agent s.cur.ctx) acc ptr (((List.range bytes).filter keep).map (vaOf ptr + ·)) (decide (vaOf ptr % align = 0))
           true true = .error z → exec i s = .next (s.raiseTrap s.cur.ctx z)
     let w := 2 ^ size.toNat
     let z := 2 ^ m.size.toNat
     checked (needMem a o [] [] [.s d]) (.ld d a o size sx) .load 1 w allBytes ∧
     checked (needMem a o [b] [] []) (.st a o b size) .store 1 w allBytes ∧
     checked (needMem a o [] (keepRead n e) [.v e]) (.ldv e a o n) .load 1 16 (s.pr n).getLsbD ∧
     checked (needMem a o [] [.v e, .p n] []) (.stv a o e n) .store 1 16 (s.pr n).getLsbD ∧
     (∀ k, kindOf (fmtOf (s.here.sreg a)) = some k →
       checked (needMem a o [] [] [.v e]) (.ldf e a o mc) .load 1 (rowBytes k (lanesOf mc)) allBytes ∧
       (ovfFits k mc.ovf = true → checked (needMem a o [] [.v e] []) (.stf a o e mc) .store 1 (rowBytes k (lanesOf mc)) allBytes)) ∧
     checked (needMem a o [] [] [.s d]) (.ldacq d a o m) .load z z allBytes ∧
     checked (needMem a o [b] [] []) (.strel a o b m) .store z z allBytes ∧
     (∀ i ∈ atomicHeads d a o b m, checked (needMem a o [b] [] [.s d]) i .atomic z z allBytes) ∧
     checked (needMem a o [b, c] [] [.s d]) (.cas d a o b c m) .atomic z z allBytes ∧
     (nearOnly a o s = true →
       (∀ i ∈ [Instr.ldfe d a o, .ldfeE d a o], checked (needMem a o [] [] [.s d]) i .load 8 8 allBytes) ∧
       (∀ i ∈ [Instr.stfe a o b, .stfeW a o b], checked (needMem a o [b] [] []) i .store 8 8 allBytes) ∧
       (∀ i ∈ [Instr.feSet a o, .feClr a o], checked (needMem a o [] [] []) i .store 8 8 allBytes) ∧
       checked (needMem a o [] [] [.p pd]) (.feTst pd a o) .load 8 8 allBytes)) ∧
  (∀ (s : State) (g : Agent) (acc : Acc) (ptr : Word) (va n : Nat) (aligned : Bool), 0 < n →
     let answer := s.resolve g acc ptr (runFrom va n) aligned true true
     let fails := fun (level reason : Nat) => ∃ z : Trap, answer = .error z ∧
       z.cause = (if reason ∈ [0, 1, 5] then .xlateMiss else .xlatePerm) ∧
       z.detail = BitVec.ofNat 64 (level + 8 * acc.code + 64 * reason)
     (windowOfRange va n = none → fails 0 5) ∧
     (windowOfRange va n ≠ none → aligned = false → answer = .error { cause := .align, fva := ptr }) ∧
     (aligned = true →
       (windowOfRange va n = some .loc → g.level = .task → (∃ i, i < n ∧ g.lbanks.getLsbD ((va + i) / 16384) = false) → fails 0 6) ∧
       (windowOfRange va n = some .die →
         (g.level = .task → (∃ i, i < n ∧ (s.part g.part).protects (va + i - 0x20000000) = true) → fails 0 7) ∧
         ((g.level ≠ .task ∨ ∀ i, i < n → (s.part g.part).protects (va + i - 0x20000000) = false) →
           acc ∈ [Acc.store, .atomic, .serviceWrite, .tag] → lpctOff ≤ va + (n - 1) - 0x20000000 → fails 0 2)) ∧
       (windowOfRange va n = some .glob → (∀ e, s.cached g va true = some e → leafRefuses e g.level acc ≠ none) →
         (∀ level reason, s.walk g.part va = .error (level, reason) → fails level reason) ∧
         ∀ (w : Word) (level : Nat), s.walk g.part va = .ok (w, level) →
           (w.getLsbD 48 = true → g.level = .task → fails level 3) ∧
           ((w.getLsbD 48 = false ∨ g.level ≠ .task) →
             (acc ∈ [Acc.load, .atomic, .serviceRead] ∧ w.getLsbD 2 = false ∨
               acc ∈ [Acc.store, .atomic, .serviceWrite] ∧ w.getLsbD 3 = false ∨ acc = .fetch ∧ w.getLsbD 4 = false ∨
               acc ∈ [Acc.store, .atomic] ∧ w.getLsbD 7 = true ∨ acc = .wde ∧ w.getLsbD 5 = false ∨
               acc = .tag ∧ (w.getLsbD 3 = false ∨ w.getLsbD 6 = false)) → fails level 2)) ∧
       ∀ (s1 : State) (e : TlbEntry), n = 1 → windowOfRange va n = some .glob → s.leafFor g acc va true = .ok (s1, e) →
         let a := hbmAt (g.part / 16) (e.pa va)
         e.leaf.getLsbD 6 = true → s.tag a ≠ ptr.extractLsb' 60 4 → va < 2 ^ 52 →
         ∃ z : Trap, answer = .error z ∧ z.cause = .tagMismatch ∧ z.detail.extractLsb' 0 4 = ptr.extractLsb' 60 4 ∧
           z.detail.extractLsb' 4 4 = s.tag a ∧ z.detail.extractLsb' 8 12 = s.hist a))

/-- R222, R129: a bit-granular load takes w bits of the little-endian bit stream from bit bN, extended, a store replaces them and keeps
the other bits of the bytes, both advance bN by w with INC, and `bset` sets bN. An access of several events leaves as requests.
R224, R225, R226: `pf` changes nothing but the cached translations; `tagset` shifts the granule's tag into its history and
sets the new one; a fence completes once the earlier accesses it covers are performed, and holds before, whatever its scope
(R134).
That a fence of any scope waits (log 14, log 67), that a tag changes at issue (log 13), and what `pf` does on a page without R
or of a supervisor (log 86), are the model's choices. -/
def Obligations.BitsPrefetchTagsAndFences : Prop :=
  ((∀ (s : State) (n : BReg) (a : XOp), s.Ready (needX [a] [] [.b n]) →
     ∃ t, exec (.bset n a) s = .next t ∧ Computes s t [(.b n, (s.x a).setWidth 128)] 0) ∧
   ∀ (s : State) (a b : XOp) (d : SReg) (m : MB), s.acqPending s.cur.ctx = false →
     let j := (s.here.breg m.b).toNat
     let places := fun (w : Nat) => (bitBytes j w).map (localAt (coreOf s.cur.ctx))
     let step := fun (w : Nat) => if m.inc then [(RegName.b m.b, (s.here.breg m.b + BitVec.ofNat 64 w).setWidth 128)] else []
     let access := fun (i : Instr) (w : Nat) => ({ instr := i, ptr := BitVec.ofNat 64 (j / 8), places := places w
                                                   n := (bitBytes j w).length, regs := mbWrites m
                                                   also := fun q => q.a = s.here.breg m.b ∧ q.b = BitVec.ofNat 64 w } : Access)
     (s.Ready (needX [a] [.b m.b] (.s d :: mbWrites m)) → 1 ≤ (s.x a).toNat → (s.x a).toNat ≤ 64 →
       bitCheck (s.agent s.cur.ctx) .load (bitBytes j (s.x a).toNat) = none → s.Sound (places (s.x a).toNat) →
       let i := Instr.ldbit d a m
       if 1 < (access i (s.x a).toNat).events.length then
         ∃ t, exec i s = .next t ∧ ({ access i (s.x a).toNat with dst := some (.s d) } : Access).Sent s t ∧
           ∀ e ∈ step (s.x a).toNat, t.val s.cur.ctx e.1 = e.2
       else ∃ (t : State) (v : Word), exec (.ldbit d a m) s = .next t ∧
         Computes s t ((.s d, v.setWidth 128) :: step (s.x a).toNat) 0 ∧
         ∀ i, i < 64 → v.getLsbD i =
           if i < (s.x a).toNat ∨ m.sx = true then
             (s.byte (localAt (coreOf s.cur.ctx) ((j + min i ((s.x a).toNat - 1)) / 8))).getLsbD
               ((j + min i ((s.x a).toNat - 1)) % 8)
           else false) ∧
     (s.Ready (needX [a, b] [.b m.b] (mbWrites m)) → 1 ≤ (s.x b).toNat → (s.x b).toNat ≤ 64 →
       bitCheck (s.agent s.cur.ctx) .store (bitBytes j (s.x b).toNat) = none → Memory.wf s.mem = true →
       let i := Instr.stbit a b m
       if 1 < (access i (s.x b).toNat).events.length then
         ∃ t, exec i s = .next t ∧ ({ access i (s.x b).toNat with
             data := bitPut ((places (s.x b).toNat).map s.byte) j (s.x b).toNat (s.x a) } : Access).Sent s t ∧
           ∀ e ∈ step (s.x b).toNat, t.val s.cur.ctx e.1 = e.2
       else ∃ t, exec (.stbit a b m) s = .next t ∧
         (∀ e ∈ step (s.x b).toNat, t.val s.cur.ctx e.1 = e.2) ∧
         Leaves s t ((step (s.x b).toNat).map (·.1)) 0 id id (places (s.x b).toNat) ∧ t.full = s.full ∧
         ∀ va ∈ bitBytes j (s.x b).toNat, ∀ i, i < 8 → (t.byte (localAt (coreOf s.cur.ctx) va)).getLsbD i =
           if j ≤ 8 * va + i ∧ 8 * va + i < j + (s.x b).toNat then (s.x a).getLsbD (8 * va + i - j)
           else (s.byte (localAt (coreOf s.cur.ctx) va)).getLsbD i)) ∧
  ((∀ (s : State) (a : SReg) (o : OOp), s.Ready (needMem a o [] [] []) →
     ∃ t, exec (.pf a o) s = .next t ∧ Computes s t [] 0) ∧
   (∀ (s : State) (a : SReg) (o : OOp) (b : XOp) (ptr : Word) (s1 : State) (p : Nat),
     s.Ready (needMem a o [b] [] []) → s.acqPending s.cur.ctx = false → effAddr (s.here.sreg a) (s.off o) = some ptr →
     windowOf (vaOf ptr) = some .glob → s.resolve (s.agent s.cur.ctx) .tag ptr [vaOf ptr] (decide (vaOf ptr % 32 = 0)) false true =
       .ok (s1, [p]) → s.silent s.cur.ctx = false →
     ∃ t, exec (.tagset a o b) s = .next t ∧ RegsKept s t [] ∧ ContextsKept s t id ∧ FlagsSet s t 0 ∧ MarksKept s t ∧
       CoresKept s t id ∧ UnitsKept s t ∧ LoopsKept s t ∧ Proceeds s t ∧ (∀ x, t.byte x = s.byte x) ∧
       t.tag p = (s.x b).extractLsb' 0 4 ∧ t.hist p = (s.hist p).extractLsb' 0 8 ++ s.tag p ∧
       ∀ x, x / 32 ≠ p / 32 → t.tag x = s.tag x ∧ t.hist x = s.hist x) ∧
   ∀ (s : State) (kind : BitVec 2) (scope : BitVec 3), s.Ready {} →
     if s.quiet s.cur.ctx = true ∨ (kind = 0 ∧ ∀ r ∈ s.fabricOf s.cur.ctx, r.dst = none) then
       ∃ t, exec (.fence kind scope) s = .next t ∧ Computes s t [] 0
     else exec (.fence kind scope) s = .next s.hold)

/-- R229, R30: the full/empty heads on a word of local memory or scratchpad: `ldfe` and `ldfe.e` wait for full and read it, `.e`
empties it; `stfe` writes and fills, `stfe.w` waits for empty first; `fe.set`, `fe.clr` and `fe.tst` set, clear and test the bit.
R220, R229: a full/empty head whose word is not as it must be waits, and has no effect yet.
That a waiter reads its operands again is the model's choice (log 58). -/
def Obligations.FullEmptyOperations : Prop :=
  (∀ (s : State) (d a : SReg) (pd : PReg) (o : OOp) (b : XOp) (ptr : Word) (l : List Nat), (∀ x ∈ l, scratchBase ≤ x) → s.Sound l →
     nearOnly a o s = true → s.syncPending s.cur.ctx = false →
     let p := l.headD 0
     let mayLoad := s.Ready (needMem a o [] [] [.s d]) ∧ s.isFull p = true ∧ s.feBefore p true = false
     let filled := fun (t : State) => Leaves s t [] 0 id id (runFrom p 8) ∧ t.readRun p 8 = bytesOfNat 8 (s.x b).toNat ∧
       ∀ x, t.isFull x = (s.isFull x || decide (x / 8 = p / 8))
     (mayLoad → s.Reaches .load 8 8 allBytes a o ptr l →
       ∃ t, exec (.ldfe d a o) s = .next t ∧ Computes s t [(.s d, BitVec.ofNat 128 (natOfBytes (s.readRun p 8)))] 0) ∧
     (mayLoad → s.quiet s.cur.ctx = true → s.Reaches .load 8 8 allBytes a o ptr l →
       ∃ t, exec (.ldfeE d a o) s = .next t ∧ Leaves s t [.s d] 0 id id [] ∧ t.poison = s.poison ∧
         (d ≠ 0 → t.val s.cur.ctx (.s d) = BitVec.ofNat 128 (natOfBytes (s.readRun p 8))) ∧
         ∀ x, t.isFull x = (s.isFull x && decide (x / 8 ≠ p / 8))) ∧
     (s.Ready (needMem a o [b] [] []) → s.quiet s.cur.ctx = true →
       s.Reaches .store 8 8 allBytes a o ptr l →
       (∃ t, exec (.stfe a o b) s = .next t ∧ filled t) ∧
       (s.isFull p = false → s.feBefore p false = false → ∃ t, exec (.stfeW a o b) s = .next t ∧ filled t)) ∧
     (s.Ready (needMem a o [] [] []) → s.quiet s.cur.ctx = true → s.Reaches .store 8 8 allBytes a o ptr l →
       (∃ t, exec (.feSet a o) s = .next t ∧ Leaves s t [] 0 id id [] ∧ t.poison = s.poison ∧
         ∀ x, t.isFull x = (s.isFull x || decide (x / 8 = p / 8))) ∧
       ∃ t, exec (.feClr a o) s = .next t ∧ Leaves s t [] 0 id id [] ∧ t.poison = s.poison ∧
         ∀ x, t.isFull x = (s.isFull x && decide (x / 8 ≠ p / 8))) ∧
     (s.Ready (needMem a o [] [] [.p pd]) → s.Reaches .load 8 8 allBytes a o ptr l →
       ∃ t, exec (.feTst pd a o) s = .next t ∧ Computes s t [(.p pd, if s.isFull p then BitVec.ofNat 128 0xFFFF else 0)] 0)) ∧
  (∀ (s : State) (d a : SReg) (o : OOp) (b : XOp) (ptr : Word) (l : List Nat), (∀ x ∈ l, scratchBase ≤ x) →
     nearOnly a o s = true → s.syncPending s.cur.ctx = false →
     let waits := fun (i : Instr) => ∃ t, exec i s = .next t ∧ Waits s t
     (s.Ready (needMem a o [] [] [.s d]) → s.isFull (l.headD 0) = false →
       (s.Reaches .load 8 8 allBytes a o ptr l → waits (.ldfe d a o)) ∧
       (s.quiet s.cur.ctx = true → s.Reaches .load 8 8 allBytes a o ptr l → waits (.ldfeE d a o))) ∧
     (s.Ready (needMem a o [b] [] []) → s.isFull (l.headD 0) = true → s.quiet s.cur.ctx = true →
       s.Reaches .store 8 8 allBytes a o ptr l → waits (.stfeW a o b)))

/-! ## Messages, the copy engine, counters and buffers -/

/-- R231, R232, R234, R235: `send` puts a message with its header and payload at the tail of the core's queue, or in a handler
into its send buffer, and holds while the queue is full; `inb` reads 16 bytes of a handler's message. -/
def Obligations.MessagesAreSentAndRead : Prop :=
  (∀ (s : State) (a : SCOp) (b : XOp) (v : VReg),
    s.Ready (needX [scX a, b] [.v (vAt v 0), .v (vAt v 1), .v (vAt v 2)] []) → (s.sc a).toNat < 2 ^ 22 → (s.x b).toNat ≤ 1023 →
    v.val ≤ 29 →
    (inHandler s = true → s.here.sendBuf.length < Config.sendBufferSlots →
      ∃ t, exec (.send a b v) s = .next t ∧ MarksKept s t ∧ Leaves s t [] 0 (fun x => { x with sendBuf := x.sendBuf ++
        [.send (s.sc a).toNat (s.x b).toNat (s.vr (vAt v 0)) (s.vr (vAt v 1)) (s.vr (vAt v 2))] }) id []) ∧
    (inHandler s = false → s.quiet s.cur.ctx = true → s.silent s.cur.ctx = true →
      ∃ t, exec (.send a b v) s = .next t ∧ Computes s t [] 0) ∧
    (inHandler s = false → s.quiet s.cur.ctx = true → s.silent s.cur.ctx = false →
      if (s.core (coreOf s.cur.ctx)).outq.length < Config.outQueueSlots then
        ∃ (t : State) (f : Flying), exec (.send a b v) s = .next t ∧
          OnCore s t [] (fun k => { k with outq := k.outq ++ [f], msgid := k.msgid + 1 }) ∧
          f.src = coreOf s.cur.ctx ∧ f.dst = (s.sc a).toNat ∧ f.msg.hidx = (s.x b).toNat ∧ f.msg.bnc = 0 ∧
          f.msg.id = (s.core (coreOf s.cur.ctx)).msgid.toNat ∧ f.msg.splace = placeWord (coreOf s.cur.ctx) ∧
          f.msg.sgtc = s.gtc % 2 ^ 48 ∧ f.msg.p1 = s.vr (vAt v 0) ∧ f.msg.p2 = s.vr (vAt v 1) ∧ f.msg.p3 = s.vr (vAt v 2)
      else exec (.send a b v) s = .next s.hold)) ∧
  ∀ (s : State) (d : VReg) (q : Lit) (m : InSlot), s.Ready { writes := [.v d] } → s.slotOf s.cur.ctx = some m → q.toNat ≤ 3 →
    ∃ t, exec (.inb d q) s = .next t ∧
      Computes s t [(.v d, [m.msg.hdr, m.msg.p1, m.msg.p2, m.msg.p3].getD q.toNat 0)] 0

/-- R236, R243, R244, R245: a copy of the engine whose operands keep their limits enters its port as one command and completes as
a head.
R242, R284: `sendl` and `kvcommit` enter the port; the destination of `sendl` waits for the number of slots it took, and in a
shadow or referee run (R349) every entry counts at once. -/
def Obligations.EngineCommandsEnterThePort : Prop :=
  (∀ (s : State) (a b c d e f : XOp) (size : BitVec 2), s.portFree →
     let g := s.agent s.cur.ctx
     let n := (s.x c).toNat
     let z := 2 ^ size.toNat
     (s.Ready (needX [a, b, c, d, e] [] []) →
       (placeOk (s.x b) = true → countOk (s.x d) = true → remoteOk (s.x c) = true → s.ownsCounter (s.x e) = true →
         regionLimit true (s.x a) (s.x d).toNat = true → regionTraps true g .store (s.x a) (s.x d).toNat = [] →
         vaOf (s.x c) % 8 = 0 → vaOf (s.x a) % 8 = 0 →
         ∃ t, exec (.get a b c d e) s = .next t ∧ Enters s t [] { s.newCmd .get with
           place := (s.x b).toNat, remote := s.x c, loc := s.x a, count := (s.x d).toNat, ctr := (s.x e).toNat }) ∧
       (placeOk (s.x a) = true → countOk (s.x d) = true → remoteOk (s.x b) = true → s.ownsCounter (s.x e) = true →
         regionLimit true (s.x c) (s.x d).toNat = true → regionTraps true g .load (s.x c) (s.x d).toNat = [] →
         vaOf (s.x b) % 8 = 0 → vaOf (s.x c) % 8 = 0 →
         ∃ t, exec (.put a b c d e) s = .next t ∧ Enters s t [] { s.newCmd .put with
           place := (s.x a).toNat, remote := s.x b, loc := s.x c, count := (s.x d).toNat, ctr := (s.x e).toNat }) ∧
       ((cpyzLimits a b c d e true).all (·.ok s) = true → regionTraps false g .load (s.x b) n = [] → vaOf (s.x a) % 8 = 0 → vaOf (s.x b) % 8 = 0 →
         ∃ t, exec (.cpyz a b c d e true) s = .next t ∧ Enters s t [] { s.newCmd .cpyzC with
           remote := s.x a, loc := s.x b, count := n, ctr := (s.x d).toNat, tab := (s.x e).toNat })) ∧
     (s.Ready (needX [a, b, c, d] [] []) →
       ((cpyzLimits a b c d e false).all (·.ok s) = true → regionTraps false g .store (s.x a) n = [] → vaOf (s.x a) % 8 = 0 →
         vaOf (s.x b) % 8 = 0 →
         ∃ t, exec (.cpyz a b c d e false) s = .next t ∧ Enters s t [] { s.newCmd .cpyzE with
           remote := s.x b, loc := s.x a, count := n, ctr := (s.x d).toNat }) ∧
       ((cpyLimits a b c d false).all (·.ok s) = true → vaOf (s.x a) % 8 = 0 → vaOf (s.x b) % 8 = 0 →
         (isLoc (s.x a) = true → regionTraps false g .store (s.x a) n = [] →
           ∃ t, exec (.cpy a b c d false) s = .next t ∧ Enters s t [] { s.newCmd .cpyTo with
             remote := s.x b, loc := s.x a, count := n, ctr := (s.x d).toNat }) ∧
         (isLoc (s.x a) = false → regionTraps false g .load (s.x b) n = [] →
           ∃ t, exec (.cpy a b c d false) s = .next t ∧ Enters s t [] { s.newCmd .cpyFrom with
             remote := s.x a, loc := s.x b, count := n, ctr := (s.x d).toNat })) ∧
       ((cpyLimits a b c d true).all (·.ok s) = true → vaOf (s.x b) % 8 = 0 →
         (isLoc (s.x b) = true → regionTraps false g .load (s.x b) n = []) →
         ∃ t, exec (.cpy a b c d true) s = .next t ∧ Enters s t [] { s.newCmd .cpyCb with
           remote := s.x b, count := n, ctr := (s.x d).toNat, tab := (s.x a).toNat })) ∧
     (s.Ready (needX [a, b, c, d, e, f] [] []) →
       (placeOk (s.x b) = true → listCountOk (s.x e) = true → remoteOk (s.x c) = true → s.ownsCounter (s.x f) = true →
         regionLimit true (s.x a) ((s.x e).toNat * z) = true → regionLimit false (s.x d) (4 * (s.x e).toNat) = true →
         listTraps s .store (s.x a) (s.x d) (s.x e).toNat z = [] → vaOf (s.x c) % z = 0 → vaOf (s.x a) % z = 0 →
         vaOf (s.x d) % 4 = 0 →
         ∃ t, exec (.getx a b c d e f size) s = .next t ∧ Enters s t [] { s.newCmd .getx with
           place := (s.x b).toNat, remote := s.x c, loc := s.x a, list := s.x d, count := (s.x e).toNat, elem := z
           ctr := (s.x f).toNat }) ∧
       (placeOk (s.x a) = true → listCountOk (s.x e) = true → remoteOk (s.x b) = true → s.ownsCounter (s.x f) = true →
         regionLimit true (s.x c) ((s.x e).toNat * z) = true → regionLimit false (s.x d) (4 * (s.x e).toNat) = true →
         listTraps s .load (s.x c) (s.x d) (s.x e).toNat z = [] → vaOf (s.x b) % z = 0 → vaOf (s.x c) % z = 0 →
         vaOf (s.x d) % 4 = 0 →
         ∃ t, exec (.putx a b c d e f size) s = .next t ∧ Enters s t [] { s.newCmd .putx with
           place := (s.x a).toNat, remote := s.x b, loc := s.x c, list := s.x d, count := (s.x e).toNat, elem := z
           ctr := (s.x f).toNat }))) ∧
  ((∀ (s : State) (d : SReg) (a b c e f : XOp), s.Ready (needX [a, b, c, e, f] [] [.s d]) → s.portFree →
     placeOk (s.x a) = true → (s.x b).toNat < 16 → (s.x e).toNat ≤ 4096 → s.ownsCounter (s.x f) = true →
     ((s.x e).toNat ≠ 0 → regionLimit false (s.x c) (8 * (s.x e).toNat) = true ∧
       regionTraps false (s.agent s.cur.ctx) .load (s.x c) (8 * (s.x e).toNat) = []) → vaOf (s.x c) % 8 = 0 →
     let cmd : EngCmd := { s.newCmd .sendl with
       place := (s.x a).toNat, tab := (s.x b).toNat, list := s.x c, count := (s.x e).toNat, ctr := (s.x f).toNat, sd := some d }
     (∀ i, i < (s.x e).toNat →
       sendlEntryOk (wordOfBytes ((runFrom (vaOf (s.x c) + 8 * i) 8).map fun x => s.byte (localAt (coreOf s.cur.ctx) x))) = true) →
     ∃ t, exec (.sendl d a b c e f) s = .next t ∧
       if s.silent s.cur.ctx then
         let x := s.counter (coreOf s.cur.ctx) (s.x f).toNat
         OnCore s t [.s d] (fun k => k.withCounter (s.x f).toNat { x with value := x.value + BitVec.ofNat 32 (s.x e).toNat }) ∧
         (d ≠ 0 → t.val s.cur.ctx (.s d) = (s.x e).setWidth 128)
       else Enters s t [.s d] cmd ∧ Awaits s t (.s d)) ∧
   ∀ (s : State) (a b : SCOp) (c d e : XOp), s.Ready (needX [scX a, scX b, c, d, e] [] []) → s.portFree →
     1 ≤ (s.x c).toNat → (s.x c).toNat ≤ 64 → s.ownsCounter (s.x e) = true →
     regionLimit false (s.sc a) 64 = true → regionLimit false (s.sc b) (s.x c).toNat = true →
     regionTraps false (s.agent s.cur.ctx) .load (s.sc a) 64 = [] →
     regionTraps false (s.agent s.cur.ctx) .load (s.sc b) (s.x c).toNat = [] → vaOf (s.sc a) % 8 = 0 →
     ∃ t, exec (.kvcommit a b c d e) s = .next t ∧ Enters s t [] { s.newCmd .kvcommit with
       loc := s.sc a, list := s.sc b, count := (s.x c).toNat, pos := (s.x d).toNat, ctr := (s.x e).toNat })

/-- R238, R239: `cc.set` sets a counter of its own and clears its error, `cc.rd` reads status or record, and `cc.wait` waits until
VALUE reaches b modulo 2^32 or the counter is in ERROR, which traps ENGINE_ERROR unless NT is set.
R240, R241: the circular buffers. `cb.acq` and `cb.take` take the next slot of their side and write its pointer, or, with
none, wait, or with T write all ones; `cb.pub` and `cb.rel` give one on; `cb.cfg` empties the buffer.
That the indices count on and are reduced where they are used is the model's choice (log 15). -/
def Obligations.CountersAndCircularBuffers : Prop :=
  ((∀ (s : State) (a b : XOp) (scope : BitVec 3), s.Ready (needX [a, b] [] []) → s.ownsCounter (s.x a) = true →
     ∃ t, exec (.ccSet a b scope) s = .next t ∧ OnCore s t [] fun k =>
       k.withCounter (s.x a).toNat { value := (s.x b).setWidth 32, err := false, scope := scope, deliv := 0, record := 0 }) ∧
   (∀ (s : State) (d : SReg) (a : XOp), s.Ready (needX [a] [] [.s d]) → s.ownsCounter (s.x a) = true →
     s.syncPending s.cur.ctx = false →
     (∃ (t : State) (v : Word), exec (.ccRd d a 0) s = .next t ∧ Computes s t [(.s d, v.setWidth 128)] 0 ∧
       statusOf (s.counter (coreOf s.cur.ctx) (s.x a).toNat) v) ∧
     ∃ t, exec (.ccRd d a 1) s = .next t ∧
       Computes s t [(.s d, (s.counter (coreOf s.cur.ctx) (s.x a).toNat).record.setWidth 128)] 0) ∧
   ∀ (s : State) (d : SReg) (a b : XOp) (nt : Bool), s.Ready (needX [a, b] [] [.s d]) → s.ownsCounter (s.x a) = true →
     s.syncPending s.cur.ctx = false →
     let x := s.counter (coreOf s.cur.ctx) (s.x a).toNat
     if (x.value - (s.x b).setWidth 32).toNat < 2 ^ 31 ∨ x.err = true then
       if x.err = true ∧ nt = false then
         exec (.ccWait d a b nt) s = .next (s.raiseTrap s.cur.ctx { cause := .engineError })
       else ∃ (t : State) (v : Word), exec (.ccWait d a b nt) s = .next t ∧ Computes s t [(.s d, v.setWidth 128)] 0 ∧ statusOf x v
     else ∃ t, exec (.ccWait d a b nt) s = .next t ∧ Waits s t) ∧
  ((∀ (s : State) (a b c d : XOp) (eng : Bool), s.Ready (needX [a, b, c, d] [] []) → (cbCfgLimits a b c d).all (·.ok s) = true →
     nearRegion (s.agent s.cur.ctx) .store (s.x b) ((s.x c).toNat * (s.x d).toNat) = none →
     ∃ t, exec (.cbCfg a b c d eng) s = .next t ∧ OnCore s t [] fun k => k.withBuffer (s.x a).toNat
       { cfg := true, eng := eng, base := s.x b, slot := (s.x c).toNat, count := (s.x d).toNat, free := (s.x d).toNat
         filled := 0, aidx := 0, pidx := 0, tidx := 0, ridx := 0 }) ∧
   ∀ (s : State) (d : SReg) (a : XOp) (w : Bool), s.ownsBuffer (s.x a) = true → (s.bufferOf a).cfg = true →
     s.syncPending s.cur.ctx = false →
     let x := s.bufferOf a
     let sets := fun (y : Buffer) (k : Core) => k.withBuffer (s.x a).toNat y
     let slot := fun (i : Nat) => (BitVec.ofNat 64 (x.base.toNat / 2 ^ 52 * 2 ^ 52 +
       (vaOf x.base + i % max 1 x.count * x.slot) % 2 ^ 52)).setWidth 128
     let takes := fun (i : Instr) (n : Nat) (y : Buffer) (p : Vec) =>
       if n ≠ 0 then ∃ t, exec i s = .next t ∧ OnCore s t [.s d] (sets y) ∧ (d ≠ 0 → t.val s.cur.ctx (.s d) = p)
       else if w then ∃ t, exec i s = .next t ∧ Computes s t [(.s d, (BitVec.allOnes 64).setWidth 128)] 0
       else ∃ t, exec i s = .next t ∧ Waits s t
     (s.Ready (needX [a] [] [.s d]) →
       (x.eng = false → takes (.cbAcq d a w) x.free { x with free := x.free - 1, aidx := x.aidx + 1 } (slot x.aidx)) ∧
       takes (.cbTake d a w) x.filled { x with filled := x.filled - 1, tidx := x.tidx + 1 } (slot x.tidx)) ∧
     (s.Ready (needX [a] [] []) → s.quiet s.cur.ctx = true →
       (x.eng = false → x.pidx ≠ x.aidx →
         ∃ t, exec (.cbPub a) s = .next t ∧ OnCore s t [] (sets { x with pidx := x.pidx + 1, filled := x.filled + 1 })) ∧
       (x.ridx ≠ x.tidx →
         ∃ t, exec (.cbRel a) s = .next t ∧ OnCore s t [] (sets { x with ridx := x.ridx + 1, free := x.free + 1 }))))

/-! ## Vectors -/

/-- R250, R258: each active lane of an integer head holds the exact integer, wrapped to the lane or with SATM clamped to its bounds
with SAT set; the others keep their value. `vdot4` adds four products to each accumulator lane.
R252, R59, R60: each active lane of a floating head holds its exact result rounded once; the fused heads read vd; a sign head
is exact; the flags of the active lanes are set together. -/
def Obligations.VectorArithmeticLanes : Prop :=
  ((∀ (s : State) (d a b : VReg) (m : MI), s.Ready (needVV a b m.pred d) →
     let w := widBits m.wid
     let x := laneNum m (s.vr a)
     let y := laneNum m (s.vr b)
     ∀ e ∈ [(Instr.vaddInt d a b m, fun i => x i + y i), (.vsubInt d a b m, fun i => x i - y i),
         (.vmulInt d a b m, fun i => x i * y i), (.vminInt d a b m, fun i => min (x i) (y i)),
         (.vmaxInt d a b m, fun i => max (x i) (y i)), (.vmulh d a b m, fun i => x i * y i / 2 ^ w)],
       ∃ (t : State) (v : Vec) (f : SW), exec e.1 s = .next t ∧ Computes s t [(.v d, v)] f ∧
         LanesAre w (s.pr m.pred) (s.vr d) v (fun i => fitInt w m (e.2 i)) ∧ SatFlag w m (s.pr m.pred) e.2 f) ∧
   (∀ (s : State) (d a : VReg) (m : MI), s.Ready (needV a m.pred d) →
     let w := widBits m.wid
     let x := laneNum m (s.vr a)
     ∀ e ∈ [(Instr.vabsInt d a m, fun i => |x i|), (.vnegInt d a m, fun i => -x i)],
       ∃ (t : State) (v : Vec) (f : SW), exec e.1 s = .next t ∧ Computes s t [(.v d, v)] f ∧
         LanesAre w (s.pr m.pred) (s.vr d) v (fun i => fitInt w m (e.2 i)) ∧ SatFlag w m (s.pr m.pred) e.2 f) ∧
   ∀ (s : State) (d a b : VReg) (m : MI), s.Ready { reads := [.v a, .v b, .v d, .p m.pred], writes := [.v d] } →
     m.wid.toNat ≤ 1 →
     let w := 4 * widBits m.wid
     let p := fun j k => laneNum m (s.vr a) (4 * j + k) * laneNum m (s.vr b) (4 * j + k)
     let g := fun j => (if m.uns then ((laneAt w (s.vr d) j).toNat : Int) else (laneAt w (s.vr d) j).toInt) +
       (p j 0 + p j 1 + p j 2 + p j 3)
     ∃ (t : State) (v : Vec) (f : SW), exec (.vdot4 d a b m) s = .next t ∧ Computes s t [(.v d, v)] f ∧
       LanesAre w (s.pr m.pred) (s.vr d) v (fun j => fitInt w m (g j)) ∧ SatFlag w m (s.pr m.pred) g f) ∧
  (∀ (s : State) (d a b : VReg) (m : MF),
     let k := ftyFmt m.fty
     let r := m.rnd.toNat
     let val := fun (v : VReg) (i : Nat) => k.value (laneAt k.width (s.vr v) i).toNat
     let lanes := fun (i : Instr) (g : Nat → Nat × SW) => ∃ (t : State) (v : Vec), exec i s = .next t ∧
       Computes s t [(.v d, v)] (lanesFlags k.width (s.pr m.pred) fun i => (g i).2) ∧
       LanesAre k.width (s.pr m.pred) (s.vr d) v (fun i => BitVec.ofNat k.width (g i).1)
     (s.Ready (needVV a b m.pred d) →
       lanes (.vaddFloat d a b m) (fun i => roundRes k r (addVal r (val a i) (val b i))) ∧
       lanes (.vsubFloat d a b m) (fun i => roundRes k r (addVal r (val a i) (val b i).negate)) ∧
       lanes (.vmulFloat d a b m) (fun i => roundRes k r (mulVal (val a i) (val b i))) ∧
       lanes (.vminFloat d a b m) (fun i => roundRes k r (minmaxVal false (val a i) (val b i))) ∧
       lanes (.vmaxFloat d a b m) (fun i => roundRes k r (minmaxVal true (val a i) (val b i)))) ∧
     (s.Ready { reads := [.v a, .v b, .v d, .p m.pred], writes := [.v d] } →
       lanes (.vfma d a b m) (fun i => roundRes k r (fmaVal r (val d i) (val a i) (val b i))) ∧
       lanes (.vfms d a b m) (fun i => roundRes k r (fmaVal r (val d i) (val a i).negate (val b i)))) ∧
     (s.Ready (needV a m.pred d) →
       lanes (.vabsFloat d a m) (fun i => roundRes k r (signVal (fun _ => false) (val a i))) ∧
       lanes (.vnegFloat d a m) (fun i => roundRes k r (signVal (fun n => !n) (val a i)))))

/-- R253, R255, R256: the bitwise heads, shifts, bit counts and moves, lane by lane; the transfers between scalar and vector
registers; a lane index at or above the lane count traps ILLEGAL_OPERAND.
R254, R257: `vcmp` writes each lane's outcome to every predicate bit of the lane; the reductions combine the active lanes into
a scalar, with the results of R257 where none is active. -/
def Obligations.VectorLogicMovesAndCompares : Prop :=
  (∀ (s : State) (d a b : VReg) (n : PReg) (m : MI) (k : Fin 16) (c : SReg) (x y : XOp) (size : BitVec 2) (sx : Bool),
     let gives := fun (i : Instr) (p : Half) (w : Nat) (old : Vec) (g : Nat → BitVec w) =>
       ∃ (t : State) (v : Vec), exec i s = .next t ∧ Computes s t [(.v d, v)] 0 ∧ LanesAre w p old v g
     let byte := fun (v : VReg) (i : Nat) => laneAt 8 (s.vr v) i
     let w := widBits m.wid
     let z := 8 * 2 ^ size.toNat
     (s.Ready (needVV a b n d) →
       gives (.vand d a b n) (s.pr n) 8 (s.vr d) (fun i => byte a i &&& byte b i) ∧
       gives (.vor d a b n) (s.pr n) 8 (s.vr d) (fun i => byte a i ||| byte b i) ∧
       gives (.vxor d a b n) (s.pr n) 8 (s.vr d) (fun i => byte a i ^^^ byte b i) ∧
       gives (.vandn d a b n) (s.pr n) 8 (s.vr d) (fun i => byte a i &&& ~~~(byte b i)) ∧
       gives (.vperm d a b n) (s.pr n) 8 (s.vr d) (fun i =>
         if (byte b i).getLsbD 7 then 0 else byte a ((byte b i).toNat % 16))) ∧
     (s.Ready (needV a n d) →
       gives (.vnot d a n) (s.pr n) 8 (s.vr d) (fun i => ~~~(byte a i)) ∧ gives (.vmov d a n) (s.pr n) 8 (s.vr d) (byte a)) ∧
     (s.Ready { reads := [.v a, .v b, .p n], writes := [.v d] } → gives (.vsel d a b n) (s.pr n) 8 (s.vr b) (byte a)) ∧
     (s.Ready { reads := [.v a, .v b], writes := [.v d] } →
       gives (.vext d a b k) 0xFFFF 8 0 (fun i => if i + k.val < 16 then byte a (i + k.val) else byte b (i + k.val - 16))) ∧
     (s.Ready (needVV a b m.pred d) →
       let sh := fun (i : Nat) => (laneAt w (s.vr b) i).toNat % w
       gives (.vshl d a b m) (s.pr m.pred) w (s.vr d) (fun i => laneAt w (s.vr a) i <<< sh i) ∧
       gives (.vshr d a b m) (s.pr m.pred) w (s.vr d) (fun i => laneAt w (s.vr a) i >>> sh i) ∧
       gives (.vsra d a b m) (s.pr m.pred) w (s.vr d) (fun i => (laneAt w (s.vr a) i).sshiftRight (sh i))) ∧
     (s.Ready (needV a m.pred d) →
       gives (.vclz d a m) (s.pr m.pred) w (s.vr d) (fun i =>
         BitVec.ofNat w ((List.range w).takeWhile fun j => !(laneAt w (s.vr a) i).getLsbD (w - 1 - j)).length) ∧
       gives (.vpopc d a m) (s.pr m.pred) w (s.vr d) (fun i =>
         BitVec.ofNat w ((List.range w).countP fun j => (laneAt w (s.vr a) i).getLsbD j))) ∧
     (s.Ready (needX [x] [] [.v d]) → gives (.vbcast d x size) 0xFFFF z 0 (fun _ => (s.x x).setWidth z)) ∧
     (s.Ready (needX [x, y] [.v d] [.v d]) →
       if (s.x y).toNat < 128 / z then
         gives (.vins d x y size) 0xFFFF z 0 (fun i => if i = (s.x y).toNat then (s.x x).setWidth z else laneAt z (s.vr d) i)
       else exec (.vins d x y size) s = .next (s.raiseTrap s.cur.ctx { cause := .illegalOperand })) ∧
     (s.Ready (needX [y] [.v a] [.s c]) →
       if (s.x y).toNat < 128 / z then
         ∃ t, exec (.vget c a y size sx) s = .next t ∧ Computes s t [(.s c, if sx then
           ((laneAt z (s.vr a) (s.x y).toNat).signExtend 64).setWidth 128 else (laneAt z (s.vr a) (s.x y).toNat).setWidth 128)] 0
       else exec (.vget c a y size sx) s = .next (s.raiseTrap s.cur.ctx { cause := .illegalOperand }))) ∧
  ((∀ (s : State) (a b : VReg) (m : MI), s.Ready { reads := [.v a, .v b], writes := [.p m.pred] } →
     let x := laneNum m (s.vr a)
     let y := laneNum m (s.vr b)
     ∀ e ∈ ([(0, fun i => x i = y i), (1, fun i => x i ≠ y i), (2, fun i => x i < y i), (3, fun i => y i ≤ x i),
         (4, fun i => x i ≤ y i), (5, fun i => y i < x i)] : List (Lit × (Nat → Prop))),
       ∃ (t : State) (p : Half), exec (.vcmpInt a b e.1 m) s = .next t ∧ Computes s t [(.p m.pred, p.setWidth 128)] 0 ∧
         PredIs (widBits m.wid) p e.2) ∧
   (∀ (s : State) (a b : VReg) (m : MF), s.Ready { reads := [.v a, .v b], writes := [.p m.pred] } →
     let k := ftyFmt m.fty
     let c := fun (n i : Nat) => fltCond n (k.value (laneAt k.width (s.vr a) i).toNat) (k.value (laneAt k.width (s.vr b) i).toNat)
     ∀ n : Nat, n ≤ 7 →
       ∃ (t : State) (p : Half), exec (.vcmpFloat a b (BitVec.ofNat 32 n) m) s = .next t ∧
         Computes s t [(.p m.pred, p.setWidth 128)] (lanesFlags k.width 0xFFFF fun i => (c n i).2) ∧
         PredIs k.width p (fun i => (c n i).1 = true)) ∧
   (∀ (s : State) (d : SReg) (a : VReg) (m : MI), s.Ready { reads := [.v a, .p m.pred], writes := [.s d] } →
     let w := widBits m.wid
     let l := ((List.range (128 / w)).filter (laneOn (s.pr m.pred) w)).map (laneNum m (s.vr a))
     (∃ (t : State) (f : SW), exec (.vrsumInt d a m) s = .next t ∧ Computes s t [(.s d,
         (BitVec.ofInt 64 (if m.satm then max (-2 ^ 63) (min (2 ^ 63 - 1) l.sum) else l.sum)).setWidth 128)] f ∧
       f = if m.satm = true ∧ (l.sum < -2 ^ 63 ∨ 2 ^ 63 - 1 < l.sum) then fSAT else 0) ∧
     (∃ (t : State) (x : Int), exec (.vrmaxInt d a m) s = .next t ∧ Computes s t [(.s d, (BitVec.ofInt 64 x).setWidth 128)] 0 ∧
       (if l = [] then x = lowBound w m.uns else x ∈ l ∧ ∀ y ∈ l, y ≤ x)) ∧
     ∃ (t : State) (x : Int), exec (.vrminInt d a m) s = .next t ∧ Computes s t [(.s d, (BitVec.ofInt 64 x).setWidth 128)] 0 ∧
       (if l = [] then x = highBound w m.uns else x ∈ l ∧ ∀ y ∈ l, x ≤ y)) ∧
   ∀ (s : State) (d : SReg) (a : VReg) (m : MF), s.Ready { reads := [.v a, .p m.pred], writes := [.s d] } →
     let k := ftyFmt m.fty
     let l := ((List.range (128 / k.width)).filter (laneOn (s.pr m.pred) k.width)).map fun i =>
       k.value (laneAt k.width (s.vr a) i).toNat
     let gives := fun (i : Instr) (r : Nat × SW) => ∃ t, exec i s = .next t ∧ Computes s t [(.s d, BitVec.ofNat 128 r.1)] r.2
     gives (.vrsumFloat d a m) (roundRes k m.rnd.toNat (sumVals m.rnd.toNat l)) ∧
     gives (.vrmaxFloat d a m) (if l = [] then (k.signBit true + k.infCode, 0) else roundRes k rne (extreme true l)) ∧
     gives (.vrminFloat d a m) (if l = [] then (k.infCode, 0) else roundRes k rne (extreme false l)))

/-- R259-R262: `vcvt` converts lane by lane and zeroes the lanes beyond; `vpack` and `vunpk` move elements of 2, 4 or 6 bits;
`vo4p` packs a row of O4; `vthr` zeroes the active lanes below the threshold and adds their magnitudes to DROPMAG. -/
def Obligations.VectorConversionsAndThresholds : Prop :=
  (∀ (s : State) (d a : VReg) (src : Nat) (m : MC), s.Ready { reads := [.v a], writes := [.v d] } → src ≤ 10 →
    let f := tidxKind src
    let g := tidxKind m.tidx.toNat
    let r := fun (i : Nat) => convert m.rnd.toNat m.ovf g (f.value (laneAt f.width (s.vr a) i).toNat)
    let n := 128 / max f.width g.width
    ∃ (t : State) (v : Vec), exec (.vcvt d a (BitVec.ofNat 32 src) m) s = .next t ∧
      Computes s t [(.v d, v)] ((List.range n).foldl (fun x i => x ||| (r i).2) 0) ∧
      ∀ i, i < 128 / g.width → laneAt g.width v i = if i < n then BitVec.ofNat g.width (r i).1 else 0) ∧
  (∀ (s : State) (d a : VReg) (k : Nat) (dst : BitVec 3) (satm : Bool), s.Ready { reads := [.v a, .v d], writes := [.v d] } →
    let w := (subKind dst.toNat).width
    let sg := match subKind dst.toNat with | .int _ g => g | _ => true
    16 * k + 16 ≤ 128 / w →
    let r := fun (i : Nat) => intToInt w sg satm (laneAt 8 (s.vr a) i).toInt
    ∃ (t : State) (v : Vec), exec (.vpack d a (BitVec.ofNat 32 k) dst satm) s = .next t ∧
      Computes s t [(.v d, v)] ((List.range 16).foldl (fun x i => x ||| (r i).2) 0) ∧
      (∀ i, i < 16 → laneAt w v (16 * k + i) = BitVec.ofNat w (r i).1) ∧
      ∀ j, j < 128 → (j < 16 * k * w ∨ 16 * k * w + 16 * w ≤ j) → v.getLsbD j = (s.vr d).getLsbD j) ∧
  (∀ (s : State) (d a : VReg) (k : Nat) (src : BitVec 3) (tgt : Bool), s.Ready { reads := [.v a], writes := [.v d] } →
    let f := subKind src.toNat
    let m := if tgt then 8 else 16
    m * k + m ≤ 128 / f.width →
    let e := rowValues f (bytesOfNat 16 (s.vr a).toNat) (128 / f.width)
    let g : Kind := if tgt then .flt fp16 else .int 8 true
    ∃ (t : State) (v : Vec), exec (.vunpk d a (BitVec.ofNat 32 k) src tgt) s = .next t ∧
      Computes s t [(.v d, v)] (if e.2 then fOTR else 0) ∧
      ∀ i, i < m → laneAt g.width v i = BitVec.ofNat g.width (convert rne false g (e.1.getD (m * k + i) (.int 0))).1) ∧
  (∀ (s : State) (d a b : VReg) (rnd : BitVec 3), s.Ready { reads := [.v a, .v b], writes := [.v d] } →
    let r := packRow rnd.toNat ((List.range 16).map fun i =>
      fp16.value (if i < 8 then laneAt 16 (s.vr a) i else laneAt 16 (s.vr b) (i - 8)).toNat)
    ∃ t, exec (.vo4p d a b rnd) s = .next t ∧ Computes s t [(.v d, r.1)] r.2) ∧
  ∀ (s : State) (d a : VReg) (b : XOp) (m : MF), s.Ready (needX [b] (.v a :: keepRead m.pred d) [.v d]) →
    thetaOk ((s.x b).toNat % 65536) = true →
    let k := ftyFmt m.fty
    let theta := fp16.value ((s.x b).toNat % 65536)
    let val := fun (i : Nat) => k.value (laneAt k.width (s.vr a) i).toNat
    let gone := ((List.range (128 / k.width)).filter (laneOn (s.pr m.pred) k.width)).filter fun i => dropped theta (val i)
    ∃ (t : State) (v : Vec), exec (.vthr d a b m) s = .next t ∧ t.val s.cur.ctx (.v d) = v ∧
      LanesAre k.width (s.pr m.pred) (s.vr d) v (fun i => if dropped theta (val i) then 0 else laneAt k.width (s.vr a) i) ∧
      Leaves s t [.v d] 0 (fun x => { x with csr := { x.csr with
        dropmag := gone.foldl (fun n i => dropAdd n (dropAmount (val i))) x.csr.dropmag } }) id [] ∧ MarksKept s t
/-! ## The matrix array and the Pilot -/

/-- R88-R91, R268, R272-R275, R277, R380: an array head that keeps its limits puts its command, as the image that R380 gives it,
at the tail of its core's queue and opens an AU where none is open; with the queue full or another AU open it holds; with no valid
TCSB it traps MCFG_STATE.
R92, R271, R276: `mcfg` holds until its context's array commands have completed, and then installs the TCSB, where an open AU
ends without a drain; `mwait` and `mstat` wait for them, and `mstat` returns MSTAT and writes the TCSB where its operand is not
zero.
What an array head waits for at issue is the model's choice (log 42). -/
def Obligations.ArrayHeadsEnterTheQueue : Prop :=
  (∀ (s : State) (a b c d e f : XOp) (m : SCOp) (k : BitVec 256),
     let g := s.agent s.cur.ctx
     let queues := fun (i : Instr) (img : BitVec 256) =>
       if s.arrayBusy s.cur.ctx = true then exec i s = .next s.hold
       else ∃ t, exec i s = .next t ∧ Queues s t [] img id
     let line := lineBytesOf k (tFmtw k)
     let n := fun (x : XOp) => (s.x x).toNat
     (s.here.tcsb = some k →
       (s.Ready {} →
         queues .mswap (imageOf [(0, 1, 2)]) ∧ queues .mzero (imageOf [(0, 1, 5)])) ∧
       (s.Ready (needX [a, b, c] [] []) → n b < 128 / tCols k → line ≤ n c → n c ≤ 65528 →
         (windowOf (vaOf (s.x a))).isSome = true → vaOf (s.x a) % 8 = 0 → vaOf (s.x c) % 8 = 0 →
         (isLoc (s.x a) = true → regionLimit false (s.x a) ((tCols k - 1) * n c + line) = true ∧
           regionTraps false g .load (s.x a) ((tCols k - 1) * n c + line) = []) →
         queues (.mlds a b c d false) (imageOf [(0, 1, 1), (2, 2, n c), (4, 1, n b), (8, 8, n a)])) ∧
       (s.Ready (needX [a, b, c, d] [] []) → n b < 128 / tCols k → line ≤ n c → n c ≤ 65528 → tFmtw k ≠ 4 →
         (windowOf (vaOf (s.x a))).isSome = true → vaOf (s.x a) % 8 = 0 → vaOf (s.x c) % 8 = 0 → vaOf (s.x d) % 8 = 0 →
         (isLoc (s.x a) = true → regionLimit false (s.x a) ((tCols k - 1) * n c + line) = true ∧
           regionTraps false g .load (s.x a) ((tCols k - 1) * n c + line) = []) →
         regionLimit false (s.x d) (ceilDiv (tCols k * tRows k) 8) = true →
         regionTraps false g .load (s.x d) (ceilDiv (tCols k * tRows k) 8) = [] →
         queues (.mlds a b c d true) (imageOf [(0, 1, 1), (1, 1, 1), (2, 2, n c), (4, 1, n b), (8, 8, n a), (16, 8, n d)])) ∧
       (let w := (n d - 1) * n e + lineBytesOf k (tFmts k)
       s.Ready (needX [a, b, c, d, e] [] []) → mstrmLimits k (n b) (n c) (n d) (n e) = true →
         regionLimit true (s.x a) w = true → regionTraps true g .load (s.x a) w = [] →
         vaOf (s.x a) % 8 = 0 → vaOf (s.x e) % 8 = 0 →
         queues (.mstrm a b c d e) (imageOf [(0, 1, 3), (2, 2, if n d = 1 then 0 else n e), (4, 1, n b), (5, 1, n c), (6, 1, n d),
           (8, 8, n a)])) ∧
       (let w := drainBytes k (n b) (n d) (n e) (n f)
       s.Ready (needX [a, b, c, d, e, f] [] []) → mdrainLimits k (n b) (n c) (n d) (n e) (n f) = true →
         regionLimit false (s.x a) w = true → regionTraps false g .store (s.x a) w = [] →
         vaOf (s.x a) % 8 = 0 → vaOf (s.x e) % 8 = 0 → vaOf (s.x f) % 8 = 0 →
         queues (.mdrain a b c d e f) (imageOf [(0, 1, 4), (4, 1, n b), (5, 1, n c), (6, 1, n d), (8, 8, n a),
           (16, 4, if (onesOf 8 (n b)).length ≤ 1 then 0 else n f), (20, 4, if n d = 1 then 0 else n e)])) ∧
       (s.Ready (needX [scX m, b, c] [] []) → 1 ≤ n b → n b ≤ 128 → n c < 2 ^ 15 → (s.x c).getLsbD 7 = false →
         n c % 128 + n b ≤ 128 → n c / 256 % 128 + n b ≤ 128 →
         regionLimit false (s.sc m) (n b) = true → regionTraps false g .load (s.sc m) (n b) = [] →
         queues (.mmask m b c) (imageOf [(0, 1, 8), (2, 2, n c), (4, 1, n b), (8, 8, (s.sc m).toNat)]))) ∧
     (s.here.tcsb = none →
       ∀ e' ∈ [(Instr.mswap, ({} : Need)), (.mzero, {}), (.mlds a b c d false, needX [a, b, c] [] []),
         (.mlds a b c d true, needX [a, b, c, d] [] []), (.mstrm a b c d e, needX [a, b, c, d, e] [] []),
         (.mdrain a b c d e f, needX [a, b, c, d, e, f] [] []), (.mmask m b c, needX [scX m, b, c] [] [])],
         s.Ready e'.2 → exec e'.1 s = .next (s.raiseTrap s.cur.ctx { cause := .mcfgState }))) ∧
  ((∀ (s s1 : State) (a : SCOp) (l : List Nat), s.Ready (needX [scX a] [] []) → regionLimit false (s.sc a) 32 = true →
     regionTraps false (s.agent s.cur.ctx) .load (s.sc a) 32 = [] → vaOf (s.sc a) % 8 = 0 →
     s.resolve (s.agent s.cur.ctx) .load (s.sc a) (runFrom (vaOf (s.sc a)) 32) true true true = .ok (s1, l) → s.Sound l →
     let k := BitVec.ofNat 256 (natOfBytes (l.map s.byte))
     if tcsbOk k = false then exec (.mcfg a) s = .next (s.raiseTrap s.cur.ctx { cause := .illegalOperand })
     else if s.here.arrayDone = false then exec (.mcfg a) s = .next s.hold
     else ∃ t, exec (.mcfg a) s = .next t ∧ RegsKept s t [] ∧ FlagsSet s t 0 ∧ BytesKept s t [] ∧ MarksKept s t ∧ UnitsKept s t ∧
       LoopsKept s t ∧
       (s.here.auOpen = false → Leaves s t [] 0 (fun x => { x with tcsb := some k }) id []) ∧
       (s.here.auOpen = true →
         ContextsKept s t (fun x => { x with tcsb := some k, auOpen := false, arrayCmds := 0, aimgDst := []
                                             auFrame := none, auMarked := false, auHeld := false }) ∧
         let j := clusterOf (coreOf s.cur.ctx)
         (t.cluster j).arr = if (s.cluster j).arr.owner = some s.cur.ctx then {} else (s.cluster j).arr)) ∧
   (∀ s : State, s.Ready {} → ∃ t, exec .mwait s = .next t ∧
     if s.here.arrayDone = true then Computes s t [] 0 else Waits s t) ∧
   ∀ (s : State) (d : SReg) (a : XOp), s.Ready (needX [a] [] [.s d]) →
     (s.here.arrayDone = true →
       let v := if s.here.tcsb.isSome = true then s.mstatWord s.cur.ctx else s.mstatWord s.cur.ctx &&& 0x1F00
       (s.x a = 0 → ∃ t, exec (.mstat d a) s = .next t ∧ Computes s t [(.s d, v.setWidth 128)] 0) ∧
       (s.x a ≠ 0 → regionLimit false (s.x a) 32 = true → regionTraps false (s.agent s.cur.ctx) .store (s.x a) 32 = [] →
         vaOf (s.x a) % 8 = 0 → Memory.wf s.mem = true →
         let l := runFrom (localAt (coreOf s.cur.ctx) (vaOf (s.x a))) 32
         ∃ t, exec (.mstat d a) s = .next t ∧ (d ≠ 0 → t.val s.cur.ctx (.s d) = v.setWidth 128) ∧
           Leaves s t [.s d] 0 id id l ∧ Stores s t l (bytesOfNat 32 ((s.here.tcsb.getD tcsbReset).toNat)))) ∧
     (s.here.arrayDone = false →
       (s.x a = 0 ∨ regionLimit false (s.x a) 32 = true ∧ regionTraps false (s.agent s.cur.ctx) .store (s.x a) 32 = [] ∧
         vaOf (s.x a) % 8 = 0) → ∃ t, exec (.mstat d a) s = .next t ∧ Waits s t))

/-- R72-R74, R77, R84, R269, R278-R282: a Pilot head that keeps its limits puts its request at the tail of its core's queue, with
what it captures at issue, and holds while the queue is full; `penc` marks its record's first word empty; `dsel` and `pcfg` set
PCONF.
R81, R268, R283: `aimg` reads its descriptor at issue and queues its command with the descriptor's values; the registers of its
next index and escape bitmap wait for its service.
What a Pilot head waits for at issue (log 42), and how far the record area of `aimg` reaches and which of its causes comes first
(log 87), are the model's choices. -/
def Obligations.PilotHeadsEnterTheirQueues : Prop :=
  (∀ (s : State) (m n : SCOp) (a b c : XOp) (k : Lit) (z : SlotSel),
     let g := s.agent s.cur.ctx
     let full := Config.pilotQueueSlots ≤ (s.core (coreOf s.cur.ctx)).pilotQ.length ∨ s.quiet s.cur.ctx = false
     let asks := fun (t : State) (r : PilotReq) => Leaves s t [] 0 id (fun x => { x with pilotQ := x.pilotQ ++ [r] }) []
     (s.Ready (needX [a, scX m, c] [] []) → (s.x a).toNat ≤ 3 → s.ownsCounter (s.x c) = true →
       (windowOf (vaOf (s.sc m))).isSome = true → vaOf (s.sc m) % 64 = 0 →
       (isLoc (s.sc m) = true → regionTraps false g .load (s.sc m) 8 = []) →
       if full then exec (.dload a m c) s = .next s.hold
       else ∃ t, exec (.dload a m c) s = .next t ∧ MarksKept s t ∧
         asks t (.dload s.cur.ctx (s.x a).toNat (s.sc m) (s.x c).toNat s.here.level)) ∧
     (s.Ready {} →
       if 0 ≤ k.toInt ∧ k.toInt ≤ 3 then ∃ t, exec (.dsel k) s = .next t ∧ MarksKept s t ∧
         Leaves s t [] 0 (fun x => { x with csr := { x.csr with dslot := BitVec.ofInt 2 k.toInt } }) id []
       else exec (.dsel k) s = .next (s.raiseTrap s.cur.ctx { cause := .illegalOperand })) ∧
     (s.Ready (needX [a, b, c] [] []) →
       if pconfOk (s.x a) (s.x b) (s.x c) = true then ∃ t, exec (.pcfg a b c) s = .next t ∧ MarksKept s t ∧
         Leaves s t [] 0 (fun x => { x with csr := { x.csr with
           tau := (s.x a).setWidth 16, eps := (s.x b).setWidth 16, smax := (s.x c).setWidth 4 } }) id []
       else exec (.pcfg a b c) s = .next (s.raiseTrap s.cur.ctx { cause := .illegalOperand })) ∧
     (let slot := match z with | .none => s.here.csr.dslot.toNat | .lit l => l.toInt.toNat
     let len := (s.dict (coreOf s.cur.ctx) slot).len
     s.Ready (needX [scX m, scX n] [] []) → (∀ l, z = .lit l → 0 ≤ l.toInt ∧ l.toInt ≤ 3) →
       regionLimit false (s.sc n) (4 * len) = true → regionLimit false (s.sc m) (8 + 2 * len) = true →
       regionTraps false g .load (s.sc n) (4 * len) = [] → regionTraps false g .store (s.sc m) (8 + 2 * len) = [] →
       vaOf (s.sc m) % 8 = 0 → vaOf (s.sc n) % 8 = 0 →
       if full then exec (.penc m n z) s = .next s.hold
       else ∃ t, exec (.penc m n z) s = .next t ∧
         asks t (.penc s.cur.ctx (s.sc m) (s.sc n) slot s.here.csr.tau s.here.csr.eps s.here.csr.smax.toNat s.here.level) ∧
         t.poison = s.poison ∧
         t.full = natErase s.full (wordIx (localAt (coreOf s.cur.ctx) (vaOf (s.sc m))))) ∧
     (s.Ready (needX [scX m, scX n] [] []) → regionLimit false (s.sc m) 64 = true → regionLimit false (s.sc n) 8 = true →
       regionTraps false g .load (s.sc n) 8 = [] → regionTraps false g .store (s.sc m) 64 = [] →
       vaOf (s.sc m) % 8 = 0 → vaOf (s.sc n) % 8 = 0 →
       if full then exec (.pdec m n) s = .next s.hold
       else ∃ t, exec (.pdec m n) s = .next t ∧ MarksKept s t ∧
         asks t (.pdec s.cur.ctx (s.sc m) (s.sc n) s.here.level))) ∧
  (∀ (s s1 : State) (d : SReg) (v : VReg) (a : SCOp) (b : XOp) (k : BitVec 256) (l : List Nat),
     s.Ready (needX [scX a, b] [] [.s d, .v v]) → s.here.tcsb = some k →
     regionLimit false (s.sc a) 64 = true → regionTraps false (s.agent s.cur.ctx) .load (s.sc a) 64 = [] → vaOf (s.sc a) % 8 = 0 →
     s.resolve (s.agent s.cur.ctx) .load (s.sc a) (runFrom (vaOf (s.sc a)) 64) true true true = .ok (s1, l) → s.Sound l →
     let y := l.map s.byte
     let x : AimgDesc := aimgDescOf y (s.x b).toNat
     x.ok k = true → fieldAt y 13 1 = 0 → natOfBytes (y.drop 42) = 0 →
     regionLimit false (BitVec.ofNat 64 x.recs) x.recArea = true →
     regionLimit false (BitVec.ofNat 64 x.out) (x.outArea k) = true →
     regionTraps false (s.agent s.cur.ctx) .load (BitVec.ofNat 64 x.recs) x.recArea = [] →
     regionTraps false (s.agent s.cur.ctx) .store (BitVec.ofNat 64 x.out) (x.outArea k) = [] →
     if s.arrayBusy s.cur.ctx = true then exec (.aimg d v a b) s = .next s.hold
     else ∃ t, exec (.aimg d v a b) s = .next t ∧ Awaits s t (.s d) ∧ Awaits s t (.v v) ∧
       Queues s t [.s d, .v v]
         (imageOf [(0, 1, 0x15), (2, 2, x.rstr), (4, 1, x.pnl), (5, 1, x.start), (6, 1, x.nb), (7, 1, x.m), (8, 8, x.tab.toNat),
           (16, 8, x.scl.toNat), (24, 3, x.recs), (27, 3, x.out), (30, 2, x.ostr)])
         fun z => { z with aimgDst := z.aimgDst ++ [(d, v)] })

/-- R121, R127, R286, R287: `wdenter` enters weight-driven execution at the block named, with the slot table and program flags
named, and leaves its gang as `gleave` does (of a leader's, log 43); its destination keeps its value until the chain ends (log 43).
`wdstat` reads WDS. -/
def Obligations.WeightDrivenExecutionIsEntered : Prop :=
  (∀ (s : State) (d : SReg) (a : XOp) (b : SCOp) (w : Lit), s.Ready (noSlot (needX [a, scX b] [] [.s d])) →
    0 ≤ w.toInt → w.toInt ≤ 15 → regionLimit false (s.sc b) 128 = true →
    regionTraps false (s.agent s.cur.ctx) .load (s.sc b) 128 = [] → vaOf (s.sc b) % 8 = 0 → vaOf (s.x a) % 256 = 0 →
    windowOf (vaOf (s.x a)) = some .glob →
    let own := fun (x : Context) =>
      { x with wde := { block := BitVec.ofNat 64 (vaOf (s.x a)), slots := BitVec.ofNat 64 (vaOf (s.sc b)), sd := d
                        flags := BitVec.ofInt 4 w.toInt }
               csr := { x.csr with wde := true, wds := BitVec.ofNat 64 w.toInt.toNat } }
    ∃ t, exec (.wdenter d a b w) s = .next t ∧ MarksKept s t ∧ Leaves s t [] 0 own id [] ∧
      (s.here.csr.gang = 0 → t.gangs = s.gangs ∧ (t.ctx s.cur.ctx).csr.gang = 0) ∧
      (∀ g, s.here.csr.gang = 1 → s.gangWith s.cur.ctx = some g →
        t.gangs = s.gangs.filter (fun h => h.num != g.num) ∧ (t.ctx s.cur.ctx).csr.gang = 0) ∧
      (s.here.csr.gang = 2 → t.gangs = s.gangs ∧ (t.ctx s.cur.ctx).csr.gang = 3)) ∧
  ∀ (s : State) (d : SReg), s.Ready (needX [] [] [.s d]) →
    ∃ t, exec (.wdstat d) s = .next t ∧ Computes s t [(.s d, s.here.csr.wds.setWidth 128)] 0
/-- R94, R268, R272-R274, R277: what the commands of an AU do when they are served. `mswap` exchanges the planes; `mzero` clears
cells, Breakwater, spill count and MSTAT; `mlds` writes its whole panel of the shadow plane; `mmask` writes its block of the mask
plane; each then leaves its queue, and one of a chain thereby ends its unit (R123). That a unit
of a chain ends as its command is served is the model's reading (DEDUCED, log 43).
R88, R98-R101, R274: a stream adds its rows from its resume row on, and with the last one leaves its queue. The last row is read by
FMTS from its own address; its products go to the cells of its panel, the carries to the Breakwater; a row that the Breakwater
cannot take is due as BW_FULL and stops the stream before it.
When NV and SPEC are set is the model's choice (log 42). -/
def Obligations.ArrayCommandsAndStreamsAreServed : Prop :=
  (∀ (s : State) (k : ClusterId) (c : CtxId) (q : ACmd) (tile : BitVec 256),
     let a := (s.cluster k).arr
     (s.Serves k c q tile 0x02 → ∃ t, exec (.mswapService k) s = .next t ∧ MemoryKept s t ∧
       Served s t k c q { a with active := a.shadow, shadow := a.active } id) ∧
     (s.Serves k c q tile 0x05 → ∃ t, exec (.mzeroService k) s = .next t ∧ MemoryKept s t ∧
       Served s t k c q { a with cells := [], bw := [], spills := 0 } fun x => { x with mstat := 0 }) ∧
     (∀ (s1 : State) (cols : List (List Nat)) (otr : Bool), s.Serves k c q tile 0x01 → q.flag 0 = false →
       s.readTile (s.agent c) tile (BitVec.ofNat 64 (q.field 8 8)) (q.field 2 2) none (tCols tile) = .ok (s1, cols, otr) →
       ∃ (t : State) (w : SMap (BitVec 16)), exec (.mldsService k) s = .next t ∧ MemoryKept s t ∧
         Served s t k c q { a with shadow := w } (fun x => x.addFlags (if otr then fOTR else 0)) ∧
         ∀ row col, row < 128 → col < 128 → SMap.look w (128 * row + col) 0 =
           if col / tCols tile = q.field 4 1 then
             if row < tRows tile then BitVec.ofNat 16 ((cols.getD (col % tCols tile) []).getD row 0) else 0
           else SMap.look a.shadow (128 * row + col) 0) ∧
     (∀ parents : List Byte, s.Serves k c q tile 0x08 → let n := q.field 4 1; let o := q.field 2 2
       let ptr : Word := BitVec.ofNat 64 (q.field 8 8)
       localRegion (s.agent c) .serviceRead ptr n = none →
       s.Sound ((runFrom (vaOf ptr) n).map (localAt (coreOf c))) →
       parents = (runFrom (vaOf ptr) n).map (fun v => s.byte (localAt (coreOf c) v)) →
       let l := parents.map (·.toNat)
       (∀ i, i < n → l.getD i 0 = 0xFF ∨ l.getD i 0 < i) →
       ∃ (t : State) (m : SMap Bool), exec (.mmaskService k) s = .next t ∧ MemoryKept s t ∧ Served s t k c q { a with mask := m } id ∧
         (∀ i j, i < n → j < n → (SMap.look m (128 * (o % 128 + i) + (o / 256 % 128 + j)) false = true ↔ ¬ Anc l i j)) ∧
         ∀ row col, row < 128 → col < 128 → ¬ (o % 128 ≤ row ∧ row < o % 128 + n ∧ o / 256 % 128 ≤ col ∧ col < o / 256 % 128 + n) →
           SMap.look m (128 * row + col) false = a.masked (128 * row + col))) ∧
  ((∀ (s s1 : State) (k : ClusterId) (c : CtxId) (q : ACmd) (tile : BitVec 256), s.Serves k c q tile 0x03 →
     s.serveRows c tile q (q.field 6 1 - (s.cluster k).arr.row) (s.cluster k).arr.row = .done s1 →
     exec (.mstrmService k) s = .next ((s1.modArr k fun a => { a with row := 0 }).popCmd c q)) ∧
   ∀ (s s1 : State) (k : ClusterId) (c : CtxId) (q : ACmd) (tile : BitVec 256) (b : List Byte), s.Serves k c q tile 0x03 →
     let a := (s.cluster k).arr
     let row := a.row
     let len := if q.flag 1 then min (tRows tile) (q.field 7 1) else tRows tile
     let fmt := (kindOf (tFmts tile)).getD .o4
     let src : Word := BitVec.ofNat 64 (q.field 8 8)
     row + 1 = q.field 6 1 →
     s.svcRead (s.agent c) (withVa src (vaOf src + row * q.field 2 2)) (rowBytes fmt len) true = .ok (s1, b) →
     let (vals, otr) := rowValues fmt b len
     let vs := (List.range (tRows tile)).map fun j => valF (vals.getD j (.int 0))
     match streamCells tile a (q.field 5 1 + row) vs (panelCols tile (q.field 4 1))
       ({ bw := a.bw, mstat := (s.ctx c).mstat, spills := [], count := a.spills }, a.cells) with
     | .ok (r, cells) => ∃ t, exec (.mstrmService k) s = .next t ∧
         Served s t k c q { a with cells := cells, bw := r.bw, spills := a.spills + r.spills.length }
           (fun x => { x.addFlags (if otr then fOTR else 0) with mstat := r.mstat }) ∧
         (r.spills = [] → MemoryKept s t)
     | .error (kind, cell) => ∃ t, exec (.mstrmService k) s = .next t ∧ ((s.ctx c).due = none →
         (t.ctx c).due = some { cause := .bwFull, detail := bwDetail kind cell row, origin := 1 }) ∧
         RegsKept s t [])

/-- R97-R99: the array adds exactly. Whatever carries and spills a cell's products bring about, accumulator and carries together
grow by the products' sum, on a cell that holds no special state.
The array's own cells and lists are the model's form of R98 and R99 (log 42). -/
def Obligations.AccumulationIsExact : Prop :=
  ∀ (tile : BitVec 256) (x : Nat) (zs : List (Int × Bool)) (st st1 : BwState × ACell),
    (st.1.bw.map (·.1)).Nodup → st.2.sp = 0 →
    addProducts tile x (zs.map fun z => .fin z.1 z.2) st = .ok st1 →
    cellSum x st1 = cellSum x st + (zs.map (·.1)).sum ∧ st1.2.sp = 0 ∧ (st1.1.bw.map (·.1)).Nodup ∧
      ∀ y, y ≠ x → carryOf y st1.1.bw + carryOf y st1.1.spills.flatten = carryOf y st.1.bw + carryOf y st.1.spills.flatten

/-- R103-R105, R275: a drain writes row b0 + i of each drained panel, as the epilogue gives its cells, to its own address and sets
its words full; its flags and DROPMAG go to the context; the AU ends, and MSTAT is kept as that of the last AU drained.
R81, R283: `aimg` waits for its records; then the columns of the atoms kept stand as rows of its panel, the coefficient rows
in memory, and the next index and the escape bitmap in its registers.
The flags of a drain and the sign of an exact zero sum are the model's choices (log 27), and so is that a masked cell sets WOVF
(log 82). -/
def Obligations.DrainsAndAtomImagesAreServed : Prop :=
  (∀ (s s1 s2 : State) (k : ClusterId) (c : CtxId) (q : ACmd) (tile : BitVec 256) (x y : List Byte) (spilled : List (Nat × Int)),
     s.Serves k c q tile 0x04 → tcsbOk tile = true → Memory.wf s.mem = true →
     let a := (s.cluster k).arr
     let target := if q.flag 3 then 8 * k + q.field 7 1 % 8 else coreOf c
     let base := q.field 8 8
     let bytes := drainBytes tile (q.field 4 1) (q.field 6 1) (q.field 20 4) (q.field 16 4)
     let places := ((onesOf 8 (q.field 4 1)).zipIdx).flatMap fun e => (List.range (q.field 6 1)).map fun i =>
       (e.1, q.field 5 1 + i, base + e.2 * q.field 16 4 + i * q.field 20 4)
     (q.flag 3 = false → localRegion (s.agent c) .serviceWrite (BitVec.ofNat 64 base) bytes = none) →
     (q.flag 3 = true → s.groupHolds c target (places.map (·.2.2)) (outBytesOf tile) = true) →
     s.readTable c tile = .ok (s1, x, y) → s1.readSpills c tile a.spills = .ok (s2, spilled) →
     let table := fun (i : Nat) => (v16 (fieldAt x (2 * i) 2), v32 (fieldAt y (4 * i) 4))
     let r := places.foldl (fun r e => drainRow tile a (a.bw ++ spilled) table e.1 e.2.1 e.2.2 r)
       { rows := [], flags := 0, drop := [], wovf := false }
     let l := r.rows.flatMap fun e => (List.range e.2.length).map fun j => (localAt target (e.1 + j), e.2.getD j 0)
     (l.map (·.1)).Nodup →
     ∃ t, exec (.mdrainService k) s = .next t ∧
       Served s t k c q {} (fun z =>
         { (z.addFlags r.flags) with
           mstat := 0, drained := if r.wovf then z.mstat ||| mWovf else z.mstat, auOpen := decide (1 < z.arrayCmds)
           csr := { (z.addFlags r.flags).csr with dropmag := r.drop.foldl dropAdd z.csr.dropmag } }) ∧
       BytesKept s t (l.map (·.1)) ∧ (∀ e ∈ l, t.byte e.1 = e.2 ∧ t.isFull e.1 = true) ∧
       ∀ w, w ∉ l.map (fun e => wordIx e.1) → (t.full.contains w = s.full.contains w)) ∧
  (∀ (s s1 s2 : State) (k : ClusterId) (c : CtxId) (q : ACmd) (tile : BitVec 256) (recs : List Rec) (cols : List (List Byte × Nat)),
     s.Serves k c q tile 0x15 → Memory.wf s.mem = true →
     let p := coreOf c
     let g := s.agent c
     let d := aimgOfImage q
     d.ok tile = true → localRegion g .serviceRead d.recPtr d.recArea = none →
     localRegion g .serviceWrite d.outPtr (d.outArea tile) = none →
     ((∃ b, b < d.nb ∧ s.isFull (localAt p (d.recs + b * d.rstr)) = false) → exec (.aimgService k) s = .next s) ∧
     ((∀ b, b < d.nb → s.isFull (localAt p (d.recs + b * d.rstr)) = true) → s.readRecs g d d.nb = .ok (s1, recs) →
       let all := atomsOf recs d.start
       let u := all.take (tRows tile)
       s1.readColumns g tile d u = .ok (s2, cols) →
       let codes := cols.map fun e => weightCodes (tFmtw tile) d.m e.1
       let entries := recs.map fun r => (u.zip (cols.map (·.2))).map fun e => coefEntry r e.1 e.2
       let flags := entries.foldl (fun a row => row.foldl (fun b e => b ||| e.2) a) 0 ||| if codes.any (·.2) then fOTR else 0
       let next := if all.length ≤ tRows tile then 256 else u.getLastD 0 + 1
       let bitmap := (recs.zipIdx).foldl (fun a e => a + if e.1.esc then 2 ^ e.2 else 0) 0
       ∃ (t : State) (w : SMap (BitVec 16)), exec (.aimgService k) s = .next t ∧
         Served s t k c q { (s.cluster k).arr with shadow := w } (fun x =>
           match x.aimgDst with
           | (sd, vd) :: rest => { ((x.addFlags flags).deliver (.s sd) (BitVec.ofNat 128 next) 0).deliver (.v vd)
               (BitVec.ofNat 128 bitmap) 0 with aimgDst := rest }
           | [] => x.addFlags flags) ∧
         (∀ row col, row < 128 → col < 128 → SMap.look w (128 * row + col) 0 =
           if col / tCols tile = d.pnl ∧ row < tRows tile then
             if col % tCols tile < d.m then BitVec.ofNat 16 (((codes.getD row ([], false)).1).getD (col % tCols tile) 0) else 0
           else SMap.look (s.cluster k).arr.shadow (128 * row + col) 0) ∧
         let l := (List.range d.nb).flatMap fun b => (List.range (2 * tRows tile)).map fun j =>
           (localAt p (d.out + b * d.ostr + j), BitVec.ofNat 8 ((((entries.getD b []).getD (j / 2) (0, 0)).1) / 256 ^ (j % 2)))
         BytesKept s t (l.map (·.1)) ∧ ((l.map (·.1)).Nodup → ∀ e ∈ l, t.byte e.1 = e.2 ∧ t.isFull e.1 = true)))

/-- R72, R74, R76, R79, R84, R85, R279, R281, R282: the Pilot serves the oldest request of the next core. `dload` installs its slot
whole and increments its counter, or leaves the slot and puts the counter into ERROR; `penc` writes its segment's record, `pdec` the
values of its record, each word full.
That a `dload` occupies the Pilot for 2 times ceil(K/64) cycles (log 73), that a request leaves its queue as its service begins
(log 72), and that its flags go to the SW that its context runs with (log 70), are the model's choices (DESIGN CHOICE). -/
def Obligations.PilotRequestsAreServed : Prop :=
  ∀ (s s1 s2 : State) (k : ClusterId) (p : Place) (c : CtxId) (l : Level) (rest : List PilotReq),
    (∀ (slot ctr : Nat) (ptr : Word) (h : List Byte), let r : PilotReq := .dload c slot ptr ctr l
      let g : Agent := { s.agent c with level := l }
      let s0 := s.pilotTakes k p 0
      s.PilotTakes k p r rest → s0.svcRead g ptr 8 true = .ok (s1, h) →
      (dictHeader (natOfBytes h) = none → ∃ t, exec (.dloadService k) s = .next t ∧
        (t.cluster k).dicts = (s.cluster k).dicts ∧ (t.core p).pilotQ = rest ∧
        (t.counter p ctr).err = true ∧ (t.counter p ctr).value = (s.counter p ctr).value ∧
        ((s.counter p ctr).err = false → (t.counter p ctr).record = 2 ^ 33)) ∧
      ∀ (len n : Nat) (atoms : List Nat), dictHeader (natOfBytes h) = some (len, n) →
        s1.readAtoms g ptr len n = .ok (s2, atoms) →
        ∃ t, exec (.dloadService k) s = .next t ∧ MemoryKept s t ∧
          Changes s t (onOnly c fun x => x.addFlags (if (dictOf len n atoms).2 then fNV else 0))
            (onOnly p fun x => ({ x with pilotQ := rest } : Core).withCounter ctr
              { s.counter p ctr with value := (s.counter p ctr).value + 1 })
            (onOnly k fun x => { x with
              pilotLast := p % 8, pilotFreeAt := s.now (8 * k) + 2 * ceilDiv n 64
              dicts := SMap.put x.dicts slot (dictOf len n atoms).1 })) ∧
    (∀ (dst src : Word) (slot smax : Nat) (tau eps : BitVec 16),
      let r : PilotReq := .penc c dst src slot tau eps smax l
      let g : Agent := { s.agent c with level := l }
      let d := s.dict p slot
      let segment := (runFrom (vaOf src) (4 * d.len)).map (localAt p)
      let y := pencRecord d slot tau eps smax ((List.range d.len).map fun i => fieldAt (segment.map s.byte) (4 * i) 4)
      s.PilotTakes k p r rest → Memory.wf s.mem = true → vaOf dst % 8 = 0 →
      localRegion g .serviceRead src (4 * d.len) = none → localRegion g .serviceWrite dst (8 + 2 * d.len) = none →
      y.1.length ≤ 8 + 2 * d.len → s.Sound segment →
      ∃ t, exec (.pencService k) s = .next t ∧ WordsWritten s t p (vaOf dst) y.1 ∧
        PilotServed s t k p c rest y.2.1 (s.now (8 * k) + pencCycles d y.2.2 y.1.length)) ∧
    ∀ (dst src : Word) (len : Nat) (x : Rec), let r : PilotReq := .pdec c dst src l
      let g : Agent := { s.agent c with level := l }
      s.PilotTakes k p r rest → Memory.wf s.mem = true → vaOf dst % 8 = 0 →
      (s.pilotTakes k p 1).readRec g src = .ok (s1, len, x) → localRegion g .serviceWrite dst (4 * len) = none →
      let y := pdecValues (s.dict p x.slot) len x
      ∃ t, exec (.pdecService k) s = .next t ∧ WordsWritten s t p (vaOf dst) (y.1.flatMap (bytesOfNat 4)) ∧
        PilotServed s t k p c rest (if y.2 then fNV else 0) (s.now (8 * k) + (4 + len / 4))

/-- R90, R107, R330: with the array free, the next AU is the arbiter's choice by credits. One that begins finds an empty array; one
that is marked for restore comes from its frame, or begins where nothing of it was saved. A marked AU that stays frozen in the array
continues in place, and needs no frame.
When a frozen AU leaves is the model's choice (log 42). -/
def Obligations.AccumulationUnitsAreGrantedAndRestored : Prop :=
  (∀ (s : State) (k : ClusterId) (i : Nat) (c : CtxId) (credits : List Nat), s.Picks k i c credits →
    clusterOf (coreOf c) = k → let p := (s.cluster k).scanned k i
    ((s.ctx c).auMarked = false → ∃ t, exec (.arrayArbitration k) s = .next t ∧ MemoryKept s t ∧
      Changes s t onNone onNone (onOnly k fun x => { x.charged p credits with arr := { owner := some c } }) ∧
      exec (.auRestore k) s = .next s) ∧
    ((s.ctx c).auMarked = true → (∀ e ∈ (s.cluster k).images, e.1 ≠ c) →
      exec (.arrayArbitration k) s = .next s ∧
      ((s.ctx c).auFrame = none → ∃ t, exec (.auRestore k) s = .next t ∧ MemoryKept s t ∧
        Changes s t (onOnly c Context.unheld) onNone
          (onOnly k fun x => { (x.charged p credits).unheld c with arr := { owner := some c } })) ∧
      ∀ off, (s.ctx c).auFrame = some off →
        let l := runFrom (dieAt (dieOf (coreOf c)) off) Config.frameImageBytes
        let y := readImage c (s.marksAt (dieAt (dieOf (coreOf c)) off)) (l.map s.byte)
        Memory.wf s.mem = true → off + Config.frameImageBytes ≤ lpctOff → s.Sound l → ∃ t, exec (.auRestore k) s = .next t ∧ MemoryKept s t ∧
          Changes s t
            (onOnly c fun x => { x.unheld with tcsb := some y.1, mstat := y.2.1, auOpen := true, arrayCmds := y.2.2.1.length })
            (onOnly (coreOf c) fun x => { x with arrayQ := y.2.2.1 ++ x.arrayQ })
            (onOnly k fun x => { (x.charged p credits).unheld c with arr := y.2.2.2 }))) ∧
  ∀ (s : State) (k : ClusterId) (c : CtxId), (s.cluster k).arr.owner = some c → (s.cluster k).arr.frozen = true →
    clusterOf (coreOf c) = k → s.auReady (coreOf c) = some c → (s.ctx c).auMarked = true → (s.ctx c).auFrame = none →
    (∀ e ∈ (s.cluster k).images, e.1 ≠ c) →
    ∃ (t : State) (credits : List Nat), exec (.auRestore k) s = .next t ∧ MemoryKept s t ∧
      Changes s t (onOnly c Context.unheld) onNone (onOnly k fun x =>
        { x.unheld c with arr := { x.arr with frozen := false }, arrayLast := coreOf c % 8, credits := credits })

/-! ## The copy engine at work -/

/-- R139, R243, R244, R289: a port starts its commands in order, each once the accesses before its head are performed; `cpy.cb` starts
when its buffer has a free slot, which it takes.
R138, R140, R237, R243, R349, R373: a command's next element is read while its port has room, once what the port issued before it on
its route has been performed, and enters the port with its bytes, its destination and the ports it takes; a failed read is recorded, and a
suppressed write counts as delivered. A piece that arrives is written whole, and sets its word full, in own memory, at a remote place or
on the far side; the last word of a list's entry counts it (R242). Where an earlier entry of a `putx` named the same element (log 60), or a
word of a list's entry was rewritten in delivery (R303), one of the two values stands.
The order of pieces and the choice of a REASON are the model's (log 17, log 52); which entry of a `putx` wins is a free value
(log 60). -/
def Obligations.EngineCommandsStartAndMovePieces : Prop :=
  (∀ (s : State) (p : Place) (e : EngCmd), (s.core p).Next e →
     let b := s.buffer p e.tab
     if ∃ r ∈ (s.core p).fabric, r.ctx = e.ctx ∧ r.seq < e.seq then
       exec (.engineCommandStart p) s = .next s ∧ exec (.cpyCbSlotTake p e.seq) s = .next s
     else
       (e.kind ≠ .cpyCb → ∃ t, exec (.engineCommandStart p) s = .next t ∧ MemoryKept s t ∧
         Changes s t onNone (onOnly p fun x => x.withCommand { e with started := true }) onNone) ∧
       (e.kind = .cpyCb → exec (.engineCommandStart p) s = .next s ∧
         (b.free = 0 → exec (.cpyCbSlotTake p e.seq) s = .next s) ∧
         (b.free ≠ 0 → ∃ t, exec (.cpyCbSlotTake p e.seq) s = .next t ∧ MemoryKept s t ∧
           Changes s t onNone (onOnly p fun x =>
             (x.withBuffer e.tab { b with free := b.free - 1, aidx := b.aidx + 1 }).withCommand
               { e with started := true, slot := some (b.slotVa b.aidx) }) onNone))) ∧
  ((∀ (s : State) (p : Place) (n : Nat) (e : EngCmd), s.InPort p n e → e.kind.pieces = true → e.started = true → e.next < e.total →
     (s.core p).inTransit + e.elem ≤ 32768 →
     (s.core p).mayFollow e = true →
     let far := s.farElem p e e.next
     (∀ va r, e.kind.outward = false → far = some va → s.farRoute p e va e.elem = some r → s.routeHeld p s.seq r = false) →
     let e1 : EngCmd := { e with next := e.next + 1 }
     match (far.map fun va => if s.suppressed p e va then some [] else s.cmdPath p e va).getD (some []), s.readElem p e e.next with
     | none, _ => ∃ t, exec (.engineDataPiece p n) s = .next t ∧ MemoryKept s t ∧
         Changes s t onNone (onOnly p fun x => x.withCommand (e1.fail e.next (2, e.place))) onNone
     | _, .error r => ∃ t, exec (.engineDataPiece p n) s = .next t ∧ MemoryKept s t ∧
         Changes s t onNone (onOnly p fun x => x.withCommand (e1.fail e.next r)) onNone
     | some path, .ok (s1, d, l) => ∃ t, exec (.engineDataPiece p n) s = .next t ∧ MemoryKept s t ∧
         Changes s t onNone (onOnly p fun x =>
           if s1.suppressed p e d = true then x.withCommand { e1 with done := e1.done + 1 }
           else { x.withCommand e1 with transit := x.transit ++ [{ cmd := n, elem := e.next, dest := d, bytes := l, seq := s.seq, path := path
                                                                   route := if e.kind.outward then far.bind fun va => s.farRoute p e va e.elem
                                                                            else none }] }) onNone) ∧
   ∀ (s : State) (p : Place) (n : Nat) (x : Piece) (e : EngCmd), (s.core p).transit[n]? = some x → s.InPort p x.cmd e →
     (x.src ≠ none → e.kind = .sendl ∧ x.bytes.length = 8) →
     (if s.pieceBlocked p e x = true then exec (.engineElementWrite p n) s = .next s
     else
       let rival := (e.wrote x).orElse fun _ => (x.src.map fun a => bytesAt (s.readRun a.1 a.2) 0 8).filter (· != x.bytes)
       let arrives := fun (y : Core) (f : EngCmd) => ({ y with transit := y.transit.eraseIdx n } : Core).withCommand f
       let lands := fun (a : Nat) => ∃ t l, exec (.engineElementWrite p n) s = .next t ∧
         (l = x.bytes ∨ rival = some l) ∧ (rival = none → l = x.bytes) ∧
         Changes s t onNone (onOnly p fun y =>
           if e.kind = .sendl ∧ x.src = none then
             (arrives y (e.landed x l)).withCounter e.ctr { s.counter p e.ctr with value := (s.counter p e.ctr).value + 1 }
           else arrives y (e.landed x l)) onNone ∧
         (Memory.wf s.mem = true → PieceWritten s t a l)
       let fails := fun (r : EngErr) => ∃ t, exec (.engineElementWrite p n) s = .next t ∧ MemoryKept s t ∧
         Changes s t onNone (onOnly p fun y =>
           let z := arrives y (e.fail x.elem r)
           if e.kind = .sendl then { z with transit := z.transit.filter fun w => !(w.cmd == x.cmd && w.elem == x.elem) } else z) onNone
       if e.kind = .put ∨ e.kind = .putx then
         match s.remotePlace p e x.dest x.bytes.length with
         | .ok a => lands a
         | .error r => fails r
       else if e.kind = .sendl then
         if s.unreachable (s.partOf p % 16) e.place = true ∨ s.nearOn e.place x.dest = false then fails (2, e.place)
         else lands (nearPlace e.place e.hkey x.dest)
       else if e.kind = .cpyFrom then
         match s.farPlace p e .serviceWrite x.dest x.bytes.length with
         | .ok (s1, a) => s1.cPage p e x.dest = false → lands a
         | .error r => fails r
       else if s.nearOn p x.dest = true then lands (nearPlace p e.hkey x.dest)
       else fails (2, placeWord p)))

/-- R142, R237, R238, R289: a command whose elements are all delivered leaves its port and adds one to its counter, where a `sendl` has
counted its entries already; one with a failed element puts its counter into ERROR with the lowest failed element and its reason,
and a counter in ERROR keeps its record.
R242, R303, R305: the next entry of a list takes a slot of the remote buffer and publishes it, and its words are on their way there,
zero-padded, then its first word with its length and the sender's place; with no free slot, an entry whose bytes cannot be read, or a word to
whose place no port leads (R373), the list stops, and the destination register is the number of slots taken.
R245-R247, R284, R285: a block of `cpyz` is coded with its table, or its source as it stands where coding saves nothing, and
written at the image's next place; an image's next record is expanded into local memory; `kvcommit` moves the rows of its path and then
closes its descriptor, and does nothing where the descriptor breaks its limits.
The choice of a REASON, the padding of blocks and what a header with reserved bits does are the model's (log 35, log 36, log 52,
log 84). -/
def Obligations.CommandsEndAndListsAndBlocksMove : Prop :=
  (∀ (s : State) (p : Place) (n : Nat) (e : EngCmd), s.InPort p n e → e.sd = none →
     (¬ s.Ended p e → exec (.counterIncrement p n) s = .next s ∧ exec (.counterError p n) s = .next s) ∧
     (s.Ended p e → e.err = none → exec (.counterError p n) s = .next s ∧
       ∃ t, exec (.counterIncrement p n) s = .next t ∧ MemoryKept s t ∧
         let c := s.counter p e.ctr
         Changes s t onNone (onOnly p fun x =>
           let y := x.ended n e (s.buffer p e.tab)
           if e.kind = .sendl then y else y.withCounter e.ctr { c with value := c.value + 1 }) onNone) ∧
     ∀ first reason wher, s.Ended p e → e.err = some (first, reason, wher) → coreOf e.ctx = p →
       exec (.counterIncrement p n) s = .next s ∧
       ∃ t, exec (.counterError p n) s = .next t ∧
         let c := s.counter p e.ctr
         t.counter p e.ctr = (if c.err then c else
           { c with err := true, deliv := min e.done (2 ^ 24 - 1), record := BitVec.ofNat 64 (first % 2 ^ 32 + 2 ^ 32 * reason) }) ∧
         (t.core p).port = ((s.core p).noCommand n).port ∧
         (reason ∉ [1, 2, 4, 10] → MemoryKept s t) ∧ RegsKept s t []) ∧
  (∀ (s : State) (p : Place) (n : Nat) (e : EngCmd) (w l : List Byte), s.InPort p n e → e.kind = .sendl → e.started = true →
     (s.core p).mayFollow e = true →
     let b := s.buffer e.place e.tab
     let stops := fun (f : EngCmd) => ∃ t, exec (.sendlEntry p n) s = .next t ∧ MemoryKept s t ∧
       Changes s t (fun c x => if c = e.ctx then
           match e.sd with | some d => x.deliver (.s d) (BitVec.ofNat 128 e.taken) 0 | none => x else x)
         (onOnly p fun x => x.withCommand { f with next := e.count, sd := none }) onNone
     (e.next < e.count → s.refused p e.place 0 = false → b.cfg = true → b.eng = true → s.nearOn e.place (vaOf b.base) = true →
       (b.free = 0 → stops e) ∧
       (b.free ≠ 0 → s.nearRead p e (vaOf e.list + 8 * e.next) 8 = .ok w → let va := fieldAt w 0 4; let len := fieldAt w 4 2
         len + 8 ≤ b.slot → (s.core p).inTransit + roundUp len 8 + 8 ≤ 32768 →
         (let own := (localRegion (s.engAgent p e) .load (BitVec.ofNat 64 va) len).isNone && (regionProbes va len).all (s.bankOn p)
          (own = false → stops (e.fail e.next (3, 0))) ∧
          ∀ x, own = true → (runFrom va len).find? (fun x => s.poisoned (localAt p x)) = some x →
             stops (e.fail e.next (10, paOf (localAt p x)))) ∧
         (s.entryBytes p e va len = .ok l →
           (∃ i, i ≤ ceilDiv len 8 ∧ s.cmdPath p e (b.slotVa b.aidx + 8 * i) = none) → stops (e.fail e.next (2, e.place))) ∧
         (s.entryBytes p e va len = .ok l → (∀ i, i ≤ ceilDiv len 8 → (s.cmdPath p e (b.slotVa b.aidx + 8 * i)).isSome = true) →
           ∃ t words first, exec (.sendlEntry p n) s = .next t ∧ MemoryKept s t ∧
           t.buffer e.place e.tab = { b with free := b.free - 1, aidx := b.aidx + 1, pidx := b.pidx + 1, filled := b.filled + 1 } ∧
           t.command p n = some { e with next := e.next + 1, taken := e.taken + 1 } ∧
           (t.core p).transit = (s.core p).transit ++ (words ++ [first]) ∧
           (∀ x ∈ words ++ [first], x.cmd = n ∧ x.elem = e.next) ∧
           words.map (fun x => (x.dest, x.bytes, x.src)) = (List.range (ceilDiv len 8)).map (fun i =>
             (b.slotVa b.aidx + 8 * (i + 1), bytesAt l (8 * i) 8, some (localAt p (va + 8 * i), min 8 (len - 8 * i)))) ∧
           first.dest = b.slotVa b.aidx ∧ first.bytes = bytesOfNat 8 (len + 2 ^ 16 * placeWord p) ∧ first.src = none))) ∧
     (e.count ≤ e.next → (e.sd ≠ none ∨ e.count = 0) → stops e)) ∧
  ((∀ (s : State) (p : Place) (n : Nat) (e : EngCmd), s.InPort p n e → e.started = true → e.next < e.total →
     (s.core p).mayFollow e = true → s.runHeld p e (vaOf e.remote + e.imgOff) (8 + roundUp (e.blockLen e.next) 8) = false →
     let va := vaOf e.loc + 4096 * e.next
     (∀ block s1, e.kind = .cpyzC → s.entryBytes p e va (e.blockLen e.next) = .ok block →
       let z := (s.zTable p e.tab).forCommand e.seq
       let y := zRecord (fmtOf e.remote) e.tab z.1 z.2 block
       let out := vaOf e.remote + e.imgOff
       s.suppressed p e out = false → s.farWriteWords p e out y out y.length (y.length / 8) = (s1, none) →
       exec (.cpyzBlock p n) s = .next
         (s1.setCommand p { e with next := e.next + 1, imgOff := e.imgOff + y.length, done := e.done + 1 })) ∧
     (∀ s1 block size, e.kind = .cpyzE → s.readRecord p e (e.blockLen e.next) = .ok (s1, block, size) →
       (∀ v ∈ regionProbes va (e.blockLen e.next), s.bankOn p v = true) → block.length % 8 = 0 → va % 8 = 0 →
       block.length ≤ 4096 → Memory.wf s.mem = true →
       ∃ t, exec (.cpyzBlock p n) s = .next t ∧ WordsWritten s t p va block ∧
         Changes s t onNone (onOnly p fun x =>
           x.withCommand { e with next := e.next + 1, done := e.done + 1, imgOff := e.imgOff + size }) onNone) ∧
     (∀ r, e.kind = .cpyzE → s.readRecord p e (e.blockLen e.next) = .error r →
       ∃ t, exec (.cpyzBlock p n) s = .next t ∧ MemoryKept s t ∧
         Changes s t onNone (onOnly p fun x => x.withCommand (({ e with next := e.total } : EngCmd).fail e.next r)) onNone)) ∧
   ∀ (s : State) (p : Place) (n : Nat) (e : EngCmd) (desc path : List Byte), s.InPort p n e → e.kind = .kvcommit →
     e.started = true → e.next = 0 → s.entryBytes p e (vaOf e.loc) 64 = .ok desc → s.entryBytes p e (vaOf e.list) e.count = .ok path →
     (s.core p).mayFollow e = true → s.kvHeld p e = false →
     let d := kvDescOf desc
     if ∃ f ∈ (s.core p).port, f.kind = .kvcommit ∧ vaOf f.loc = vaOf e.loc ∧ f.seq < n then
       exec (.kvcommitService p n) s = .next s
     else if kvDescOk desc e.pos e.count = false then
       ∃ t, exec (.kvcommitService p n) s = .next t ∧ MemoryKept s t ∧
         Changes s t onNone (onOnly p fun x => x.withCommand (({ e with next := 1 } : EngCmd).fail 0 (2, placeWord p))) onNone
     else ∀ s1, (∀ b ∈ path, b.toNat < d.nspec ∧ bitOf d.live b.toNat = true) →
       s.moveRows p { e with remote := d.rows } d 0 path = (s1, none) → (s1.command p n = some e) → Memory.wf s1.mem = true →
       ∃ t, exec (.kvcommitService p n) s = .next t ∧
         (∀ j, j < 32 → t.byte (localAt p (vaOf e.loc) + 32 + j) = 0) ∧
         fieldAt ((List.range 8).map fun j => t.byte (localAt p (vaOf e.loc) + 24 + j)) 0 8 = (e.pos + e.count) % 2 ^ 32 ∧
         t.command p n = some { e with next := 1, done := 1 })

/-! ## Weight-driven execution -/

/-- R112, R114, R115, R117, R124: a block is fetched whole and checked before any effect: a bad CRC or header traps WDE_BLOCK at beat 0
with its KIND. A no-op block goes on; an array block with no valid TCSB traps MCFG_STATE; swap, stream and drain blocks put their commands
into the array queue, with the operands of slot table and payload, of which one that breaks its limits is KIND 3; once the command has
been served the chain goes on.
When a unit and a block complete is the model's choice (log 43). -/
def Obligations.WeightBlocksAreFetchedAndCommandTheArray : Prop :=
  (∀ (s : State) (c : CtxId), (s.ctx c).run = .running → (s.ctx c).inChain = true → s.beforeHead c = none →
    (s.ctx c).wde.fetched = none →
    match s.fetchBlock c with
    | .error e => exec (.wdeBlockFetch c) s = .next (s.wdeTrap c 0 e)
    | .ok (s1, l) => match headerKind (wblockOf l) (coreOf c % 8) with
      | some kind => exec (.wdeBlockFetch c) s = .next
          ((s1.setWde c { (s1.ctx c).wde with opc := (wblockOf l).opc }).wdeTrap c 0 { cause := .wdeBlock, detail := BitVec.ofNat 64 kind })
      | none => ∃ t, exec (.wdeBlockFetch c) s = .next t ∧ MemoryKept s t ∧ Changes s t (onOnly c fun x =>
          let w : Wde := { x.wde with opc := (wblockOf l).opc, fetched := some l, beat := (wblockOf l).beat x.wde.unit }
          { x with wde := w, csr := { x.csr with wds := wdsWord w false } }) onNone onNone) ∧
  ∀ (s : State) (c : CtxId) (b : WBlock) (tile : BitVec 256),
    (s.AtUnit c b 0x00 0 → ∃ t, exec (.wdeNoOp c) s = .next t ∧ GoesOn s t c b (s.ctx c).wde.esc id id id) ∧
    (∀ n, (s.ctx c).tcsb = none →
      ∀ e ∈ [(Instr.loadStationary c, 0x01), (.wdeSwap c, 0x02), (.wdeStream c, 0x03), (.wdeDrain c, 0x04), (.accumulateAtoms c, 0x08)],
        s.AtUnit c b e.2 n → s.unitQueued c = false → exec e.1 s = .next (s.wdeTrap c (b.beat n) { cause := .mcfgState })) ∧
    (∀ e ∈ [(Instr.wdeSwap c, 0x02), (.wdeStream c, 0x03), (.wdeDrain c, 0x04), (.accumulateAtoms c, 0x08)],
      (∀ n, s.AtUnit c b e.2 n → (e.2 = 0x08 → n ≠ 0) → s.unitQueued c = true → exec e.1 s = .next (s.heldNow c)) ∧
      (s.AtEnd c b e.2 → ∃ t, exec e.1 s = .next t ∧ GoesOn s t c b (s.ctx c).wde.esc id id id)) ∧
    ((s.ctx c).tcsb = some tile → s.unitQueued c = false →
      (s.AtUnit c b 0x02 0 → Commands s c (.wdeSwap c) (imageOf [(0, 1, 0x02), (1, 1, 4)])) ∧
      (∀ src : Word, s.AtUnit c b 0x03 0 → s.slotEntry c b.dslot = .ok (s, src) →
        let panel := b.num 0 1; let b0 := b.num 1 1; let r := b.num 2 1; let stride := b.num 4 4
        let n := spanBytes r stride (lineBytesOf tile (tFmts tile))
        if b.num 3 1 ≠ 0 ∨ stride % 8 ≠ 0 ∨ mstrmLimits tile panel b0 r stride = false ∨ vaOf src % 8 ≠ 0 ∨
            regionTraps true (s.agent c) .load src n ≠ [] then
          exec (.wdeStream c) s = .next (s.wdeTrap c 1 { cause := .wdeBlock, detail := 3 + 16 })
        else
          Commands s c (.wdeStream c) (imageOf [(0, 1, 0x03), (1, 1, 4), (2, 2, if r = 1 then 0 else stride), (4, 1, panel), (5, 1, b0),
            (6, 1, r), (8, 8, src.toNat)])) ∧
      ∀ dst : Word, s.AtUnit c b 0x04 0 → s.slotEntry c b.dslot = .ok (s, dst) →
        let panel := b.num 0 1; let b0 := b.num 1 1; let r := b.num 2 1; let stride := b.num 4 4
        let n := drainBytes tile (2 ^ panel) r stride 0
        let rows := (List.range r).map fun i => vaOf dst + i * stride
        let far := 8 * clusterOf (coreOf c) + b.dcore
        if b.num 3 1 ≠ 0 ∨ stride % 8 ≠ 0 ∨ 128 / tCols tile ≤ panel ∨ mdrainLimits tile (2 ^ panel) b0 r stride 0 = false ∨
            vaOf dst % 8 ≠ 0 ∨ (b.dcore = coreOf c % 8 ∧ regionTraps false (s.agent c) .store dst n ≠ []) ∨
            (b.dcore ≠ coreOf c % 8 ∧ s.groupHolds c far rows (outBytesOf tile) = false) then
          exec (.wdeDrain c) s = .next (s.wdeTrap c 1 { cause := .wdeBlock, detail := 3 + 16 })
        else
        (b.dcore = coreOf c % 8 →
          Commands s c (.wdeDrain c) (imageOf [(0, 1, 0x04), (1, 1, 4), (4, 1, 2 ^ panel), (5, 1, b0), (6, 1, r), (8, 8, dst.toNat),
            (20, 4, if r = 1 then 0 else stride)])) ∧
        (b.dcore ≠ coreOf c % 8 →
          Commands s c (.wdeDrain c) (imageOf [(0, 1, 0x04), (1, 1, 12), (4, 1, 2 ^ panel), (5, 1, b0), (6, 1, r), (7, 1, b.dcore),
            (8, 8, vaOf dst), (20, 4, if r = 1 then 0 else stride)])))

/-- R113, R116, R118: a unit of a load-stationary block writes the elements that end in it to their positions of the shadow plane; a
payload that does not expand is KIND 7. The
first beat of an accumulate-atoms block gathers the record's atoms, or loads W_t for an escape record, and exchanges the planes; the
second one streams the coefficient row, or the escape record's values. Only a code record needs an even scale address (R283).
R119-R121, R93: a branch goes to its taken link when its condition has the sense named, and otherwise on by SUCC; BWUSED is that of
the open AU or of the last one drained; call pushes its
SUCC target, which return pops; tail pushes nothing; exit waits for the chain's array commands, writes its value to the destination
and ends weight-driven execution.
When a block completes and a branch condition is read are the model's choices (log 43). -/
def Obligations.AtomBlocksAndBlockLinks : Prop :=
  ((∀ (s : State) (c : CtxId) (b : WBlock) (tile : BitVec 256) (n : Nat), s.AtUnit c b 0x01 n → (s.ctx c).tcsb = some tile →
     b.bfmt = tFmtw tile → b.expand = none → exec (.loadStationary c) s = .next (s.wdeTrap c 1 { cause := .wdeBlock, detail := 7 + 16 })) ∧
   (∀ (s : State) (c : CtxId) (b : WBlock) (tile : BitVec 256) (x : List (Byte × Nat)) (n : Nat), s.AtUnit c b 0x01 n →
     (s.ctx c).tcsb = some tile → b.bfmt = tFmtw tile → b.expand = some x →
     let l := x.map (·.1)
     let total := 8 * l.length / ((kindOf b.bfmt).getD .o4).width
     if total % 8 ≠ 0 ∨ 128 < 8 * (b.route / 16) + total / 8 then
       exec (.loadStationary c) s = .next (s.wdeTrap c (b.beat n) { cause := .wdeBlock, detail := BitVec.ofNat 64 (3 + 16 * b.beat n) })
     else if s.auIdle c = false then exec (.loadStationary c) s = .next ((s.seekAu c).heldNow c)
     else
       let y := loadUnit b.bfmt b l n
       ∃ (t : State) (w : SMap (BitVec 16)), exec (.loadStationary c) s = .next t ∧
         (∀ i, SMap.look w i 0 = match (y.1.filter fun e => e.1 == i).getLast? with
           | some e => BitVec.ofNat 16 e.2
           | none => SMap.look (s.cluster (clusterOf (coreOf c))).arr.shadow i 0) ∧
         let own := fun (z : Context) => z.addFlags (if y.2 then fOTR else 0)
         let cluster := fun (z : Cluster) => { z with arr := { z.arr with shadow := w } }
         if n + 1 < b.units then MemoryKept s t ∧ Changes s t
           (onOnly c fun z => (own z).sequenced s.cycle { z.wde with unit := n + 1, beat := b.beat (n + 1) }) onNone
           (onOnly (clusterOf (coreOf c)) cluster)
         else GoesOn s t c b (s.ctx c).wde.esc own id cluster) ∧
   ∀ (s s1 : State) (c : CtxId) (b : WBlock) (tile : BitVec 256) (src out : Word) (len : Nat), (s.ctx c).tcsb = some tile →
     s.slotEntry c b.dslot = .ok (s, src) → s.slotEntry c (b.num 30 1 % 16) = .ok (s, out) →
     let a := atomsPay b src out
     let place := localAt (coreOf c) (vaOf src)
     let h := (runFrom place 8).map s.byte
     a.ok tile b = true → vaOf out % 8 = 0 → localRegion (s.agent c) .store out (2 * tRows tile) = none →
     localRegion (s.agent c) .load src 8 = none → vaOf src % 8 = 0 → s.Sound (runFrom place 8) → lOf (fieldAt h 1 1) = some len →
     len ≤ tRows tile →
     (s.AtUnit c b 0x08 0 → s.isFull place = false → exec (.accumulateAtoms c) s = .next (s.heldNow c)) ∧
     (s.AtUnit c b 0x08 0 → s.isFull place = true → s.auIdle c = true → s.quiet c = true →
       (if bitOf (fieldAt h 0 1) 4 then
         mldsLimits tile (vaOf a.wt) a.p a.stride false = true ∧ a.wt.toNat % 8 = 0 ∧
           s.serveMlds c tile { ctx := c, img := imageOf [(0, 1, 1), (2, 2, a.stride), (4, 1, a.p), (8, 8, a.wt.toNat)] } = .done s1
       else s.serveAimg c tile { ctx := c, img := aimgImage (a.aimg tile len) } = .done s1) →
       (s1.ctx c).wde = (s.ctx c).wde →
       ∃ t, exec (.accumulateAtoms c) s = .next t ∧ MemoryKept s1 t ∧
         Changes s1 t (onOnly c fun z => z.sequenced s.cycle { z.wde with unit := 1, beat := b.beat 1 }) onNone
           (onOnly (clusterOf (coreOf c)) fun z => { z with arr := { z.arr with active := z.arr.shadow, shadow := z.arr.active } })) ∧
     (s.AtUnit c b 0x08 0 → s.isFull place = true → s.auIdle c = true → s.quiet c = true → bitOf (fieldAt h 0 1) 4 = false →
       a.scl.toNat % 2 ≠ 0 → exec (.accumulateAtoms c) s = .next (s.wdeTrap c 1 { cause := .wdeBlock, detail := 3 + 16 })) ∧
     (s.AtUnit c b 0x08 1 → s.unitQueued c = false →
       let row := [(0, 1, 3), (4, 1, a.p), (5, 1, a.b0), (6, 1, 1)]
       Commands s c (.accumulateAtoms c) (if bitOf (fieldAt h 0 1) 4 then imageOf (row ++ [(1, 1, 6), (7, 1, len), (8, 8, vaOf src + 8)])
         else imageOf (row ++ [(1, 1, 4), (8, 8, vaOf out)])))) ∧
  (∀ (s : State) (c : CtxId) (b : WBlock),
     let w := (s.ctx c).wde
     let goes := fun (i : Instr) (next : Nat) (stack : List Word) => ∃ t, exec i s = .next t ∧ MemoryKept s t ∧
       Changes s t (onOnly c fun x => x.wentOn s.cycle s.seq (x.wde.went b next stack)) onNone onNone
     let traps := fun (i : Instr) (kind beat : Nat) =>
       exec i s = .next (s.wdeTrap c beat { cause := .wdeBlock, detail := BitVec.ofNat 64 (kind + 16 * beat) })
     let inGlobal := fun (a : Int) => 0x100000000 ≤ a ∧ a < 2 ^ 52
     let target := fun (off : Int) => (vaOf w.block : Int) + 256 * off
     let callee := vaOf (wordOfBytes b.pay)
     (s.AtUnit c b 0x10 0 → b.num 0 1 ≤ 5 → b.num 1 1 < 2 → signedOf 32 (b.num 4 4) ≠ 0 →
       let v := [(s.mstatWord c).getLsbD 1, decide (b.num 2 2 < w.esc), w.flags.getLsbD 0, w.flags.getLsbD 1, w.flags.getLsbD 2,
         w.flags.getLsbD 3].getD (b.num 0 1) false
       if b.num 0 1 = 0 ∧ (s.ctx c).arrayDone = false then exec (.branchOnFlag c) s = .next (s.heldNow c)
       else if v = bitOf (b.num 1 1) 0 then
         let a := target (signedOf 32 (b.num 4 4))
         (inGlobal a → goes (.branchOnFlag c) a.toNat w.stack) ∧ (¬ inGlobal a → traps (.branchOnFlag c) 6 1)
       else match afterBlock w b 1 with
         | .ok (next, stack) => goes (.branchOnFlag c) next stack
         | .error e => exec (.branchOnFlag c) s = .next (s.wdeTrap c 1 e)) ∧
     (s.AtUnit c b 0x10 0 → (5 < b.num 0 1 ∨ 2 ≤ b.num 1 1 ∨ signedOf 32 (b.num 4 4) = 0) → traps (.branchOnFlag c) 3 1) ∧
     (s.AtUnit c b 0x11 0 → callee % 256 = 0 → 0x100000000 ≤ callee →
       if 8 ≤ w.stack.length then traps (.callTensor c) 4 1
       else inGlobal (target b.succ) → goes (.callTensor c) callee (BitVec.ofNat 64 (target b.succ).toNat :: w.stack)) ∧
     (s.AtUnit c b 0x12 0 → match w.stack with
       | [] => traps (.wdeReturn c) 5 0
       | a :: rest => goes (.wdeReturn c) (vaOf a) rest) ∧
     (s.AtUnit c b 0x13 0 →
       if callee % 256 ≠ 0 then traps (.tail c) 3 1 else 0x100000000 ≤ callee → goes (.tail c) callee w.stack) ∧
     (s.AtUnit c b 0x14 0 →
       if (s.ctx c).arrayDone = false then exec (.exit c) s = .next (s.heldNow c)
       else ∃ t, exec (.exit c) s = .next t ∧ MemoryKept s t ∧ (t.ctx c).csr.wde = false ∧ (t.ctx c).wde = {} ∧
         RegsKept s t [(c, .s w.sd)] ∧ (w.sd ≠ 0 → t.val c (.s w.sd) = (wordOfBytes b.pay).setWidth 128) ∧
         (t.ctx c).pc = (s.ctx c).pc))

/-! ## Traps, fetch and messages -/

/-- R326, R327, R329, R332-R334: a task-level context with no result outstanding (R166, R264) takes a trap by writing the record and
its registers into its save area and entering supervisor level at TVEC, with the save area's address in s1 and the record's first
word in s2; every other register keeps its value. MODE.WDE keeps its value, and supervisor level issues heads all the same (log 20); a
handler's abort records no unit request (R266). With a result outstanding the trap stays due; above task level the context stops, and the
hypervisor is told its cause.
The save area's address and MODE.WDE at entry are the model's choices (log 20, log 21). -/
def Obligations.TrapsEnterTheHandler : Prop :=
  ∀ (s : State) (c : CtxId) (z : Trap),
    let x := s.ctx c
    let t := s.takeTrap c z
    let y := t.ctx c
    (x.run = .running → x.due = some z → exec (.takeTrap c) s = .next t) ∧
    (x.level ≠ .task → y.run = .stopped ∧ y.due = some z ∧ y.level = x.level ∧ RegsKept s t [] ∧ MemoryKept s t ∧
      (t.pkg (pkgOf (coreOf c))).told = (s.pkg (pkgOf (coreOf c))).told ++ [(z.cause.code, c)]) ∧
    (x.level = .task → s.outstanding c = true → y.due = some z ∧ y.run = x.run ∧ y.level = .task ∧ y.pc = x.pc ∧ RegsKept s t [] ∧
      MemoryKept s t) ∧
    (x.level = .task → s.outstanding c = false → s.canSave c (s.saveOff c) 4096 = true → x.auOpen = false →
      z.cause ≠ .uncorrectable →
      let base := dieAt (dieOf (coreOf c)) (s.saveOff c)
      let word0 := z.cause.code + 2 ^ 8 * (x.dsn % 4) + 2 ^ 10 * x.csr.hnd.toNat + 2 ^ 11 * x.csr.wde.toNat +
        2 ^ 12 * (z.origin % 4) + 2 ^ 14 * (z.cmdpos % 16) + 2 ^ 18 * (match x.kind with | .handler _ => 1 | _ => 0) +
        2 ^ 20 * (match x.kind with | .handler _ => 0 | _ => min 16 (s.unitReqs c).length)
      y.level = .sup ∧ y.pc = (s.part (s.partOfCtx c)).tvec ∧ y.dsn = 0 ∧ y.run = x.run ∧ y.due = none ∧ y.wait = none ∧
      y.csr.chk = true ∧ y.csr.sig = false ∧ y.csr.stp = false ∧ y.csr.gang = 0 ∧ y.csr.wde = x.csr.wde ∧ y.inChain = false ∧
      t.val c (.s 1) = BitVec.ofNat 128 (0x20000000 + s.saveOff c) ∧ t.val c (.s 2) = BitVec.ofNat 128 word0 ∧
      RegsKept s t [(c, .s 1), (c, .s 2)] ∧
      ((match x.kind with | .handler _ => True | _ => False) → (t.core (coreOf c)).inboxHeld = true) ∧
      (z.cause ≠ .sigMismatch → (s.part (s.partOfCtx c)).trctl.getLsbD 2 = false → Memory.wf s.mem = true →
        s.saveOff c + 4096 ≤ lpctOff →
        let area := fun (k n : Nat) => natOfBytes ((runFrom (base + k) n).map t.byte)
        BytesKept s t (runFrom base 4096) ∧ area 0 8 = word0 ∧ area 0x08 8 = x.pc.toNat ∧
        (x.dsn = 0 → area 0x10 8 = 0) ∧ (∀ p, x.dsn ≠ 0 → x.npc = some p → area 0x10 8 = p.toNat) ∧
        area 0x18 8 = z.fva.toNat ∧ area 0x20 8 = z.detail.toNat ∧ area 0x30 8 = s.gtc % 2 ^ 64 ∧ area 0x38 8 = x.csr.taskid.toNat ∧
        (∀ i : Fin 32, area (0x40 + 8 * i.val) 8 = (s.val c (.s i)).toNat ∧ area (0x140 + 16 * i.val) 16 = (s.val c (.v i)).toNat) ∧
        (∀ i : Fin 8, area (0x340 + 2 * i.val) 2 = (s.val c (.p i)).toNat) ∧
        (∀ i : Fin 4, area (0x350 + 8 * i.val) 8 = (s.val c (.b i)).toNat) ∧
        area 0x370 8 = (s.sw c).toNat ∧ area 0x378 8 = x.csr.ten.toNat ∧ area 0x380 8 = x.csr.cbase.toNat ∧
        area 0x390 8 = (if z.cause = .watchdog then 0 else s.budgetLeft c % 2 ^ 64) ∧ area 0x398 8 = x.csr.lpcnt.toNat ∧
        area 0x3A0 8 = x.csr.lpbeg.toNat ∧ area 0x3A8 8 = x.csr.lpend.toNat ∧ area 0x3D8 8 = 0 ∧
        area 0x3E0 32 = (x.tcsb.getD 0).toNat ∧ area 0x780 8 = 0))

/-- R348: SIG_MISMATCH, of a fetched line (R158) or of `sigchk` (R204), is taken as any other trap, and raises the suspect score of
the trapping core's cluster by 1, at most to 255, before the supervisor is entered: also where the save area cannot be written and an
AU is open. While a result is outstanding the trap is due and the score stands. (MODE.SIG is set at task level alone, R326.) -/
def Obligations.SignatureMismatchesRaiseTheScore : Prop :=
  ∀ (s : State) (c : CtxId) (z : Trap), z.cause = .sigMismatch → (s.ctx c).level = .task →
    let t := s.takeTrap c z
    (s.outstanding c = true → (t.ctx c).due = some z ∧ (t.ctx c).level = .task ∧ ∀ j, (t.cluster j).susp = (s.cluster j).susp) ∧
    (s.outstanding c = false →
      (∀ j, (t.cluster j).susp.toNat = if j = clusterOf (coreOf c) then min 255 ((s.cluster j).susp.toNat + 1)
        else (s.cluster j).susp.toNat) ∧
      (s.canSave c (s.saveOff c) 4096 = true → (s.ctx c).auOpen = false →
        (t.ctx c).level = .sup ∧ (t.ctx c).pc = (s.part (s.partOfCtx c)).tvec ∧
        t.val c (.s 1) = BitVec.ofNat 128 (0x20000000 + s.saveOff c) ∧ (t.val c (.s 2)).toNat % 256 = 0x12 ∧
        RegsKept s t [(c, .s 1), (c, .s 2)]))

/-- R40, R42, R45, R47: the watchdog traps a task whose BUDGET is spent, unless it waits for a result that may raise ARITH (R24); a gang that has gathered for longer than its first arrival's
GJTO traps every waiting member, unless that is 0 (R23); a line is fetched ahead while the buffer has room, and a fetch that fails leaves nothing; a forwarded
head is its follower's next move.
That the first arrival's GJTO counts is the model's choice (log 33). -/
def Obligations.WatchdogGangTimeoutAndFetchAhead : Prop :=
  (∀ (s : State) (c : CtxId),
    (if (s.ctx c).run = .running ∧ (s.ctx c).level = .task ∧ s.budgetOver c = true ∧ (s.ctx c).due = none ∧
        (s.ctx c).imageFault = none ∧ (s.ctx c).stepDue = none ∧ s.arithHolds c = false then
      exec (.watchdog c) s = .next (s.takeTrap c { cause := .watchdog })
    else exec (.watchdog c) s = .next s) ∧
    (let va := if (s.ctx c).lines.any (fun e => e.1 == lineVa (s.ctx c).pc) then (lineVa (s.ctx c).pc + 64) % 2 ^ 52
      else lineVa (s.ctx c).pc
    (s.ctx c).run = .running → (s.ctx c).lines.length < 2 → (s.ctx c).lines.any (fun e => e.1 == va) = false → (s.ctx c).fwd = [] →
      match s.fetchLine c va with
      | .error _ => exec (.lineFetch c) s = .next s
      | .ok (_, l) => ∃ t, exec (.lineFetch c) s = .next t ∧ MemoryKept s t ∧
          Changes s t (onOnly c fun x => { x with lines := x.lines ++ [(va, l)] }) onNone onNone) ∧
    ((s.ctx c).run = .running → (s.ctx c).inChain = false → s.onStream c = true → (s.ctx c).fwd ≠ [] → (.issue c) ∉ s.agenda →
      exec (.gangForward c) s = .next { s with agenda := .issue c :: s.agenda })) ∧
  ∀ (s : State) (n since : Nat) (g : Gang) (first : CtxId) (rest : List CtxId), s.gangs.find? (fun h => h.num == n) = some g →
    g.arrived = first :: rest → g.since = some since →
    if (s.ctx first).csr.gjto ≠ 0 ∧ since + (s.ctx first).csr.gjto.toNat ≤ s.nowCtx first then
      exec (.gjtoExpiry n) s = .next (g.arrived.foldl (fun t c => t.takeTrap c { cause := .gang }) s)
    else exec (.gjtoExpiry n) s = .next s

/-- R36-R38, R138, R230, R233, R307, R373: a message that follows nothing its core's port issued before it for its destination enters
the inbox, waits while that is full, and is bounced at a place that cannot be reached or where no port leads. The head message starts its handler on a free context with its values in s1 to s4; with
an empty entry it is bounced, and so it is at a locked one after more than 4,096 cycles at the head of an inbox that is not held. Operations that `msgdone` released enter their queues.
A held inbox goes on, or loses its head message.
The order in which messages move is the model's choice (log 16, log 41). -/
def Obligations.MessagesAreDeliveredAndHandled : Prop :=
  (∀ (s : State) (f : Flying), s.messages.find? (fun g => g.seq == f.seq) = some f →
    (f.msg.bnc = 0 → s.routeHeld f.src f.seq (messageRoute f.dst) = false) →
    let path := if ∃ g ∈ s.flying, g.seq = f.seq then f.path else s.path (pkgOf f.src) (pkgOf f.dst) 0
    let lost := s.unreachable f.bank f.dst = true ∨ path = none
    (¬ lost → (s.core f.dst).inbox.length < Config.inboxSlots →
      ∃ t, exec (.messageDelivery f.seq) s = .next t ∧ MemoryKept s t ∧
        (t.core f.dst).inbox.map InSlot.bare = (s.core f.dst).inbox.map InSlot.bare ++
          [{ num := (s.core f.dst).inboxNum, msg := f.msg, arrival := s.arrivalOf f.msg }] ∧
        (∀ g ∈ t.flying ++ (t.core f.src).outq, g.seq ≠ f.seq) ∧ ∀ c, t.ctx c = s.ctx c) ∧
    (¬ lost → Config.inboxSlots ≤ (s.core f.dst).inbox.length → ∃ t, exec (.messageDelivery f.seq) s = .next t ∧
      (t.core f.dst).inbox = (s.core f.dst).inbox ∧ ∃ g ∈ t.flying, g.seq = f.seq) ∧
    (lost → f.msg.bnc = 0 → s.unreachable f.bank f.msg.splace = false →
      ∃ (t : State) (b : Flying), exec (.messageDelivery f.seq) s = .next t ∧ b ∈ t.flying ∧ b.dst = f.msg.splace ∧
        b.msg.hidx = 1023 ∧ b.msg.bnc = 3 ∧ b.msg.p1 = f.msg.p1 ∧ b.msg.p2 = f.msg.p2 ∧ b.msg.p3 = f.msg.p3)) ∧
  (∀ (s : State) (p : Place) (m : InSlot), (s.core p).headMsg = some m →
    let q := s.part (s.partOf p)
    let ptr := SMap.look q.handlers m.msg.hidx (0 : Word)
    (∀ n rest, (s.core p).inboxHeld = false → s.startedNow p = false → q.locked.contains m.msg.hidx = false →
      ptr ≠ 0 → s.freeContexts p = n :: rest → ∃ t, exec (.handlerStart p) s = .next t ∧
        let x := t.ctx (ctxAt p n)
        x.run = .running ∧ x.level = .task ∧ x.pc = ptr ∧ x.kind = .handler m.num ∧ x.csr.hnd = true ∧
        x.csr.lbanks = (s.core p).hbanks ∧ x.csr.cbase = (s.core p).hcbase ∧ x.csr.hkey = (s.core p).hhkey ∧
        x.csr.budget = q.hbudget ∧ x.csr.chk = q.hmode.getLsbD 0 ∧ x.csr.sig = q.hmode.getLsbD 1 ∧
        x.sreg 1 = BitVec.ofNat 64 m.msg.id ∧ x.sreg 2 = BitVec.ofNat 64 m.msg.splace ∧ x.sreg 3 = BitVec.ofNat 64 m.msg.sgtc ∧
        x.sreg 4 = BitVec.ofNat 64 m.msg.hidx ∧ (∀ r : SReg, 4 < r.val → x.sreg r = 0) ∧ x.csr.sw = 0) ∧
    ((s.core p).inboxHeld = false → s.startedNow p = false → q.locked.contains m.msg.hidx = false → ptr = 0 →
      m.msg.bnc = 0 → s.unreachable (s.partOf p % 16) m.msg.splace = false →
      ∃ (t : State) (b : Flying), exec (.handlerStart p) s = .next t ∧ b ∈ t.flying ∧ b.dst = m.msg.splace ∧ b.msg.hidx = 1023 ∧
        b.msg.bnc = 1 ∧ (t.core p).inbox.map InSlot.bare = ((s.core p).inbox.filter fun n => n.num != m.num).map InSlot.bare) ∧
    (∀ since, m.headAt = some since → (s.core p).inboxHeld = false → q.locked.contains m.msg.hidx = true → m.msg.bnc = 0 →
      s.unreachable (s.partOf p % 16) m.msg.splace = false →
      if s.now p ≤ since + 4096 then exec (.lockedEntryTimeout p) s = .next s
      else ∃ (t : State) (b : Flying), exec (.lockedEntryTimeout p) s = .next t ∧ b ∈ t.flying ∧ b.dst = m.msg.splace ∧
        b.msg.hidx = 1023 ∧ b.msg.bnc = 2 ∧
        (t.core p).inbox.map InSlot.bare = ((s.core p).inbox.filter fun n => n.num != m.num).map InSlot.bare) ∧
    ((s.core p).inboxHeld = true → ∃ t, exec (.inboxDiscard p) s = .next t ∧ MemoryKept s t ∧ Changes s t onNone
      (onOnly p fun x => ({ x with inboxHeld := false, inbox := (x.inbox.filter fun n => n.num != m.num).map InSlot.bare } : Core).noteHead
        (s.now p)) onNone)) ∧
  (∀ (s : State) (p : Place), ∃ t, exec (.inboxRepresent p) s = .next t ∧ MemoryKept s t ∧
    Changes s t onNone (onOnly p fun x =>
      ({ x with inboxHeld := false, inbox := x.inbox.map InSlot.bare } : Core).noteHead (s.now p)) onNone) ∧
  ∀ (s : State) (c : CtxId) (o : SendOp) (rest : List SendOp), (s.ctx c).run = .releasing → (s.ctx c).sendBuf = o :: rest →
    let k := s.core (coreOf c)
    let moves := fun (core : Core → Core) => ∃ t, exec (.releasedOpEnqueue c) s = .next t ∧
      (rest ≠ [] → MemoryKept s t ∧ Changes s t (onOnly c fun x => { x with sendBuf := rest }) (onOnly (coreOf c) core) onNone) ∧
      (rest = [] → t.ctx c = { readyAt := (s.ctx c).readyAt } ∧ (t.core (coreOf c)).outq = (core k).outq ∧ (t.core (coreOf c)).port = (core k).port)
    match o with
    | .committed f => if k.outq.length < Config.outQueueSlots then moves fun x => { x with outq := x.outq ++ [f] }
      else exec (.releasedOpEnqueue c) s = .next s
    | .engine e => if k.port.length < 32 then moves fun x => { x with port := x.port ++ [e] }
      else exec (.releasedOpEnqueue c) s = .next s
    | .send .. => moves id
/-! ## The dispatcher -/

/-- R208, R308, R310-R312: the first launch on its way is answered with QDENY, BADDESC, QFULL or 0, in that order, and joins the waves as
one of this cycle only with 0, behind the older ones; the answer goes to its destination register.
R34, R208, R311-R313: among the ready heads of earlier cycles the dispatcher takes the highest PRIO, and of equal ones the older;
where that wave cannot place its next group, nothing is placed, and it is the one taken until it can. One visit places as many groups as
DEAL gives. A group's tasks start on the lowest free contexts of its cores with the registers that R34
gives.
That PQM denies (log 32), the order of a group's cores (log 10), and that only a wave of an earlier cycle is the head of its
queue (DEDUCED, log 44), are the model's choices. -/
def Obligations.LaunchesAreAnsweredAndPlaced : Prop :=
  (∀ (s : State) (q : PartId) (l : Launching) (rest : List Launching), (s.part q).launching = l :: rest →
     let x := s.part q
     let cfg := SMap.look x.qcfg l.queue (0 : BitVec 8)
     let denied := x.pqm.getLsbD l.queue = false ∨ cfg.getLsbD 0 = false
     let full := 32 ≤ (x.waves.filter fun w => w.queue == l.queue).length
     let answers := fun (status : Nat) (waves : List Wave → Prop) (num : Nat) => ∃ t, exec (.launchEnqueue q) s = .next t ∧
       MemoryKept s t ∧ waves (t.part q).waves ∧
       t.part q = { x with launching := rest, waves := (t.part q).waves, waveNum := num } ∧ (∀ r, r ≠ q → t.part r = s.part r) ∧
       t.cores = s.cores ∧ t.clusters = s.clusters ∧ t.dies = s.dies ∧ t.pkgs = s.pkgs ∧
       ∀ c, t.ctx c = if c = l.ctx ∧ l.sd ≠ 0 then (s.ctx c).deliver (.s l.sd) (BitVec.ofNat 128 status) 0 else s.ctx c
     if denied then answers 4 (· = x.waves) x.waveNum
     else match s.checkDesc q (cfg.getLsbD 1) l.bytes with
       | none => answers 3 (· = x.waves) x.waveNum
       | some d => if full then answers 1 (· = x.waves) x.waveNum
         else
           let w : Wave := { num := x.waveNum, queue := l.queue, desc := d, since := s.cycle, launcher := some l.ctx }
           answers 0 (fun y => ∃ a b, x.waves = a ++ b ∧ y = a ++ w :: b ∧ (∀ v ∈ a, w.older v = false) ∧ ∀ v ∈ b.head?, w.older v = true)
             (x.waveNum + 1)) ∧
  ((∀ (x : Part) (w : Wave) (cycle : Nat),
     let head := fun (v : Wave) => (∃ n, n < 16 ∧ x.waves.find? (fun u => u.queue == n) = some v) ∧ x.ready v = true ∧ v.since < cycle
     x.choose cycle = some w → head w ∧ (∀ v, head v → x.chosen = some v.num → x.chosen = some w.num) ∧
       (x.chosen = some w.num ∨
         ∀ v, head v → x.prio v < x.prio w ∨ x.prio v = x.prio w ∧ v.older w = false)) ∧
   (∀ (s : State) (q : PartId), (s.part q).succs = [] →
     match (s.part q).choose s.cycle with
     | none => exec (.dispatch q) s = .next s
     | some w => match s.deal q w with
       | none => exec (.dispatch q) s = .next (s.modPart q fun x =>
           { x with chosen := some w.num, waves := x.waves.map fun v => if v.num = w.num then { v with turn := [] } else v })
       | some (t, v) =>
         let left := fun (l : List Wave) =>
           if v.desc.count ≤ v.placed then l.filter fun u => u.num != v.num else l.map fun u => if u.num = v.num then v else u
         w.placed < v.placed ∧ v.placed ≤ w.placed + w.share ∧
           exec (.dispatch q) s = .next (t.modPart q fun x => { x with chosen := none, waves := left x.waves })) ∧
   ∀ (s : State) (q : PartId) (wave index spanIdx : Nat) (d : Desc) (role : Role) (span : Option Nat) (cluster : ClusterId)
     (cores : List (Place × List Nat)), (cores.map (·.1)).Nodup → d.clen = 0 →
     (∀ e ∈ cores, d.cpc ≤ (s.freeContexts e.1).length) →
     let t := s.placeGroup q wave index d role span spanIdx [] { cluster := cluster, cores := cores }
     ∀ (i j : Nat) (p : Place) (banks : List Nat), cores[i]? = some (p, banks) → j < d.cpc →
       let x := t.ctx (ctxAt p ((s.freeContexts p).getD j 0))
       x.run = .running ∧ x.level = .task ∧ x.pc = d.entry ∧ x.sreg 1 = BitVec.ofNat 64 (i * d.cpc + j) ∧
       x.sreg 2 = BitVec.ofNat 64 index ∧ x.sreg 3 = d.arg ∧ x.sreg 4 = BitVec.ofNat 64 spanIdx ∧
       (∀ r : SReg, 4 < r.val → x.sreg r = 0) ∧ (∀ r : VReg, x.vreg r = 0) ∧ (∀ r : PReg, r ≠ 0 → x.preg r = 0) ∧
       x.csr.cbase = BitVec.ofNat 64 (16384 * banks.headD 0 + d.cdst) ∧ x.csr.sw = 0 ∧ x.csr.ten = d.ten ∧ x.csr.chk = d.chk ∧
       x.csr.sig = d.sig ∧ x.csr.gang = 0 ∧ x.csr.hnd = false ∧ x.csr.budget = d.budget ∧ x.csr.hkey = d.hkey ∧
       x.csr.lbanks = BitVec.ofNat 12 (maskOf banks) ∧ x.csr.eps = 0x3C00 ∧ x.csr.smax = 8 ∧ x.csr.gjto = 65536)

/-- R209, R349, R351: with every run that has ended compared, equal digests of primary and shadow perform the completions that were
held; a referee that agrees with the primary does so too, and the shadow's clusters become suspect; one that agrees with neither
discards them and sets bit 31 of STATUS.
R314, R315, R334: a dispatcher command in progress is carried out and ends: the task named, or every task of its group, is
killed, unless it has stopped above task level and the hypervisor did not ask; the waves of a queue go; the active slot changes; the banks
retained under a pair are powered down.
When a run is compared and what a kill reaches are the model's choices (log 44, log 54). -/
def Obligations.CheckedRunsAndDispatcherCommands : Prop :=
  (∀ (s : State) (q : PartId) (n : Nat) (k : Checked) (p d : Word), (s.part q).checked[n]? = some k → s.endedRun q k = none →
     k.dP = some p → k.dS = some d →
     let performed := fun (u t : State) =>
       (∀ c, t.ctx c = u.ctx c) ∧ (t.part q).wc = (k.held.foldl (fun u e => u.countWave q e.1 e.2.1 e.2.2) u |>.part q).wc ∧
         (t.part q).checked = (u.part q).checked.filter fun j => !(j.wave == k.wave && j.index == k.index)
     (p = d → ∃ t, exec (.checkedRunCompare q n) s = .next t ∧ performed s t ∧ MemoryKept s t) ∧
     ∀ at_ r, p ≠ d → k.referee = some at_ → k.dR = some r →
       (r = p → ∃ t, exec (.checkedRunCompare q n) s = .next t ∧ performed (k.shadow.foldl State.suspect s) t) ∧
       (r ≠ p → r ≠ d → k.desc.done ≠ 0xFF → ∃ t, exec (.checkedRunCompare q n) s = .next t ∧
         (SMap.look (t.part q).wc k.desc.done (0 : Word)) = SMap.look (s.part q).wc k.desc.done (0 : Word) ||| BitVec.ofNat 64 (2 ^ 63) ∧
         (t.part q).checked = (s.part q).checked.filter fun j => !(j.wave == k.wave && j.index == k.index))) ∧
  (∀ (s : State) (q : PartId) (v : Word) (since : Nat) (hyp : Bool),
     let does := fun (n : Nat) (i : Instr) (done : State → Prop) =>
       (s.part q).dcmd = some (n, v, since, hyp) → ∃ t, exec i s = .next t ∧ (t.part q).dcmd = none ∧ done t
     let c := ctxAt (v.toNat % 2 ^ 22) (v.toNat / 2 ^ 22 % 4)
     let dies := fun (m : CtxId) => pkgOf (coreOf m) = q / 16 ∧ (s.part q).owns (clusterOf (coreOf m)) = true ∧
       ((s.ctx m).run = .running ∨ (s.ctx m).run = .stopped ∧ hyp = true)
     does 1 (.killctx q) (fun t => (dies c → (t.ctx c).run = .free) ∧
       ((s.part q).owns (clusterOf (coreOf c)) = false → t.ctxs = s.ctxs) ∧
       ((s.ctx c).run = .stopped → hyp = false → t.ctxs = s.ctxs)) ∧
     does 2 (.killgrp q) (fun t => ∀ m ∈ s.groupCtxs c, dies m → (t.ctx m).run = .free) ∧
     does 3 (.drainq q) (fun t => (t.part q).waves = (s.part q).waves.filter (fun w => w.queue != v.toNat % 16) ∧ MemoryKept s t ∧
       Changes { s with parts := [] } { t with parts := [] } onNone onNone onNone) ∧
     does 4 (.reside q) (fun t => (t.part q).aslot = v.toNat % 2 ∧ MemoryKept s t ∧
       Changes { s with parts := [] } { t with parts := [] } onNone onNone onNone) ∧
     does 5 (.release q) (fun t => t.ctxs = s.ctxs ∧
       ∀ e ∈ s.cores, pkgOf e.1 = q / 16 → (s.part q).owns (clusterOf e.1) = true → ∀ i, i < 12 →
         (s.core e.1).banks.getD i .off = .retained (v.toNat % 2) (BitVec.ofNat 16 (v.toNat / 2 ^ 16 % 2 ^ 16)) →
         (t.core e.1).banks.getD i .off = .off ∧ ∀ a, a < 16384 → t.byte (localAt e.1 (16384 * i + a)) = 0))

/-! ## Tables, basins, repair, samples -/

/-- R246, R357: a table just named by CZT is loaded from its image where the image can be read, its codes are free of prefixes and no
longer than 16 bits, and its reserved bits are zero (the model's
choice, and so is what an image that cannot be read or has an uncorrectable error does: log 85); GEN goes on by one and the table
before it is kept. A load that fails says so in
CZT and leaves the tables. DLYCLR empties the delay table of a core.
R343, R344: UNFENCE clears FENCED of a basin once its reset is complete, and is without effect before; RESET resets every
cluster of the basin, and leaves HBM as it stands. A basin that is fenced already is not reset again.
R342-R344: an error consumed in a cluster that is not fenced stops its consumer, and the cluster keeps the lowest consuming place of
the cycle with the address consumed; in a fenced one it has no effect. As the cycle ends the basin is reset, whatever its consumer
was. A system core is in no basin: its context traps (R342).
When a reset comes, that a context of a pending dump stays, and which images fail to load beside those of R246, are the model's
choices (log 45, log 53, log 85). -/
def Obligations.TablesLoadAndBasinsReset : Prop :=
  ((∀ (s : State) (q : PartId), (s.part q).cztPending = none → exec (.decodeTableLoad q) s = .next s) ∧
   (∀ (s : State) (q : PartId) (v : Word) (c : CtxId), (s.part q).cztPending = some (v, c) →
     let n := v.toNat % 8
     let a := v.toNat / 64 % 2 ^ 46 * 64
     let fails := ∃ t, exec (.decodeTableLoad q) s = .next t ∧
       OnPart s t q fun x => { x with czt := BitVec.ofNat 64 (n + a), cztFail := true, cztPending := none }
     match s.resolve (s.agent c) .load (BitVec.ofNat 64 a) (runFrom a 1024) true false true with
     | .error _ => fails
     | .ok (s1, l) =>
       let entry := fun (i : Nat) => fieldAt (l.map s.byte) (4 * i) 4
       let len := fun (i : Nat) => entry i % 32
       let code := fun (i : Nat) => entry i / 32 % 2 ^ 16 % 2 ^ len i
       let good := (∀ i, i < 256 → len i ≤ 16 ∧ entry i / 2 ^ 21 = 0) ∧ ∀ i j, i < 256 → j < 256 → i ≠ j → len i ≠ 0 → len j ≠ 0 →
         len i ≤ len j → code j / 2 ^ (len j - len i) ≠ code i
       let clean := ∀ e ∈ l, wordIx e ∉ s.poison
       let old : ZTable := SMap.look (s.part q).ztabs n {}
       (¬(good ∧ clean) → fails) ∧
       (good → clean → ∃ t, exec (.decodeTableLoad q) s = .next t ∧ OnPart s t q fun x =>
         { x with
           czt := BitVec.ofNat 64 (n + a), cztFail := false, cztPending := none
           ztabs := SMap.put x.ztabs n { gen := (old.gen + 1) % 4, codes := (List.range 256).map fun i => (len i, code i)
                                         prev := some (old.gen, old.codes), since := s1.seq } })) ∧
   ∀ (s : State) (p : Place), ∃ t, exec (.delayTableClear p) s = .next t ∧ MemoryKept s t ∧
     Changes s t onNone (onOnly p fun x => { x with delays := [] }) onNone) ∧
  (∀ (s : State) (q : PartId) (k : Fin 16), let l := s.basinClusters q k.val
     (∃ t, exec (.unfence q k) s = .next t ∧ MemoryKept s t ∧ Changes s t onNone onNone fun j x =>
       if (∀ i ∈ l, (s.cluster i).resetDone = true) ∧ j ∈ l then { x with fenced := false } else x) ∧
     (l = [] → exec (.reset q k) s = .next s) ∧
     ∀ j rest, l = j :: rest →
       ((s.cluster j).fenced = true → exec (.reset q k) s = .next s) ∧
       ((s.cluster j).fenced = false → ∃ t, exec (.reset q k) s = .next t ∧ (∀ i ∈ (s.basinOf j).2, BasinReset t i) ∧
         ∀ a, a < dieBase → t.byte a = s.byte a)) ∧
  ((∀ (s : State) (c : CtxId) (va : Word) (pa : Nat), let k := clusterOf (coreOf c)
     let place := placeWord (coreOf c)
     (isSystem (coreOf c) = true → exec (.uncorrectableConsumption c va pa) s =
       .next (s.takeTrap c { cause := .uncorrectable, fva := va })) ∧
     (isSystem (coreOf c) = false → (s.cluster k).fenced = true → exec (.uncorrectableConsumption c va pa) s = .next s) ∧
     (isSystem (coreOf c) = false → (s.cluster k).fenced = false → pa < 2 ^ 48 → pkgOf (coreOf c) < 4096 → ∃ t, exec (.uncorrectableConsumption c va pa) s = .next t ∧
       (t.ctx c).run ≠ .running ∧ (∀ a, a < dieBase → t.byte a = s.byte a) ∧
       (t.cluster k).consumed = (match (s.cluster k).consumed with
         | some (q, a) => if place < q then some (place, pa) else some (q, a)
         | none => some (place, pa)))) ∧
   ∀ (s : State) (k : ClusterId) (e : Nat × Nat), (s.cluster k).consumed = some e → (s.cluster k).fenced = false →
     (∀ j, j ≠ k → (s.cluster j).consumed = none) →
     (∀ i ∈ (s.basinOf k).2, BasinReset s.resetConsumed i) ∧ (s.resetConsumed.cluster k).consumed = none ∧
       ∀ a, a < dieBase → s.resetConsumed.byte a = s.byte a)

/-- R345: a drop is refused, and HDROP bit 63 reads 1, while the Tug is active, for a stack of no part, and for a bank dropped
before; otherwise the Tug starts at the lowest address of the part that owns the stack. R346, R347: the Tug moves one 64 KiB unit
of that part's memory ranges after another, the lowest one not yet moved first, and every byte keeps its address.
R353: a window whose count passes PFTH returns the cluster's supply to 450 mV and freezes it; the eleventh in a row quarantines
the cluster; another window starts the count again. A lower supply is not given to a frozen cluster, until it is unfrozen. R374: clock
slowing withholds cycles. R322: a walk leaves memory as it is and caches its leaf.
The capacity of a bank, the Tug's steps, the eleventh window and withheld cycles are the model's choices (log 18, log 29, log
56, log 59). -/
def Obligations.RepairAndSupply : Prop :=
  ((∀ (s : State) (g : PkgId) (v : Word), let n := v.toNat % 2 ^ 14
     let owns := fun (b : Nat) => b < 16 ∧ (s.part (16 * g + b)).phbm.getLsbD (n % 8) = true
     ((∀ b, ¬owns b) ∨ (s.pkg g).tugActive = true ∨ n ∈ (s.pkg g).dropped → ∃ t, exec (.bankDrop g v) s = .next t ∧
       OnPackage s t g fun x => { x with hdrop := BitVec.ofNat 64 (n + 2 ^ 63) }) ∧
     ∀ b, owns b → (∀ i, i < b → ¬owns i) → (s.pkg g).tugActive = false → n ∉ (s.pkg g).dropped →
       ∃ t, exec (.bankDrop g v) s = .next t ∧ MemoryKept s t ∧ (t.pkg g).tugActive = true ∧ (t.pkg g).tugStack = n % 8 ∧
         (t.pkg g).hdrop = BitVec.ofNat 64 n ∧ n ∈ (t.pkg g).dropped ∧ (t.pkg g).tugbnd = (t.part (16 * g + b)).lowest % 2 ^ 48 ∧
         ∀ r, t.part r = if r = 16 * g + b then (s.part r).shrink else s.part r) ∧
   ∀ (s : State) (g : PkgId), ((s.pkg g).tugActive = false → exec (.tugUnitMove g) s = .next s) ∧
     ∀ b, (s.pkg g).tugActive = true → s.stackOwner g (s.pkg g).tugStack = some b →
       let q := s.part (16 * g + b)
       let inside := fun (u : Nat) => ∃ i, i < 8 ∧ (let r := (SMap.look q.pmr i (0 : Word)).toNat;
         r % 2 ^ 32 * 65536 ≤ u ∧ u < (r % 2 ^ 32 + r / 2 ^ 32 % 2 ^ 31) * 65536)
       let next := fun (a u : Nat) => a ≤ u ∧ inside u ∧ ∀ v, a ≤ v → inside v → u ≤ v
       ((∀ u, (s.pkg g).tugbnd ≤ u → ¬inside u) → ∃ t, exec (.tugUnitMove g) s = .next t ∧
         OnPackage s t g fun x => { x with tugActive := false }) ∧
       ∀ u, next (s.pkg g).tugbnd u → ∃ (t : State) (more : Bool), exec (.tugUnitMove g) s = .next t ∧ (more = true ↔ ∃ v, next (u + 65536) v) ∧
         OnPackage s t g fun x => { x with tugbnd := min (u + 65536) (2 ^ 48 - 65536), tugActive := more }) ∧
  ((∀ (s : State) (k : ClusterId) (n : Nat), n ≤ (s.pkg (k / 128)).pfth.toNat → ∃ t, exec (.correctedErrorWindow k n) s = .next t ∧
     OnCluster s t k fun x => { x with passes := 0 }) ∧
   (∀ (s : State) (k : ClusterId) (n : Nat), (s.pkg (k / 128)).pfth.toNat < n →
     ∃ t, exec (.correctedErrorWindow k n) s = .next t ∧ (t.cluster k).supply = 450 ∧ (t.cluster k).frozenSupply = true ∧
       ((s.cluster k).passes < 10 → OnCluster s t k fun x => { x with passes := x.passes + 1, supply := 450, frozenSupply := true }) ∧
       (10 ≤ (s.cluster k).passes → t.quarantined k = true)) ∧
   (∀ (s : State) (k : ClusterId) (mv : Nat), ∃ t, exec (.voltageControllerRequest k mv) s = .next t ∧
     OnCluster s t k fun x => { x with supply := if x.frozenSupply then max x.supply mv else mv }) ∧
   (∀ (s : State) (k : ClusterId), ∃ t, exec (.clusterUnfreeze k) s = .next t ∧
     OnCluster s t k fun x => { x with frozenSupply := false, passes := 0 }) ∧
   (∀ (s : State) (k : ClusterId) (n : Nat), ∃ t, exec (.clockSlowing k n) s = .next t ∧
     OnCluster s t k fun x => { x with lost := min s.cycle (x.lost + n) }) ∧
   ∀ (s : State) (k : ClusterId) (q : PartId) (va : Nat), ∃ t, exec (.tableWalk k q va) s = .next t ∧ MemoryKept s t ∧
     Changes s t onNone onNone onNone ∧
     ∀ w level, s.partOf (8 * k) = q → windowOf va = some .glob → (∀ e ∈ (s.cluster k).tlb, e.part = q → va / 2 ^ e.lg ≠ e.va) →
       (∀ e ∈ (s.core (8 * k)).tlb, e.part = q → va / 2 ^ e.lg ≠ e.va) → s.walk q va = .ok (w, level) →
       { part := q, va := va / 2 ^ pageLg level, lg := pageLg level, leaf := w } ∈ (t.cluster k).tlb)

/-- R360: at a multiple of PER, with SAMP set, a core with one running task writes its sample into the trace ring of its die, at HEAD,
which goes on; a full ring counts the record in OVR.
R363: the oldest dump asked for is appended at DUMPP: its header, and of a context that was saved the save area and, as DUMPCTL says,
the frame and the banks as they stood when it was asked for; then its context is free. A consumption of the cycle has its reset first
(R342).
The record's length and what a dump holds are the model's choices (log 45). -/
def Obligations.SamplesAndDumpsAreWritten : Prop :=
  (∀ (s : State) (p : Place), let q := s.part (s.partOf p)
     let per := q.trctl.toNat / 2 ^ 16 % 2 ^ 16
     let d := dieOf p
     let ring := (s.die d).trb.toNat
     let count := 2 ^ (ring / 2 ^ 28 % 16)
     (q.trctl.getLsbD 0 = false ∨ per = 0 ∨ s.gtc % per ≠ 0 → exec (.traceSample p) s = .next s) ∧
     ∀ i, i < 4 → let x := s.ctx (ctxAt p i)
       let off := 32 * (ring / 32 % 2 ^ 21) + 32 * (s.die d).trpHead
       let head := ((s.die d).trpHead + 1) % count
       q.trctl.getLsbD 0 = true → per ≠ 0 → s.gtc % per = 0 → (s.core p).sampledAt ≠ some s.gtc → x.run = .running → x.kind ≠ .none →
       x.role = .plain → (∀ j, j < 4 → j ≠ i → (s.ctx (ctxAt p j)).run ≠ .running) → off + 32 ≤ lpctOff →
       ∃ t, exec (.traceSample p) s = .next t ∧
         (head ≠ (s.die d).trpTail → (t.die d).trpHead = head ∧ RunWritten s t (dieAt d off)
           (bytesOfNat 2 (1 + 256 * i) ++ bytesOfNat 2 (p % 1024) ++ bytesOfNat 4 x.csr.taskid.toNat ++ bytesOfNat 8 s.gtc ++
             bytesOfNat 8 x.pc.toNat ++ bytesOfNat 8 (BitVec.ofNat 64 (s.budgetLeft (ctxAt p i))).toNat)) ∧
         (head = (s.die d).trpTail → MemoryKept s t ∧ (t.die d).trpHead = (s.die d).trpHead ∧
           (t.die d).trpOvr = min 0xFFFF ((s.die d).trpOvr + 1))) ∧
  ((∀ (s : State) (c : CtxId) (i : Nat), i < 12 → (s.ctx c).csr.lbanks.getLsbD i = true → Memory.wf s.mem = true →
     let a := localAt (coreOf c) (16384 * i)
     keptRun (s.dumpCells c) a 16384 = (runFrom a 16384).map s.byte) ∧
   ∀ (s : State) (d : DieId), ((s.die d).dumps = [] → exec (.dumpWrite d) s = .next s) ∧
     ∀ x rest, (s.die d).dumps = x :: rest → x.extra = none → (s.cluster (clusterOf (coreOf x.ctx))).consumed = none →
       let p := coreOf x.ctx
       let ctl := (s.part (s.partOf p)).dumpctl
       let base := (s.die d).dumpb.toNat % 2 ^ 28
       let size := (s.die d).dumpb.toNat / 2 ^ 32 % 2 ^ 28
       let off := (s.die d).dumpp.toNat
       let frame := match x.frame with
         | some f => if ctl.getLsbD 1 then keptRun x.kept (dieAt (dieOf p) f) Config.frameBytes else []
         | none => []
       let banks := if ctl.getLsbD 2 then
           ((List.range 12).filter x.lbanks.getLsbD).flatMap fun i => keptRun x.kept (localAt p (16384 * i)) 16384
         else []
       let body := if x.saved then (runFrom (dieAt (dieOf p) x.save) 4096).map s.byte ++ (frame ++ banks) else []
       let len := 64 + body.length
       let rec_ := bytesOfNat 8 (x.cause % 256 + 2 ^ 8 + 2 ^ 11 * x.saved.toNat + 2 ^ 12 * x.taskid.toNat) ++
         bytesOfNat 8 (placeWord p + 2 ^ 22 * ctxNo x.ctx) ++ bytesOfNat 8 s.gtc ++ bytesOfNat 8 len ++ List.replicate 32 0 ++ body
       Memory.wf s.mem = true → off + len ≤ size → base + off + len ≤ lpctOff → (x.saved = true → x.save + 4096 ≤ lpctOff) →
       ∃ t, exec (.dumpWrite d) s = .next t ∧ RunWritten s t (dieAt d (base + off)) rec_ ∧
         (t.die d).dumpp = BitVec.ofNat 64 (off + len) ∧ (t.die d).dumps = rest ∧
         ∀ c, t.ctx c = if c = x.ctx ∧ (s.ctx c).run = .dumping then { readyAt := (s.ctx c).readyAt } else s.ctx c)

/-! ## Outside -/

/-- R312, R371: a doorbell written with 1 while bit 31 of the queue's status is set copies the slot and clears the bit; any other doorbell
does nothing. The check of a copied slot, which the end of the cycle makes, answers as a launch is answered, with bit 31 set, and only
with 0 the slot joins the waves, behind the older ones.
R370, R371: the host writes a partition's ranges through BAR 2 and the descriptor slots through BAR 0; what leaves the ranges or the
slot is refused and writes nothing, and a read changes nothing. A Function Level Reset and an enabling leave every status word as
after a reset, and drop what was copied and not yet checked (log 46). In recovery an image is written to a flash copy (R366).
That functions start not enabled and that PQM denies are the model's choices (log 32, log 46). -/
def Obligations.TheHostReachesItsPartition : Prop :=
  (∀ (s : State) (g : PkgId) (vf q : Fin 16), let f : VirtFn := SMap.look (s.pkg g).fns vf.val {}
     let old := SMap.look f.status q.val (0x80000000 : BitVec 32)
     let slot := (List.range 64).map fun i => SMap.look f.slots (64 * q + i) (0 : Byte)
     (∀ v : BitVec 32,
       let open_ := f.enabled = true ∧ (s.pkg g).powered = true ∧ (s.pkg g).recovery = false ∧ v = 1 ∧ old.getLsbD 31 = true
       (¬open_ → exec (.hostDoorbell g vf q v) s = .next s) ∧
       (open_ → ∃ t, exec (.hostDoorbell g vf q v) s = .next t ∧ OnPackage s t g fun y => { y with
         fns := SMap.put y.fns vf.val { f with status := SMap.put f.status q.val (old &&& 0x7FFFFFFF), rung := f.rung ++ [(q.val, slot)] } })) ∧
     ∀ bytes : List Byte, let x := s.part (16 * g + vf)
       let cfg := SMap.look x.qcfg q.val (0 : BitVec 8)
       let answers := fun (status : Nat) (waves : List Wave → Prop) (num : Nat) =>
         let t := s.checkSlot g vf (q.val, bytes)
         let y := (t.part (16 * g + vf)).waves
         waves y ∧ MemoryKept s t ∧ Changes { s with pkgs := [], parts := [] } { t with pkgs := [], parts := [] } onNone onNone onNone ∧
           (∀ r, t.part r = onOnly (16 * g + vf) (fun z => { z with waves := y, waveNum := num }) r (s.part r)) ∧
           ∀ r, t.pkg r = onOnly g (fun z => { z with
             fns := SMap.put z.fns vf.val { f with status := SMap.put f.status q.val (BitVec.ofNat 32 (2 ^ 31 + status)) } }) r (s.pkg r)
       if x.pqm.getLsbD q = false ∨ cfg.getLsbD 0 = false then answers 4 (· = x.waves) x.waveNum
       else match s.checkDesc (16 * g + vf) (cfg.getLsbD 1) bytes with
         | none => answers 3 (· = x.waves) x.waveNum
         | some d => if 32 ≤ (x.waves.filter fun w => w.queue == q.val).length then answers 1 (· = x.waves) x.waveNum
           else
             let w : Wave := { num := x.waveNum, queue := q, desc := d, since := s.cycle }
             answers 0 (fun y => ∃ a b, x.waves = a ++ b ∧ y = a ++ w :: b ∧ (∀ v ∈ a, w.older v = false) ∧
               ∀ v ∈ b.head?, w.older v = true) (x.waveNum + 1)) ∧
  (∀ (s : State) (g : PkgId) (vf : Fin 16), let f : VirtFn := SMap.look (s.pkg g).fns vf.val {}
     let up := f.enabled = true ∧ (s.pkg g).powered = true ∧ (s.pkg g).recovery = false
     let access := fun (a : HostAccess) => exec (.hostMemoryAccess g vf a) s
     let sets := fun (i : Instr) (h : VirtFn) =>
       ∃ t, exec i s = .next t ∧ OnPackage s t g fun x => { x with fns := SMap.put x.fns vf.val h }
     (∀ a, ¬up → (∀ n l, a ≠ .flashWrite n l) → access a = .next s) ∧
     (∀ n l, if (s.pkg g).powered = true ∧ (s.pkg g).recovery = true then
         ∃ t, access (.flashWrite n l) = .next t ∧ OnPackage s t g fun x => { x with flash := SMap.put x.flash n.val l }
       else access (.flashWrite n l) = .next s) ∧ (∀ off n, access (.bar2Read off n) = .next s) ∧ (∀ q, access (.statusRead q) = .next s) ∧
     (∀ off bytes, let l := (runFrom off bytes.length).map (barAddr (s.part (16 * g + vf)).ranges 0)
       (none ∈ l → access (.bar2Write off bytes) = .next s) ∧
       ∀ m : List Nat, up → l = m.map some → (m.map (hbmAt g)).Nodup → (∀ a ∈ m, hbmAt g a < dieBase) → Memory.wf s.mem = true →
         ∃ t, access (.bar2Write off bytes) = .next t ∧ BytesKept s t (m.map (hbmAt g)) ∧ Changes s t onNone onNone onNone ∧
           ∀ j a, m[j]? = some a → t.byte (hbmAt g a) = bytes.getD j 0) ∧
     (∀ q off bytes, (16 ≤ q ∨ 64 < off + bytes.length → access (.slotWrite q off bytes) = .next s) ∧
       (up → q < 16 → off + bytes.length ≤ 64 → ∃ t h, access (.slotWrite q off bytes) = .next t ∧
         (OnPackage s t g fun x => { x with fns := SMap.put x.fns vf.val h }) ∧ h.enabled = f.enabled ∧ h.status = f.status ∧
         ∀ i, SMap.look h.slots i (0 : Byte) = if 64 * q + off ≤ i ∧ i < 64 * q + off + bytes.length then
           bytes.getD (i - (64 * q + off)) 0 else SMap.look f.slots i 0)) ∧
     ((s.pkg g).powered = true → sets (.functionLevelReset g vf) { f with status := [], rung := [] }) ∧
     ((s.pkg g).powered = false → exec (.functionLevelReset g vf) s = .next s) ∧
     ((s.pkg g).powered = true → (s.pkg g).recovery = false → sets (.functionEnable g vf) { f with enabled := true, status := [], rung := [] }))

/-- R365-R368, R372: a record of the journal has its fields and its CHECK in 16 bytes. Power starts a package that has none. It counts the
start, its journal grows by good records of this start, and with no partition's image no context but the hypervisor's runs. A first step
that has failed twice means recovery. A clean start, its images accepted, leaves two records for each step, the harvested cores, the
package's number and its ports; a number in use on the fabric fails step 6, which is then skipped; two losses of power in step 3 train HBM
in the alternate form.
R366: a loss of power takes everything volatile of a package that runs, and leaves its journal, flash and fuses; in a step of a start it leaves
that step's record without a result.
What a start is given, and that memory reads zero after a loss of power, are the model's choices (log 3, log 30, log 46). -/
def Obligations.StartsAndPowerLoss : Prop :=
  ((∀ step att res start : Nat, step < 256 → att < 256 → res < 256 → start < 2 ^ 32 → let l := (mkRec step att res start).bytes
     l.length = 16 ∧ fieldAt l 0 1 = step ∧ fieldAt l 1 1 = att ∧ fieldAt l 2 1 = res ∧ fieldAt l 4 4 = start ∧
       fieldAt l 12 4 = crc32 (l.take 12) % 2 ^ 32) ∧
   (∀ (s : State) (g : PkgId) (b : BootInput), (s.pkg g).powered = true → exec (.powerOn g b) s = .next s) ∧
   ∀ (s : State) (g : PkgId) (b : BootInput), (s.pkg g).powered = false → let x := s.pkg g
     let n := x.startNum + 1
     let recs := fun (k : Nat) (l : List Nat) => l.flatMap fun i =>
       [mkRec i 1 0 k, mkRec i 1 1 k]
     let flash := x.accepts 1 (SMap.look x.flash 0 []) = true
     let clean := fun (image : List Byte) => flash ∧ x.journal = [] ∧ b.attempts = [] ∧ b.images = [(8, image)] ∧ x.accepts 2 image = true
     (b.pkgid.toNat = g ∨ s.onFabric b.pkgid.toNat = true) →
     ∃ t, exec (.powerOn g b) s = .next t ∧ (t.pkg g).powered = true ∧ (t.pkg g).startNum = n ∧
       (∃ l, (t.pkg g).journal = x.journal ++ l ∧ ∀ r ∈ l, r.start = n ∧ r.res ≤ 4 ∧ r.good = true) ∧
       ((∀ e ∈ b.images, e.1 ≤ 8) → ∀ c, pkgOf (coreOf c) = g → c ≠ ctxAt (systemCore (2 * g) 0) 0 → t.ctx c = {}) ∧
       (2 ≤ (failsOf x.journal 1).plain → (t.pkg g).recovery = true ∧ (t.pkg g).journal = x.journal) ∧
       (x.journal = recs 1 [1, 2] ++ [mkRec 3 1 0 1] ++ recs 2 [1, 2] ++ [mkRec 3 1 0 2] → flash → b.attempts = [] →
         mkRec 3 1 4 n ∈ (t.pkg g).journal) ∧
       (∀ image, clean image → b.pkgid.toNat ≠ g → (t.pkg g).recovery = false ∧ (t.pkg g).pkgid = none ∧
         mkRec 6 3 3 n ∈ (t.pkg g).journal) ∧
       ∀ image, clean image → b.pkgid.toNat = g → (t.pkg g).recovery = false ∧
         (t.pkg g).journal = recs n [1, 2, 3, 4, 5, 6, 7, 8] ∧ (t.pkg g).pkgid = some b.pkgid ∧
         (∀ e, b.links = [e] → SMap.look (t.pkg g).ports (e.1 % 16) {} =
           { up := true, peerPkg := e.2.1, peerPort := e.2.2 % 16 : Port }) ∧
         ∀ m, m < 1024 → (t.harvested g m = true ↔ m ∈ b.badCores ∨ m ∈ b.failedCores ∨ m / 8 ∈ b.badClusters ∨
           s.quarantined (128 * g + m / 8) = true ∨ ∀ i, i < 8 → m / 8 * 8 + i ∈ b.badCores ∨ m / 8 * 8 + i ∈ b.failedCores)) ∧
  ((∀ (s : State) (g : PkgId) (n : Nat), (s.pkg g).powered = true → g < 4096 → ∃ t, exec (.powerLoss g n) s = .next t ∧
     (∀ h, t.pkg h = if h = g then
         { journal := (s.pkg g).journal, startNum := (s.pkg g).startNum, flash := (s.pkg g).flash, minSvn := (s.pkg g).minSvn
           powered := false }
       else s.pkg h) ∧
     (∀ c, t.ctx c = if pkgOf (coreOf c) = g then {} else s.ctx c) ∧ (∀ p, t.core p = if pkgOf p = g then {} else s.core p) ∧
     (∀ k, t.cluster k = if k / 128 = g then {} else s.cluster k) ∧
     (∀ h pa, h < 4096 → t.byte (hbmAt h pa) = if h = g then 0 else s.byte (hbmAt h pa)) ∧
     (∀ d off, d < 8192 → off < lpctOff → t.byte (dieAt d off) = if d / 2 = g then 0 else s.byte (dieAt d off)) ∧
     ∀ p off, t.byte (localAt p off) = if pkgOf p = g then 0 else s.byte (localAt p off)) ∧
   ∀ (s : State) (g : PkgId) (n : Nat), (s.pkg g).powered = false → (n = 0 → exec (.powerLoss g n) s = .next s) ∧
     let k := (s.pkg g).startNum + 1
     ((s.pkg g).journal = [] → 1 ≤ n → n ≤ 8 → (s.pkg g).accepts 1 (SMap.look (s.pkg g).flash 0 []) = true → ∃ t, exec (.powerLoss g n) s = .next t ∧ OnPackage s t g fun x =>
       { x with
         startNum := k
         journal := ((List.range n).filter (1 ≤ ·)).flatMap (fun i =>
           [mkRec i 1 0 k, mkRec i 1 1 k]) ++ [mkRec n 1 0 k] }))

/-- R372, R373: a port goes down; the pieces of one-sided operations that took it on their way are lost and their commands fail, and the
messages in flight that took it are lost too. Retransmitted flits are counted in ERRCNT, saturating; lanes removed show in DEGR.
What is in flight on a port is the model's choice (log 46). -/
def Obligations.LinksFail : Prop :=
  (∀ (s : State) (g : PkgId) (n : Fin 16), let port : Port := SMap.look (s.pkg g).ports n.val {}
    (port.up = false → exec (.linkPortDown g n) s = .next s ∧ exec (.flitRetransmission g n) s = .next s ∧
      exec (.portDegraded g n) s = .next s) ∧
    (port.up = true →
      (∃ t, exec (.linkPortDown g n) s = .next t ∧ SMap.look (t.pkg g).ports n.val {} = { port with up := false } ∧
        (∀ p x e, s.command p x.cmd = some e → (g, n.val) ∈ x.path → x ∈ (s.core p).transit →
          x ∉ (t.core p).transit ∧ ∀ f, t.command p x.cmd = some f → f.err.isSome = true) ∧
        (∀ c, t.ctx c = s.ctx c) ∧
        ((∀ q, (s.part q).elogm.getLsbD 63 = false) → (s.flying.map (·.seq)).Nodup →
          t.flying = s.flying.filter fun f => !((f.path.getD []).contains (g, n.val)))) ∧
      (∃ t, exec (.flitRetransmission g n) s = .next t ∧ OnPackage s t g fun x =>
        { x with ports := SMap.put x.ports n.val { port with errcnt := min 0xFFFFFFFF (port.errcnt + 1) } }) ∧
      ∃ t, exec (.portDegraded g n) s = .next t ∧ OnPackage s t g fun x =>
        { x with ports := SMap.put x.ports n.val { port with degr := true } }))
/-! ## The machine -/

/-- R47, R156-R160, R165: where context c has its turn, is ready, and no trap, breakpoint, stream or waiting head comes first, the
next step runs the head that the line at its program counter holds, with the context's fixed-latency results due by now written and the
line that was fetched kept. The line comes from the context's buffer, or from the 64 bytes of memory that its fetch finds. A waiting
head is tried again. A line or a head that the encoding rules reject traps.
The agenda is the model's own (log 1). -/
def Obligations.StepRunsTheDecodedHead : Prop :=
  ∀ (s : State) (c : CtxId) (rest : List Move), s.agenda = .issue c :: rest → (s.pkg (pkgOf (coreOf c))).powered = true →
    let u : State := { s with agenda := rest }
    let v := u.modCtx c fun x => x.settle (u.nowCtx c)
    let x := v.ctx c
    let ptr := x.pc
    let runs := fun (w : State) (l : Line) => ∀ i, lineTrap (w.ctx c) ptr l = none →
      decodeHead (l.getD (headIx ptr) 0) (headTail l (headIx ptr)) = .ok i →
      step s = exec i { w with cur := { ctx := c, ptr := ptr, hc := lineHc l, h := l.getD (headIx ptr) 0
                                        t := (headTail l (headIx ptr)).headD 0, sc := headSc (l.getD (headIx ptr) 0)
                                        forwarded := false, seq := w.seq } }
    let stops := fun (w : State) (l : Line) =>
      (∀ z, lineTrap (w.ctx c) ptr l = some z → step s = .next (w.takeTrap c { cause := z })) ∧
      (lineTrap (w.ctx c) ptr l = none → decodeHead (l.getD (headIx ptr) 0) (headTail l (headIx ptr)) = .op →
        step s = .next (w.takeTrap c { cause := .illegalOp }))
    x.run = .running → x.inChain = false → v.beforeHead c = none → v.notReady c = false →
    (∀ w, x.wait = some w → step s = exec w.instr { v with cur := w.issue }) ∧
    (x.wait = none → x.csr.gang ≠ 2 → v.onStream c = false → v.breakAt c ptr = false →
      (∀ e, x.lines.find? (fun e => e.1 == lineVa ptr) = some e → runs v e.2 ∧ stops v e.2) ∧
      (x.lines.find? (fun e => e.1 == lineVa ptr) = none → ∀ w places,
        v.resolve (v.agent c) .fetch (BitVec.ofNat 64 (lineVa ptr)) (runFrom (lineVa ptr) 64) true false true = .ok (w, places) →
        w.Sound places → let l := (List.range 32).map fun j => s.byte (places.getD (2 * j + 1) 0) ++ s.byte (places.getD (2 * j) 0)
        let y := w.modCtx c fun x => x.addLine (lineVa ptr) l
        runs y l ∧ stops y l))

/-- R157: T of head 1 is 31, and each head's T is that of the head before it less that head's tail length; tail halfword i of head k
is halfword T - i of the line. -/
def Obligations.TailsArePlacedDownward : Prop :=
  ∀ l : Line, lineFormed l = true → ∃ tOf : Nat → Nat, tOf 1 = 31 ∧
    (∀ k, 1 ≤ k → k ≤ lineHc l → tOf (k + 1) + tailLength (headTl (l.getD k 0)) = tOf k) ∧
    ∀ k, 1 ≤ k → k ≤ lineHc l → (headTail l k).length = tailLength (headTl (l.getD k 0)) ∧
      ∀ i, i < tailLength (headTl (l.getD k 0)) → i ≤ tOf k ∧ lineHc l < tOf k - i ∧ (headTail l k)[i]? = some (l.getD (tOf k - i) 0)

/-- R12, R156-R164, R174: words written out from the tables of the spec decode to the instructions they stand for: the three heads
of the worked line, a head without a tail, and one head each of the memory, vector, array and coding groups. -/
def Obligations.WordsDecodeAsTheSpecWritesThem : Prop :=
  decodeHead 0x0100 [0x444C, 0x00C8] = .ok (.add 12 (.reg 4) (.lit 8)) ∧
  decodeHead 0x0595 [0x5456, 0x00E0, 0x0020, 0x0000] = .ok (.shr 22 (.reg 20) (.lit 32)) ∧
  decodeHead 0x8303 [0x0604, 0x1008] = .ok (.vfma 4 6 8 { pred := 0, fty := 2, rnd := 0 }) ∧
  decodeHead 0x2203 [] = .ok .nop ∧
  decodeHead 0x4100 [0x4443, 0x03C8] = .ok (.ld 3 4 (.lit 8) 3 false) ∧
  decodeHead 0x4101 [0xC044, 0x0243] = .ok (.st 4 (.lit 0) (.reg 3) 2) ∧
  decodeHead 0x0B00 [0xC047, 0x0900] = .ok (.cmp 1 1 (.reg 7) (.lit 0)) ∧
  decodeHead 0xC183 [0xC048, 0x00C0, 0x49C1, 0x0000] = .ok (.mstrm (.reg 8) (.lit 0) (.lit 0) (.lit 1) (.reg 9)) ∧
  decodeHead 0xE103 [0x4544, 0x00C1] = .ok (.penc (.reg 4) (.reg 5) (.lit 1)) ∧
  decodeHead 0x0000 [] = .op ∧
  let line : Line := [0x2103, 0x0100, 0x0595, 0x8303] ++ List.replicate 20 0 ++
    [0x1008, 0x0604, 0x0000, 0x0020, 0x00E0, 0x5456, 0x00C8, 0x444C]
  lineFormed line = true ∧ lineSigOk line = true ∧
    decodeHead (line.getD 2 0) (headTail line 2) = .ok (.shr 22 (.reg 20) (.lit 32))

/-- R160-R163: every well-formed head has words, with every operand at every value and every stall count, and they decode to it; what
decodes is well formed. -/
def Obligations.DecodingUndoesEncoding : Prop :=
  (∀ (i : Instr) (sc : Nat), i.wf = true → sc < 8 → ∃ h t, encode i sc = some (h, t) ∧ t.length = tailLength (headTl h) ∧
    headSc h = sc ∧ decodeHead h t = .ok i) ∧
  ∀ (h : Half) (t : List Half) (i : Instr), t.length = tailLength (headTl h) → decodeHead h t = .ok i → i.wf = true

/-- R34, R340, R371, R382: what the spec says of the machine right after reset: no memory ranges, SUSPTH 3, ports down, every queue's
status word 0x8000_0000; and every context has EPS, SMAX and GJTO at their reset values.
R28, R30, R343: the byte list of memory is in its one form at reset: addresses rise, and no listed byte is one that reads so
unlisted; nothing is full.
That memory with nothing listed reads zero is the model's choice outside local memory and scratchpad (log 3). -/
def Obligations.ResetIsAsTheSpecSays : Prop :=
  (let s := State.reset
   (∀ q k, SMap.look (s.part q).pmr k (0 : Word) = 0) ∧ (∀ g, (s.pkg g).suspth = 3) ∧
   (∀ g n, (SMap.look (s.pkg g).ports n {} : Port) = {}) ∧
   (∀ g vf q, SMap.look (SMap.look (s.pkg g).fns vf {} : VirtFn).status q (0x80000000 : BitVec 32) = 0x80000000) ∧
   (∀ q k, SMap.look (s.part q).wc k (0 : Word) = 0) ∧
   ∀ c, (s.ctx c).csr.eps = 0x3C00 ∧ (s.ctx c).csr.smax = 8 ∧ (s.ctx c).csr.gjto = 65536) ∧
  (Memory.wf State.reset.mem = true ∧ State.reset.full = [] ∧ (∀ p off, State.reset.byte (localAt p off) = 0) ∧
     ∀ w, State.reset.isFull w = false)

/-- The byte list keeps its one form: equal memories stay equal data, whatever a step stores, clears or loses.
The byte list is the model's own form of memory (log 3). -/
def Obligations.StepsKeepMemoryCanonical : Prop :=
  ∀ s t : State, Memory.wf s.mem = true → step s = .next t → Memory.wf t.mem = true
end

