-- ==== Sys2Proof/Laws/Maps.lean ====
section
/-! SUPPORT. Laws of sparse maps: what an entry reads as after a put. -/

namespace Sys2Proof

variable {α : Type}

@[simp] theorem SMap.look_nil (k : Nat) (d : α) : SMap.look [] k d = d := rfl

@[simp] theorem SMap.look_put_same (m : SMap α) (k : Nat) (v d : α) : SMap.look (SMap.put m k v) k d = v := by
  induction m with
  | nil => simp [SMap.put, SMap.look]
  | cons e t ih =>
    obtain ⟨j, w⟩ := e
    simp only [SMap.put]
    split
    · have : j ≠ k := by omega
      simp [SMap.look, this, ih]
    · split <;> simp [SMap.look]

theorem SMap.look_put_ne (m : SMap α) {k l : Nat} (v d : α) (h : l ≠ k) :
    SMap.look (SMap.put m k v) l d = SMap.look m l d := by
  induction m with
  | nil => simp [SMap.put, SMap.look, Ne.symm h]
  | cons e t ih =>
    obtain ⟨j, w⟩ := e
    simp only [SMap.put]
    split
    · simp [SMap.look, ih]
    · split
      · subst j
        simp [SMap.look, Ne.symm h]
      · simp [SMap.look, Ne.symm h]

theorem SMap.look_put (m : SMap α) (k l : Nat) (v d : α) :
    SMap.look (SMap.put m k v) l d = if l = k then v else SMap.look m l d := by
  by_cases h : l = k
  · subst h; simp
  · simp [h, SMap.look_put_ne]

@[simp] theorem SMap.look_upd_same (m : SMap α) (k : Nat) (d : α) (f : α → α) :
    SMap.look (SMap.upd m k d f) k d = f (SMap.look m k d) := SMap.look_put_same ..

end Sys2Proof
end

