-- ==== Sys2Proof/Laws/State.lean ====
section
/-! SUPPORT. Laws of the updates of State: what every field and every unit is after each of them. -/

namespace Sys2Proof.Machine


/-! ### Ctx -/

@[simp] theorem State.setCtx_cycle (s : State) (c : CtxId) (x : Context) : (s.setCtx c x).cycle = s.cycle := rfl
@[simp] theorem State.setCtx_cur (s : State) (c : CtxId) (x : Context) : (s.setCtx c x).cur = s.cur := rfl
@[simp] theorem State.setCtx_agenda (s : State) (c : CtxId) (x : Context) : (s.setCtx c x).agenda = s.agenda := rfl
@[simp] theorem State.setCtx_focus (s : State) (c : CtxId) (x : Context) : (s.setCtx c x).focus = s.focus := rfl
@[simp] theorem State.setCtx_seq (s : State) (c : CtxId) (x : Context) : (s.setCtx c x).seq = s.seq := rfl
@[simp] theorem State.setCtx_fresh (s : State) (c : CtxId) (x : Context) : (s.setCtx c x).fresh = s.fresh := rfl
@[simp] theorem State.setCtx_cores (s : State) (c : CtxId) (x : Context) : (s.setCtx c x).cores = s.cores := rfl
@[simp] theorem State.setCtx_clusters (s : State) (c : CtxId) (x : Context) : (s.setCtx c x).clusters = s.clusters := rfl
@[simp] theorem State.setCtx_dies (s : State) (c : CtxId) (x : Context) : (s.setCtx c x).dies = s.dies := rfl
@[simp] theorem State.setCtx_pkgs (s : State) (c : CtxId) (x : Context) : (s.setCtx c x).pkgs = s.pkgs := rfl
@[simp] theorem State.setCtx_parts (s : State) (c : CtxId) (x : Context) : (s.setCtx c x).parts = s.parts := rfl
@[simp] theorem State.setCtx_mem (s : State) (c : CtxId) (x : Context) : (s.setCtx c x).mem = s.mem := rfl
@[simp] theorem State.setCtx_full (s : State) (c : CtxId) (x : Context) : (s.setCtx c x).full = s.full := rfl
@[simp] theorem State.setCtx_tags (s : State) (c : CtxId) (x : Context) : (s.setCtx c x).tags = s.tags := rfl
@[simp] theorem State.setCtx_poison (s : State) (c : CtxId) (x : Context) : (s.setCtx c x).poison = s.poison := rfl
@[simp] theorem State.setCtx_freed (s : State) (c : CtxId) (x : Context) : (s.setCtx c x).freed = s.freed := rfl
@[simp] theorem State.setCtx_imageMarks (s : State) (c : CtxId) (x : Context) : (s.setCtx c x).imageMarks = s.imageMarks := rfl
@[simp] theorem State.setCtx_flying (s : State) (c : CtxId) (x : Context) : (s.setCtx c x).flying = s.flying := rfl
@[simp] theorem State.setCtx_gangs (s : State) (c : CtxId) (x : Context) : (s.setCtx c x).gangs = s.gangs := rfl
@[simp] theorem State.setCtx_core (s : State) (c : CtxId) (x : Context) (u : Place) : (s.setCtx c x).core u = s.core u := rfl
@[simp] theorem State.setCtx_cluster (s : State) (c : CtxId) (x : Context) (u : ClusterId) : (s.setCtx c x).cluster u = s.cluster u := rfl
@[simp] theorem State.setCtx_die (s : State) (c : CtxId) (x : Context) (u : DieId) : (s.setCtx c x).die u = s.die u := rfl
@[simp] theorem State.setCtx_pkg (s : State) (c : CtxId) (x : Context) (u : PkgId) : (s.setCtx c x).pkg u = s.pkg u := rfl
@[simp] theorem State.setCtx_part (s : State) (c : CtxId) (x : Context) (u : PartId) : (s.setCtx c x).part u = s.part u := rfl
@[simp] theorem State.modCtx_cycle (s : State) (c : CtxId) (f : Context → Context) : (s.modCtx c f).cycle = s.cycle := rfl
@[simp] theorem State.modCtx_cur (s : State) (c : CtxId) (f : Context → Context) : (s.modCtx c f).cur = s.cur := rfl
@[simp] theorem State.modCtx_agenda (s : State) (c : CtxId) (f : Context → Context) : (s.modCtx c f).agenda = s.agenda := rfl
@[simp] theorem State.modCtx_focus (s : State) (c : CtxId) (f : Context → Context) : (s.modCtx c f).focus = s.focus := rfl
@[simp] theorem State.modCtx_seq (s : State) (c : CtxId) (f : Context → Context) : (s.modCtx c f).seq = s.seq := rfl
@[simp] theorem State.modCtx_fresh (s : State) (c : CtxId) (f : Context → Context) : (s.modCtx c f).fresh = s.fresh := rfl
@[simp] theorem State.modCtx_cores (s : State) (c : CtxId) (f : Context → Context) : (s.modCtx c f).cores = s.cores := rfl
@[simp] theorem State.modCtx_clusters (s : State) (c : CtxId) (f : Context → Context) : (s.modCtx c f).clusters = s.clusters := rfl
@[simp] theorem State.modCtx_dies (s : State) (c : CtxId) (f : Context → Context) : (s.modCtx c f).dies = s.dies := rfl
@[simp] theorem State.modCtx_pkgs (s : State) (c : CtxId) (f : Context → Context) : (s.modCtx c f).pkgs = s.pkgs := rfl
@[simp] theorem State.modCtx_parts (s : State) (c : CtxId) (f : Context → Context) : (s.modCtx c f).parts = s.parts := rfl
@[simp] theorem State.modCtx_mem (s : State) (c : CtxId) (f : Context → Context) : (s.modCtx c f).mem = s.mem := rfl
@[simp] theorem State.modCtx_full (s : State) (c : CtxId) (f : Context → Context) : (s.modCtx c f).full = s.full := rfl
@[simp] theorem State.modCtx_tags (s : State) (c : CtxId) (f : Context → Context) : (s.modCtx c f).tags = s.tags := rfl
@[simp] theorem State.modCtx_poison (s : State) (c : CtxId) (f : Context → Context) : (s.modCtx c f).poison = s.poison := rfl
@[simp] theorem State.modCtx_freed (s : State) (c : CtxId) (f : Context → Context) : (s.modCtx c f).freed = s.freed := rfl
@[simp] theorem State.modCtx_imageMarks (s : State) (c : CtxId) (f : Context → Context) : (s.modCtx c f).imageMarks = s.imageMarks := rfl
@[simp] theorem State.modCtx_flying (s : State) (c : CtxId) (f : Context → Context) : (s.modCtx c f).flying = s.flying := rfl
@[simp] theorem State.modCtx_gangs (s : State) (c : CtxId) (f : Context → Context) : (s.modCtx c f).gangs = s.gangs := rfl
@[simp] theorem State.modCtx_core (s : State) (c : CtxId) (f : Context → Context) (u : Place) : (s.modCtx c f).core u = s.core u := rfl
@[simp] theorem State.modCtx_cluster (s : State) (c : CtxId) (f : Context → Context) (u : ClusterId) : (s.modCtx c f).cluster u = s.cluster u := rfl
@[simp] theorem State.modCtx_die (s : State) (c : CtxId) (f : Context → Context) (u : DieId) : (s.modCtx c f).die u = s.die u := rfl
@[simp] theorem State.modCtx_pkg (s : State) (c : CtxId) (f : Context → Context) (u : PkgId) : (s.modCtx c f).pkg u = s.pkg u := rfl
@[simp] theorem State.modCtx_part (s : State) (c : CtxId) (f : Context → Context) (u : PartId) : (s.modCtx c f).part u = s.part u := rfl
@[simp] theorem State.setCtx_same (s : State) (c : CtxId) (x : Context) : (s.setCtx c x).ctx c = x := SMap.look_put_same ..
theorem State.setCtx_ne (s : State) {c u : CtxId} (x : Context) (h : u ≠ c) : (s.setCtx c x).ctx u = s.ctx u := SMap.look_put_ne _ _ _ h
theorem State.setCtx_ctx (s : State) (c u : CtxId) (x : Context) : (s.setCtx c x).ctx u = if u = c then x else s.ctx u := SMap.look_put ..
@[simp] theorem State.modCtx_same (s : State) (c : CtxId) (f : Context → Context) : (s.modCtx c f).ctx c = f (s.ctx c) := SMap.look_put_same ..
theorem State.modCtx_ne (s : State) {c u : CtxId} (f : Context → Context) (h : u ≠ c) : (s.modCtx c f).ctx u = s.ctx u := SMap.look_put_ne _ _ _ h
theorem State.modCtx_ctx (s : State) (c u : CtxId) (f : Context → Context) : (s.modCtx c f).ctx u = if u = c then f (s.ctx c) else s.ctx u := SMap.look_put ..

/-! ### Core -/

@[simp] theorem State.setCore_cycle (s : State) (p : Place) (x : Core) : (s.setCore p x).cycle = s.cycle := rfl
@[simp] theorem State.setCore_cur (s : State) (p : Place) (x : Core) : (s.setCore p x).cur = s.cur := rfl
@[simp] theorem State.setCore_agenda (s : State) (p : Place) (x : Core) : (s.setCore p x).agenda = s.agenda := rfl
@[simp] theorem State.setCore_focus (s : State) (p : Place) (x : Core) : (s.setCore p x).focus = s.focus := rfl
@[simp] theorem State.setCore_seq (s : State) (p : Place) (x : Core) : (s.setCore p x).seq = s.seq := rfl
@[simp] theorem State.setCore_fresh (s : State) (p : Place) (x : Core) : (s.setCore p x).fresh = s.fresh := rfl
@[simp] theorem State.setCore_ctxs (s : State) (p : Place) (x : Core) : (s.setCore p x).ctxs = s.ctxs := rfl
@[simp] theorem State.setCore_clusters (s : State) (p : Place) (x : Core) : (s.setCore p x).clusters = s.clusters := rfl
@[simp] theorem State.setCore_dies (s : State) (p : Place) (x : Core) : (s.setCore p x).dies = s.dies := rfl
@[simp] theorem State.setCore_pkgs (s : State) (p : Place) (x : Core) : (s.setCore p x).pkgs = s.pkgs := rfl
@[simp] theorem State.setCore_parts (s : State) (p : Place) (x : Core) : (s.setCore p x).parts = s.parts := rfl
@[simp] theorem State.setCore_mem (s : State) (p : Place) (x : Core) : (s.setCore p x).mem = s.mem := rfl
@[simp] theorem State.setCore_full (s : State) (p : Place) (x : Core) : (s.setCore p x).full = s.full := rfl
@[simp] theorem State.setCore_tags (s : State) (p : Place) (x : Core) : (s.setCore p x).tags = s.tags := rfl
@[simp] theorem State.setCore_poison (s : State) (p : Place) (x : Core) : (s.setCore p x).poison = s.poison := rfl
@[simp] theorem State.setCore_freed (s : State) (p : Place) (x : Core) : (s.setCore p x).freed = s.freed := rfl
@[simp] theorem State.setCore_imageMarks (s : State) (p : Place) (x : Core) : (s.setCore p x).imageMarks = s.imageMarks := rfl
@[simp] theorem State.setCore_flying (s : State) (p : Place) (x : Core) : (s.setCore p x).flying = s.flying := rfl
@[simp] theorem State.setCore_gangs (s : State) (p : Place) (x : Core) : (s.setCore p x).gangs = s.gangs := rfl
@[simp] theorem State.setCore_ctx (s : State) (p : Place) (x : Core) (u : CtxId) : (s.setCore p x).ctx u = s.ctx u := rfl
@[simp] theorem State.setCore_cluster (s : State) (p : Place) (x : Core) (u : ClusterId) : (s.setCore p x).cluster u = s.cluster u := rfl
@[simp] theorem State.setCore_die (s : State) (p : Place) (x : Core) (u : DieId) : (s.setCore p x).die u = s.die u := rfl
@[simp] theorem State.setCore_pkg (s : State) (p : Place) (x : Core) (u : PkgId) : (s.setCore p x).pkg u = s.pkg u := rfl
@[simp] theorem State.setCore_part (s : State) (p : Place) (x : Core) (u : PartId) : (s.setCore p x).part u = s.part u := rfl
@[simp] theorem State.modCore_cycle (s : State) (p : Place) (f : Core → Core) : (s.modCore p f).cycle = s.cycle := rfl
@[simp] theorem State.modCore_cur (s : State) (p : Place) (f : Core → Core) : (s.modCore p f).cur = s.cur := rfl
@[simp] theorem State.modCore_agenda (s : State) (p : Place) (f : Core → Core) : (s.modCore p f).agenda = s.agenda := rfl
@[simp] theorem State.modCore_focus (s : State) (p : Place) (f : Core → Core) : (s.modCore p f).focus = s.focus := rfl
@[simp] theorem State.modCore_seq (s : State) (p : Place) (f : Core → Core) : (s.modCore p f).seq = s.seq := rfl
@[simp] theorem State.modCore_fresh (s : State) (p : Place) (f : Core → Core) : (s.modCore p f).fresh = s.fresh := rfl
@[simp] theorem State.modCore_ctxs (s : State) (p : Place) (f : Core → Core) : (s.modCore p f).ctxs = s.ctxs := rfl
@[simp] theorem State.modCore_clusters (s : State) (p : Place) (f : Core → Core) : (s.modCore p f).clusters = s.clusters := rfl
@[simp] theorem State.modCore_dies (s : State) (p : Place) (f : Core → Core) : (s.modCore p f).dies = s.dies := rfl
@[simp] theorem State.modCore_pkgs (s : State) (p : Place) (f : Core → Core) : (s.modCore p f).pkgs = s.pkgs := rfl
@[simp] theorem State.modCore_parts (s : State) (p : Place) (f : Core → Core) : (s.modCore p f).parts = s.parts := rfl
@[simp] theorem State.modCore_mem (s : State) (p : Place) (f : Core → Core) : (s.modCore p f).mem = s.mem := rfl
@[simp] theorem State.modCore_full (s : State) (p : Place) (f : Core → Core) : (s.modCore p f).full = s.full := rfl
@[simp] theorem State.modCore_tags (s : State) (p : Place) (f : Core → Core) : (s.modCore p f).tags = s.tags := rfl
@[simp] theorem State.modCore_poison (s : State) (p : Place) (f : Core → Core) : (s.modCore p f).poison = s.poison := rfl
@[simp] theorem State.modCore_freed (s : State) (p : Place) (f : Core → Core) : (s.modCore p f).freed = s.freed := rfl
@[simp] theorem State.modCore_imageMarks (s : State) (p : Place) (f : Core → Core) : (s.modCore p f).imageMarks = s.imageMarks := rfl
@[simp] theorem State.modCore_flying (s : State) (p : Place) (f : Core → Core) : (s.modCore p f).flying = s.flying := rfl
@[simp] theorem State.modCore_gangs (s : State) (p : Place) (f : Core → Core) : (s.modCore p f).gangs = s.gangs := rfl
@[simp] theorem State.modCore_ctx (s : State) (p : Place) (f : Core → Core) (u : CtxId) : (s.modCore p f).ctx u = s.ctx u := rfl
@[simp] theorem State.modCore_cluster (s : State) (p : Place) (f : Core → Core) (u : ClusterId) : (s.modCore p f).cluster u = s.cluster u := rfl
@[simp] theorem State.modCore_die (s : State) (p : Place) (f : Core → Core) (u : DieId) : (s.modCore p f).die u = s.die u := rfl
@[simp] theorem State.modCore_pkg (s : State) (p : Place) (f : Core → Core) (u : PkgId) : (s.modCore p f).pkg u = s.pkg u := rfl
@[simp] theorem State.modCore_part (s : State) (p : Place) (f : Core → Core) (u : PartId) : (s.modCore p f).part u = s.part u := rfl
@[simp] theorem State.setCore_same (s : State) (p : Place) (x : Core) : (s.setCore p x).core p = x := SMap.look_put_same ..
theorem State.setCore_ne (s : State) {p u : Place} (x : Core) (h : u ≠ p) : (s.setCore p x).core u = s.core u := SMap.look_put_ne _ _ _ h
theorem State.setCore_core (s : State) (p u : Place) (x : Core) : (s.setCore p x).core u = if u = p then x else s.core u := SMap.look_put ..
@[simp] theorem State.modCore_same (s : State) (p : Place) (f : Core → Core) : (s.modCore p f).core p = f (s.core p) := SMap.look_put_same ..
theorem State.modCore_ne (s : State) {p u : Place} (f : Core → Core) (h : u ≠ p) : (s.modCore p f).core u = s.core u := SMap.look_put_ne _ _ _ h
theorem State.modCore_core (s : State) (p u : Place) (f : Core → Core) : (s.modCore p f).core u = if u = p then f (s.core p) else s.core u := SMap.look_put ..

/-! ### Cluster -/

@[simp] theorem State.setCluster_cycle (s : State) (k : ClusterId) (x : Cluster) : (s.setCluster k x).cycle = s.cycle := rfl
@[simp] theorem State.setCluster_cur (s : State) (k : ClusterId) (x : Cluster) : (s.setCluster k x).cur = s.cur := rfl
@[simp] theorem State.setCluster_agenda (s : State) (k : ClusterId) (x : Cluster) : (s.setCluster k x).agenda = s.agenda := rfl
@[simp] theorem State.setCluster_focus (s : State) (k : ClusterId) (x : Cluster) : (s.setCluster k x).focus = s.focus := rfl
@[simp] theorem State.setCluster_seq (s : State) (k : ClusterId) (x : Cluster) : (s.setCluster k x).seq = s.seq := rfl
@[simp] theorem State.setCluster_fresh (s : State) (k : ClusterId) (x : Cluster) : (s.setCluster k x).fresh = s.fresh := rfl
@[simp] theorem State.setCluster_ctxs (s : State) (k : ClusterId) (x : Cluster) : (s.setCluster k x).ctxs = s.ctxs := rfl
@[simp] theorem State.setCluster_cores (s : State) (k : ClusterId) (x : Cluster) : (s.setCluster k x).cores = s.cores := rfl
@[simp] theorem State.setCluster_dies (s : State) (k : ClusterId) (x : Cluster) : (s.setCluster k x).dies = s.dies := rfl
@[simp] theorem State.setCluster_pkgs (s : State) (k : ClusterId) (x : Cluster) : (s.setCluster k x).pkgs = s.pkgs := rfl
@[simp] theorem State.setCluster_parts (s : State) (k : ClusterId) (x : Cluster) : (s.setCluster k x).parts = s.parts := rfl
@[simp] theorem State.setCluster_mem (s : State) (k : ClusterId) (x : Cluster) : (s.setCluster k x).mem = s.mem := rfl
@[simp] theorem State.setCluster_full (s : State) (k : ClusterId) (x : Cluster) : (s.setCluster k x).full = s.full := rfl
@[simp] theorem State.setCluster_tags (s : State) (k : ClusterId) (x : Cluster) : (s.setCluster k x).tags = s.tags := rfl
@[simp] theorem State.setCluster_poison (s : State) (k : ClusterId) (x : Cluster) : (s.setCluster k x).poison = s.poison := rfl
@[simp] theorem State.setCluster_freed (s : State) (k : ClusterId) (x : Cluster) : (s.setCluster k x).freed = s.freed := rfl
@[simp] theorem State.setCluster_imageMarks (s : State) (k : ClusterId) (x : Cluster) : (s.setCluster k x).imageMarks = s.imageMarks := rfl
@[simp] theorem State.setCluster_flying (s : State) (k : ClusterId) (x : Cluster) : (s.setCluster k x).flying = s.flying := rfl
@[simp] theorem State.setCluster_gangs (s : State) (k : ClusterId) (x : Cluster) : (s.setCluster k x).gangs = s.gangs := rfl
@[simp] theorem State.setCluster_ctx (s : State) (k : ClusterId) (x : Cluster) (u : CtxId) : (s.setCluster k x).ctx u = s.ctx u := rfl
@[simp] theorem State.setCluster_core (s : State) (k : ClusterId) (x : Cluster) (u : Place) : (s.setCluster k x).core u = s.core u := rfl
@[simp] theorem State.setCluster_die (s : State) (k : ClusterId) (x : Cluster) (u : DieId) : (s.setCluster k x).die u = s.die u := rfl
@[simp] theorem State.setCluster_pkg (s : State) (k : ClusterId) (x : Cluster) (u : PkgId) : (s.setCluster k x).pkg u = s.pkg u := rfl
@[simp] theorem State.setCluster_part (s : State) (k : ClusterId) (x : Cluster) (u : PartId) : (s.setCluster k x).part u = s.part u := rfl
@[simp] theorem State.modCluster_cycle (s : State) (k : ClusterId) (f : Cluster → Cluster) : (s.modCluster k f).cycle = s.cycle := rfl
@[simp] theorem State.modCluster_cur (s : State) (k : ClusterId) (f : Cluster → Cluster) : (s.modCluster k f).cur = s.cur := rfl
@[simp] theorem State.modCluster_agenda (s : State) (k : ClusterId) (f : Cluster → Cluster) : (s.modCluster k f).agenda = s.agenda := rfl
@[simp] theorem State.modCluster_focus (s : State) (k : ClusterId) (f : Cluster → Cluster) : (s.modCluster k f).focus = s.focus := rfl
@[simp] theorem State.modCluster_seq (s : State) (k : ClusterId) (f : Cluster → Cluster) : (s.modCluster k f).seq = s.seq := rfl
@[simp] theorem State.modCluster_fresh (s : State) (k : ClusterId) (f : Cluster → Cluster) : (s.modCluster k f).fresh = s.fresh := rfl
@[simp] theorem State.modCluster_ctxs (s : State) (k : ClusterId) (f : Cluster → Cluster) : (s.modCluster k f).ctxs = s.ctxs := rfl
@[simp] theorem State.modCluster_cores (s : State) (k : ClusterId) (f : Cluster → Cluster) : (s.modCluster k f).cores = s.cores := rfl
@[simp] theorem State.modCluster_dies (s : State) (k : ClusterId) (f : Cluster → Cluster) : (s.modCluster k f).dies = s.dies := rfl
@[simp] theorem State.modCluster_pkgs (s : State) (k : ClusterId) (f : Cluster → Cluster) : (s.modCluster k f).pkgs = s.pkgs := rfl
@[simp] theorem State.modCluster_parts (s : State) (k : ClusterId) (f : Cluster → Cluster) : (s.modCluster k f).parts = s.parts := rfl
@[simp] theorem State.modCluster_mem (s : State) (k : ClusterId) (f : Cluster → Cluster) : (s.modCluster k f).mem = s.mem := rfl
@[simp] theorem State.modCluster_full (s : State) (k : ClusterId) (f : Cluster → Cluster) : (s.modCluster k f).full = s.full := rfl
@[simp] theorem State.modCluster_tags (s : State) (k : ClusterId) (f : Cluster → Cluster) : (s.modCluster k f).tags = s.tags := rfl
@[simp] theorem State.modCluster_poison (s : State) (k : ClusterId) (f : Cluster → Cluster) : (s.modCluster k f).poison = s.poison := rfl
@[simp] theorem State.modCluster_freed (s : State) (k : ClusterId) (f : Cluster → Cluster) : (s.modCluster k f).freed = s.freed := rfl
@[simp] theorem State.modCluster_imageMarks (s : State) (k : ClusterId) (f : Cluster → Cluster) : (s.modCluster k f).imageMarks = s.imageMarks := rfl
@[simp] theorem State.modCluster_flying (s : State) (k : ClusterId) (f : Cluster → Cluster) : (s.modCluster k f).flying = s.flying := rfl
@[simp] theorem State.modCluster_gangs (s : State) (k : ClusterId) (f : Cluster → Cluster) : (s.modCluster k f).gangs = s.gangs := rfl
@[simp] theorem State.modCluster_ctx (s : State) (k : ClusterId) (f : Cluster → Cluster) (u : CtxId) : (s.modCluster k f).ctx u = s.ctx u := rfl
@[simp] theorem State.modCluster_core (s : State) (k : ClusterId) (f : Cluster → Cluster) (u : Place) : (s.modCluster k f).core u = s.core u := rfl
@[simp] theorem State.modCluster_die (s : State) (k : ClusterId) (f : Cluster → Cluster) (u : DieId) : (s.modCluster k f).die u = s.die u := rfl
@[simp] theorem State.modCluster_pkg (s : State) (k : ClusterId) (f : Cluster → Cluster) (u : PkgId) : (s.modCluster k f).pkg u = s.pkg u := rfl
@[simp] theorem State.modCluster_part (s : State) (k : ClusterId) (f : Cluster → Cluster) (u : PartId) : (s.modCluster k f).part u = s.part u := rfl
@[simp] theorem State.setCluster_same (s : State) (k : ClusterId) (x : Cluster) : (s.setCluster k x).cluster k = x := SMap.look_put_same ..
theorem State.setCluster_ne (s : State) {k u : ClusterId} (x : Cluster) (h : u ≠ k) : (s.setCluster k x).cluster u = s.cluster u := SMap.look_put_ne _ _ _ h
theorem State.setCluster_cluster (s : State) (k u : ClusterId) (x : Cluster) : (s.setCluster k x).cluster u = if u = k then x else s.cluster u := SMap.look_put ..
@[simp] theorem State.modCluster_same (s : State) (k : ClusterId) (f : Cluster → Cluster) : (s.modCluster k f).cluster k = f (s.cluster k) := SMap.look_put_same ..
theorem State.modCluster_ne (s : State) {k u : ClusterId} (f : Cluster → Cluster) (h : u ≠ k) : (s.modCluster k f).cluster u = s.cluster u := SMap.look_put_ne _ _ _ h
theorem State.modCluster_cluster (s : State) (k u : ClusterId) (f : Cluster → Cluster) : (s.modCluster k f).cluster u = if u = k then f (s.cluster k) else s.cluster u := SMap.look_put ..

/-! ### Die -/

@[simp] theorem State.setDie_cycle (s : State) (d : DieId) (x : Die) : (s.setDie d x).cycle = s.cycle := rfl
@[simp] theorem State.setDie_cur (s : State) (d : DieId) (x : Die) : (s.setDie d x).cur = s.cur := rfl
@[simp] theorem State.setDie_agenda (s : State) (d : DieId) (x : Die) : (s.setDie d x).agenda = s.agenda := rfl
@[simp] theorem State.setDie_focus (s : State) (d : DieId) (x : Die) : (s.setDie d x).focus = s.focus := rfl
@[simp] theorem State.setDie_seq (s : State) (d : DieId) (x : Die) : (s.setDie d x).seq = s.seq := rfl
@[simp] theorem State.setDie_fresh (s : State) (d : DieId) (x : Die) : (s.setDie d x).fresh = s.fresh := rfl
@[simp] theorem State.setDie_ctxs (s : State) (d : DieId) (x : Die) : (s.setDie d x).ctxs = s.ctxs := rfl
@[simp] theorem State.setDie_cores (s : State) (d : DieId) (x : Die) : (s.setDie d x).cores = s.cores := rfl
@[simp] theorem State.setDie_clusters (s : State) (d : DieId) (x : Die) : (s.setDie d x).clusters = s.clusters := rfl
@[simp] theorem State.setDie_pkgs (s : State) (d : DieId) (x : Die) : (s.setDie d x).pkgs = s.pkgs := rfl
@[simp] theorem State.setDie_parts (s : State) (d : DieId) (x : Die) : (s.setDie d x).parts = s.parts := rfl
@[simp] theorem State.setDie_mem (s : State) (d : DieId) (x : Die) : (s.setDie d x).mem = s.mem := rfl
@[simp] theorem State.setDie_full (s : State) (d : DieId) (x : Die) : (s.setDie d x).full = s.full := rfl
@[simp] theorem State.setDie_tags (s : State) (d : DieId) (x : Die) : (s.setDie d x).tags = s.tags := rfl
@[simp] theorem State.setDie_poison (s : State) (d : DieId) (x : Die) : (s.setDie d x).poison = s.poison := rfl
@[simp] theorem State.setDie_freed (s : State) (d : DieId) (x : Die) : (s.setDie d x).freed = s.freed := rfl
@[simp] theorem State.setDie_imageMarks (s : State) (d : DieId) (x : Die) : (s.setDie d x).imageMarks = s.imageMarks := rfl
@[simp] theorem State.setDie_flying (s : State) (d : DieId) (x : Die) : (s.setDie d x).flying = s.flying := rfl
@[simp] theorem State.setDie_gangs (s : State) (d : DieId) (x : Die) : (s.setDie d x).gangs = s.gangs := rfl
@[simp] theorem State.setDie_ctx (s : State) (d : DieId) (x : Die) (u : CtxId) : (s.setDie d x).ctx u = s.ctx u := rfl
@[simp] theorem State.setDie_core (s : State) (d : DieId) (x : Die) (u : Place) : (s.setDie d x).core u = s.core u := rfl
@[simp] theorem State.setDie_cluster (s : State) (d : DieId) (x : Die) (u : ClusterId) : (s.setDie d x).cluster u = s.cluster u := rfl
@[simp] theorem State.setDie_pkg (s : State) (d : DieId) (x : Die) (u : PkgId) : (s.setDie d x).pkg u = s.pkg u := rfl
@[simp] theorem State.setDie_part (s : State) (d : DieId) (x : Die) (u : PartId) : (s.setDie d x).part u = s.part u := rfl
@[simp] theorem State.modDie_cycle (s : State) (d : DieId) (f : Die → Die) : (s.modDie d f).cycle = s.cycle := rfl
@[simp] theorem State.modDie_cur (s : State) (d : DieId) (f : Die → Die) : (s.modDie d f).cur = s.cur := rfl
@[simp] theorem State.modDie_agenda (s : State) (d : DieId) (f : Die → Die) : (s.modDie d f).agenda = s.agenda := rfl
@[simp] theorem State.modDie_focus (s : State) (d : DieId) (f : Die → Die) : (s.modDie d f).focus = s.focus := rfl
@[simp] theorem State.modDie_seq (s : State) (d : DieId) (f : Die → Die) : (s.modDie d f).seq = s.seq := rfl
@[simp] theorem State.modDie_fresh (s : State) (d : DieId) (f : Die → Die) : (s.modDie d f).fresh = s.fresh := rfl
@[simp] theorem State.modDie_ctxs (s : State) (d : DieId) (f : Die → Die) : (s.modDie d f).ctxs = s.ctxs := rfl
@[simp] theorem State.modDie_cores (s : State) (d : DieId) (f : Die → Die) : (s.modDie d f).cores = s.cores := rfl
@[simp] theorem State.modDie_clusters (s : State) (d : DieId) (f : Die → Die) : (s.modDie d f).clusters = s.clusters := rfl
@[simp] theorem State.modDie_pkgs (s : State) (d : DieId) (f : Die → Die) : (s.modDie d f).pkgs = s.pkgs := rfl
@[simp] theorem State.modDie_parts (s : State) (d : DieId) (f : Die → Die) : (s.modDie d f).parts = s.parts := rfl
@[simp] theorem State.modDie_mem (s : State) (d : DieId) (f : Die → Die) : (s.modDie d f).mem = s.mem := rfl
@[simp] theorem State.modDie_full (s : State) (d : DieId) (f : Die → Die) : (s.modDie d f).full = s.full := rfl
@[simp] theorem State.modDie_tags (s : State) (d : DieId) (f : Die → Die) : (s.modDie d f).tags = s.tags := rfl
@[simp] theorem State.modDie_poison (s : State) (d : DieId) (f : Die → Die) : (s.modDie d f).poison = s.poison := rfl
@[simp] theorem State.modDie_freed (s : State) (d : DieId) (f : Die → Die) : (s.modDie d f).freed = s.freed := rfl
@[simp] theorem State.modDie_imageMarks (s : State) (d : DieId) (f : Die → Die) : (s.modDie d f).imageMarks = s.imageMarks := rfl
@[simp] theorem State.modDie_flying (s : State) (d : DieId) (f : Die → Die) : (s.modDie d f).flying = s.flying := rfl
@[simp] theorem State.modDie_gangs (s : State) (d : DieId) (f : Die → Die) : (s.modDie d f).gangs = s.gangs := rfl
@[simp] theorem State.modDie_ctx (s : State) (d : DieId) (f : Die → Die) (u : CtxId) : (s.modDie d f).ctx u = s.ctx u := rfl
@[simp] theorem State.modDie_core (s : State) (d : DieId) (f : Die → Die) (u : Place) : (s.modDie d f).core u = s.core u := rfl
@[simp] theorem State.modDie_cluster (s : State) (d : DieId) (f : Die → Die) (u : ClusterId) : (s.modDie d f).cluster u = s.cluster u := rfl
@[simp] theorem State.modDie_pkg (s : State) (d : DieId) (f : Die → Die) (u : PkgId) : (s.modDie d f).pkg u = s.pkg u := rfl
@[simp] theorem State.modDie_part (s : State) (d : DieId) (f : Die → Die) (u : PartId) : (s.modDie d f).part u = s.part u := rfl
@[simp] theorem State.setDie_same (s : State) (d : DieId) (x : Die) : (s.setDie d x).die d = x := SMap.look_put_same ..
theorem State.setDie_ne (s : State) {d u : DieId} (x : Die) (h : u ≠ d) : (s.setDie d x).die u = s.die u := SMap.look_put_ne _ _ _ h
theorem State.setDie_die (s : State) (d u : DieId) (x : Die) : (s.setDie d x).die u = if u = d then x else s.die u := SMap.look_put ..
@[simp] theorem State.modDie_same (s : State) (d : DieId) (f : Die → Die) : (s.modDie d f).die d = f (s.die d) := SMap.look_put_same ..
theorem State.modDie_ne (s : State) {d u : DieId} (f : Die → Die) (h : u ≠ d) : (s.modDie d f).die u = s.die u := SMap.look_put_ne _ _ _ h
theorem State.modDie_die (s : State) (d u : DieId) (f : Die → Die) : (s.modDie d f).die u = if u = d then f (s.die d) else s.die u := SMap.look_put ..

/-! ### Pkg -/

@[simp] theorem State.setPkg_cycle (s : State) (g : PkgId) (x : Package) : (s.setPkg g x).cycle = s.cycle := rfl
@[simp] theorem State.setPkg_cur (s : State) (g : PkgId) (x : Package) : (s.setPkg g x).cur = s.cur := rfl
@[simp] theorem State.setPkg_agenda (s : State) (g : PkgId) (x : Package) : (s.setPkg g x).agenda = s.agenda := rfl
@[simp] theorem State.setPkg_focus (s : State) (g : PkgId) (x : Package) : (s.setPkg g x).focus = s.focus := rfl
@[simp] theorem State.setPkg_seq (s : State) (g : PkgId) (x : Package) : (s.setPkg g x).seq = s.seq := rfl
@[simp] theorem State.setPkg_fresh (s : State) (g : PkgId) (x : Package) : (s.setPkg g x).fresh = s.fresh := rfl
@[simp] theorem State.setPkg_ctxs (s : State) (g : PkgId) (x : Package) : (s.setPkg g x).ctxs = s.ctxs := rfl
@[simp] theorem State.setPkg_cores (s : State) (g : PkgId) (x : Package) : (s.setPkg g x).cores = s.cores := rfl
@[simp] theorem State.setPkg_clusters (s : State) (g : PkgId) (x : Package) : (s.setPkg g x).clusters = s.clusters := rfl
@[simp] theorem State.setPkg_dies (s : State) (g : PkgId) (x : Package) : (s.setPkg g x).dies = s.dies := rfl
@[simp] theorem State.setPkg_parts (s : State) (g : PkgId) (x : Package) : (s.setPkg g x).parts = s.parts := rfl
@[simp] theorem State.setPkg_mem (s : State) (g : PkgId) (x : Package) : (s.setPkg g x).mem = s.mem := rfl
@[simp] theorem State.setPkg_full (s : State) (g : PkgId) (x : Package) : (s.setPkg g x).full = s.full := rfl
@[simp] theorem State.setPkg_tags (s : State) (g : PkgId) (x : Package) : (s.setPkg g x).tags = s.tags := rfl
@[simp] theorem State.setPkg_poison (s : State) (g : PkgId) (x : Package) : (s.setPkg g x).poison = s.poison := rfl
@[simp] theorem State.setPkg_freed (s : State) (g : PkgId) (x : Package) : (s.setPkg g x).freed = s.freed := rfl
@[simp] theorem State.setPkg_imageMarks (s : State) (g : PkgId) (x : Package) : (s.setPkg g x).imageMarks = s.imageMarks := rfl
@[simp] theorem State.setPkg_flying (s : State) (g : PkgId) (x : Package) : (s.setPkg g x).flying = s.flying := rfl
@[simp] theorem State.setPkg_gangs (s : State) (g : PkgId) (x : Package) : (s.setPkg g x).gangs = s.gangs := rfl
@[simp] theorem State.setPkg_ctx (s : State) (g : PkgId) (x : Package) (u : CtxId) : (s.setPkg g x).ctx u = s.ctx u := rfl
@[simp] theorem State.setPkg_core (s : State) (g : PkgId) (x : Package) (u : Place) : (s.setPkg g x).core u = s.core u := rfl
@[simp] theorem State.setPkg_cluster (s : State) (g : PkgId) (x : Package) (u : ClusterId) : (s.setPkg g x).cluster u = s.cluster u := rfl
@[simp] theorem State.setPkg_die (s : State) (g : PkgId) (x : Package) (u : DieId) : (s.setPkg g x).die u = s.die u := rfl
@[simp] theorem State.setPkg_part (s : State) (g : PkgId) (x : Package) (u : PartId) : (s.setPkg g x).part u = s.part u := rfl
@[simp] theorem State.modPkg_cycle (s : State) (g : PkgId) (f : Package → Package) : (s.modPkg g f).cycle = s.cycle := rfl
@[simp] theorem State.modPkg_cur (s : State) (g : PkgId) (f : Package → Package) : (s.modPkg g f).cur = s.cur := rfl
@[simp] theorem State.modPkg_agenda (s : State) (g : PkgId) (f : Package → Package) : (s.modPkg g f).agenda = s.agenda := rfl
@[simp] theorem State.modPkg_focus (s : State) (g : PkgId) (f : Package → Package) : (s.modPkg g f).focus = s.focus := rfl
@[simp] theorem State.modPkg_seq (s : State) (g : PkgId) (f : Package → Package) : (s.modPkg g f).seq = s.seq := rfl
@[simp] theorem State.modPkg_fresh (s : State) (g : PkgId) (f : Package → Package) : (s.modPkg g f).fresh = s.fresh := rfl
@[simp] theorem State.modPkg_ctxs (s : State) (g : PkgId) (f : Package → Package) : (s.modPkg g f).ctxs = s.ctxs := rfl
@[simp] theorem State.modPkg_cores (s : State) (g : PkgId) (f : Package → Package) : (s.modPkg g f).cores = s.cores := rfl
@[simp] theorem State.modPkg_clusters (s : State) (g : PkgId) (f : Package → Package) : (s.modPkg g f).clusters = s.clusters := rfl
@[simp] theorem State.modPkg_dies (s : State) (g : PkgId) (f : Package → Package) : (s.modPkg g f).dies = s.dies := rfl
@[simp] theorem State.modPkg_parts (s : State) (g : PkgId) (f : Package → Package) : (s.modPkg g f).parts = s.parts := rfl
@[simp] theorem State.modPkg_mem (s : State) (g : PkgId) (f : Package → Package) : (s.modPkg g f).mem = s.mem := rfl
@[simp] theorem State.modPkg_full (s : State) (g : PkgId) (f : Package → Package) : (s.modPkg g f).full = s.full := rfl
@[simp] theorem State.modPkg_tags (s : State) (g : PkgId) (f : Package → Package) : (s.modPkg g f).tags = s.tags := rfl
@[simp] theorem State.modPkg_poison (s : State) (g : PkgId) (f : Package → Package) : (s.modPkg g f).poison = s.poison := rfl
@[simp] theorem State.modPkg_freed (s : State) (g : PkgId) (f : Package → Package) : (s.modPkg g f).freed = s.freed := rfl
@[simp] theorem State.modPkg_imageMarks (s : State) (g : PkgId) (f : Package → Package) : (s.modPkg g f).imageMarks = s.imageMarks := rfl
@[simp] theorem State.modPkg_flying (s : State) (g : PkgId) (f : Package → Package) : (s.modPkg g f).flying = s.flying := rfl
@[simp] theorem State.modPkg_gangs (s : State) (g : PkgId) (f : Package → Package) : (s.modPkg g f).gangs = s.gangs := rfl
@[simp] theorem State.modPkg_ctx (s : State) (g : PkgId) (f : Package → Package) (u : CtxId) : (s.modPkg g f).ctx u = s.ctx u := rfl
@[simp] theorem State.modPkg_core (s : State) (g : PkgId) (f : Package → Package) (u : Place) : (s.modPkg g f).core u = s.core u := rfl
@[simp] theorem State.modPkg_cluster (s : State) (g : PkgId) (f : Package → Package) (u : ClusterId) : (s.modPkg g f).cluster u = s.cluster u := rfl
@[simp] theorem State.modPkg_die (s : State) (g : PkgId) (f : Package → Package) (u : DieId) : (s.modPkg g f).die u = s.die u := rfl
@[simp] theorem State.modPkg_part (s : State) (g : PkgId) (f : Package → Package) (u : PartId) : (s.modPkg g f).part u = s.part u := rfl
@[simp] theorem State.setPkg_same (s : State) (g : PkgId) (x : Package) : (s.setPkg g x).pkg g = x := SMap.look_put_same ..
theorem State.setPkg_ne (s : State) {g u : PkgId} (x : Package) (h : u ≠ g) : (s.setPkg g x).pkg u = s.pkg u := SMap.look_put_ne _ _ _ h
theorem State.setPkg_pkg (s : State) (g u : PkgId) (x : Package) : (s.setPkg g x).pkg u = if u = g then x else s.pkg u := SMap.look_put ..
@[simp] theorem State.modPkg_same (s : State) (g : PkgId) (f : Package → Package) : (s.modPkg g f).pkg g = f (s.pkg g) := SMap.look_put_same ..
theorem State.modPkg_ne (s : State) {g u : PkgId} (f : Package → Package) (h : u ≠ g) : (s.modPkg g f).pkg u = s.pkg u := SMap.look_put_ne _ _ _ h
theorem State.modPkg_pkg (s : State) (g u : PkgId) (f : Package → Package) : (s.modPkg g f).pkg u = if u = g then f (s.pkg g) else s.pkg u := SMap.look_put ..

/-! ### Part -/

@[simp] theorem State.setPart_cycle (s : State) (q : PartId) (x : Part) : (s.setPart q x).cycle = s.cycle := rfl
@[simp] theorem State.setPart_cur (s : State) (q : PartId) (x : Part) : (s.setPart q x).cur = s.cur := rfl
@[simp] theorem State.setPart_agenda (s : State) (q : PartId) (x : Part) : (s.setPart q x).agenda = s.agenda := rfl
@[simp] theorem State.setPart_focus (s : State) (q : PartId) (x : Part) : (s.setPart q x).focus = s.focus := rfl
@[simp] theorem State.setPart_seq (s : State) (q : PartId) (x : Part) : (s.setPart q x).seq = s.seq := rfl
@[simp] theorem State.setPart_fresh (s : State) (q : PartId) (x : Part) : (s.setPart q x).fresh = s.fresh := rfl
@[simp] theorem State.setPart_ctxs (s : State) (q : PartId) (x : Part) : (s.setPart q x).ctxs = s.ctxs := rfl
@[simp] theorem State.setPart_cores (s : State) (q : PartId) (x : Part) : (s.setPart q x).cores = s.cores := rfl
@[simp] theorem State.setPart_clusters (s : State) (q : PartId) (x : Part) : (s.setPart q x).clusters = s.clusters := rfl
@[simp] theorem State.setPart_dies (s : State) (q : PartId) (x : Part) : (s.setPart q x).dies = s.dies := rfl
@[simp] theorem State.setPart_pkgs (s : State) (q : PartId) (x : Part) : (s.setPart q x).pkgs = s.pkgs := rfl
@[simp] theorem State.setPart_mem (s : State) (q : PartId) (x : Part) : (s.setPart q x).mem = s.mem := rfl
@[simp] theorem State.setPart_full (s : State) (q : PartId) (x : Part) : (s.setPart q x).full = s.full := rfl
@[simp] theorem State.setPart_tags (s : State) (q : PartId) (x : Part) : (s.setPart q x).tags = s.tags := rfl
@[simp] theorem State.setPart_poison (s : State) (q : PartId) (x : Part) : (s.setPart q x).poison = s.poison := rfl
@[simp] theorem State.setPart_freed (s : State) (q : PartId) (x : Part) : (s.setPart q x).freed = s.freed := rfl
@[simp] theorem State.setPart_imageMarks (s : State) (q : PartId) (x : Part) : (s.setPart q x).imageMarks = s.imageMarks := rfl
@[simp] theorem State.setPart_flying (s : State) (q : PartId) (x : Part) : (s.setPart q x).flying = s.flying := rfl
@[simp] theorem State.setPart_gangs (s : State) (q : PartId) (x : Part) : (s.setPart q x).gangs = s.gangs := rfl
@[simp] theorem State.setPart_ctx (s : State) (q : PartId) (x : Part) (u : CtxId) : (s.setPart q x).ctx u = s.ctx u := rfl
@[simp] theorem State.setPart_core (s : State) (q : PartId) (x : Part) (u : Place) : (s.setPart q x).core u = s.core u := rfl
@[simp] theorem State.setPart_cluster (s : State) (q : PartId) (x : Part) (u : ClusterId) : (s.setPart q x).cluster u = s.cluster u := rfl
@[simp] theorem State.setPart_die (s : State) (q : PartId) (x : Part) (u : DieId) : (s.setPart q x).die u = s.die u := rfl
@[simp] theorem State.setPart_pkg (s : State) (q : PartId) (x : Part) (u : PkgId) : (s.setPart q x).pkg u = s.pkg u := rfl
@[simp] theorem State.modPart_cycle (s : State) (q : PartId) (f : Part → Part) : (s.modPart q f).cycle = s.cycle := rfl
@[simp] theorem State.modPart_cur (s : State) (q : PartId) (f : Part → Part) : (s.modPart q f).cur = s.cur := rfl
@[simp] theorem State.modPart_agenda (s : State) (q : PartId) (f : Part → Part) : (s.modPart q f).agenda = s.agenda := rfl
@[simp] theorem State.modPart_focus (s : State) (q : PartId) (f : Part → Part) : (s.modPart q f).focus = s.focus := rfl
@[simp] theorem State.modPart_seq (s : State) (q : PartId) (f : Part → Part) : (s.modPart q f).seq = s.seq := rfl
@[simp] theorem State.modPart_fresh (s : State) (q : PartId) (f : Part → Part) : (s.modPart q f).fresh = s.fresh := rfl
@[simp] theorem State.modPart_ctxs (s : State) (q : PartId) (f : Part → Part) : (s.modPart q f).ctxs = s.ctxs := rfl
@[simp] theorem State.modPart_cores (s : State) (q : PartId) (f : Part → Part) : (s.modPart q f).cores = s.cores := rfl
@[simp] theorem State.modPart_clusters (s : State) (q : PartId) (f : Part → Part) : (s.modPart q f).clusters = s.clusters := rfl
@[simp] theorem State.modPart_dies (s : State) (q : PartId) (f : Part → Part) : (s.modPart q f).dies = s.dies := rfl
@[simp] theorem State.modPart_pkgs (s : State) (q : PartId) (f : Part → Part) : (s.modPart q f).pkgs = s.pkgs := rfl
@[simp] theorem State.modPart_mem (s : State) (q : PartId) (f : Part → Part) : (s.modPart q f).mem = s.mem := rfl
@[simp] theorem State.modPart_full (s : State) (q : PartId) (f : Part → Part) : (s.modPart q f).full = s.full := rfl
@[simp] theorem State.modPart_tags (s : State) (q : PartId) (f : Part → Part) : (s.modPart q f).tags = s.tags := rfl
@[simp] theorem State.modPart_poison (s : State) (q : PartId) (f : Part → Part) : (s.modPart q f).poison = s.poison := rfl
@[simp] theorem State.modPart_freed (s : State) (q : PartId) (f : Part → Part) : (s.modPart q f).freed = s.freed := rfl
@[simp] theorem State.modPart_imageMarks (s : State) (q : PartId) (f : Part → Part) : (s.modPart q f).imageMarks = s.imageMarks := rfl
@[simp] theorem State.modPart_flying (s : State) (q : PartId) (f : Part → Part) : (s.modPart q f).flying = s.flying := rfl
@[simp] theorem State.modPart_gangs (s : State) (q : PartId) (f : Part → Part) : (s.modPart q f).gangs = s.gangs := rfl
@[simp] theorem State.modPart_ctx (s : State) (q : PartId) (f : Part → Part) (u : CtxId) : (s.modPart q f).ctx u = s.ctx u := rfl
@[simp] theorem State.modPart_core (s : State) (q : PartId) (f : Part → Part) (u : Place) : (s.modPart q f).core u = s.core u := rfl
@[simp] theorem State.modPart_cluster (s : State) (q : PartId) (f : Part → Part) (u : ClusterId) : (s.modPart q f).cluster u = s.cluster u := rfl
@[simp] theorem State.modPart_die (s : State) (q : PartId) (f : Part → Part) (u : DieId) : (s.modPart q f).die u = s.die u := rfl
@[simp] theorem State.modPart_pkg (s : State) (q : PartId) (f : Part → Part) (u : PkgId) : (s.modPart q f).pkg u = s.pkg u := rfl
@[simp] theorem State.setPart_same (s : State) (q : PartId) (x : Part) : (s.setPart q x).part q = x := SMap.look_put_same ..
theorem State.setPart_ne (s : State) {q u : PartId} (x : Part) (h : u ≠ q) : (s.setPart q x).part u = s.part u := SMap.look_put_ne _ _ _ h
theorem State.setPart_part (s : State) (q u : PartId) (x : Part) : (s.setPart q x).part u = if u = q then x else s.part u := SMap.look_put ..
@[simp] theorem State.modPart_same (s : State) (q : PartId) (f : Part → Part) : (s.modPart q f).part q = f (s.part q) := SMap.look_put_same ..
theorem State.modPart_ne (s : State) {q u : PartId} (f : Part → Part) (h : u ≠ q) : (s.modPart q f).part u = s.part u := SMap.look_put_ne _ _ _ h
theorem State.modPart_part (s : State) (q u : PartId) (f : Part → Part) : (s.modPart q f).part u = if u = q then f (s.part q) else s.part u := SMap.look_put ..

/-! ### Control registers, arrays, the context under issue -/

@[simp] theorem State.modCsr_cycle (s : State) (c : CtxId) (f : CtxCsr → CtxCsr) : (s.modCsr c f).cycle = s.cycle := rfl
@[simp] theorem State.modCsr_cur (s : State) (c : CtxId) (f : CtxCsr → CtxCsr) : (s.modCsr c f).cur = s.cur := rfl
@[simp] theorem State.modCsr_agenda (s : State) (c : CtxId) (f : CtxCsr → CtxCsr) : (s.modCsr c f).agenda = s.agenda := rfl
@[simp] theorem State.modCsr_focus (s : State) (c : CtxId) (f : CtxCsr → CtxCsr) : (s.modCsr c f).focus = s.focus := rfl
@[simp] theorem State.modCsr_seq (s : State) (c : CtxId) (f : CtxCsr → CtxCsr) : (s.modCsr c f).seq = s.seq := rfl
@[simp] theorem State.modCsr_fresh (s : State) (c : CtxId) (f : CtxCsr → CtxCsr) : (s.modCsr c f).fresh = s.fresh := rfl
@[simp] theorem State.modCsr_cores (s : State) (c : CtxId) (f : CtxCsr → CtxCsr) : (s.modCsr c f).cores = s.cores := rfl
@[simp] theorem State.modCsr_clusters (s : State) (c : CtxId) (f : CtxCsr → CtxCsr) : (s.modCsr c f).clusters = s.clusters := rfl
@[simp] theorem State.modCsr_dies (s : State) (c : CtxId) (f : CtxCsr → CtxCsr) : (s.modCsr c f).dies = s.dies := rfl
@[simp] theorem State.modCsr_pkgs (s : State) (c : CtxId) (f : CtxCsr → CtxCsr) : (s.modCsr c f).pkgs = s.pkgs := rfl
@[simp] theorem State.modCsr_parts (s : State) (c : CtxId) (f : CtxCsr → CtxCsr) : (s.modCsr c f).parts = s.parts := rfl
@[simp] theorem State.modCsr_mem (s : State) (c : CtxId) (f : CtxCsr → CtxCsr) : (s.modCsr c f).mem = s.mem := rfl
@[simp] theorem State.modCsr_full (s : State) (c : CtxId) (f : CtxCsr → CtxCsr) : (s.modCsr c f).full = s.full := rfl
@[simp] theorem State.modCsr_tags (s : State) (c : CtxId) (f : CtxCsr → CtxCsr) : (s.modCsr c f).tags = s.tags := rfl
@[simp] theorem State.modCsr_poison (s : State) (c : CtxId) (f : CtxCsr → CtxCsr) : (s.modCsr c f).poison = s.poison := rfl
@[simp] theorem State.modCsr_freed (s : State) (c : CtxId) (f : CtxCsr → CtxCsr) : (s.modCsr c f).freed = s.freed := rfl
@[simp] theorem State.modCsr_imageMarks (s : State) (c : CtxId) (f : CtxCsr → CtxCsr) : (s.modCsr c f).imageMarks = s.imageMarks := rfl
@[simp] theorem State.modCsr_flying (s : State) (c : CtxId) (f : CtxCsr → CtxCsr) : (s.modCsr c f).flying = s.flying := rfl
@[simp] theorem State.modCsr_gangs (s : State) (c : CtxId) (f : CtxCsr → CtxCsr) : (s.modCsr c f).gangs = s.gangs := rfl
@[simp] theorem State.modCsr_core (s : State) (c : CtxId) (f : CtxCsr → CtxCsr) (u : Place) : (s.modCsr c f).core u = s.core u := rfl
@[simp] theorem State.modCsr_cluster (s : State) (c : CtxId) (f : CtxCsr → CtxCsr) (u : ClusterId) : (s.modCsr c f).cluster u = s.cluster u := rfl
@[simp] theorem State.modCsr_die (s : State) (c : CtxId) (f : CtxCsr → CtxCsr) (u : DieId) : (s.modCsr c f).die u = s.die u := rfl
@[simp] theorem State.modCsr_pkg (s : State) (c : CtxId) (f : CtxCsr → CtxCsr) (u : PkgId) : (s.modCsr c f).pkg u = s.pkg u := rfl
@[simp] theorem State.modCsr_part (s : State) (c : CtxId) (f : CtxCsr → CtxCsr) (u : PartId) : (s.modCsr c f).part u = s.part u := rfl
@[simp] theorem State.modHere_cycle (s : State) (f : Context → Context) : (s.modHere f).cycle = s.cycle := rfl
@[simp] theorem State.modHere_cur (s : State) (f : Context → Context) : (s.modHere f).cur = s.cur := rfl
@[simp] theorem State.modHere_agenda (s : State) (f : Context → Context) : (s.modHere f).agenda = s.agenda := rfl
@[simp] theorem State.modHere_focus (s : State) (f : Context → Context) : (s.modHere f).focus = s.focus := rfl
@[simp] theorem State.modHere_seq (s : State) (f : Context → Context) : (s.modHere f).seq = s.seq := rfl
@[simp] theorem State.modHere_fresh (s : State) (f : Context → Context) : (s.modHere f).fresh = s.fresh := rfl
@[simp] theorem State.modHere_cores (s : State) (f : Context → Context) : (s.modHere f).cores = s.cores := rfl
@[simp] theorem State.modHere_clusters (s : State) (f : Context → Context) : (s.modHere f).clusters = s.clusters := rfl
@[simp] theorem State.modHere_dies (s : State) (f : Context → Context) : (s.modHere f).dies = s.dies := rfl
@[simp] theorem State.modHere_pkgs (s : State) (f : Context → Context) : (s.modHere f).pkgs = s.pkgs := rfl
@[simp] theorem State.modHere_parts (s : State) (f : Context → Context) : (s.modHere f).parts = s.parts := rfl
@[simp] theorem State.modHere_mem (s : State) (f : Context → Context) : (s.modHere f).mem = s.mem := rfl
@[simp] theorem State.modHere_full (s : State) (f : Context → Context) : (s.modHere f).full = s.full := rfl
@[simp] theorem State.modHere_tags (s : State) (f : Context → Context) : (s.modHere f).tags = s.tags := rfl
@[simp] theorem State.modHere_poison (s : State) (f : Context → Context) : (s.modHere f).poison = s.poison := rfl
@[simp] theorem State.modHere_freed (s : State) (f : Context → Context) : (s.modHere f).freed = s.freed := rfl
@[simp] theorem State.modHere_imageMarks (s : State) (f : Context → Context) : (s.modHere f).imageMarks = s.imageMarks := rfl
@[simp] theorem State.modHere_flying (s : State) (f : Context → Context) : (s.modHere f).flying = s.flying := rfl
@[simp] theorem State.modHere_gangs (s : State) (f : Context → Context) : (s.modHere f).gangs = s.gangs := rfl
@[simp] theorem State.modHere_core (s : State) (f : Context → Context) (u : Place) : (s.modHere f).core u = s.core u := rfl
@[simp] theorem State.modHere_cluster (s : State) (f : Context → Context) (u : ClusterId) : (s.modHere f).cluster u = s.cluster u := rfl
@[simp] theorem State.modHere_die (s : State) (f : Context → Context) (u : DieId) : (s.modHere f).die u = s.die u := rfl
@[simp] theorem State.modHere_pkg (s : State) (f : Context → Context) (u : PkgId) : (s.modHere f).pkg u = s.pkg u := rfl
@[simp] theorem State.modHere_part (s : State) (f : Context → Context) (u : PartId) : (s.modHere f).part u = s.part u := rfl
@[simp] theorem State.modArr_cycle (s : State) (k : ClusterId) (f : MArray → MArray) : (s.modArr k f).cycle = s.cycle := rfl
@[simp] theorem State.modArr_cur (s : State) (k : ClusterId) (f : MArray → MArray) : (s.modArr k f).cur = s.cur := rfl
@[simp] theorem State.modArr_agenda (s : State) (k : ClusterId) (f : MArray → MArray) : (s.modArr k f).agenda = s.agenda := rfl
@[simp] theorem State.modArr_focus (s : State) (k : ClusterId) (f : MArray → MArray) : (s.modArr k f).focus = s.focus := rfl
@[simp] theorem State.modArr_seq (s : State) (k : ClusterId) (f : MArray → MArray) : (s.modArr k f).seq = s.seq := rfl
@[simp] theorem State.modArr_fresh (s : State) (k : ClusterId) (f : MArray → MArray) : (s.modArr k f).fresh = s.fresh := rfl
@[simp] theorem State.modArr_ctxs (s : State) (k : ClusterId) (f : MArray → MArray) : (s.modArr k f).ctxs = s.ctxs := rfl
@[simp] theorem State.modArr_cores (s : State) (k : ClusterId) (f : MArray → MArray) : (s.modArr k f).cores = s.cores := rfl
@[simp] theorem State.modArr_dies (s : State) (k : ClusterId) (f : MArray → MArray) : (s.modArr k f).dies = s.dies := rfl
@[simp] theorem State.modArr_pkgs (s : State) (k : ClusterId) (f : MArray → MArray) : (s.modArr k f).pkgs = s.pkgs := rfl
@[simp] theorem State.modArr_parts (s : State) (k : ClusterId) (f : MArray → MArray) : (s.modArr k f).parts = s.parts := rfl
@[simp] theorem State.modArr_mem (s : State) (k : ClusterId) (f : MArray → MArray) : (s.modArr k f).mem = s.mem := rfl
@[simp] theorem State.modArr_full (s : State) (k : ClusterId) (f : MArray → MArray) : (s.modArr k f).full = s.full := rfl
@[simp] theorem State.modArr_tags (s : State) (k : ClusterId) (f : MArray → MArray) : (s.modArr k f).tags = s.tags := rfl
@[simp] theorem State.modArr_poison (s : State) (k : ClusterId) (f : MArray → MArray) : (s.modArr k f).poison = s.poison := rfl
@[simp] theorem State.modArr_freed (s : State) (k : ClusterId) (f : MArray → MArray) : (s.modArr k f).freed = s.freed := rfl
@[simp] theorem State.modArr_imageMarks (s : State) (k : ClusterId) (f : MArray → MArray) : (s.modArr k f).imageMarks = s.imageMarks := rfl
@[simp] theorem State.modArr_flying (s : State) (k : ClusterId) (f : MArray → MArray) : (s.modArr k f).flying = s.flying := rfl
@[simp] theorem State.modArr_gangs (s : State) (k : ClusterId) (f : MArray → MArray) : (s.modArr k f).gangs = s.gangs := rfl
@[simp] theorem State.modArr_ctx (s : State) (k : ClusterId) (f : MArray → MArray) (u : CtxId) : (s.modArr k f).ctx u = s.ctx u := rfl
@[simp] theorem State.modArr_core (s : State) (k : ClusterId) (f : MArray → MArray) (u : Place) : (s.modArr k f).core u = s.core u := rfl
@[simp] theorem State.modArr_die (s : State) (k : ClusterId) (f : MArray → MArray) (u : DieId) : (s.modArr k f).die u = s.die u := rfl
@[simp] theorem State.modArr_pkg (s : State) (k : ClusterId) (f : MArray → MArray) (u : PkgId) : (s.modArr k f).pkg u = s.pkg u := rfl
@[simp] theorem State.modArr_part (s : State) (k : ClusterId) (f : MArray → MArray) (u : PartId) : (s.modArr k f).part u = s.part u := rfl
@[simp] theorem State.modHere_here (s : State) (f : Context → Context) : (s.modHere f).here = f s.here := by
  simp [State.here, State.modHere]
@[simp] theorem State.modCsr_same (s : State) (c : CtxId) (f : CtxCsr → CtxCsr) :
    (s.modCsr c f).ctx c = { s.ctx c with csr := f (s.ctx c).csr } := by simp [State.modCsr]
@[simp] theorem State.modArr_same (s : State) (k : ClusterId) (f : MArray → MArray) :
    (s.modArr k f).cluster k = { s.cluster k with arr := f (s.cluster k).arr } := by simp [State.modArr]
theorem State.modHere_ctx (s : State) (f : Context → Context) (u : CtxId) :
    (s.modHere f).ctx u = if u = s.cur.ctx then f s.here else s.ctx u := State.modCtx_ctx ..

/-! ### Memory -/

@[simp] theorem State.setByte_cycle (s : State) (a : Nat) (v : Byte) : (s.setByte a v).cycle = s.cycle := rfl
@[simp] theorem State.setByte_cur (s : State) (a : Nat) (v : Byte) : (s.setByte a v).cur = s.cur := rfl
@[simp] theorem State.setByte_agenda (s : State) (a : Nat) (v : Byte) : (s.setByte a v).agenda = s.agenda := rfl
@[simp] theorem State.setByte_focus (s : State) (a : Nat) (v : Byte) : (s.setByte a v).focus = s.focus := rfl
@[simp] theorem State.setByte_seq (s : State) (a : Nat) (v : Byte) : (s.setByte a v).seq = s.seq := rfl
@[simp] theorem State.setByte_fresh (s : State) (a : Nat) (v : Byte) : (s.setByte a v).fresh = s.fresh := rfl
@[simp] theorem State.setByte_ctxs (s : State) (a : Nat) (v : Byte) : (s.setByte a v).ctxs = s.ctxs := rfl
@[simp] theorem State.setByte_cores (s : State) (a : Nat) (v : Byte) : (s.setByte a v).cores = s.cores := rfl
@[simp] theorem State.setByte_clusters (s : State) (a : Nat) (v : Byte) : (s.setByte a v).clusters = s.clusters := rfl
@[simp] theorem State.setByte_dies (s : State) (a : Nat) (v : Byte) : (s.setByte a v).dies = s.dies := rfl
@[simp] theorem State.setByte_pkgs (s : State) (a : Nat) (v : Byte) : (s.setByte a v).pkgs = s.pkgs := rfl
@[simp] theorem State.setByte_parts (s : State) (a : Nat) (v : Byte) : (s.setByte a v).parts = s.parts := rfl
@[simp] theorem State.setByte_full (s : State) (a : Nat) (v : Byte) : (s.setByte a v).full = s.full := rfl
@[simp] theorem State.setByte_tags (s : State) (a : Nat) (v : Byte) : (s.setByte a v).tags = s.tags := rfl
@[simp] theorem State.setByte_poison (s : State) (a : Nat) (v : Byte) : (s.setByte a v).poison = s.poison := rfl
@[simp] theorem State.setByte_freed (s : State) (a : Nat) (v : Byte) : (s.setByte a v).freed = s.freed := rfl
@[simp] theorem State.setByte_imageMarks (s : State) (a : Nat) (v : Byte) : (s.setByte a v).imageMarks = s.imageMarks := rfl
@[simp] theorem State.setByte_flying (s : State) (a : Nat) (v : Byte) : (s.setByte a v).flying = s.flying := rfl
@[simp] theorem State.setByte_gangs (s : State) (a : Nat) (v : Byte) : (s.setByte a v).gangs = s.gangs := rfl
@[simp] theorem State.setByte_ctx (s : State) (a : Nat) (v : Byte) (u : CtxId) : (s.setByte a v).ctx u = s.ctx u := rfl
@[simp] theorem State.setByte_core (s : State) (a : Nat) (v : Byte) (u : Place) : (s.setByte a v).core u = s.core u := rfl
@[simp] theorem State.setByte_cluster (s : State) (a : Nat) (v : Byte) (u : ClusterId) : (s.setByte a v).cluster u = s.cluster u := rfl
@[simp] theorem State.setByte_die (s : State) (a : Nat) (v : Byte) (u : DieId) : (s.setByte a v).die u = s.die u := rfl
@[simp] theorem State.setByte_pkg (s : State) (a : Nat) (v : Byte) (u : PkgId) : (s.setByte a v).pkg u = s.pkg u := rfl
@[simp] theorem State.setByte_part (s : State) (a : Nat) (v : Byte) (u : PartId) : (s.setByte a v).part u = s.part u := rfl
@[simp] theorem State.writeRun_cycle (s : State) (a : Nat) (l : List Byte) : (s.writeRun a l).cycle = s.cycle := rfl
@[simp] theorem State.writeRun_cur (s : State) (a : Nat) (l : List Byte) : (s.writeRun a l).cur = s.cur := rfl
@[simp] theorem State.writeRun_agenda (s : State) (a : Nat) (l : List Byte) : (s.writeRun a l).agenda = s.agenda := rfl
@[simp] theorem State.writeRun_focus (s : State) (a : Nat) (l : List Byte) : (s.writeRun a l).focus = s.focus := rfl
@[simp] theorem State.writeRun_seq (s : State) (a : Nat) (l : List Byte) : (s.writeRun a l).seq = s.seq := rfl
@[simp] theorem State.writeRun_fresh (s : State) (a : Nat) (l : List Byte) : (s.writeRun a l).fresh = s.fresh := rfl
@[simp] theorem State.writeRun_ctxs (s : State) (a : Nat) (l : List Byte) : (s.writeRun a l).ctxs = s.ctxs := rfl
@[simp] theorem State.writeRun_cores (s : State) (a : Nat) (l : List Byte) : (s.writeRun a l).cores = s.cores := rfl
@[simp] theorem State.writeRun_clusters (s : State) (a : Nat) (l : List Byte) : (s.writeRun a l).clusters = s.clusters := rfl
@[simp] theorem State.writeRun_dies (s : State) (a : Nat) (l : List Byte) : (s.writeRun a l).dies = s.dies := rfl
@[simp] theorem State.writeRun_pkgs (s : State) (a : Nat) (l : List Byte) : (s.writeRun a l).pkgs = s.pkgs := rfl
@[simp] theorem State.writeRun_parts (s : State) (a : Nat) (l : List Byte) : (s.writeRun a l).parts = s.parts := rfl
@[simp] theorem State.writeRun_full (s : State) (a : Nat) (l : List Byte) : (s.writeRun a l).full = s.full := rfl
@[simp] theorem State.writeRun_tags (s : State) (a : Nat) (l : List Byte) : (s.writeRun a l).tags = s.tags := rfl
@[simp] theorem State.writeRun_poison (s : State) (a : Nat) (l : List Byte) : (s.writeRun a l).poison = s.poison := rfl
@[simp] theorem State.writeRun_freed (s : State) (a : Nat) (l : List Byte) : (s.writeRun a l).freed = s.freed := rfl
@[simp] theorem State.writeRun_imageMarks (s : State) (a : Nat) (l : List Byte) : (s.writeRun a l).imageMarks = s.imageMarks := rfl
@[simp] theorem State.writeRun_flying (s : State) (a : Nat) (l : List Byte) : (s.writeRun a l).flying = s.flying := rfl
@[simp] theorem State.writeRun_gangs (s : State) (a : Nat) (l : List Byte) : (s.writeRun a l).gangs = s.gangs := rfl
@[simp] theorem State.writeRun_ctx (s : State) (a : Nat) (l : List Byte) (u : CtxId) : (s.writeRun a l).ctx u = s.ctx u := rfl
@[simp] theorem State.writeRun_core (s : State) (a : Nat) (l : List Byte) (u : Place) : (s.writeRun a l).core u = s.core u := rfl
@[simp] theorem State.writeRun_cluster (s : State) (a : Nat) (l : List Byte) (u : ClusterId) : (s.writeRun a l).cluster u = s.cluster u := rfl
@[simp] theorem State.writeRun_die (s : State) (a : Nat) (l : List Byte) (u : DieId) : (s.writeRun a l).die u = s.die u := rfl
@[simp] theorem State.writeRun_pkg (s : State) (a : Nat) (l : List Byte) (u : PkgId) : (s.writeRun a l).pkg u = s.pkg u := rfl
@[simp] theorem State.writeRun_part (s : State) (a : Nat) (l : List Byte) (u : PartId) : (s.writeRun a l).part u = s.part u := rfl
@[simp] theorem State.setFull_cycle (s : State) (a : Nat) : (s.setFull a).cycle = s.cycle := rfl
@[simp] theorem State.setFull_cur (s : State) (a : Nat) : (s.setFull a).cur = s.cur := rfl
@[simp] theorem State.setFull_agenda (s : State) (a : Nat) : (s.setFull a).agenda = s.agenda := rfl
@[simp] theorem State.setFull_focus (s : State) (a : Nat) : (s.setFull a).focus = s.focus := rfl
@[simp] theorem State.setFull_seq (s : State) (a : Nat) : (s.setFull a).seq = s.seq := rfl
@[simp] theorem State.setFull_fresh (s : State) (a : Nat) : (s.setFull a).fresh = s.fresh := rfl
@[simp] theorem State.setFull_ctxs (s : State) (a : Nat) : (s.setFull a).ctxs = s.ctxs := rfl
@[simp] theorem State.setFull_cores (s : State) (a : Nat) : (s.setFull a).cores = s.cores := rfl
@[simp] theorem State.setFull_clusters (s : State) (a : Nat) : (s.setFull a).clusters = s.clusters := rfl
@[simp] theorem State.setFull_dies (s : State) (a : Nat) : (s.setFull a).dies = s.dies := rfl
@[simp] theorem State.setFull_pkgs (s : State) (a : Nat) : (s.setFull a).pkgs = s.pkgs := rfl
@[simp] theorem State.setFull_parts (s : State) (a : Nat) : (s.setFull a).parts = s.parts := rfl
@[simp] theorem State.setFull_mem (s : State) (a : Nat) : (s.setFull a).mem = s.mem := rfl
@[simp] theorem State.setFull_tags (s : State) (a : Nat) : (s.setFull a).tags = s.tags := rfl
@[simp] theorem State.setFull_poison (s : State) (a : Nat) : (s.setFull a).poison = s.poison := rfl
@[simp] theorem State.setFull_freed (s : State) (a : Nat) : (s.setFull a).freed = s.freed := rfl
@[simp] theorem State.setFull_imageMarks (s : State) (a : Nat) : (s.setFull a).imageMarks = s.imageMarks := rfl
@[simp] theorem State.setFull_flying (s : State) (a : Nat) : (s.setFull a).flying = s.flying := rfl
@[simp] theorem State.setFull_gangs (s : State) (a : Nat) : (s.setFull a).gangs = s.gangs := rfl
@[simp] theorem State.setFull_ctx (s : State) (a : Nat) (u : CtxId) : (s.setFull a).ctx u = s.ctx u := rfl
@[simp] theorem State.setFull_core (s : State) (a : Nat) (u : Place) : (s.setFull a).core u = s.core u := rfl
@[simp] theorem State.setFull_cluster (s : State) (a : Nat) (u : ClusterId) : (s.setFull a).cluster u = s.cluster u := rfl
@[simp] theorem State.setFull_die (s : State) (a : Nat) (u : DieId) : (s.setFull a).die u = s.die u := rfl
@[simp] theorem State.setFull_pkg (s : State) (a : Nat) (u : PkgId) : (s.setFull a).pkg u = s.pkg u := rfl
@[simp] theorem State.setFull_part (s : State) (a : Nat) (u : PartId) : (s.setFull a).part u = s.part u := rfl
@[simp] theorem State.setEmpty_cycle (s : State) (a : Nat) : (s.setEmpty a).cycle = s.cycle := rfl
@[simp] theorem State.setEmpty_cur (s : State) (a : Nat) : (s.setEmpty a).cur = s.cur := rfl
@[simp] theorem State.setEmpty_agenda (s : State) (a : Nat) : (s.setEmpty a).agenda = s.agenda := rfl
@[simp] theorem State.setEmpty_focus (s : State) (a : Nat) : (s.setEmpty a).focus = s.focus := rfl
@[simp] theorem State.setEmpty_seq (s : State) (a : Nat) : (s.setEmpty a).seq = s.seq := rfl
@[simp] theorem State.setEmpty_fresh (s : State) (a : Nat) : (s.setEmpty a).fresh = s.fresh := rfl
@[simp] theorem State.setEmpty_ctxs (s : State) (a : Nat) : (s.setEmpty a).ctxs = s.ctxs := rfl
@[simp] theorem State.setEmpty_cores (s : State) (a : Nat) : (s.setEmpty a).cores = s.cores := rfl
@[simp] theorem State.setEmpty_clusters (s : State) (a : Nat) : (s.setEmpty a).clusters = s.clusters := rfl
@[simp] theorem State.setEmpty_dies (s : State) (a : Nat) : (s.setEmpty a).dies = s.dies := rfl
@[simp] theorem State.setEmpty_pkgs (s : State) (a : Nat) : (s.setEmpty a).pkgs = s.pkgs := rfl
@[simp] theorem State.setEmpty_parts (s : State) (a : Nat) : (s.setEmpty a).parts = s.parts := rfl
@[simp] theorem State.setEmpty_mem (s : State) (a : Nat) : (s.setEmpty a).mem = s.mem := rfl
@[simp] theorem State.setEmpty_tags (s : State) (a : Nat) : (s.setEmpty a).tags = s.tags := rfl
@[simp] theorem State.setEmpty_poison (s : State) (a : Nat) : (s.setEmpty a).poison = s.poison := rfl
@[simp] theorem State.setEmpty_freed (s : State) (a : Nat) : (s.setEmpty a).freed = s.freed := rfl
@[simp] theorem State.setEmpty_imageMarks (s : State) (a : Nat) : (s.setEmpty a).imageMarks = s.imageMarks := rfl
@[simp] theorem State.setEmpty_flying (s : State) (a : Nat) : (s.setEmpty a).flying = s.flying := rfl
@[simp] theorem State.setEmpty_gangs (s : State) (a : Nat) : (s.setEmpty a).gangs = s.gangs := rfl
@[simp] theorem State.setEmpty_ctx (s : State) (a : Nat) (u : CtxId) : (s.setEmpty a).ctx u = s.ctx u := rfl
@[simp] theorem State.setEmpty_core (s : State) (a : Nat) (u : Place) : (s.setEmpty a).core u = s.core u := rfl
@[simp] theorem State.setEmpty_cluster (s : State) (a : Nat) (u : ClusterId) : (s.setEmpty a).cluster u = s.cluster u := rfl
@[simp] theorem State.setEmpty_die (s : State) (a : Nat) (u : DieId) : (s.setEmpty a).die u = s.die u := rfl
@[simp] theorem State.setEmpty_pkg (s : State) (a : Nat) (u : PkgId) : (s.setEmpty a).pkg u = s.pkg u := rfl
@[simp] theorem State.setEmpty_part (s : State) (a : Nat) (u : PartId) : (s.setEmpty a).part u = s.part u := rfl
@[simp] theorem State.setTag_cycle (s : State) (a : Nat) (t : BitVec 4) : (s.setTag a t).cycle = s.cycle := rfl
@[simp] theorem State.setTag_cur (s : State) (a : Nat) (t : BitVec 4) : (s.setTag a t).cur = s.cur := rfl
@[simp] theorem State.setTag_agenda (s : State) (a : Nat) (t : BitVec 4) : (s.setTag a t).agenda = s.agenda := rfl
@[simp] theorem State.setTag_focus (s : State) (a : Nat) (t : BitVec 4) : (s.setTag a t).focus = s.focus := rfl
@[simp] theorem State.setTag_seq (s : State) (a : Nat) (t : BitVec 4) : (s.setTag a t).seq = s.seq := rfl
@[simp] theorem State.setTag_fresh (s : State) (a : Nat) (t : BitVec 4) : (s.setTag a t).fresh = s.fresh := rfl
@[simp] theorem State.setTag_ctxs (s : State) (a : Nat) (t : BitVec 4) : (s.setTag a t).ctxs = s.ctxs := rfl
@[simp] theorem State.setTag_cores (s : State) (a : Nat) (t : BitVec 4) : (s.setTag a t).cores = s.cores := rfl
@[simp] theorem State.setTag_clusters (s : State) (a : Nat) (t : BitVec 4) : (s.setTag a t).clusters = s.clusters := rfl
@[simp] theorem State.setTag_dies (s : State) (a : Nat) (t : BitVec 4) : (s.setTag a t).dies = s.dies := rfl
@[simp] theorem State.setTag_pkgs (s : State) (a : Nat) (t : BitVec 4) : (s.setTag a t).pkgs = s.pkgs := rfl
@[simp] theorem State.setTag_parts (s : State) (a : Nat) (t : BitVec 4) : (s.setTag a t).parts = s.parts := rfl
@[simp] theorem State.setTag_mem (s : State) (a : Nat) (t : BitVec 4) : (s.setTag a t).mem = s.mem := rfl
@[simp] theorem State.setTag_full (s : State) (a : Nat) (t : BitVec 4) : (s.setTag a t).full = s.full := rfl
@[simp] theorem State.setTag_poison (s : State) (a : Nat) (t : BitVec 4) : (s.setTag a t).poison = s.poison := rfl
@[simp] theorem State.setTag_freed (s : State) (a : Nat) (t : BitVec 4) : (s.setTag a t).freed = s.freed := rfl
@[simp] theorem State.setTag_imageMarks (s : State) (a : Nat) (t : BitVec 4) : (s.setTag a t).imageMarks = s.imageMarks := rfl
@[simp] theorem State.setTag_flying (s : State) (a : Nat) (t : BitVec 4) : (s.setTag a t).flying = s.flying := rfl
@[simp] theorem State.setTag_gangs (s : State) (a : Nat) (t : BitVec 4) : (s.setTag a t).gangs = s.gangs := rfl
@[simp] theorem State.setTag_ctx (s : State) (a : Nat) (t : BitVec 4) (u : CtxId) : (s.setTag a t).ctx u = s.ctx u := rfl
@[simp] theorem State.setTag_core (s : State) (a : Nat) (t : BitVec 4) (u : Place) : (s.setTag a t).core u = s.core u := rfl
@[simp] theorem State.setTag_cluster (s : State) (a : Nat) (t : BitVec 4) (u : ClusterId) : (s.setTag a t).cluster u = s.cluster u := rfl
@[simp] theorem State.setTag_die (s : State) (a : Nat) (t : BitVec 4) (u : DieId) : (s.setTag a t).die u = s.die u := rfl
@[simp] theorem State.setTag_pkg (s : State) (a : Nat) (t : BitVec 4) (u : PkgId) : (s.setTag a t).pkg u = s.pkg u := rfl
@[simp] theorem State.setTag_part (s : State) (a : Nat) (t : BitVec 4) (u : PartId) : (s.setTag a t).part u = s.part u := rfl
@[simp] theorem State.clearPoison_cycle (s : State) (l : List Nat) : (s.clearPoison l).cycle = s.cycle := rfl
@[simp] theorem State.clearPoison_cur (s : State) (l : List Nat) : (s.clearPoison l).cur = s.cur := rfl
@[simp] theorem State.clearPoison_agenda (s : State) (l : List Nat) : (s.clearPoison l).agenda = s.agenda := rfl
@[simp] theorem State.clearPoison_focus (s : State) (l : List Nat) : (s.clearPoison l).focus = s.focus := rfl
@[simp] theorem State.clearPoison_seq (s : State) (l : List Nat) : (s.clearPoison l).seq = s.seq := rfl
@[simp] theorem State.clearPoison_fresh (s : State) (l : List Nat) : (s.clearPoison l).fresh = s.fresh := rfl
@[simp] theorem State.clearPoison_ctxs (s : State) (l : List Nat) : (s.clearPoison l).ctxs = s.ctxs := rfl
@[simp] theorem State.clearPoison_cores (s : State) (l : List Nat) : (s.clearPoison l).cores = s.cores := rfl
@[simp] theorem State.clearPoison_clusters (s : State) (l : List Nat) : (s.clearPoison l).clusters = s.clusters := rfl
@[simp] theorem State.clearPoison_dies (s : State) (l : List Nat) : (s.clearPoison l).dies = s.dies := rfl
@[simp] theorem State.clearPoison_pkgs (s : State) (l : List Nat) : (s.clearPoison l).pkgs = s.pkgs := rfl
@[simp] theorem State.clearPoison_parts (s : State) (l : List Nat) : (s.clearPoison l).parts = s.parts := rfl
@[simp] theorem State.clearPoison_mem (s : State) (l : List Nat) : (s.clearPoison l).mem = s.mem := rfl
@[simp] theorem State.clearPoison_full (s : State) (l : List Nat) : (s.clearPoison l).full = s.full := rfl
@[simp] theorem State.clearPoison_tags (s : State) (l : List Nat) : (s.clearPoison l).tags = s.tags := rfl
@[simp] theorem State.clearPoison_freed (s : State) (l : List Nat) : (s.clearPoison l).freed = s.freed := rfl
@[simp] theorem State.clearPoison_imageMarks (s : State) (l : List Nat) : (s.clearPoison l).imageMarks = s.imageMarks := rfl
@[simp] theorem State.clearPoison_flying (s : State) (l : List Nat) : (s.clearPoison l).flying = s.flying := rfl
@[simp] theorem State.clearPoison_gangs (s : State) (l : List Nat) : (s.clearPoison l).gangs = s.gangs := rfl
@[simp] theorem State.clearPoison_ctx (s : State) (l : List Nat) (u : CtxId) : (s.clearPoison l).ctx u = s.ctx u := rfl
@[simp] theorem State.clearPoison_core (s : State) (l : List Nat) (u : Place) : (s.clearPoison l).core u = s.core u := rfl
@[simp] theorem State.clearPoison_cluster (s : State) (l : List Nat) (u : ClusterId) : (s.clearPoison l).cluster u = s.cluster u := rfl
@[simp] theorem State.clearPoison_die (s : State) (l : List Nat) (u : DieId) : (s.clearPoison l).die u = s.die u := rfl
@[simp] theorem State.clearPoison_pkg (s : State) (l : List Nat) (u : PkgId) : (s.clearPoison l).pkg u = s.pkg u := rfl
@[simp] theorem State.clearPoison_part (s : State) (l : List Nat) (u : PartId) : (s.clearPoison l).part u = s.part u := rfl
@[simp] theorem State.useFree_cycle (s : State)  : (s.useFree).cycle = s.cycle := rfl
@[simp] theorem State.useFree_cur (s : State)  : (s.useFree).cur = s.cur := rfl
@[simp] theorem State.useFree_agenda (s : State)  : (s.useFree).agenda = s.agenda := rfl
@[simp] theorem State.useFree_focus (s : State)  : (s.useFree).focus = s.focus := rfl
@[simp] theorem State.useFree_seq (s : State)  : (s.useFree).seq = s.seq := rfl
@[simp] theorem State.useFree_ctxs (s : State)  : (s.useFree).ctxs = s.ctxs := rfl
@[simp] theorem State.useFree_cores (s : State)  : (s.useFree).cores = s.cores := rfl
@[simp] theorem State.useFree_clusters (s : State)  : (s.useFree).clusters = s.clusters := rfl
@[simp] theorem State.useFree_dies (s : State)  : (s.useFree).dies = s.dies := rfl
@[simp] theorem State.useFree_pkgs (s : State)  : (s.useFree).pkgs = s.pkgs := rfl
@[simp] theorem State.useFree_parts (s : State)  : (s.useFree).parts = s.parts := rfl
@[simp] theorem State.useFree_mem (s : State)  : (s.useFree).mem = s.mem := rfl
@[simp] theorem State.useFree_full (s : State)  : (s.useFree).full = s.full := rfl
@[simp] theorem State.useFree_tags (s : State)  : (s.useFree).tags = s.tags := rfl
@[simp] theorem State.useFree_poison (s : State)  : (s.useFree).poison = s.poison := rfl
@[simp] theorem State.useFree_freed (s : State)  : (s.useFree).freed = s.freed := rfl
@[simp] theorem State.useFree_imageMarks (s : State)  : (s.useFree).imageMarks = s.imageMarks := rfl
@[simp] theorem State.useFree_flying (s : State)  : (s.useFree).flying = s.flying := rfl
@[simp] theorem State.useFree_gangs (s : State)  : (s.useFree).gangs = s.gangs := rfl
@[simp] theorem State.useFree_ctx (s : State)  (u : CtxId) : (s.useFree).ctx u = s.ctx u := rfl
@[simp] theorem State.useFree_core (s : State)  (u : Place) : (s.useFree).core u = s.core u := rfl
@[simp] theorem State.useFree_cluster (s : State)  (u : ClusterId) : (s.useFree).cluster u = s.cluster u := rfl
@[simp] theorem State.useFree_die (s : State)  (u : DieId) : (s.useFree).die u = s.die u := rfl
@[simp] theorem State.useFree_pkg (s : State)  (u : PkgId) : (s.useFree).pkg u = s.pkg u := rfl
@[simp] theorem State.useFree_part (s : State)  (u : PartId) : (s.useFree).part u = s.part u := rfl

/-- Bytes to a list of places change the memory alone. -/
theorem State.setBytes_eq (s : State) (l : List (Nat × Byte)) :
    s.setBytes l = { s with mem := l.foldl (fun m e => Memory.set m e.1 e.2) s.mem } := by
  induction l generalizing s with
  | nil => rfl
  | cons e t ih => exact ih (s.setByte e.1 e.2)

@[simp] theorem State.setBytes_cycle (s : State) (l : List (Nat × Byte)) : (s.setBytes l).cycle = s.cycle := by rw [State.setBytes_eq]
@[simp] theorem State.setBytes_cur (s : State) (l : List (Nat × Byte)) : (s.setBytes l).cur = s.cur := by rw [State.setBytes_eq]
@[simp] theorem State.setBytes_agenda (s : State) (l : List (Nat × Byte)) : (s.setBytes l).agenda = s.agenda := by rw [State.setBytes_eq]
@[simp] theorem State.setBytes_focus (s : State) (l : List (Nat × Byte)) : (s.setBytes l).focus = s.focus := by rw [State.setBytes_eq]
@[simp] theorem State.setBytes_seq (s : State) (l : List (Nat × Byte)) : (s.setBytes l).seq = s.seq := by rw [State.setBytes_eq]
@[simp] theorem State.setBytes_fresh (s : State) (l : List (Nat × Byte)) : (s.setBytes l).fresh = s.fresh := by rw [State.setBytes_eq]
@[simp] theorem State.setBytes_ctxs (s : State) (l : List (Nat × Byte)) : (s.setBytes l).ctxs = s.ctxs := by rw [State.setBytes_eq]
@[simp] theorem State.setBytes_cores (s : State) (l : List (Nat × Byte)) : (s.setBytes l).cores = s.cores := by rw [State.setBytes_eq]
@[simp] theorem State.setBytes_clusters (s : State) (l : List (Nat × Byte)) : (s.setBytes l).clusters = s.clusters := by rw [State.setBytes_eq]
@[simp] theorem State.setBytes_dies (s : State) (l : List (Nat × Byte)) : (s.setBytes l).dies = s.dies := by rw [State.setBytes_eq]
@[simp] theorem State.setBytes_pkgs (s : State) (l : List (Nat × Byte)) : (s.setBytes l).pkgs = s.pkgs := by rw [State.setBytes_eq]
@[simp] theorem State.setBytes_parts (s : State) (l : List (Nat × Byte)) : (s.setBytes l).parts = s.parts := by rw [State.setBytes_eq]
@[simp] theorem State.setBytes_full (s : State) (l : List (Nat × Byte)) : (s.setBytes l).full = s.full := by rw [State.setBytes_eq]
@[simp] theorem State.setBytes_tags (s : State) (l : List (Nat × Byte)) : (s.setBytes l).tags = s.tags := by rw [State.setBytes_eq]
@[simp] theorem State.setBytes_poison (s : State) (l : List (Nat × Byte)) : (s.setBytes l).poison = s.poison := by rw [State.setBytes_eq]
@[simp] theorem State.setBytes_freed (s : State) (l : List (Nat × Byte)) : (s.setBytes l).freed = s.freed := by rw [State.setBytes_eq]
@[simp] theorem State.setBytes_imageMarks (s : State) (l : List (Nat × Byte)) : (s.setBytes l).imageMarks = s.imageMarks := by rw [State.setBytes_eq]
@[simp] theorem State.setBytes_flying (s : State) (l : List (Nat × Byte)) : (s.setBytes l).flying = s.flying := by rw [State.setBytes_eq]
@[simp] theorem State.setBytes_gangs (s : State) (l : List (Nat × Byte)) : (s.setBytes l).gangs = s.gangs := by rw [State.setBytes_eq]
@[simp] theorem State.setBytes_ctx (s : State) (l : List (Nat × Byte)) (u : CtxId) : (s.setBytes l).ctx u = s.ctx u := by rw [State.setBytes_eq]; rfl
@[simp] theorem State.setBytes_core (s : State) (l : List (Nat × Byte)) (u : Place) : (s.setBytes l).core u = s.core u := by rw [State.setBytes_eq]; rfl
@[simp] theorem State.setBytes_cluster (s : State) (l : List (Nat × Byte)) (u : ClusterId) : (s.setBytes l).cluster u = s.cluster u := by rw [State.setBytes_eq]; rfl
@[simp] theorem State.setBytes_die (s : State) (l : List (Nat × Byte)) (u : DieId) : (s.setBytes l).die u = s.die u := by rw [State.setBytes_eq]; rfl
@[simp] theorem State.setBytes_pkg (s : State) (l : List (Nat × Byte)) (u : PkgId) : (s.setBytes l).pkg u = s.pkg u := by rw [State.setBytes_eq]; rfl
@[simp] theorem State.setBytes_part (s : State) (l : List (Nat × Byte)) (u : PartId) : (s.setBytes l).part u = s.part u := by rw [State.setBytes_eq]; rfl

end Sys2Proof.Machine
end

