-- ==== Sys2Proof/Laws/Memory.lean ====
section
/-! SUPPORT. Laws of memory: reads after writes, and that every operation keeps the canonical form. -/

namespace Sys2Proof.Machine

/-- A byte depends on the memory and the harvest maps alone. -/
theorem State.byte_congr {s t : State} (hm : t.mem = s.mem) (hp : t.pkgs = s.pkgs) (a : Nat) : t.byte a = s.byte a := by
  have h : ∀ g i, t.lpctEntry g i = s.lpctEntry g i := by
    intro g i
    have hh : t.harvested = s.harvested := by funext g n; unfold State.harvested State.pkg; rw [hp]
    unfold State.lpctEntry State.healthy; rw [hh]
  unfold State.byte; simp only [h, hm]

/-! ## Bytes -/

theorem Memory.get_set_same (m : Memory) (a : Nat) (v : Byte) (h : (m.wfFrom 0) = true) : (m.set a v).get a = v := by
  suffices ∀ low, m.wfFrom low = true → (m.set a v).get a = v from this 0 h
  clear h
  induction m with
  | nil => intro low _; simp only [Memory.set]; split <;> simp_all [Memory.get, blank]
  | cons e t ih =>
    obtain ⟨j, w⟩ := e
    intro low h
    simp only [Memory.wfFrom, Bool.and_eq_true, decide_eq_true_eq] at h
    have absent : ∀ (t : Memory) lo, t.wfFrom lo = true → ∀ b, b < lo → t.get b = blank := by
      intro t
      induction t with
      | nil => intros; rfl
      | cons e t ih =>
        intro lo hw b hb
        simp only [Memory.wfFrom, Bool.and_eq_true, decide_eq_true_eq] at hw
        simp only [Memory.get]
        rw [if_neg (by omega)]
        exact ih _ hw.2 b (by omega)
    simp only [Memory.set]
    split
    · rw [Memory.get, if_neg (by omega)]; exact ih _ h.2
    · split
      · subst j
        split
        · rename_i hv; rw [absent t _ h.2 a (by omega), hv]
        · simp [Memory.get]
      · split
        · rename_i hv
          rw [Memory.get, if_neg (by omega), absent t _ h.2 a (by omega), hv]
        · simp [Memory.get]

theorem Memory.get_set_ne (m : Memory) {a b : Nat} (v : Byte) (h : b ≠ a) : (m.set a v).get b = m.get b := by
  induction m with
  | nil => simp only [Memory.set]; split <;> simp [Memory.get, Ne.symm h]
  | cons e t ih =>
    obtain ⟨j, w⟩ := e
    simp only [Memory.set]
    split
    · simp only [Memory.get, ih]
    · split
      · subst j
        split <;> simp [Memory.get, Ne.symm h]
      · split <;> simp [Memory.get, Ne.symm h]

/-! ## The canonical form -/

theorem Memory.wfFrom_mono {m : Memory} {a b : Nat} (h : b ≤ a) (hw : Memory.wfFrom a m = true) : Memory.wfFrom b m = true := by
  cases m with
  | nil => rfl
  | cons e t =>
    simp only [Memory.wfFrom, Bool.and_eq_true, decide_eq_true_eq] at hw ⊢
    exact ⟨⟨by omega, hw.1.2⟩, hw.2⟩

theorem Memory.wfFrom_set {m : Memory} {low a : Nat} (v : Byte) (ha : low ≤ a) (hw : Memory.wfFrom low m = true) :
    Memory.wfFrom low (Memory.set m a v) = true := by
  induction m generalizing low with
  | nil => simp only [Memory.set]; split <;> simp_all [Memory.wfFrom]
  | cons e t ih =>
    obtain ⟨j, w⟩ := e
    simp only [Memory.wfFrom, Bool.and_eq_true, decide_eq_true_eq] at hw
    simp only [Memory.set]
    split
    · simp only [Memory.wfFrom, Bool.and_eq_true, decide_eq_true_eq]
      exact ⟨hw.1, ih (by omega) hw.2⟩
    · split
      · subst j
        split
        · exact Memory.wfFrom_mono (by omega) hw.2
        · simp_all [Memory.wfFrom]
      · split
        · simp_all [Memory.wfFrom]
        · simp only [Memory.wfFrom, Bool.and_eq_true, decide_eq_true_eq]
          exact ⟨⟨ha, by assumption⟩, ⟨by omega, hw.1.2⟩, hw.2⟩

/-- Writing a byte keeps the canonical form. -/
theorem Memory.wf_set {m : Memory} (a : Nat) (v : Byte) (h : Memory.wf m = true) : Memory.wf (Memory.set m a v) = true :=
  Memory.wfFrom_set v (Nat.zero_le a) h

theorem Memory.wfFrom_filter {m : Memory} {low : Nat} (f : Host.Cell → Bool) (hw : Memory.wfFrom low m = true) :
    Memory.wfFrom low (m.filter f) = true := by
  induction m generalizing low with
  | nil => rfl
  | cons e t ih =>
    simp only [Memory.wfFrom, Bool.and_eq_true, decide_eq_true_eq] at hw
    rw [List.filter_cons]
    split
    · simp only [Memory.wfFrom, Bool.and_eq_true, decide_eq_true_eq]
      exact ⟨hw.1, ih hw.2⟩
    · exact Memory.wfFrom_mono (by omega) (ih hw.2)

/-- Dropping entries keeps it. -/
theorem Memory.wf_filter {m : Memory} (f : Host.Cell → Bool) (h : Memory.wf m = true) : Memory.wf (m.filter f) = true :=
  Memory.wfFrom_filter f h
/-- Clearing a range keeps it. -/
theorem Memory.wf_clearRun {m : Memory} (a n : Nat) (h : Memory.wf m = true) : Memory.wf (Memory.clearRun m a n) = true :=
  Memory.wfFrom_filter _ h

theorem Memory.wfFrom_append {l m : Memory} {low mid : Nat} (hl : Memory.wfFrom low l = true) (hb : ∀ e ∈ l, e.1 < mid)
    (hlm : low ≤ mid) (hm : Memory.wfFrom mid m = true) : Memory.wfFrom low (l ++ m) = true := by
  induction l generalizing low with
  | nil => exact Memory.wfFrom_mono hlm hm
  | cons e t ih =>
    simp only [Memory.wfFrom, Bool.and_eq_true, decide_eq_true_eq] at hl
    simp only [List.cons_append, Memory.wfFrom, Bool.and_eq_true, decide_eq_true_eq]
    have := hb e (by simp)
    exact ⟨hl.1, ih hl.2 (fun x hx => hb x (by simp [hx])) (by omega)⟩

theorem Memory.run_wf (a : Nat) (l : List Byte) : Memory.wfFrom a (Memory.run a l) = true ∧ ∀ e ∈ Memory.run a l, e.1 < a + l.length := by
  induction l generalizing a with
  | nil => simp [Memory.run, Memory.wfFrom]
  | cons v t ih =>
    obtain ⟨h1, h2⟩ := ih (a + 1)
    simp only [Memory.run, List.length_cons]
    split
    · exact ⟨Memory.wfFrom_mono (by omega) h1, fun e he => by have := h2 e he; omega⟩
    · refine ⟨by simp only [Memory.wfFrom, Bool.and_eq_true, decide_eq_true_eq]; exact ⟨⟨by omega, by assumption⟩, h1⟩, ?_⟩
      intro e he
      simp only [List.mem_cons] at he
      rcases he with rfl | he
      · show a < a + (t.length + 1)
        omega
      · have := h2 e he; omega

theorem Memory.wfFrom_above {m : Memory} {low b : Nat} (hw : Memory.wfFrom low m = true) :
    Memory.wfFrom b (m.filter fun e => decide (b ≤ e.1)) = true := by
  induction m generalizing low with
  | nil => rfl
  | cons e t ih =>
    simp only [Memory.wfFrom, Bool.and_eq_true, decide_eq_true_eq] at hw
    rw [List.filter_cons]
    split
    · rename_i h
      simp only [decide_eq_true_eq] at h
      simp only [Memory.wfFrom, Bool.and_eq_true, decide_eq_true_eq]
      refine ⟨⟨h, hw.1.2⟩, ?_⟩
      exact Memory.wfFrom_filter _ hw.2
    · exact ih hw.2

/-- Replacing consecutive bytes keeps it. -/
theorem Memory.wf_setRun {m : Memory} (a : Nat) (l : List Byte) (h : Memory.wf m = true) : Memory.wf (Memory.setRun m a l) = true := by
  unfold Memory.setRun Memory.wf
  obtain ⟨h1, h2⟩ := Memory.run_wf a l
  rw [List.append_assoc]
  refine Memory.wfFrom_append (mid := a) (Memory.wfFrom_filter _ h) ?_ (Nat.zero_le a) ?_
  · intro e he; simpa using (List.mem_filter.mp he).2
  · exact Memory.wfFrom_append h1 h2 (by omega) (Memory.wfFrom_above h)

theorem Memory.get_filter_ne (m : Memory) (f : Host.Cell → Bool) {b : Nat} (h : ∀ v, f (b, v) = true) : Memory.get (m.filter f) b = Memory.get m b := by
  induction m with
  | nil => rfl
  | cons e t ih =>
    obtain ⟨j, v⟩ := e
    rw [List.filter_cons]
    by_cases hj : j = b
    · subst j; simp [h, Memory.get]
    · split <;> simp [Memory.get, hj, ih]

theorem Memory.get_filter_out (m : Memory) (f : Host.Cell → Bool) {b : Nat} (h : ∀ v, f (b, v) = false) : Memory.get (m.filter f) b = blank := by
  induction m with
  | nil => rfl
  | cons e t ih =>
    obtain ⟨j, v⟩ := e
    rw [List.filter_cons]
    by_cases hj : j = b
    · subst j; simp [h, ih]
    · split <;> simp [Memory.get, hj, ih]

/-- A cleared range reads blank; outside it every byte is as before. -/
theorem Memory.get_clearRun (m : Memory) (a n b : Nat) :
    Memory.get (Memory.clearRun m a n) b = if a ≤ b ∧ b < a + n then blank else Memory.get m b := by
  unfold Memory.clearRun
  split
  · exact Memory.get_filter_out m _ (fun _ => by simp; omega)
  · exact Memory.get_filter_ne m _ (fun _ => by simp; omega)

theorem Memory.get_append_left {l m : Memory} {b : Nat} (h : ∀ e ∈ l, e.1 ≠ b) : Memory.get (l ++ m) b = Memory.get m b := by
  induction l with
  | nil => rfl
  | cons e t ih =>
    obtain ⟨j, v⟩ := e
    have := h (j, v) (by simp)
    simp only [List.cons_append, Memory.get]
    rw [if_neg this]
    exact ih fun x hx => h x (by simp [hx])

theorem Memory.get_append_right {l m : Memory} {b : Nat} (h : ∀ e ∈ m, e.1 ≠ b) : Memory.get (l ++ m) b = Memory.get l b := by
  induction l with
  | nil => simpa [Memory.get] using Memory.get_append_left (m := []) h
  | cons e t ih =>
    obtain ⟨j, v⟩ := e
    simp only [List.cons_append, Memory.get, ih]

theorem Memory.get_run (a : Nat) (l : List Byte) (j : Nat) : Memory.get (Memory.run a l) (a + j) = l.getD j 0 := by
  induction l generalizing a j with
  | nil => simp [Memory.run, Memory.get, blank]
  | cons v t ih =>
    have hlow : ∀ b lo l, b < lo → Memory.get (Memory.run lo l) b = blank := by
      intro b lo l
      induction l generalizing lo with
      | nil => intros; rfl
      | cons w u ih =>
        intro hb
        simp only [Memory.run]
        split
        · exact ih (lo + 1) (by omega)
        · rw [Memory.get, if_neg (by omega)]; exact ih (lo + 1) (by omega)
    simp only [Memory.run]
    cases j with
    | zero =>
      split
      · rw [hlow _ _ _ (by omega)]; simp_all
      · simp [Memory.get]
    | succ j =>
      have := ih (a + 1) j
      rw [show a + 1 + j = a + (j + 1) by omega] at this
      split
      · simpa using this
      · rw [Memory.get, if_neg (by omega)]; simpa using this

/-- Consecutive bytes replaced read as written; every other byte is as before. -/
theorem Memory.get_setRun (m : Memory) (a : Nat) (l : List Byte) (b : Nat) :
    Memory.get (Memory.setRun m a l) b = if a ≤ b ∧ b < a + l.length then l.getD (b - a) 0 else Memory.get m b := by
  unfold Memory.setRun
  have hr := (Memory.run_wf a l).2
  have hge : ∀ e ∈ Memory.run a l, a ≤ e.1 := by
    clear hr
    induction l generalizing a with
    | nil => intro e he; simp [Memory.run] at he
    | cons v t ih =>
      intro e he
      simp only [Memory.run] at he
      split at he
      · exact Nat.le_trans (Nat.le_succ a) (ih (a + 1) e he)
      · simp only [List.mem_cons] at he
        rcases he with rfl | he
        · exact Nat.le_refl a
        · exact Nat.le_trans (Nat.le_succ a) (ih (a + 1) e he)
  have hlt : ∀ e ∈ m.filter (fun e => decide (e.1 < a)), e.1 < a := fun e he => by simpa using (List.mem_filter.mp he).2
  have hgt : ∀ e ∈ m.filter (fun e => decide (a + l.length ≤ e.1)), a + l.length ≤ e.1 := fun e he => by
    simpa using (List.mem_filter.mp he).2
  split
  · rename_i h
    rw [Memory.get_append_right (fun e he => by have := hgt e he; omega), Memory.get_append_left (fun e he => by have := hlt e he; omega)]
    have := Memory.get_run a l (b - a)
    rwa [show a + (b - a) = b by omega] at this
  · rename_i h
    by_cases hb : b < a
    · rw [List.append_assoc, Memory.get_append_right]
      · exact Memory.get_filter_ne m _ (fun _ => by simp [hb])
      · intro e he
        simp only [List.mem_append] at he
        rcases he with he | he
        · have := hge e he; omega
        · have := hgt e he; omega
    · rw [Memory.get_append_left]
      · exact Memory.get_filter_ne m _ (fun _ => by simp; omega)
      · intro e he
        simp only [List.mem_append] at he
        rcases he with he | he
        · have := hlt e he; omega
        · have := hr e he; omega

/-! ## The state's memory -/

theorem State.setByte_wf {s : State} (a : Nat) (v : Byte) (h : Memory.wf s.mem = true) : Memory.wf (s.setByte a v).mem = true :=
  Memory.wf_set a v h
theorem State.setBytes_wf {s : State} (l : List (Nat × Byte)) (h : Memory.wf s.mem = true) : Memory.wf (s.setBytes l).mem = true := by
  unfold State.setBytes
  induction l generalizing s with
  | nil => exact h
  | cons e t ih => exact ih (State.setByte_wf e.1 e.2 h)
theorem State.writeRun_wf {s : State} (a : Nat) (l : List Byte) (h : Memory.wf s.mem = true) :
    Memory.wf (s.writeRun a l).mem = true := Memory.wf_setRun a l h

end Sys2Proof.Machine
end

