-- ==== Sys2Proof/Laws/Access.lean ====
section
/-! SUPPORT. What the checks of an access leave of the machine (R219): they cache translations (R322) and nothing else, and find one
place for each byte. -/

namespace Sys2Proof.Machine

/-- Nothing differs but the translations that cores and clusters cache. -/
structure Cached (s t : State) : Prop where
  core : ∀ p, { t.core p with tlb := [] } = { s.core p with tlb := [] }
  cluster : ∀ k, { t.cluster k with tlb := [] } = { s.cluster k with tlb := [] }
  rest : { t with cores := [], clusters := [] } = { s with cores := [], clusters := [] }

theorem Cached.refl (s : State) : Cached s s := ⟨fun _ => rfl, fun _ => rfl, rfl⟩
theorem Cached.trans {s t u : State} (h : Cached s t) (g : Cached t u) : Cached s u :=
  ⟨fun p => (g.core p).trans (h.core p), fun k => (g.cluster k).trans (h.cluster k), g.rest.trans h.rest⟩

theorem Cached.ctxs {s t : State} (h : Cached s t) : t.ctxs = s.ctxs := by injection h.rest
theorem Cached.dies {s t : State} (h : Cached s t) : t.dies = s.dies := by injection h.rest
theorem Cached.pkgs {s t : State} (h : Cached s t) : t.pkgs = s.pkgs := by injection h.rest
theorem Cached.parts {s t : State} (h : Cached s t) : t.parts = s.parts := by injection h.rest
theorem Cached.mem {s t : State} (h : Cached s t) : t.mem = s.mem := by injection h.rest
theorem Cached.full {s t : State} (h : Cached s t) : t.full = s.full := by injection h.rest
theorem Cached.tags {s t : State} (h : Cached s t) : t.tags = s.tags := by injection h.rest
theorem Cached.poison {s t : State} (h : Cached s t) : t.poison = s.poison := by injection h.rest
theorem Cached.freed {s t : State} (h : Cached s t) : t.freed = s.freed := by injection h.rest
theorem Cached.imageMarks {s t : State} (h : Cached s t) : t.imageMarks = s.imageMarks := by injection h.rest
theorem Cached.flying {s t : State} (h : Cached s t) : t.flying = s.flying := by injection h.rest
theorem Cached.cycle {s t : State} (h : Cached s t) : t.cycle = s.cycle := by injection h.rest
theorem Cached.cur {s t : State} (h : Cached s t) : t.cur = s.cur := by injection h.rest
theorem Cached.seq {s t : State} (h : Cached s t) : t.seq = s.seq := by injection h.rest
theorem Cached.ctx {s t : State} (h : Cached s t) (c : CtxId) : t.ctx c = s.ctx c := by unfold State.ctx; rw [h.ctxs]
theorem Cached.byte {s t : State} (h : Cached s t) (a : Nat) : t.byte a = s.byte a := State.byte_congr h.mem h.pkgs a

theorem Cached.modCluster (s : State) (k : ClusterId) (l : Cluster → List TlbEntry) :
    Cached s (s.modCluster k fun x => { x with tlb := l x }) := by
  refine ⟨fun p => by rw [State.modCluster_core], fun j => ?_, by unfold State.modCluster State.setCluster; rfl⟩
  rw [State.modCluster_cluster]
  by_cases h : j = k
  · rw [if_pos h, h]
  · rw [if_neg h]
theorem Cached.modCore (s : State) (p : Place) (l : Core → List TlbEntry) :
    Cached s (s.modCore p fun x => { x with tlb := l x }) := by
  refine ⟨fun q => ?_, fun j => by rw [State.modCore_cluster], by unfold State.modCore State.setCore; rfl⟩
  rw [State.modCore_core]
  by_cases h : q = p
  · rw [if_pos h, h]
  · rw [if_neg h]
theorem Cached.cacheLeaf (s : State) (g : Agent) (e : TlbEntry) (micro : Bool) : Cached s (s.cacheLeaf g e micro) := by
  unfold State.cacheLeaf
  generalize Config.clusterTlbEntries = n
  generalize Config.microTlbEntries = m
  cases micro
  · exact Cached.modCluster s (clusterOf g.core) fun k => tlbAdd k.tlb n e
  · exact (Cached.modCluster s (clusterOf g.core) fun k => tlbAdd k.tlb n e).trans
      (Cached.modCore _ g.core fun c => tlbAdd c.tlb m e)

/-- Finding a leaf that allows an access caches that leaf and does nothing else (R321, R322). -/
theorem State.leafFor_eq {s t : State} {g : Agent} {acc : Acc} {va : Nat} {micro : Bool} {e : TlbEntry}
    (h : s.leafFor g acc va micro = .ok (t, e)) : s.cacheLeaf g e micro = t ∧ leafRefuses e g.level acc = none := by
  rw [State.leafFor] at h
  cases hc : (s.cached g va micro).filter fun e => (leafRefuses e g.level acc).isNone with
  | some e' =>
    rw [hc] at h
    obtain ⟨rfl, rfl⟩ := Prod.mk.inj (Except.ok.inj h)
    exact ⟨rfl, Option.isNone_iff_eq_none.1 (Option.filter_eq_some_iff.1 hc).2⟩
  | none =>
    rw [hc] at h
    cases hw : s.walk g.part va with
    | error r =>
      rw [hw] at h
      cases h
    | ok w =>
      rw [hw] at h
      cases hr : leafRefuses { part := g.part, va := va / 2 ^ pageLg w.2, lg := pageLg w.2, leaf := w.1 } g.level acc with
      | some r =>
        simp only [hr] at h
        cases h
      | none =>
        simp only [hr] at h
        obtain ⟨rfl, rfl⟩ := Prod.mk.inj (Except.ok.inj h)
        exact ⟨rfl, hr⟩

theorem State.leafFor_cached {s t : State} {g : Agent} {acc : Acc} {va : Nat} {micro : Bool} {e : TlbEntry}
    (h : s.leafFor g acc va micro = .ok (t, e)) : Cached s t :=
  (State.leafFor_eq h).1 ▸ Cached.cacheLeaf s g e micro

/-- So does translating the bytes of an access, which gives one place for each. -/
theorem State.translate_cached {s t : State} {g : Agent} {acc : Acc} {ptr : Word} {micro : Bool} {vas : List Nat}
    {l : List (Nat × TlbEntry)} (h : s.translate g acc ptr micro vas = .ok (t, l)) : Cached s t ∧ l.length = vas.length := by
  induction vas generalizing s l with
  | nil => cases h; exact ⟨Cached.refl _, rfl⟩
  | cons va rest ih =>
    unfold State.translate at h
    split at h
    · cases h
    · rename_i hl
      split at h
      · cases h
      · rename_i hr
        cases h
        obtain ⟨h1, h2⟩ := ih hr
        exact ⟨(State.leafFor_cached hl).trans h1, by simp [h2]⟩

/-- The checks of R219 cache translations and do nothing else; they give one place for each byte. -/
theorem State.resolve_cached {s t : State} {g : Agent} {acc : Acc} {ptr : Word} {vas l : List Nat} {aligned keyed micro : Bool}
    (h : s.resolve g acc ptr vas aligned keyed micro = .ok (t, l)) : Cached s t ∧ l.length = vas.length := by
  unfold State.resolve at h
  split at h
  · cases h; exact ⟨Cached.refl _, rfl⟩
  · dsimp only at h
    split at h
    · cases h
    · split at h
      · cases h
      · split at h
        · split at h
          · cases h
          · cases h; exact ⟨Cached.refl _, by simp⟩
        · cases h; exact ⟨Cached.refl _, by simp⟩
        · split at h
          · cases h
          · split at h
            · cases h
            · cases h; exact ⟨Cached.refl _, by simp⟩
        · split at h
          · cases h
          · rename_i ht
            split at h
            · cases h
            · cases h
              obtain ⟨h1, h2⟩ := State.translate_cached ht
              exact ⟨h1, by simp [h2]⟩

/-! ## A run of own local memory (R26, R27, R219) -/

theorem runFrom_ne_nil {va n : Nat} (hn : 0 < n) : ∃ l, runFrom va n = va :: l := by
  obtain ⟨m, rfl⟩ : ∃ m, n = m + 1 := ⟨n - 1, by omega⟩
  exact ⟨_, by simp [runFrom, List.range_succ_eq_map]; rfl⟩

theorem runFrom_getLastD {va n : Nat} (hn : 0 < n) (d : Nat) : (runFrom va n).getLastD d = va + (n - 1) := by
  obtain ⟨m, rfl⟩ : ∃ m, n = m + 1 := ⟨n - 1, by omega⟩
  simp [runFrom, List.range_succ]

theorem windowOfRange_loc {va n : Nat} (hn : 0 < n) (h : va + n ≤ 0x30000) : windowOfRange va n = some .loc := by
  have h1 : windowOf va = some .loc := by simp only [windowOf]; rw [if_pos (by omega)]
  have h2 : windowOf (va + (n - 1)) = some .loc := by simp only [windowOf]; rw [if_pos (by omega)]
  simp [windowOfRange, h1, h2]

/-- R27, R219: a run of own local memory in banks that the agent holds. -/
theorem State.resolve_local (s : State) (g : Agent) (acc : Acc) (ptr : Word) {va n : Nat} (keyed micro : Bool) (hn : 0 < n)
    (h : va + n ≤ 0x30000) (hb : ∀ x ∈ runFrom va n, g.holdsBank x = true) :
    s.resolve g acc ptr (runFrom va n) true keyed micro = .ok (s, (runFrom va n).map (localAt g.core)) := by
  obtain ⟨l, hl⟩ := runFrom_ne_nil (va := va) hn
  have hlast := runFrom_getLastD (va := va) hn va
  have hw : windowOfRange va ((va :: l).getLastD va + 1 - va) = some .loc := by
    rw [← hl, hlast]; rw [show va + (n - 1) + 1 - va = n from by omega]; exact windowOfRange_loc hn h
  have hf : (va :: l).find? (fun x => !g.holdsBank x) = none := by
    rw [← hl]; simp only [List.find?_eq_none, Bool.not_eq_true, Bool.not_eq_false']; exact hb
  rw [hl]
  simp only [State.resolve, hw, hf, Bool.not_true, Bool.false_eq_true, if_false]

theorem localAt_run_nodup (p : Place) {va n : Nat} (h : va + n ≤ 0x40000) : ((runFrom va n).map (localAt p)).Nodup := by
  simp only [runFrom, List.map_map]
  refine List.Nodup.map_on ?_ List.nodup_range
  intro a ha b hb e
  simp only [List.mem_range] at ha hb
  simp only [Function.comp, localAt] at e
  omega

end Sys2Proof.Machine
end

