-- ==== Sys2Proof/Laws/Context.lean ====
section
/-! SUPPORT. Laws of registers and of results on their way: reads after writes, and what a flush delivers. -/

namespace Sys2Proof.Machine

/-! ## Registers -/

@[simp] theorem fitReg_s (d : SReg) (w : Word) : fitReg (.s d) (w.setWidth 128) = w.setWidth 128 := by
  simp only [fitReg]; congr 1; ext i hi; simp
@[simp] theorem fitReg_b (d : BReg) (w : Word) : fitReg (.b d) (w.setWidth 128) = w.setWidth 128 := by
  simp only [fitReg]; congr 1; ext i hi; simp
@[simp] theorem fitReg_p (d : PReg) (w : Half) : fitReg (.p d) (w.setWidth 128) = w.setWidth 128 := by
  simp only [fitReg]; congr 1; ext i hi; simp
@[simp] theorem fitReg_v (d : VReg) (w : Vec) : fitReg (.v d) w = w := rfl

/-- A register reads what was written last; s0 and p0 keep their values (R22). -/
theorem Context.readReg_setReg (x : Context) (r q : RegName) (w : Vec) :
    (x.setReg r w).readReg q = if q = r ∧ r.wired = false then fitReg r w else x.readReg q := by
  cases r with
  | s d =>
    cases q with
    | s e =>
      by_cases hd : d = 0
      · simp [setReg, RegName.wired, hd]
      · by_cases he : e = d
        · subst he; simp [setReg, readReg, sreg, RegName.wired, hd, fitReg]
        · by_cases h0 : e = 0
          · simp [readReg, sreg, h0, Ne.symm hd]
          · simp [setReg, readReg, sreg, hd, he, h0, Fin.val_inj, Ne.symm he]
    | _ => by_cases hd : d = 0 <;> simp [setReg, readReg, vreg, preg, breg, hd]
  | v d =>
    cases q with
    | v e =>
      by_cases he : e = d
      · subst he; simp [setReg, readReg, vreg, RegName.wired]
      · simp [setReg, readReg, vreg, he, Fin.val_inj, Ne.symm he]
    | _ => simp [setReg, readReg, sreg, preg, breg]
  | p d =>
    cases q with
    | p e =>
      by_cases hd : d = 0
      · simp [setReg, RegName.wired, hd]
      · by_cases he : e = d
        · subst he; simp [setReg, readReg, preg, RegName.wired, hd, fitReg]
        · by_cases h0 : e = 0
          · simp [readReg, preg, h0, Ne.symm hd]
          · simp [setReg, readReg, preg, hd, he, h0, Fin.val_inj, Ne.symm he]
    | _ => by_cases hd : d = 0 <;> simp [setReg, readReg, vreg, sreg, breg, hd]
  | b d =>
    cases q with
    | b e =>
      by_cases he : e = d
      · subst he; simp [setReg, readReg, breg, RegName.wired, fitReg]
      · simp [setReg, readReg, breg, he, Fin.val_inj, Ne.symm he]
    | _ => simp [setReg, readReg, sreg, preg, vreg]

/-- Only a register changes. -/
theorem Context.setReg_eq (x : Context) (r : RegName) (w : Vec) :
    ∃ s v p b, x.setReg r w = { x with s := s, v := v, p := p, b := b } := by
  cases r with
  | s d => by_cases h : d = 0 <;> simp only [setReg, h, if_true, if_false] <;> exact ⟨_, _, _, _, rfl⟩
  | p d => by_cases h : d = 0 <;> simp only [setReg, h, if_true, if_false] <;> exact ⟨_, _, _, _, rfl⟩
  | v d => exact ⟨_, _, _, _, rfl⟩
  | b d => exact ⟨_, _, _, _, rfl⟩

/-- A hard-wired register discards writes (R22). -/
theorem Context.setReg_wired (x : Context) (r : RegName) (w : Vec) (h : r.wired = true) : x.setReg r w = x := by
  cases r <;> simp_all [RegName.wired, setReg]

@[simp] theorem Context.setReg_csr (x : Context) (r : RegName) (w : Vec) : (x.setReg r w).csr = x.csr := by
  obtain ⟨_, _, _, _, h⟩ := x.setReg_eq r w; rw [h]
@[simp] theorem Context.setReg_pend (x : Context) (r : RegName) (w : Vec) : (x.setReg r w).pend = x.pend := by
  obtain ⟨_, _, _, _, h⟩ := x.setReg_eq r w; rw [h]

@[simp] theorem Context.addFlags_readReg (x : Context) (f : SW) (r : RegName) : (x.addFlags f).readReg r = x.readReg r := by
  cases r <;> rfl
@[simp] theorem Context.addFlags_pend (x : Context) (f : SW) : (x.addFlags f).pend = x.pend := rfl

theorem Context.raise_eq (x : Context) (f : SW) : ∃ d, x.raise f = { x with due := d } := by
  unfold raise; split <;> exact ⟨_, rfl⟩
@[simp] theorem Context.raise_readReg (x : Context) (f : SW) (r : RegName) : (x.raise f).readReg r = x.readReg r := by
  obtain ⟨_, h⟩ := x.raise_eq f; rw [h]; cases r <;> rfl
@[simp] theorem Context.raise_csr (x : Context) (f : SW) : (x.raise f).csr = x.csr := by
  obtain ⟨_, h⟩ := x.raise_eq f; rw [h]
@[simp] theorem Context.raise_pend (x : Context) (f : SW) : (x.raise f).pend = x.pend := by
  obtain ⟨_, h⟩ := x.raise_eq f; rw [h]

/-! ## Results on their way -/

/-- What a register holds after a list of results. -/
def pendVal (r : RegName) (l : List Pending) (v : Vec) : Vec :=
  l.foldl (fun v p => if p.reg = some r ∧ r.wired = false then fitReg r p.val else v) v
/-- The flags of a list of results. -/
def pendFlags (l : List Pending) (f : SW) : SW := l.foldl (fun f p => f ||| p.flags) f

theorem Context.applyPending_readReg (x : Context) (p : Pending) (r : RegName) :
    (x.applyPending p).readReg r = if p.reg = some r ∧ r.wired = false then fitReg r p.val else x.readReg r := by
  cases h : p.reg with
  | none => simp [applyPending, h]
  | some q =>
    by_cases hq : q = r
    · subst hq; simp [applyPending, h, Context.readReg_setReg]
    · simp [applyPending, h, Context.readReg_setReg, hq, Ne.symm hq]

theorem Context.applyPending_csr (x : Context) (p : Pending) :
    (x.applyPending p).csr = { x.csr with sw := x.csr.sw ||| p.flags } := by
  cases h : p.reg <;> simp [applyPending, h, addFlags]

theorem Context.foldl_applyPending_readReg (l : List Pending) (x : Context) (r : RegName) :
    (l.foldl Context.applyPending x).readReg r = pendVal r l (x.readReg r) := by
  induction l generalizing x with
  | nil => rfl
  | cons p t ih => rw [List.foldl_cons, ih, applyPending_readReg]; rfl

theorem Context.foldl_applyPending_csr (l : List Pending) (x : Context) :
    (l.foldl Context.applyPending x).csr = { x.csr with sw := pendFlags l x.csr.sw } := by
  induction l generalizing x with
  | nil => rfl
  | cons p t ih => rw [List.foldl_cons, ih, applyPending_csr]; rfl

/-- What a flush delivers to a register. -/
theorem Context.flush_readReg (x : Context) (r : RegName) : x.flush.readReg r = pendVal r x.pend (x.readReg r) := by
  rw [← foldl_applyPending_readReg]; cases r <;> rfl
/-- What a flush delivers to the control registers. -/
theorem Context.flush_csr (x : Context) : x.flush.csr = { x.csr with sw := pendFlags x.pend x.csr.sw } := by
  rw [← foldl_applyPending_csr]; rfl

theorem pendFlags_or (l : List Pending) (f g : SW) : pendFlags l (f ||| g) = pendFlags l f ||| g := by
  induction l generalizing f with
  | nil => rfl
  | cons p t ih =>
    simp only [pendFlags, List.foldl_cons] at *
    rw [← ih]; congr 1
    rw [BitVec.or_assoc, BitVec.or_comm g, ← BitVec.or_assoc]

theorem pendVal_append (r : RegName) (l m : List Pending) (v : Vec) : pendVal r (l ++ m) v = pendVal r m (pendVal r l v) :=
  List.foldl_append
theorem pendFlags_append (l m : List Pending) (f : SW) : pendFlags (l ++ m) f = pendFlags m (pendFlags l f) := List.foldl_append

/-- Discarding takes one result at a time. -/
theorem discardPending_cons (p : Pending) (t : List Pending) (r : RegName) (n : Nat) :
    discardPending (p :: t) r n =
      (if p.reg = some r ∧ n ≤ p.due then (if p.flags = 0#7 then [] else [{ p with reg := none }])
       else if p.reg = none ∧ p.flags = 0#7 then [] else [p]) ++ discardPending t r n := by
  unfold discardPending
  rw [List.map_cons]
  by_cases h : p.reg = some r ∧ n ≤ p.due
  · by_cases hf : p.flags = 0#7 <;> simp [h, hf]
  · have h' : ¬ ((p.reg == some r && decide (n ≤ p.due)) = true) := by simpa using h
    rw [if_neg h', if_neg h]
    by_cases hr : p.reg = none <;> by_cases hf : p.flags = 0#7 <;> simp [hr, hf]

/-- A discarded result keeps its flags. -/
theorem pendFlags_discard (l : List Pending) (r : RegName) (n : Nat) (f : SW) : pendFlags (discardPending l r n) f = pendFlags l f := by
  induction l generalizing f with
  | nil => rfl
  | cons p t ih =>
    rw [discardPending_cons, pendFlags_append, ih]
    show _ = pendFlags t (f ||| p.flags)
    congr 1
    by_cases hf : p.flags = 0#7
    · simp only [hf, if_true, and_true]; split <;> [skip; split] <;> simp [pendFlags, hf]
    · simp only [hf, if_false, and_false]; split <;> rfl

/-- Other registers keep the results on their way. -/
theorem pendVal_discard_ne (l : List Pending) {r q : RegName} (n : Nat) (v : Vec) (h : q ≠ r) :
    pendVal q (discardPending l r n) v = pendVal q l v := by
  induction l generalizing v with
  | nil => rfl
  | cons p t ih =>
    rw [discardPending_cons, pendVal_append, ih]
    show _ = pendVal q t (if p.reg = some q ∧ q.wired = false then fitReg q p.val else v)
    congr 1
    by_cases hr : p.reg = some r ∧ n ≤ p.due
    · by_cases hf : p.flags = 0#7 <;> simp [hr, hf, pendVal, Ne.symm h]
    · rw [if_neg hr]
      by_cases hn : p.reg = none ∧ p.flags = 0#7
      · simp [hn, pendVal]
      · rw [if_neg hn]; rfl

/-- A register whose every result on its way is discarded keeps its value. -/
theorem pendVal_discard_same (l : List Pending) (r : RegName) (n : Nat) (v : Vec)
    (h : ∀ p ∈ l, p.reg = some r → n ≤ p.due) : pendVal r (discardPending l r n) v = v := by
  induction l generalizing v with
  | nil => rfl
  | cons p t ih =>
    rw [discardPending_cons, pendVal_append, ih _ fun p hp => h p (List.mem_cons_of_mem _ hp)]
    have hp := h p List.mem_cons_self
    by_cases hr : p.reg = some r
    · by_cases hf : p.flags = 0#7 <;> simp [hr, hp hr, hf, pendVal]
    · by_cases hn : p.reg = none ∧ p.flags = 0#7 <;> simp [hr, hn, pendVal]

/-- A wired register never changes. -/
theorem pendVal_wired (l : List Pending) {r : RegName} (v : Vec) (h : r.wired = true) : pendVal r l v = v := by
  induction l generalizing v with
  | nil => rfl
  | cons p t ih => simp only [pendVal, List.foldl_cons] at *; rw [ih]; simp [h]

/-! ## A result of a head -/

theorem Context.caughtUp_due {x : Context} {now : Nat} (h : (x.pend.all fun p => decide (now < p.due)) = true) :
    ∀ p ∈ x.pend, now < p.due := by simpa using h

/-- A register written by a head holds the value once nothing is on its way. -/
theorem Context.result_readReg_same (x : Context) (now lat : Nat) (r : RegName) (w : Vec) (f : SW)
    (h : ∀ p ∈ x.pend, now < p.due) (hw : r.wired = false) : (x.result now lat r w f).flush.readReg r = fitReg r w := by
  rw [flush_readReg]
  unfold result
  by_cases hl : lat ≤ 1
  · simp only [hl, if_true, raise_readReg, raise_pend, addFlags_readReg, addFlags_pend, setReg_pend, readReg_setReg, hw,
      and_self]
    exact pendVal_discard_same _ _ _ _ fun p hp _ => by have := h p hp; omega
  · simp only [hl, if_false, raise_readReg, raise_pend, pendVal_append]
    simp [pendVal, hw]

/-- Every other register is as it would be. -/
theorem Context.result_readReg_ne (x : Context) (now lat : Nat) {r q : RegName} (w : Vec) (f : SW)
    (hq : q ≠ r ∨ r.wired = true) : (x.result now lat r w f).flush.readReg q = x.flush.readReg q := by
  have key : ∀ v, pendVal q (discardPending x.pend r (now + lat)) v = pendVal q x.pend v := by
    intro v
    by_cases h : q = r
    · subst h; rw [pendVal_wired _ _ (hq.resolve_left (by simp)), pendVal_wired _ _ (hq.resolve_left (by simp))]
    · exact pendVal_discard_ne _ _ _ h
  rw [flush_readReg, flush_readReg]
  unfold result
  have hn : ¬ (q = r ∧ r.wired = false) := by rintro ⟨h1, h2⟩; rcases hq with h | h <;> simp_all
  by_cases hl : lat ≤ 1
  · simp only [hl, if_true, raise_readReg, raise_pend, addFlags_readReg, addFlags_pend, setReg_pend, readReg_setReg, hn, if_false]
    rw [key]; cases q <;> rfl
  · simp only [hl, if_false, raise_readReg, raise_pend, pendVal_append, key]
    have hn' : ¬ (r = q ∧ q.wired = false) := by rintro ⟨h1, h2⟩; subst h1; exact hn ⟨rfl, h2⟩
    simp only [pendVal, List.foldl_cons, List.foldl_nil, Option.some.injEq, hn', if_false]
    cases q <;> rfl

/-- Its flags are ORed into SW. -/
theorem Context.result_flush_csr (x : Context) (now lat : Nat) (r : RegName) (w : Vec) (f : SW) :
    (x.result now lat r w f).flush.csr = { x.flush.csr with sw := x.flush.csr.sw ||| f } := by
  rw [flush_csr, flush_csr]
  unfold result
  by_cases hl : lat ≤ 1
  · simp only [hl, if_true, raise_csr, raise_pend, addFlags_pend, setReg_pend, pendFlags_discard]
    simp [addFlags, pendFlags_or]
  · simp only [hl, if_false, raise_csr, raise_pend, pendFlags_append, pendFlags_discard]
    simp [pendFlags]

end Sys2Proof.Machine
end

