-- ==== Sys2Proof/Laws/Head.lean ====
section
/-! SUPPORT. Laws of issuing a head: what retiring it leaves, and what a head comes to once its checks pass. -/

namespace Sys2Proof.Machine

/-! ## What retiring leaves of a context -/

/-- A context without what retiring a head may change. -/
def Context.still (x : Context) : Context :=
  { x with
    pc := 0, dsn := 0, npc := none, lines := [], readyAt := 0, heldAt := none, wait := none, bpPass := false, stepDue := none
    sent := none, fwd := [], gangEnd := none, gangSlots := 0, csr := { x.csr with lpcnt := 0, dsig := 0, gang := 0 } }

theorem Context.still_kept {x y : Context} (h : x.still = y.still) : x.kept = y.kept := by
  have : ∀ z : Context, z.kept = z.still.kept := fun _ => rfl
  rw [this x, this y, h]
theorem Context.still_readReg {x y : Context} (h : x.still = y.still) (r : RegName) : x.readReg r = y.readReg r := by
  have : ∀ z : Context, z.readReg r = z.still.readReg r := fun z => by cases r <;> rfl
  rw [this x, this y, h]
theorem Context.still_pend {x y : Context} (h : x.still = y.still) : x.pend = y.pend := by
  have : ∀ z : Context, z.pend = z.still.pend := fun _ => rfl
  rw [this x, this y, h]
theorem Context.still_sw {x y : Context} (h : x.still = y.still) : x.csr.sw = y.csr.sw := by
  have : ∀ z : Context, z.csr.sw = z.still.csr.sw := fun _ => rfl
  rw [this x, this y, h]
theorem Context.still_busy {x y : Context} (h : x.still = y.still) : x.busy = y.busy := by
  have : ∀ z : Context, z.busy = z.still.busy := fun _ => rfl
  rw [this x, this y, h]
theorem Context.still_flush {x y : Context} (h : x.still = y.still) (r : RegName) : x.flush.readReg r = y.flush.readReg r := by
  rw [flush_readReg, flush_readReg, still_pend h, still_readReg h]
theorem Context.still_flush_sw {x y : Context} (h : x.still = y.still) : x.flush.csr.sw = y.flush.csr.sw := by
  rw [flush_csr, flush_csr, still_pend h, still_sw h]

@[simp] theorem Context.setGangBits_still (x : Context) (g : BitVec 2) : (x.setGangBits g).still = x.still := rfl
@[simp] theorem Context.endStream_still (x : Context) : x.endStream.still = x.still := by
  unfold endStream; split <;> rfl
@[simp] theorem Context.advance_still (x : Context) (n : Word) (o : Option (Option Word)) (f : Flow) :
    (x.advance n o f).still = x.still := by
  have go : ∀ y : Context, (match y.dsn with
      | 0 => { y with pc := n } | 1 => { y with pc := n, dsn := 2 }
      | _ => match y.npc with | some p => y.jump p | none => { y with pc := n, dsn := 0 } : Context).still = y.still := by
    intro y; split
    · rfl
    · rfl
    · split <;> rfl
  cases o with
  | some _ => rfl
  | none =>
    cases f with
    | goto _ => rfl
    | stay => rfl
    | ends _ => rfl
    | seq => exact go x
    | noLoop => exact go x
    | transfer _ => exact go x
@[simp] theorem Context.afterForwarded_still (x : Context) (o : Option Word) : (x.afterForwarded o).still = x.still := by
  unfold afterForwarded
  split
  · rfl
  · dsimp only
    split
    · rfl
    · split
      · rfl
      · rw [endStream_still]; rfl
@[simp] theorem Context.retired_still (x : Context) (i : Instr) (x0 : Context) (cur : Issue) (now : Nat) (f : Flow) :
    (x.retired i x0 cur now f).still = x.still := by
  unfold retired
  dsimp only
  have key : ∀ (y : Context) (a b : Word) (n : Nat) (d : BitVec 16) (v : Option Stepped) (w : Option Word), y.still = x.still →
      ({ y with csr := { y.csr with lpcnt := a, dsig := d }, readyAt := n, heldAt := none, wait := none, bpPass := false
                stepDue := v, sent := w } : Context).still = x.still := fun y _ _ _ _ _ _ h => h ▸ rfl
  split
  · rw [afterForwarded_still]; exact key _ _ 0 _ _ _ _ (advance_still ..)
  · exact key _ _ 0 _ _ _ _ (advance_still ..)

/-! ## What retiring leaves of the machine -/

/-- Nothing but the contexts' places, the streams of followers and the cores' marks differs. -/
structure Still (s t : State) : Prop where
  ctx : ∀ c, (t.ctx c).still = (s.ctx c).still
  core : ∀ p, { t.core p with lastIssued := 0, issuedAt := none } = { s.core p with lastIssued := 0, issuedAt := none }
  cluster : ∀ k, t.cluster k = s.cluster k
  dies : t.dies = s.dies
  pkgs : t.pkgs = s.pkgs
  parts : t.parts = s.parts
  mem : t.mem = s.mem
  full : t.full = s.full
  tags : t.tags = s.tags
  poison : t.poison = s.poison
  freed : t.freed = s.freed
  imageMarks : t.imageMarks = s.imageMarks
  flying : t.flying = s.flying
  gangs : t.gangs = s.gangs
  cycle : t.cycle = s.cycle
  fresh : t.fresh = s.fresh
  cur : t.cur = s.cur

theorem Still.refl (s : State) : Still s s := by constructor <;> intros <;> rfl
theorem Still.trans {s t u : State} (h : Still s t) (g : Still t u) : Still s u :=
  ⟨fun c => (g.ctx c).trans (h.ctx c), fun p => (g.core p).trans (h.core p), fun k => (g.cluster k).trans (h.cluster k),
    g.dies.trans h.dies, g.pkgs.trans h.pkgs, g.parts.trans h.parts, g.mem.trans h.mem, g.full.trans h.full,
    g.tags.trans h.tags, g.poison.trans h.poison, g.freed.trans h.freed, g.imageMarks.trans h.imageMarks, g.flying.trans h.flying,
    g.gangs.trans h.gangs, g.cycle.trans h.cycle, g.fresh.trans h.fresh, g.cur.trans h.cur⟩

theorem Still.modCtx (s : State) (c : CtxId) (f : Context → Context) (h : (f (s.ctx c)).still = (s.ctx c).still) :
    Still s (s.modCtx c f) := by
  refine { Still.refl s with ctx := fun u => ?_ }
  rw [State.modCtx_ctx]; split
  · subst u; exact h
  · rfl

theorem Still.fold {α : Type} (l : List α) (f : State → α → State) (h : ∀ t a, Still t (f t a)) (s : State) : Still s (l.foldl f s) := by
  induction l generalizing s with
  | nil => exact Still.refl s
  | cons a t ih => exact (h s a).trans (ih _)

theorem Still.forward (s : State) (i : Instr) (led : Bool) (out : Option Word) : Still s (s.forward i led out) := by
  unfold State.forward
  split
  · exact Still.refl s
  · split
    · exact Still.refl s
    · refine Still.fold _ _ (fun t m => ?_) s
      split
      · exact Still.refl t
      · refine Still.modCtx _ _ _ ?_
        split <;> rfl

/-- A head that neither ends its task nor has set its place itself. -/
def Flow.plain : Flow → Bool
  | .ends _ | .stay => false
  | _ => true

/-- Retiring a head. -/
theorem Still.retire (s : State) (i : Instr) (x0 : Context) (f : Flow) (hf : f.plain = true) : Still s (s.retire i x0 f) := by
  unfold State.retire
  dsimp only
  have h1 : Still s (s.modCore (coreOf s.cur.ctx) fun k => { k with lastIssued := ctxNo s.cur.ctx, issuedAt := some (s.nowCtx s.cur.ctx) }) := by
    refine { Still.refl s with core := fun p => ?_ }
    rw [State.modCore_core]; split
    · subst p; rfl
    · rfl
  have h2 : Still s (if f = .stay ∨ x0.sent = some s.cur.ptr then
      s.modCore (coreOf s.cur.ctx) fun k => { k with lastIssued := ctxNo s.cur.ctx, issuedAt := some (s.nowCtx s.cur.ctx) }
      else (s.modCore (coreOf s.cur.ctx) fun k => { k with lastIssued := ctxNo s.cur.ctx, issuedAt := some (s.nowCtx s.cur.ctx) }).forward i
        (x0.csr.gang == 1) ((transferOf x0 s.cur.ptr f).getD none)) := by
    split
    · exact h1
    · exact h1.trans (Still.forward ..)
  cases f with
  | ends _ => simp [Flow.plain] at hf
  | stay => simp [Flow.plain] at hf
  | seq => exact h2.trans (Still.modCtx _ _ _ (Context.retired_still ..))
  | noLoop => exact h2.trans (Still.modCtx _ _ _ (Context.retired_still ..))
  | transfer _ => exact h2.trans (Still.modCtx _ _ _ (Context.retired_still ..))
  | goto _ => exact h2.trans (Still.modCtx _ _ _ (Context.retired_still ..))

/-! ## A head whose checks pass -/

/-- The effect of a head that may issue: the meaning retires. -/
theorem head_done {i : Instr} {n : Need} {early limit : State → Option Cause} {eff : State → Eff} {s s1 : State} {f : Flow}
    (h : s.Ready n) (he : early s = none) (hl : limit s = none) (hf : eff s = .done s1 f) :
    head i n early limit eff s = .next (s1.retire i s.here f) := by
  simp [head, h.whole, h.unlocked, h.slot, h.stall, h.consts, he, hl, hf]

/-- A trap of the head's own effect. -/
theorem head_trap {i : Instr} {n : Need} {early limit : State → Option Cause} {eff : State → Eff} {s : State} {t : Trap}
    (h : s.Ready n) (he : early s = none) (hl : limit s = none) (hf : eff s = .trap t) :
    head i n early limit eff s = .next (s.raiseTrap s.cur.ctx t) := by
  simp [head, h.whole, h.unlocked, h.slot, h.stall, h.consts, he, hl, hf]

/-- A trap after the head (R202). -/
theorem head_after {i : Instr} {n : Need} {early limit : State → Option Cause} {eff : State → Eff} {s s1 : State} {t : Trap}
    (h : s.Ready n) (he : early s = none) (hl : limit s = none) (hf : eff s = .after s1 t) :
    head i n early limit eff s = .next ((s1.retire i s.here .seq).takeTrap s.cur.ctx t) := by
  simp [head, h.whole, h.unlocked, h.slot, h.stall, h.consts, he, hl, hf]

/-- A waiting head whose condition does not hold parks (R220). -/
theorem head_wait {i : Instr} {n : Need} {early limit : State → Option Cause} {eff : State → Eff} {s s1 : State}
    (h : s.Ready n) (he : early s = none) (hl : limit s = none) (hf : eff s = .wait s1) :
    head i n early limit eff s = .next (s1.park i) := by
  simp [head, h.whole, h.unlocked, h.slot, h.stall, h.consts, he, hl, hf]

end Sys2Proof.Machine
end

