-- ==== Sys2Proof/Laws/Compute.lean ====
section
/-! SUPPORT. Laws of the frame: what a change of a context, a core or the memory leaves, and what retiring adds to it. -/

namespace Sys2Proof.Machine

/-! ## Retiring keeps a frame -/

theorem Still.byte {s t : State} (h : Still s t) (a : Nat) : t.byte a = s.byte a := State.byte_congr h.mem h.pkgs a
theorem Still.val {s t : State} (h : Still s t) (c : CtxId) (r : RegName) : t.val c r = s.val c r :=
  Context.still_flush (h.ctx c) r
theorem Still.sw {s t : State} (h : Still s t) (c : CtxId) : t.sw c = s.sw c := Context.still_flush_sw (h.ctx c)
theorem Still.kept {s t : State} (h : Still s t) (c : CtxId) : (t.ctx c).kept = (s.ctx c).kept := Context.still_kept (h.ctx c)
theorem Still.coreKept {s t : State} (h : Still s t) (p : Place) : (t.core p).kept = (s.core p).kept := by
  have : ∀ x : Core, x.kept = ({ x with lastIssued := 0, issuedAt := none } : Core).kept := fun _ => rfl
  rw [this (t.core p), this (s.core p), h.core p]

theorem Spares.still {s t u : State} {l : List RegName} {f : SW} {own : Context → Context} {core : Core → Core}
    {places : List Nat} (h : Spares s t l f own core places) (g : Still t u) : Spares s u l f own core places where
  regs c r hr := by rw [g.val]; exact h.regs c r hr
  flags c := by rw [g.sw]; exact h.flags c
  contexts c := by rw [g.kept]; exact h.contexts c
  bytes := ⟨fun a ha => by rw [g.byte]; exact h.bytes.1 a ha, g.tags.trans h.bytes.2⟩
  cores := ⟨fun p => by rw [g.coreKept]; exact h.cores.1 p, fun k => by rw [g.cluster]; exact h.cores.2 k⟩
  units := ⟨g.dies.trans h.units.dies, g.pkgs.trans h.units.pkgs, g.parts.trans h.units.parts,
    g.freed.trans h.units.freed, g.imageMarks.trans h.units.imageMarks, g.flying.trans h.units.flying,
    g.cycle.trans h.units.cycle⟩

theorem MarksKept.still {s t u : State} (h : MarksKept s t) (g : Still t u) : MarksKept s u :=
  ⟨g.full.trans h.full, g.poison.trans h.poison⟩

/-! ## LPCNT (R197) -/

theorem Context.advance_csr (x : Context) (n : Word) (o : Option (Option Word)) (f : Flow) : (x.advance n o f).csr = x.csr := by
  have go : ∀ y : Context, (match y.dsn with
      | 0 => { y with pc := n } | 1 => { y with pc := n, dsn := 2 }
      | _ => match y.npc with | some p => y.jump p | none => { y with pc := n, dsn := 0 } : Context).csr = y.csr := by
    intro y; split
    · rfl
    · rfl
    · split <;> rfl
  cases o with
  | some _ => rfl
  | none =>
    cases f with
    | goto _ => rfl
    | stay => rfl
    | ends _ => rfl
    | seq => exact go x
    | noLoop => exact go x
    | transfer _ => exact go x

theorem Context.afterForwarded_lpcnt (x : Context) (o : Option Word) :
    (x.afterForwarded o).csr.lpcnt = x.csr.lpcnt := by
  unfold afterForwarded
  split
  · rfl
  · dsimp only
    split
    · rfl
    · split
      · rfl
      · unfold endStream; split <;> rfl

theorem Context.retired_lpcnt (x : Context) (i : Instr) (x0 : Context) (cur : Issue) (now : Nat) (f : Flow) :
    (x.retired i x0 cur now f).csr.lpcnt =
      if f = .seq ∧ x0.atLoopEnd cur.ptr = true ∧ x.csr.lpcnt = x0.csr.lpcnt then x0.csr.lpcnt - 1 else x.csr.lpcnt := by
  unfold retired
  dsimp only
  have key : ∀ (z : Context) (o : Option Word) (c : Bool), (if c then z.afterForwarded o else z).csr.lpcnt = z.csr.lpcnt := by
    intro z o c; cases c
    · rfl
    · exact afterForwarded_lpcnt ..
  rw [key]
  dsimp only
  rw [advance_csr]
  cases f <;> simp

theorem State.forward_lpcnt (s : State) (i : Instr) (b : Bool) (o : Option Word) (u : CtxId) :
    ((s.forward i b o).ctx u).csr.lpcnt = (s.ctx u).csr.lpcnt := by
  unfold State.forward
  split
  · rfl
  · split
    · rfl
    · dsimp only
      rename_i g _ _
      generalize g.members = l
      suffices h : ∀ (l : List CtxId) (f : Context → CtxId → Context), (∀ x m, (f x m).csr.lpcnt = x.csr.lpcnt) → ∀ v : State,
          ((l.foldl (fun t m => if m = g.leader then t else t.modCtx m fun x => f x m) v).ctx u).csr.lpcnt =
            (v.ctx u).csr.lpcnt by
        refine h l (fun x m => _) (fun x m => ?_) s
        split <;> rfl
      intro l f hf
      induction l with
      | nil => intro v; rfl
      | cons a r ih =>
        intro v
        rw [List.foldl_cons, ih]
        split
        · rfl
        · rw [State.modCtx_ctx]; split
          · rename_i hu; subst hu; exact hf ..
          · rfl

/-- LPCNT after a head retires. -/
theorem State.retire_lpcnt (s : State) (i : Instr) (x0 : Context) (f : Flow) (hf : f.plain = true) (c : CtxId) :
    ((s.retire i x0 f).ctx c).csr.lpcnt =
      if c = s.cur.ctx ∧ f = .seq ∧ x0.atLoopEnd s.cur.ptr = true ∧ s.here.csr.lpcnt = x0.csr.lpcnt then x0.csr.lpcnt - 1
      else (s.ctx c).csr.lpcnt := by
  have hh : ∀ (t : State) (n : Nat), (∀ u, (t.ctx u).csr.lpcnt = (s.ctx u).csr.lpcnt) →
      ((t.modCtx s.cur.ctx fun x => x.retired i x0 s.cur n f).ctx c).csr.lpcnt =
      if c = s.cur.ctx ∧ f = .seq ∧ x0.atLoopEnd s.cur.ptr = true ∧ s.here.csr.lpcnt = x0.csr.lpcnt then x0.csr.lpcnt - 1
      else (s.ctx c).csr.lpcnt := by
    intro t n ht
    rw [State.modCtx_ctx]
    by_cases hc : c = s.cur.ctx
    · subst hc
      simp only [if_true, true_and, Context.retired_lpcnt, ht, State.here]
    · simp [hc, ht]
  unfold State.retire
  dsimp only
  have h0 : ∀ u, ((if f = .stay ∨ x0.sent = some s.cur.ptr then
      s.modCore (coreOf s.cur.ctx) fun k => { k with lastIssued := ctxNo s.cur.ctx, issuedAt := some (s.nowCtx s.cur.ctx) }
      else (s.modCore (coreOf s.cur.ctx) fun k => { k with lastIssued := ctxNo s.cur.ctx, issuedAt := some (s.nowCtx s.cur.ctx) }).forward i
        (x0.csr.gang == 1) ((transferOf x0 s.cur.ptr f).getD none)).ctx u).csr.lpcnt = (s.ctx u).csr.lpcnt := fun u => by
    split
    · rfl
    · rw [State.forward_lpcnt]; rfl
  cases f with
  | ends _ => simp [Flow.plain] at hf
  | stay => simp [Flow.plain] at hf
  | seq => exact hh _ _ h0
  | noLoop => exact hh _ _ h0
  | transfer _ => exact hh _ _ h0
  | goto _ => exact hh _ _ h0

/-- A head that goes on in sequence keeps a frame, and counts its loop. -/
theorem Spares.retire {s s1 : State} {l : List RegName} {g : SW} {own : Context → Context} {core : Core → Core}
    {places : List Nat} (h : Spares s s1 l g own core places) (hc : s1.cur = s.cur)
    (hl : ∀ c, (s1.ctx c).csr.lpcnt = (s.ctx c).csr.lpcnt) (i : Instr) (f : Flow) (hf : f.plain = true)
    (hq : f = .seq ∨ s.here.atLoopEnd s.cur.ptr = false) : Keeps s (s1.retire i s.here f) l g own core places :=
  { h.still (Still.retire s1 i s.here f hf) with
    loops := fun c => by
      rw [State.retire_lpcnt _ _ _ _ hf, State.here, State.here, hc, hl, hl]
      rcases hq with rfl | hq
      · simp
      · rw [State.here] at hq; simp [hq] }

/-! ## Where a head goes on (R170, R197, R203) -/

/-- A part of a context that retiring sets and its forwarded side leaves. -/
structure SamePlace (x y : Context) : Prop where
  pc : y.pc = x.pc
  dsn : y.dsn = x.dsn
  npc : y.npc = x.npc
  dsig : y.csr.dsig = x.csr.dsig

theorem Context.endStream_place (x : Context) (h : x.gangEnd = none) : SamePlace x x.endStream := by
  unfold endStream; rw [h]; exact ⟨rfl, rfl, rfl, rfl⟩
theorem Context.afterForwarded_place (x : Context) (o : Option Word) (h : x.gangEnd = none) :
    SamePlace x (x.afterForwarded o) := by
  unfold afterForwarded
  split
  · exact ⟨rfl, rfl, rfl, rfl⟩
  · rename_i f rest _
    dsimp only
    split
    · exact ⟨rfl, rfl, rfl, rfl⟩
    · split
      · exact ⟨rfl, rfl, rfl, rfl⟩
      · have e : ({ x with fwd := rest } : Context).endStream = { x with fwd := rest } := by unfold endStream; simp only [h]
        rw [e]; exact ⟨rfl, rfl, rfl, rfl⟩
theorem Context.forwarded_place (x : Context) (c : Bool) (o : Option Word) (h : c = true → x.gangEnd = none) :
    SamePlace x (if c then x.afterForwarded o else x) := by
  cases c
  · exact ⟨rfl, rfl, rfl, rfl⟩
  · exact afterForwarded_place x o (h rfl)

theorem Context.advance_gangEnd (x : Context) (n : Word) (o : Option (Option Word)) (f : Flow) :
    (x.advance n o f).gangEnd = x.gangEnd := by
  have go : ∀ y : Context, (match y.dsn with
      | 0 => { y with pc := n } | 1 => { y with pc := n, dsn := 2 }
      | _ => match y.npc with | some p => y.jump p | none => { y with pc := n, dsn := 0 } : Context).gangEnd = y.gangEnd := by
    intro y; split
    · rfl
    · rfl
    · split <;> rfl
  cases o with
  | some _ => rfl
  | none =>
    cases f with
    | goto _ => rfl
    | stay => rfl
    | ends _ => rfl
    | seq => exact go x
    | noLoop => exact go x
    | transfer _ => exact go x

/-- A context that retires a head which is no transfer. -/
theorem Context.retired_place (x : Context) (i : Instr) (x0 : Context) (cur : Issue) (now : Nat)
    (hg : cur.forwarded = true → x.gangEnd = none) :
    let y := x.advance (ptrAfter cur.ptr cur.hc) (transferOf x0 cur.ptr .seq) .seq
    let z := x.retired i x0 cur now .seq
    z.pc = y.pc ∧ z.dsn = y.dsn ∧ z.npc = y.npc ∧
      z.csr.dsig = if isSigchk i then x.csr.dsig else sigStep x.csr.dsig cur.h cur.t := by
  have hg' := fun h => (advance_gangEnd x (ptrAfter cur.ptr cur.hc) (transferOf x0 cur.ptr .seq) .seq).trans (hg h)
  refine ⟨(forwarded_place _ _ _ ?_).pc.trans rfl, (forwarded_place _ _ _ ?_).dsn.trans rfl,
    (forwarded_place _ _ _ ?_).npc.trans rfl, (forwarded_place _ _ _ ?_).dsig.trans ?_⟩
  iterate 4 exact hg'
  dsimp only
  rw [advance_csr]

/-- The stream of a leader's heads leaves the leader. -/
theorem State.forward_here (s : State) (i : Instr) (b : Bool) (o : Option Word) :
    (s.forward i b o).ctx s.cur.ctx = s.ctx s.cur.ctx := by
  unfold State.forward
  split
  · rfl
  · rename_i g _
    split
    · rfl
    · rename_i hl
      have hl : g.leader = s.cur.ctx := by simpa using (not_or.1 hl).1
      suffices h : ∀ (l : List CtxId) (f : CtxId → Context → Context) (v : State),
          (l.foldl (fun t m => if m = g.leader then t else t.modCtx m (f m)) v).ctx s.cur.ctx = v.ctx s.cur.ctx from h _ _ s
      intro l f
      induction l with
      | nil => intro v; rfl
      | cons a r ih =>
        intro v
        rw [List.foldl_cons, ih]
        split
        · rfl
        · rename_i ha
          exact State.modCtx_ne _ _ fun e => ha (e.symm.trans hl.symm)

/-- What retiring does to the context under issue. -/
theorem State.retire_here (s : State) (i : Instr) (x0 : Context) (f : Flow) (hf : f.plain = true) :
    (s.retire i x0 f).ctx s.cur.ctx = s.here.retired i x0 s.cur (s.nowCtx s.cur.ctx) f := by
  have h0 : (if f = .stay ∨ x0.sent = some s.cur.ptr then
      s.modCore (coreOf s.cur.ctx) fun k => { k with lastIssued := ctxNo s.cur.ctx, issuedAt := some (s.nowCtx s.cur.ctx) }
      else (s.modCore (coreOf s.cur.ctx) fun k => { k with lastIssued := ctxNo s.cur.ctx, issuedAt := some (s.nowCtx s.cur.ctx) }).forward i
        (x0.csr.gang == 1) ((transferOf x0 s.cur.ptr f).getD none)).ctx s.cur.ctx = s.here := by
    split
    · rfl
    · exact State.forward_here ..
  unfold State.retire
  dsimp only
  cases f with
  | ends _ => simp [Flow.plain] at hf
  | stay => simp [Flow.plain] at hf
  | seq => rw [State.modCtx_same, h0]
  | noLoop => rw [State.modCtx_same, h0]
  | transfer _ => rw [State.modCtx_same, h0]
  | goto _ => rw [State.modCtx_same, h0]

/-- Where the advance of a head that is no transfer puts its context. -/
theorem Context.advance_place (x x0 : Context) (ptr next : Word) (hd : x.dsn = x0.dsn) (hn : x.npc = x0.npc) :
    let y := x.advance next (transferOf x0 ptr .seq) .seq
    if x0.atLoopEnd ptr = true then
      y.pc = next ∧ y.dsn = 1 ∧ y.npc = if x0.csr.lpcnt = 1 then none else some x0.csr.lpbeg
    else if x0.dsn = 0 then y.pc = next ∧ y.dsn = 0
    else if x0.dsn = 1 then y.pc = next ∧ y.dsn = 2 ∧ y.npc = x0.npc
    else y.pc = x0.npc.getD next ∧ y.dsn = 0 := by
  unfold transferOf
  cases hl : x0.atLoopEnd ptr with
  | true =>
    refine ⟨rfl, rfl, ?_⟩
    by_cases h1 : x0.csr.lpcnt = 1
    · rw [if_pos h1, h1]; rfl
    · rw [if_neg h1]
      have : x0.csr.lpcnt - 1 ≠ 0 := by bv_omega
      exact if_pos this
  | false =>
    unfold advance
    rw [← hd, ← hn]
    rcases hm : x.dsn with _ | _ | n
    · exact ⟨rfl, rfl⟩
    · exact ⟨rfl, rfl, rfl⟩
    · cases hp : x.npc with
      | none => exact ⟨rfl, rfl⟩
      | some p => exact ⟨rfl, rfl⟩

/-- A head that is no transfer and leaves its context's place alone goes on in sequence. -/
theorem Proceeds.retire {s s1 : State} (i : Instr) (hi : isSigchk i = false) (hc : s1.cur = s.cur)
    (hd : s1.here.dsn = s.here.dsn) (hn : s1.here.npc = s.here.npc) (hs : s1.here.csr.dsig = s.here.csr.dsig)
    (hg : s.here.gangEnd = none → s1.here.gangEnd = none) : Proceeds s (s1.retire i s.here .seq) := by
  have hr := State.retire_here s1 i s.here .seq rfl
  have place := fun own : s.ownStream => Context.retired_place s1.here i s.here s1.cur (s1.nowCtx s1.cur.ctx) fun h => hg (own (hc ▸ h))
  rw [← hr, hc] at place
  refine ⟨fun own => ?_, fun own => ?_⟩ <;> obtain ⟨h1, h2, h3, h4⟩ := place own
  · rw [Signed, h4, hi, hs]; rfl
  · dsimp only
    rw [h1, h2, h3]
    exact Context.advance_place s1.here s.here s.cur.ptr _ hd hn

/-! ## A change of the context under issue -/

theorem Spares.modHere {s : State} (f : Context → Context) (l : List RegName) (g : SW) (own : Context → Context)
    (hk : (f s.here).kept = own s.here.kept) (hsw : (f s.here).flush.csr.sw = s.here.flush.csr.sw ||| g)
    (hr : ∀ r, r ∉ l → (f s.here).flush.readReg r = s.here.flush.readReg r) : Spares s (s.modHere f) l g own id [] where
  regs c r hn := by
    rw [State.val, State.modHere_ctx]
    split
    · rename_i h; subst h
      exact hr r fun hm => hn (List.mem_map.2 ⟨r, hm, rfl⟩)
    · rfl
  flags c := by
    simp only [State.sw, State.modHere_ctx]
    split
    · rename_i h; subst h; exact hsw
    · rfl
  contexts c := by
    rw [State.modHere_ctx]; split
    · rename_i h; subst h; exact hk
    · rfl
  bytes := ⟨fun a _ => State.byte_congr (State.modHere_mem ..) (State.modHere_pkgs ..) a, State.modHere_tags ..⟩
  cores := ⟨fun p => by rw [State.modHere_core]; simp, fun k => by rw [State.modHere_cluster]⟩
  units := ⟨State.modHere_dies .., State.modHere_pkgs .., State.modHere_parts .., State.modHere_freed ..,
    State.modHere_imageMarks .., State.modHere_flying .., State.modHere_cycle ..⟩

theorem MarksKept.modHere (s : State) (f : Context → Context) : MarksKept s (s.modHere f) :=
  ⟨State.modHere_full .., State.modHere_poison ..⟩

theorem Context.result_kept (x : Context) (now lat : Nat) (r : RegName) (w : Vec) (f : SW) :
    (x.result now lat r w f).kept = x.kept := by
  unfold result
  have hr : ∀ y : Context, (y.raise f).kept = y.kept := fun y => by obtain ⟨_, h⟩ := y.raise_eq f; rw [h]; rfl
  dsimp only
  rw [hr]
  split
  · have : ∀ y : Context, (y.addFlags f).kept = y.kept := fun _ => rfl
    rw [this]
    obtain ⟨_, _, _, _, h⟩ := Context.setReg_eq { x with pend := discardPending x.pend r (now + lat) } r w
    rw [h]; rfl
  · rfl

theorem Context.result_lpcnt (x : Context) (now lat : Nat) (r : RegName) (w : Vec) (f : SW) :
    (x.result now lat r w f).csr.lpcnt = x.csr.lpcnt := by
  unfold result
  dsimp only
  rw [raise_csr]
  split
  · have : ∀ y : Context, (y.addFlags f).csr.lpcnt = y.csr.lpcnt := fun _ => rfl
    rw [this, setReg_csr]
  · rfl

/-- A result leaves its context's place alone. -/
theorem Context.result_place (x : Context) (now lat : Nat) (r : RegName) (w : Vec) (f : SW) :
    SamePlace x (x.result now lat r w f) ∧ (x.result now lat r w f).gangEnd = x.gangEnd := by
  unfold result
  have hr : ∀ y : Context, SamePlace x y ∧ y.gangEnd = x.gangEnd → SamePlace x (y.raise f) ∧ (y.raise f).gangEnd = x.gangEnd := by
    intro y hy; obtain ⟨_, h⟩ := y.raise_eq f; rw [h]; exact ⟨⟨hy.1.pc, hy.1.dsn, hy.1.npc, hy.1.dsig⟩, hy.2⟩
  refine hr _ ?_
  split
  · obtain ⟨_, _, _, _, h⟩ := Context.setReg_eq { x with pend := discardPending x.pend r (now + lat) } r w
    rw [h]; exact ⟨⟨rfl, rfl, rfl, rfl⟩, rfl⟩
  · exact ⟨⟨rfl, rfl, rfl, rfl⟩, rfl⟩

/-- The result of a head that computes one register. -/
theorem Computes.result {s : State} (lat : Nat) (r : RegName) (w : Vec) (f : SW) (i : Instr)
    (h : s.here.caughtUp (s.nowCtx s.cur.ctx) = true) (hfit : fitReg r w = w) (hi : isSigchk i = false) :
    Computes s ((s.result lat r w f).retire i s.here .seq) [(r, w)] f := by
  have hst := Still.retire (s.result lat r w f) i s.here .seq rfl
  refine ⟨⟨?_, Spares.retire (Spares.modHere _ _ _ _ (Context.result_kept ..) (by rw [Context.result_flush_csr]) ?_) rfl ?_ _ _ rfl
    (.inl rfl), (MarksKept.modHere ..).still hst⟩, ?_⟩
  · intro e he
    simp only [List.mem_singleton] at he; subst he
    rw [hst.val]
    have hv : (s.result lat r w f).val s.cur.ctx r = (s.here.result (s.nowCtx s.cur.ctx) lat r w f).flush.readReg r := by
      simp [State.val, State.result, State.modHere_ctx]
    by_cases hw : r.wired = true
    · simp only [hw, if_true, hv]; exact Context.result_readReg_ne _ _ _ _ _ (.inr hw)
    · simp only [Bool.not_eq_true] at hw
      simp only [hw, hv]
      rw [Context.result_readReg_same _ _ _ _ _ _ (by simpa [Context.caughtUp] using h) hw, hfit]; simp
  · intro q hq
    exact Context.result_readReg_ne _ _ _ _ _ (.inl (by simpa using hq))
  · intro c
    rw [State.modHere_ctx]; split
    · rename_i hcc; subst hcc; exact Context.result_lpcnt ..
    · rfl
  · obtain ⟨hp, hg⟩ := Context.result_place s.here (s.nowCtx s.cur.ctx) lat r w f
    have hh : (s.result lat r w f).here = s.here.result (s.nowCtx s.cur.ctx) lat r w f := State.modHere_here ..
    exact Proceeds.retire i hi rfl (by rw [hh]; exact hp.dsn) (by rw [hh]; exact hp.npc) (by rw [hh]; exact hp.dsig)
      fun h => by rw [hh, hg]; exact h

/-- A head that issues and computes one register. -/
theorem head_result {i : Instr} {n : Need} {early limit : State → Option Cause} {eff : State → Eff} {s : State}
    {lat : Nat} {r : RegName} {w : Vec} {f : SW} (h : s.Ready n) (he : early s = none) (hl : limit s = none)
    (hf : eff s = .done (s.result lat r w f) .seq) (hfit : fitReg r w = w) (hi : isSigchk i = false) :
    ∃ t, head i n early limit eff s = .next t ∧ Computes s t [(r, w)] f :=
  ⟨_, head_done h he hl hf, Computes.result lat r w f i h.settled hfit hi⟩

/-! ## A change of the core of the context under issue -/

theorem Spares.modCore {s t : State} {l : List RegName} {g : SW} {own : Context → Context} {core : Core → Core}
    {places : List Nat} (h : Spares s t l g own core places) (f core' : Core → Core)
    (hk : (f (t.core (coreOf s.cur.ctx))).kept = core' (s.core (coreOf s.cur.ctx)).kept) :
    Spares s (t.modCore (coreOf s.cur.ctx) f) l g own core' places where
  regs := h.regs
  flags := h.flags
  contexts := h.contexts
  bytes := ⟨fun a ha => by rw [State.byte_congr (s := t) (State.modCore_mem ..) (State.modCore_pkgs ..)]; exact h.bytes.1 a ha, h.bytes.2⟩
  cores := ⟨fun p => by
    rw [State.modCore_core]; split
    · rename_i hp; subst hp; exact hk
    · rename_i hp; have := h.cores.1 p; rw [if_neg hp] at this; exact this, h.cores.2⟩
  units := ⟨h.units.dies, h.units.pkgs, h.units.parts, h.units.freed, h.units.imageMarks, h.units.flying, h.units.cycle⟩

/-- A register that now waits for its result. -/
theorem Context.addBusy_kept (x : Context) (r : RegName) : (x.addBusy r).kept = x.kept := by
  unfold addBusy; split <;> rfl
theorem Context.addBusy_flush_sw (x : Context) (r : RegName) : (x.addBusy r).flush.csr.sw = x.flush.csr.sw := by
  unfold addBusy; split
  · rfl
  · rw [flush_csr, flush_csr]
theorem Context.addBusy_flush (x : Context) (r q : RegName) : (x.addBusy r).flush.readReg q = x.flush.readReg q := by
  unfold addBusy; split
  · rfl
  · rw [flush_readReg, flush_readReg]; cases q <;> rfl
theorem Context.addBusy_mem (x : Context) (r : RegName) (h : r.wired = false) : r ∈ (x.addBusy r).busy := by
  simp [addBusy, h]

theorem Spares.addBusy (s : State) (r : RegName) : Spares s (s.modHere fun x => x.addBusy r) [] 0 id id [] :=
  Spares.modHere _ _ _ _ (Context.addBusy_kept ..) (by rw [Context.addBusy_flush_sw]; simp) fun q _ => Context.addBusy_flush ..

end Sys2Proof.Machine
end

