-- ==== Sys2Proof/Laws/Exec.lean ====
section
/-! SUPPORT. The meaning of each constructor, by name. -/

namespace Sys2Proof.Machine

theorem exec_add {d a b} (s : State) : exec (.add d a b) s = execAdd d a b s := rfl
theorem exec_sub {d a b} (s : State) : exec (.sub d a b) s = execSub d a b s := rfl
theorem exec_mul {d a b} (s : State) : exec (.mul d a b) s = execMul d a b s := rfl
theorem exec_mulh {d a b} (s : State) : exec (.mulh d a b) s = execMulh d a b s := rfl
theorem exec_mulhn {d a b} (s : State) : exec (.mulhn d a b) s = execMulhn d a b s := rfl
theorem exec_min {d a b} (s : State) : exec (.min d a b) s = execMin d a b s := rfl
theorem exec_max {d a b} (s : State) : exec (.max d a b) s = execMax d a b s := rfl
theorem exec_minn {d a b} (s : State) : exec (.minn d a b) s = execMinn d a b s := rfl
theorem exec_maxn {d a b} (s : State) : exec (.maxn d a b) s = execMaxn d a b s := rfl
theorem exec_div {d a b} (s : State) : exec (.div d a b) s = execDiv d a b s := rfl
theorem exec_divn {d a b} (s : State) : exec (.divn d a b) s = execDivn d a b s := rfl
theorem exec_rem {d a b} (s : State) : exec (.rem d a b) s = execRem d a b s := rfl
theorem exec_remn {d a b} (s : State) : exec (.remn d a b) s = execRemn d a b s := rfl
theorem exec_and {d a b} (s : State) : exec (.and d a b) s = execAnd d a b s := rfl
theorem exec_or {d a b} (s : State) : exec (.or d a b) s = execOr d a b s := rfl
theorem exec_xor {d a b} (s : State) : exec (.xor d a b) s = execXor d a b s := rfl
theorem exec_andn {d a b} (s : State) : exec (.andn d a b) s = execAndn d a b s := rfl
theorem exec_shl {d a b} (s : State) : exec (.shl d a b) s = execShl d a b s := rfl
theorem exec_shr {d a b} (s : State) : exec (.shr d a b) s = execShr d a b s := rfl
theorem exec_sra {d a b} (s : State) : exec (.sra d a b) s = execSra d a b s := rfl
theorem exec_rotl {d a b} (s : State) : exec (.rotl d a b) s = execRotl d a b s := rfl
theorem exec_clz {d a} (s : State) : exec (.clz d a) s = execClz d a s := rfl
theorem exec_ctz {d a} (s : State) : exec (.ctz d a) s = execCtz d a s := rfl
theorem exec_popc {d a} (s : State) : exec (.popc d a) s = execPopc d a s := rfl
theorem exec_sext {d a b} (s : State) : exec (.sext d a b) s = execSext d a b s := rfl
theorem exec_zext {d a b} (s : State) : exec (.zext d a b) s = execZext d a b s := rfl
theorem exec_bfx {d a b n} (s : State) : exec (.bfx d a b n) s = execBfx d a b n s := rfl
theorem exec_bfi {d a b n} (s : State) : exec (.bfi d a b n) s = execBfi d a b n s := rfl
theorem exec_li {d k} (s : State) : exec (.li d k) s = execLi d k s := rfl
theorem exec_lih {d k} (s : State) : exec (.lih d k) s = execLih d k s := rfl
theorem exec_mov {d a} (s : State) : exec (.mov d a) s = execMov d a s := rfl
theorem exec_sel {d n a b} (s : State) : exec (.sel d n a b) s = execSel d n a b s := rfl
theorem exec_cmp {pd cond a b} (s : State) : exec (.cmp pd cond a b) s = execCmp pd cond a b s := rfl
theorem exec_plAnd {pd pa} (s : State) : exec (.plAnd pd pa) s = execPlAnd pd pa s := rfl
theorem exec_plOr {pd pa} (s : State) : exec (.plOr pd pa) s = execPlOr pd pa s := rfl
theorem exec_plNot {pd pa} (s : State) : exec (.plNot pd pa) s = execPlNot pd pa s := rfl
theorem exec_ptradd {d a b} (s : State) : exec (.ptradd d a b) s = execPtradd d a b s := rfl
theorem exec_ptrfmt {d a b} (s : State) : exec (.ptrfmt d a b) s = execPtrfmt d a b s := rfl
theorem exec_ptrtag {d a b} (s : State) : exec (.ptrtag d a b) s = execPtrtag d a b s := rfl
theorem exec_ptrfld {d a b} (s : State) : exec (.ptrfld d a b) s = execPtrfld d a b s := rfl
theorem exec_gtc {d} (s : State) : exec (.gtc d) s = execGtc d s := rfl
theorem exec_ctxid {d} (s : State) : exec (.ctxid d) s = execCtxid d s := rfl
theorem exec_br {n t} (s : State) : exec (.br n t) s = execBr n t s := rfl
theorem exec_bra {t} (s : State) : exec (.bra t) s = execBra t s := rfl
theorem exec_jmp {a} (s : State) : exec (.jmp a) s = execJmp a s := rfl
theorem exec_jmpr {a b} (s : State) : exec (.jmpr a b) s = execJmpr a b s := rfl
theorem exec_call {t} (s : State) : exec (.call t) s = execCall t s := rfl
theorem exec_callr {a} (s : State) : exec (.callr a) s = execCallr a s := rfl
theorem exec_ret (s : State) : exec .ret s = execRet s := rfl
theorem exec_jtab {a b c d} (s : State) : exec (.jtab a b c d) s = execJtab a b c d s := rfl
theorem exec_lp {a t} (s : State) : exec (.lp a t) s = execLp a t s := rfl
theorem exec_halt (s : State) : exec .halt s = execHalt s := rfl
theorem exec_haltR {a} (s : State) : exec (.haltR a) s = execHaltR a s := rfl
theorem exec_trap {a} (s : State) : exec (.trap a) s = execTrap a s := rfl
theorem exec_nop (s : State) : exec .nop s = execNop s := rfl
theorem exec_sigchk {k} (s : State) : exec (.sigchk k) s = execSigchk k s := rfl
theorem exec_msgdone (s : State) : exec .msgdone s = execMsgdone s := rfl
theorem exec_gform {a b} (s : State) : exec (.gform a b) s = execGform a b s := rfl
theorem exec_gleave (s : State) : exec .gleave s = execGleave s := rfl
theorem exec_gjoin {t} (s : State) : exec (.gjoin t) s = execGjoin t s := rfl
theorem exec_gbar (s : State) : exec .gbar s = execGbar s := rfl
theorem exec_sbar (s : State) : exec .sbar s = execSbar s := rfl
theorem exec_launch {d a b} (s : State) : exec (.launch d a b) s = execLaunch d a b s := rfl
theorem exec_qdone {a b} (s : State) : exec (.qdone a b) s = execQdone a b s := rfl
theorem exec_csrr {d k} (s : State) : exec (.csrr d k) s = execCsrr d k s := rfl
theorem exec_csrw {k a} (s : State) : exec (.csrw k a) s = execCsrw k a s := rfl
theorem exec_csrset {k a} (s : State) : exec (.csrset k a) s = execCsrset k a s := rfl
theorem exec_csrclr {k a} (s : State) : exec (.csrclr k a) s = execCsrclr k a s := rfl
theorem exec_ifence (s : State) : exec .ifence s = execIfence s := rfl
theorem exec_eret (s : State) : exec .eret s = execEret s := rfl
theorem exec_tlbinv {a b} (s : State) : exec (.tlbinv a b) s = execTlbinv a b s := rfl
theorem exec_msave {a b} (s : State) : exec (.msave a b) s = execMsave a b s := rfl
theorem exec_mrest {a b} (s : State) : exec (.mrest a b) s = execMrest a b s := rfl
theorem exec_htset {a b} (s : State) : exec (.htset a b) s = execHtset a b s := rfl
theorem exec_ld {d a o size sx} (s : State) : exec (.ld d a o size sx) s = execLd d a o size sx s := rfl
theorem exec_st {a o b size} (s : State) : exec (.st a o b size) s = execSt a o b size s := rfl
theorem exec_ldv {d a o n} (s : State) : exec (.ldv d a o n) s = execLdv d a o n s := rfl
theorem exec_stv {a o v n} (s : State) : exec (.stv a o v n) s = execStv a o v n s := rfl
theorem exec_ldbit {d a m} (s : State) : exec (.ldbit d a m) s = execLdbit d a m s := rfl
theorem exec_stbit {a b m} (s : State) : exec (.stbit a b m) s = execStbit a b m s := rfl
theorem exec_bset {n a} (s : State) : exec (.bset n a) s = execBset n a s := rfl
theorem exec_ldf {d a o m} (s : State) : exec (.ldf d a o m) s = execLdf d a o m s := rfl
theorem exec_stf {a o v m} (s : State) : exec (.stf a o v m) s = execStf a o v m s := rfl
theorem exec_pf {a o} (s : State) : exec (.pf a o) s = execPf a o s := rfl
theorem exec_tagset {a o b} (s : State) : exec (.tagset a o b) s = execTagset a o b s := rfl
theorem exec_fence {kind scope} (s : State) : exec (.fence kind scope) s = execFence kind scope s := rfl
theorem exec_ldacq {d a o m} (s : State) : exec (.ldacq d a o m) s = execLdacq d a o m s := rfl
theorem exec_strel {a o b m} (s : State) : exec (.strel a o b m) s = execStrel a o b m s := rfl
theorem exec_amoAdd {d a o b m} (s : State) : exec (.amoAdd d a o b m) s = execAmoAdd d a o b m s := rfl
theorem exec_amoAnd {d a o b m} (s : State) : exec (.amoAnd d a o b m) s = execAmoAnd d a o b m s := rfl
theorem exec_amoOr {d a o b m} (s : State) : exec (.amoOr d a o b m) s = execAmoOr d a o b m s := rfl
theorem exec_amoXor {d a o b m} (s : State) : exec (.amoXor d a o b m) s = execAmoXor d a o b m s := rfl
theorem exec_amoMin {d a o b m} (s : State) : exec (.amoMin d a o b m) s = execAmoMin d a o b m s := rfl
theorem exec_amoMax {d a o b m} (s : State) : exec (.amoMax d a o b m) s = execAmoMax d a o b m s := rfl
theorem exec_amoMinn {d a o b m} (s : State) : exec (.amoMinn d a o b m) s = execAmoMinn d a o b m s := rfl
theorem exec_amoMaxn {d a o b m} (s : State) : exec (.amoMaxn d a o b m) s = execAmoMaxn d a o b m s := rfl
theorem exec_amoSwap {d a o b m} (s : State) : exec (.amoSwap d a o b m) s = execAmoSwap d a o b m s := rfl
theorem exec_cas {d a o b c m} (s : State) : exec (.cas d a o b c m) s = execCas d a o b c m s := rfl
theorem exec_ldfe {d a o} (s : State) : exec (.ldfe d a o) s = execLdfe d a o s := rfl
theorem exec_ldfeE {d a o} (s : State) : exec (.ldfeE d a o) s = execLdfeE d a o s := rfl
theorem exec_stfe {a o b} (s : State) : exec (.stfe a o b) s = execStfe a o b s := rfl
theorem exec_stfeW {a o b} (s : State) : exec (.stfeW a o b) s = execStfeW a o b s := rfl
theorem exec_feSet {a o} (s : State) : exec (.feSet a o) s = execFeSet a o s := rfl
theorem exec_feClr {a o} (s : State) : exec (.feClr a o) s = execFeClr a o s := rfl
theorem exec_feTst {pd a o} (s : State) : exec (.feTst pd a o) s = execFeTst pd a o s := rfl
theorem exec_waitSatisfied {c} (s : State) : exec (.waitSatisfied c) s = execWaitSatisfied c s := rfl
theorem exec_send {a b c} (s : State) : exec (.send a b c) s = execSend a b c s := rfl
theorem exec_inb {d q} (s : State) : exec (.inb d q) s = execInb d q s := rfl
theorem exec_sendl {d a b c e f} (s : State) : exec (.sendl d a b c e f) s = execSendl d a b c e f s := rfl
theorem exec_get {a b c d e} (s : State) : exec (.get a b c d e) s = execGet a b c d e s := rfl
theorem exec_put {a b c d e} (s : State) : exec (.put a b c d e) s = execPut a b c d e s := rfl
theorem exec_getx {a b c d e f size} (s : State) : exec (.getx a b c d e f size) s = execGetx a b c d e f size s := rfl
theorem exec_putx {a b c d e f size} (s : State) : exec (.putx a b c d e f size) s = execPutx a b c d e f size s := rfl
theorem exec_ccSet {a b scope} (s : State) : exec (.ccSet a b scope) s = execCcSet a b scope s := rfl
theorem exec_ccRd {d a w} (s : State) : exec (.ccRd d a w) s = execCcRd d a w s := rfl
theorem exec_ccWait {d a b nt} (s : State) : exec (.ccWait d a b nt) s = execCcWait d a b nt s := rfl
theorem exec_cbCfg {a b c d eng} (s : State) : exec (.cbCfg a b c d eng) s = execCbCfg a b c d eng s := rfl
theorem exec_cbAcq {d a t} (s : State) : exec (.cbAcq d a t) s = execCbAcq d a t s := rfl
theorem exec_cbPub {a} (s : State) : exec (.cbPub a) s = execCbPub a s := rfl
theorem exec_cbTake {d a t} (s : State) : exec (.cbTake d a t) s = execCbTake d a t s := rfl
theorem exec_cbRel {a} (s : State) : exec (.cbRel a) s = execCbRel a s := rfl
theorem exec_cpy {a b c d cb} (s : State) : exec (.cpy a b c d cb) s = execCpy a b c d cb s := rfl
theorem exec_cpyz {a b c d e dir} (s : State) : exec (.cpyz a b c d e dir) s = execCpyz a b c d e dir s := rfl
theorem exec_vaddInt {d a b m} (s : State) : exec (.vaddInt d a b m) s = execVaddInt d a b m s := rfl
theorem exec_vsubInt {d a b m} (s : State) : exec (.vsubInt d a b m) s = execVsubInt d a b m s := rfl
theorem exec_vmulInt {d a b m} (s : State) : exec (.vmulInt d a b m) s = execVmulInt d a b m s := rfl
theorem exec_vmulh {d a b m} (s : State) : exec (.vmulh d a b m) s = execVmulh d a b m s := rfl
theorem exec_vminInt {d a b m} (s : State) : exec (.vminInt d a b m) s = execVminInt d a b m s := rfl
theorem exec_vmaxInt {d a b m} (s : State) : exec (.vmaxInt d a b m) s = execVmaxInt d a b m s := rfl
theorem exec_vabsInt {d a m} (s : State) : exec (.vabsInt d a m) s = execVabsInt d a m s := rfl
theorem exec_vnegInt {d a m} (s : State) : exec (.vnegInt d a m) s = execVnegInt d a m s := rfl
theorem exec_vaddFloat {d a b m} (s : State) : exec (.vaddFloat d a b m) s = execVaddFloat d a b m s := rfl
theorem exec_vsubFloat {d a b m} (s : State) : exec (.vsubFloat d a b m) s = execVsubFloat d a b m s := rfl
theorem exec_vmulFloat {d a b m} (s : State) : exec (.vmulFloat d a b m) s = execVmulFloat d a b m s := rfl
theorem exec_vfma {d a b m} (s : State) : exec (.vfma d a b m) s = execVfma d a b m s := rfl
theorem exec_vfms {d a b m} (s : State) : exec (.vfms d a b m) s = execVfms d a b m s := rfl
theorem exec_vminFloat {d a b m} (s : State) : exec (.vminFloat d a b m) s = execVminFloat d a b m s := rfl
theorem exec_vmaxFloat {d a b m} (s : State) : exec (.vmaxFloat d a b m) s = execVmaxFloat d a b m s := rfl
theorem exec_vabsFloat {d a m} (s : State) : exec (.vabsFloat d a m) s = execVabsFloat d a m s := rfl
theorem exec_vnegFloat {d a m} (s : State) : exec (.vnegFloat d a m) s = execVnegFloat d a m s := rfl
theorem exec_vdiv {d a b m} (s : State) : exec (.vdiv d a b m) s = execVdiv d a b m s := rfl
theorem exec_vrem {d a b m} (s : State) : exec (.vrem d a b m) s = execVrem d a b m s := rfl
theorem exec_vand {d a b n} (s : State) : exec (.vand d a b n) s = execVand d a b n s := rfl
theorem exec_vor {d a b n} (s : State) : exec (.vor d a b n) s = execVor d a b n s := rfl
theorem exec_vxor {d a b n} (s : State) : exec (.vxor d a b n) s = execVxor d a b n s := rfl
theorem exec_vandn {d a b n} (s : State) : exec (.vandn d a b n) s = execVandn d a b n s := rfl
theorem exec_vnot {d a n} (s : State) : exec (.vnot d a n) s = execVnot d a n s := rfl
theorem exec_vshl {d a b m} (s : State) : exec (.vshl d a b m) s = execVshl d a b m s := rfl
theorem exec_vshr {d a b m} (s : State) : exec (.vshr d a b m) s = execVshr d a b m s := rfl
theorem exec_vsra {d a b m} (s : State) : exec (.vsra d a b m) s = execVsra d a b m s := rfl
theorem exec_vclz {d a m} (s : State) : exec (.vclz d a m) s = execVclz d a m s := rfl
theorem exec_vpopc {d a m} (s : State) : exec (.vpopc d a m) s = execVpopc d a m s := rfl
theorem exec_vcmpInt {a b cond m} (s : State) : exec (.vcmpInt a b cond m) s = execVcmpInt a b cond m s := rfl
theorem exec_vcmpFloat {a b cond m} (s : State) : exec (.vcmpFloat a b cond m) s = execVcmpFloat a b cond m s := rfl
theorem exec_vsel {d a b n} (s : State) : exec (.vsel d a b n) s = execVsel d a b n s := rfl
theorem exec_vperm {d a b n} (s : State) : exec (.vperm d a b n) s = execVperm d a b n s := rfl
theorem exec_vext {d a b k} (s : State) : exec (.vext d a b k) s = execVext d a b k s := rfl
theorem exec_vmov {d a n} (s : State) : exec (.vmov d a n) s = execVmov d a n s := rfl
theorem exec_vbcast {d a size} (s : State) : exec (.vbcast d a size) s = execVbcast d a size s := rfl
theorem exec_vins {d a b size} (s : State) : exec (.vins d a b size) s = execVins d a b size s := rfl
theorem exec_vget {d a b size sx} (s : State) : exec (.vget d a b size sx) s = execVget d a b size sx s := rfl
theorem exec_vrsumInt {d a m} (s : State) : exec (.vrsumInt d a m) s = execVrsumInt d a m s := rfl
theorem exec_vrmaxInt {d a m} (s : State) : exec (.vrmaxInt d a m) s = execVrmaxInt d a m s := rfl
theorem exec_vrminInt {d a m} (s : State) : exec (.vrminInt d a m) s = execVrminInt d a m s := rfl
theorem exec_vdot4 {d a b m} (s : State) : exec (.vdot4 d a b m) s = execVdot4 d a b m s := rfl
theorem exec_vrsumFloat {d a m} (s : State) : exec (.vrsumFloat d a m) s = execVrsumFloat d a m s := rfl
theorem exec_vrmaxFloat {d a m} (s : State) : exec (.vrmaxFloat d a m) s = execVrmaxFloat d a m s := rfl
theorem exec_vrminFloat {d a m} (s : State) : exec (.vrminFloat d a m) s = execVrminFloat d a m s := rfl
theorem exec_vcvt {d a src m} (s : State) : exec (.vcvt d a src m) s = execVcvt d a src m s := rfl
theorem exec_vpack {d a k dst satm} (s : State) : exec (.vpack d a k dst satm) s = execVpack d a k dst satm s := rfl
theorem exec_vunpk {d a k src tgt} (s : State) : exec (.vunpk d a k src tgt) s = execVunpk d a k src tgt s := rfl
theorem exec_vo4p {d a b rnd} (s : State) : exec (.vo4p d a b rnd) s = execVo4p d a b rnd s := rfl
theorem exec_vthr {d a b m} (s : State) : exec (.vthr d a b m) s = execVthr d a b m s := rfl
theorem exec_vexp2 {d a m} (s : State) : exec (.vexp2 d a m) s = execVexp2 d a m s := rfl
theorem exec_vlog2 {d a m} (s : State) : exec (.vlog2 d a m) s = execVlog2 d a m s := rfl
theorem exec_vrcp {d a m} (s : State) : exec (.vrcp d a m) s = execVrcp d a m s := rfl
theorem exec_vrsqrt {d a m} (s : State) : exec (.vrsqrt d a m) s = execVrsqrt d a m s := rfl
theorem exec_vsqrt {d a m} (s : State) : exec (.vsqrt d a m) s = execVsqrt d a m s := rfl
theorem exec_vtanh {d a m} (s : State) : exec (.vtanh d a m) s = execVtanh d a m s := rfl
theorem exec_sfuService {p} (s : State) : exec (.sfuService p) s = execSfuService p s := rfl
theorem exec_sfuResult {p} (s : State) : exec (.sfuResult p) s = execSfuResult p s := rfl
theorem exec_dividerService {p} (s : State) : exec (.dividerService p) s = execDividerService p s := rfl
theorem exec_dividerResult {p} (s : State) : exec (.dividerResult p) s = execDividerResult p s := rfl
theorem exec_mcfg {a} (s : State) : exec (.mcfg a) s = execMcfg a s := rfl
theorem exec_mlds {a b c d cmp} (s : State) : exec (.mlds a b c d cmp) s = execMlds a b c d cmp s := rfl
theorem exec_mswap (s : State) : exec .mswap s = execMswap s := rfl
theorem exec_mstrm {a b c d e} (s : State) : exec (.mstrm a b c d e) s = execMstrm a b c d e s := rfl
theorem exec_mdrain {a b c d e f} (s : State) : exec (.mdrain a b c d e f) s = execMdrain a b c d e f s := rfl
theorem exec_mzero (s : State) : exec .mzero s = execMzero s := rfl
theorem exec_mwait (s : State) : exec .mwait s = execMwait s := rfl
theorem exec_mstat {d a} (s : State) : exec (.mstat d a) s = execMstat d a s := rfl
theorem exec_mmask {a b c} (s : State) : exec (.mmask a b c) s = execMmask a b c s := rfl
theorem exec_arrayArbitration {k} (s : State) : exec (.arrayArbitration k) s = execArrayArbitration k s := rfl
theorem exec_mldsService {k} (s : State) : exec (.mldsService k) s = execMldsService k s := rfl
theorem exec_mswapService {k} (s : State) : exec (.mswapService k) s = execMswapService k s := rfl
theorem exec_mstrmService {k} (s : State) : exec (.mstrmService k) s = execMstrmService k s := rfl
theorem exec_mdrainService {k} (s : State) : exec (.mdrainService k) s = execMdrainService k s := rfl
theorem exec_mzeroService {k} (s : State) : exec (.mzeroService k) s = execMzeroService k s := rfl
theorem exec_mmaskService {k} (s : State) : exec (.mmaskService k) s = execMmaskService k s := rfl
theorem exec_auRestore {k} (s : State) : exec (.auRestore k) s = execAuRestore k s := rfl
theorem exec_dload {a b c} (s : State) : exec (.dload a b c) s = execDload a b c s := rfl
theorem exec_dsel {k} (s : State) : exec (.dsel k) s = execDsel k s := rfl
theorem exec_pcfg {a b c} (s : State) : exec (.pcfg a b c) s = execPcfg a b c s := rfl
theorem exec_penc {a b z} (s : State) : exec (.penc a b z) s = execPenc a b z s := rfl
theorem exec_pdec {a b} (s : State) : exec (.pdec a b) s = execPdec a b s := rfl
theorem exec_aimg {d v a b} (s : State) : exec (.aimg d v a b) s = execAimg d v a b s := rfl
theorem exec_dloadService {k} (s : State) : exec (.dloadService k) s = execDloadService k s := rfl
theorem exec_pencService {k} (s : State) : exec (.pencService k) s = execPencService k s := rfl
theorem exec_pdecService {k} (s : State) : exec (.pdecService k) s = execPdecService k s := rfl
theorem exec_aimgService {k} (s : State) : exec (.aimgService k) s = execAimgService k s := rfl
theorem exec_kvcommit {a b c d e} (s : State) : exec (.kvcommit a b c d e) s = execKvcommit a b c d e s := rfl
theorem exec_kvcommitService {p n} (s : State) : exec (.kvcommitService p n) s = execKvcommitService p n s := rfl
theorem exec_wdenter {d a b w} (s : State) : exec (.wdenter d a b w) s = execWdenter d a b w s := rfl
theorem exec_wdstat {d} (s : State) : exec (.wdstat d) s = execWdstat d s := rfl
theorem exec_wdeBlockFetch {c} (s : State) : exec (.wdeBlockFetch c) s = execWdeBlockFetch c s := rfl
theorem exec_wdeNoOp {c} (s : State) : exec (.wdeNoOp c) s = execWdeNoOp c s := rfl
theorem exec_loadStationary {c} (s : State) : exec (.loadStationary c) s = execLoadStationary c s := rfl
theorem exec_wdeSwap {c} (s : State) : exec (.wdeSwap c) s = execWdeSwap c s := rfl
theorem exec_wdeStream {c} (s : State) : exec (.wdeStream c) s = execWdeStream c s := rfl
theorem exec_wdeDrain {c} (s : State) : exec (.wdeDrain c) s = execWdeDrain c s := rfl
theorem exec_accumulateAtoms {c} (s : State) : exec (.accumulateAtoms c) s = execAccumulateAtoms c s := rfl
theorem exec_branchOnFlag {c} (s : State) : exec (.branchOnFlag c) s = execBranchOnFlag c s := rfl
theorem exec_callTensor {c} (s : State) : exec (.callTensor c) s = execCallTensor c s := rfl
theorem exec_wdeReturn {c} (s : State) : exec (.wdeReturn c) s = execWdeReturn c s := rfl
theorem exec_tail {c} (s : State) : exec (.tail c) s = execTail c s := rfl
theorem exec_exit {c} (s : State) : exec (.exit c) s = execExit c s := rfl
theorem exec_lineFetch {c} (s : State) : exec (.lineFetch c) s = execLineFetch c s := rfl
theorem exec_gangForward {c} (s : State) : exec (.gangForward c) s = execGangForward c s := rfl
theorem exec_takeTrap {c} (s : State) : exec (.takeTrap c) s = execTakeTrap c s := rfl
theorem exec_watchdog {c} (s : State) : exec (.watchdog c) s = execWatchdog c s := rfl
theorem exec_gjtoExpiry {g} (s : State) : exec (.gjtoExpiry g) s = execGjtoExpiry g s := rfl
theorem exec_messageDelivery {n} (s : State) : exec (.messageDelivery n) s = execMessageDelivery n s := rfl
theorem exec_handlerStart {p} (s : State) : exec (.handlerStart p) s = execHandlerStart p s := rfl
theorem exec_lockedEntryTimeout {p} (s : State) : exec (.lockedEntryTimeout p) s = execLockedEntryTimeout p s := rfl
theorem exec_releasedOpEnqueue {c} (s : State) : exec (.releasedOpEnqueue c) s = execReleasedOpEnqueue c s := rfl
theorem exec_engineCommandStart {p} (s : State) : exec (.engineCommandStart p) s = execEngineCommandStart p s := rfl
theorem exec_engineDataPiece {p n} (s : State) : exec (.engineDataPiece p n) s = execEngineDataPiece p n s := rfl
theorem exec_engineElementWrite {p n} (s : State) : exec (.engineElementWrite p n) s = execEngineElementWrite p n s := rfl
theorem exec_sendlEntry {p n} (s : State) : exec (.sendlEntry p n) s = execSendlEntry p n s := rfl
theorem exec_cpyCbSlotTake {p n} (s : State) : exec (.cpyCbSlotTake p n) s = execCpyCbSlotTake p n s := rfl
theorem exec_cpyzBlock {p n} (s : State) : exec (.cpyzBlock p n) s = execCpyzBlock p n s := rfl
theorem exec_counterIncrement {p n} (s : State) : exec (.counterIncrement p n) s = execCounterIncrement p n s := rfl
theorem exec_counterError {p n} (s : State) : exec (.counterError p n) s = execCounterError p n s := rfl
theorem exec_launchEnqueue {q} (s : State) : exec (.launchEnqueue q) s = execLaunchEnqueue q s := rfl
theorem exec_dispatch {q} (s : State) : exec (.dispatch q) s = execDispatch q s := rfl
theorem exec_checkedRunCompare {q n} (s : State) : exec (.checkedRunCompare q n) s = execCheckedRunCompare q n s := rfl
theorem exec_killctx {q} (s : State) : exec (.killctx q) s = execKillctx q s := rfl
theorem exec_killgrp {q} (s : State) : exec (.killgrp q) s = execKillgrp q s := rfl
theorem exec_drainq {q} (s : State) : exec (.drainq q) s = execDrainq q s := rfl
theorem exec_reside {q} (s : State) : exec (.reside q) s = execReside q s := rfl
theorem exec_release {q} (s : State) : exec (.release q) s = execRelease q s := rfl
theorem exec_inboxRepresent {p} (s : State) : exec (.inboxRepresent p) s = execInboxRepresent p s := rfl
theorem exec_inboxDiscard {p} (s : State) : exec (.inboxDiscard p) s = execInboxDiscard p s := rfl
theorem exec_decodeTableLoad {q} (s : State) : exec (.decodeTableLoad q) s = execDecodeTableLoad q s := rfl
theorem exec_delayTableClear {p} (s : State) : exec (.delayTableClear p) s = execDelayTableClear p s := rfl
theorem exec_unfence {q k} (s : State) : exec (.unfence q k) s = execUnfence q k s := rfl
theorem exec_reset {q k} (s : State) : exec (.reset q k) s = execReset q k s := rfl
theorem exec_uncorrectableConsumption {c va pa} (s : State) : exec (.uncorrectableConsumption c va pa) s = execUncorrectableConsumption c va pa s := rfl
theorem exec_bankDrop {g v} (s : State) : exec (.bankDrop g v) s = execBankDrop g v s := rfl
theorem exec_tugUnitMove {g} (s : State) : exec (.tugUnitMove g) s = execTugUnitMove g s := rfl
theorem exec_tableWalk {k q va} (s : State) : exec (.tableWalk k q va) s = execTableWalk k q va s := rfl
theorem exec_correctedErrorWindow {k count} (s : State) : exec (.correctedErrorWindow k count) s = execCorrectedErrorWindow k count s := rfl
theorem exec_traceSample {p} (s : State) : exec (.traceSample p) s = execTraceSample p s := rfl
theorem exec_dumpWrite {d} (s : State) : exec (.dumpWrite d) s = execDumpWrite d s := rfl
theorem exec_hostDoorbell {g vf q v} (s : State) : exec (.hostDoorbell g vf q v) s = execHostDoorbell g vf q v s := rfl
theorem exec_hostMemoryAccess {g vf a} (s : State) : exec (.hostMemoryAccess g vf a) s = execHostMemoryAccess g vf a s := rfl
theorem exec_functionLevelReset {g vf} (s : State) : exec (.functionLevelReset g vf) s = execFunctionLevelReset g vf s := rfl
theorem exec_powerOn {g b} (s : State) : exec (.powerOn g b) s = execPowerOn g b s := rfl
theorem exec_powerLoss {g step} (s : State) : exec (.powerLoss g step) s = execPowerLoss g step s := rfl
theorem exec_linkPortDown {g n} (s : State) : exec (.linkPortDown g n) s = execLinkPortDown g n s := rfl
theorem exec_fabricDelivery {p n} (s : State) : exec (.fabricDelivery p n) s = execFabricDelivery p n s := rfl
theorem exec_functionEnable {g vf} (s : State) : exec (.functionEnable g vf) s = execFunctionEnable g vf s := rfl
theorem exec_voltageControllerRequest {k mv} (s : State) : exec (.voltageControllerRequest k mv) s = execVoltageControllerRequest k mv s := rfl
theorem exec_clusterUnfreeze {k} (s : State) : exec (.clusterUnfreeze k) s = execClusterUnfreeze k s := rfl
theorem exec_clockSlowing {k n} (s : State) : exec (.clockSlowing k n) s = execClockSlowing k n s := rfl
theorem exec_flitRetransmission {g n} (s : State) : exec (.flitRetransmission g n) s = execFlitRetransmission g n s := rfl
theorem exec_portDegraded {g n} (s : State) : exec (.portDegraded g n) s = execPortDegraded g n s := rfl

end Sys2Proof.Machine
end

