-- ==== Sys2Proof/Laws/Service.lean ====
section
/-! SUPPORT. The reads that an array command's service makes in its owner's own local memory, and writes that meet an earlier write
of the same command. -/

namespace Sys2Proof.Machine

/-- A read of own local memory for a service, in banks that the agent holds and without an uncorrectable error, gives its bytes. -/
theorem State.svcRead_local (s : State) (g : Agent) (ptr : Word) {n : Nat} (keyed : Bool) (hn : 0 < n) (h : vaOf ptr + n ≤ 0x30000)
    (hb : ∀ x ∈ runFrom (vaOf ptr) n, g.holdsBank x = true) (hp : s.poison = []) :
    s.svcRead g ptr n keyed = .ok (s, s.bytesOf ((runFrom (vaOf ptr) n).map (localAt g.core))) := by
  have hc : ∀ vas l, s.poisonedTrap ptr vas l = none := by
    intro vas l
    simp only [State.poisonedTrap, Option.map_eq_none_iff, List.find?_eq_none, State.poisoned, hp]
    intro x _
    simp
  simp only [State.svcRead, Nat.ne_of_gt hn, if_false, State.resolve_local s g .serviceRead ptr keyed false hn h hb, hc]

/-- A tile in own local memory is read (R272). -/
theorem State.readTile_local (s : State) (g : Agent) (t : BitVec 256) (src : Word) (stride : Nat) (hp : s.poison = [])
    (hn : 0 < rowBytes ((kindOf (tFmtw t)).getD .o4) (tRows t)) (m : Nat)
    (h : ∀ i < m, let va := vaOf (withVa src (vaOf src + i * stride));
      va + rowBytes ((kindOf (tFmtw t)).getD .o4) (tRows t) ≤ 0x30000 ∧
        ∀ x ∈ runFrom va (rowBytes ((kindOf (tFmtw t)).getD .o4) (tRows t)), g.holdsBank x = true) :
    ∃ cols otr, s.readTile g t src stride none m = .ok (s, cols, otr) := by
  induction m with
  | zero => exact ⟨[], false, rfl⟩
  | succ m ih =>
    obtain ⟨cols, otr, e⟩ := ih fun i hi => h i (by omega)
    obtain ⟨h1, h2⟩ := h m (by omega)
    have hl : (List.range (tRows t)).length = tRows t := List.length_range
    have hr := State.svcRead_local s g (withVa src (vaOf src + m * stride)) (n := rowBytes ((kindOf (tFmtw t)).getD .o4) (tRows t)) true hn h1 h2 hp
    simp only [State.readTile, e, hl, hr]
    exact ⟨_, _, rfl⟩

/-! ## Writes that meet an earlier write of the same command (R236, R275) -/

/-- The other values that may stand where a piece lands: those that an earlier entry of its putx wrote there, and, of a list's
entry, those that its source holds now (R236, R303). -/
def State.rivals (s : State) (e : EngCmd) (x : Piece) : List (List Byte) :=
  (e.wrote x).toList ++ (x.src.map fun a => bytesAt (s.readRun a.1 a.2) 0 8).toList

theorem State.landing_apart {s : State} {e : EngCmd} {x : Piece} (h : e.wrote x = none) (hs : x.src = none) :
    s.landing e x = (s, x.bytes) := by
  simp [State.landing, h, hs]

/-- A piece leaves its own bytes, or those of a rival. -/
theorem State.landing_bytes (s : State) (e : EngCmd) (x : Piece) :
    (s.landing e x).2 = x.bytes ∨ (s.landing e x).2 ∈ s.rivals e x := by
  unfold State.landing State.rivals
  dsimp only
  split
  · rename_i l hl
    cases s.freeWord.getLsbD 0 with
    | false => exact .inl (by simp)
    | true =>
      refine .inr ?_
      simp only [if_true]
      cases hw : e.wrote x with
      | some y => rw [hw] at hl; simp at hl; simp [hl]
      | none =>
        rw [hw] at hl
        have hl := (Option.filter_eq_some_iff.1 hl)
        simp [hl.1]
  · exact .inl rfl

/-- Rows that share no byte are written one after another. -/
theorem State.putRows_apart {s : State} {p : Place} {l : List (Nat × List Byte)} (h : rowsMeet l = false) :
    s.putRows p l = l.foldl (fun u e => u.putWords p e.1 e.2) s := by
  simp [State.putRows, h]

/-- A slice has as many bytes as were asked for. -/
theorem sliceFrom_length (n a : Nat) (m : Memory) : (sliceFrom n a m).length = n := by
  induction n generalizing a m with
  | zero => rfl
  | succ n ih => unfold sliceFrom; split <;> (try split) <;> simp [ih]

end Sys2Proof.Machine
end

