-- ==== Sys2Proof/Tests/Slice0.lean ====
section
/-! SUPPORT. Tests: terms that WellFormed refuses, words written out from the encoding tables, single steps with the results that the
spec's own examples and rules give, and for each statement of Certificates/Slice0 states and operands that meet its hypotheses. -/

namespace Sys2Proof.Tests

open Sys2Proof Sys2Proof.Machine

/-! ## Terms that no head encodes -/

/-- R11, R12, R161, R162: a second long literal, and one in forms U and W. -/
theorem test_wf_long_literals :
    (Instr.add 1 (.lit 0x40) (.lit 0x41)).wf = false ∧ (Instr.add 1 (.lit 31) (.lit 32)).wf = true ∧
    (Instr.add 1 (.lit (-31)) (.lit (-32))).wf = true ∧ (Instr.lp (.lit 100) 100).wf = false ∧
    (Instr.csrw 100 (.lit 100)).wf = false ∧ (Instr.st 1 (.lit 32) (.lit 32) 0).wf = false ∧
    (Instr.cmp 1 0 (.lit 99) (.lit 99)).wf = false ∧ (Instr.ccRd 1 (.lit 99) 99).wf = false ∧
    (Instr.vins 1 (.lit 99) (.lit 99) 0).wf = false ∧ (Instr.pcfg (.lit 99) (.lit 99) (.reg 1)).wf = false ∧
    (Instr.mmask (.reg 1) (.lit 99) (.lit 99)).wf = false ∧ (Instr.stbit (.lit 99) (.lit 99) { b := 0, inc := false, sx := false }).wf = false ∧
    (Instr.jmpr (.reg 1) (.lit 32)).wf = false ∧ (Instr.trap (.lit 32)).wf = false ∧ (Instr.qdone (.lit 32) (.reg 1)).wf = false ∧
    (Instr.tlbinv (.reg 1) (.lit 32)).wf = false ∧ (Instr.msave (.lit 32) (.reg 1)).wf = false ∧ (Instr.mrest (.lit 32) (.reg 1)).wf = false ∧
    (Instr.mstat 1 (.lit 32)).wf = false ∧ (Instr.jtab (.lit 32) (.reg 1) (.reg 2) (.reg 3)).wf = false ∧
    (Instr.get (.reg 1) (.reg 2) (.reg 3) (.lit 32) (.lit 1)).wf = false ∧
    (Instr.put (.reg 1) (.reg 2) (.reg 3) (.lit 32) (.lit 1)).wf = false ∧
    (Instr.getx (.reg 1) (.reg 2) (.reg 3) (.reg 4) (.lit 32) (.lit 1) 0).wf = false ∧
    (Instr.putx (.reg 1) (.reg 2) (.reg 3) (.reg 4) (.reg 5) (.lit 32) 0).wf = false ∧
    (Instr.sendl 1 (.reg 2) (.lit 32) (.reg 4) (.reg 5) (.reg 6)).wf = false ∧
    (Instr.cbCfg (.reg 1) (.reg 2) (.lit 32) (.reg 4) false).wf = false ∧ (Instr.cpy (.reg 1) (.reg 2) (.lit 32) (.reg 4) false).wf = false ∧
    (Instr.mlds (.reg 1) (.reg 2) (.lit 32) (.reg 4) true).wf = false ∧
    (Instr.mstrm (.reg 1) (.reg 2) (.reg 3) (.reg 4) (.lit 32)).wf = false ∧
    (Instr.mdrain (.reg 1) (.reg 2) (.reg 3) (.reg 4) (.reg 5) (.lit 32)).wf = false ∧
    (Instr.dload (.lit 32) (.reg 1) (.reg 2)).wf = false ∧ (Instr.aimg 1 2 (.reg 3) (.lit 32)).wf = false ∧
    (Instr.kvcommit (.reg 1) (.reg 2) (.lit 32) (.reg 4) (.reg 5)).wf = false ∧ (Instr.dsel 32).wf = false ∧
    (Instr.wdenter 1 (.lit 32) (.reg 2) 0).wf = false ∧ (Instr.wdenter 1 (.reg 3) (.reg 2) 32).wf = false ∧
    (Instr.amoAdd 1 2 (.lit 32) (.reg 3) { size := 3, ord := 0, scope := 0 }).wf = false ∧
    (Instr.cas 1 2 (.lit 0) (.reg 3) (.lit 32) { size := 3, ord := 0, scope := 0 }).wf = false := by
  decide

/-- R161-R164, R191, R218, R222-R241, R250-R263: a modifier value that the instruction does not define, and an operand in a slot it
does not use. -/
theorem test_wf_modifiers :
    (Instr.cmp 1 12 (.reg 1) (.reg 2)).wf = false ∧ (Instr.ld 1 2 (.lit 0) 3 true).wf = false ∧ (Instr.ld 1 2 (.lit 0) 2 true).wf = true ∧
    (Instr.vget 1 2 (.lit 0) 3 true).wf = false ∧ (Instr.stbit (.reg 1) (.reg 2) { b := 0, inc := false, sx := true }).wf = false ∧
    (Instr.fence 3 0).wf = false ∧ (Instr.fence 0 6).wf = false ∧ (Instr.ccSet (.reg 1) (.reg 2) 6).wf = false ∧
    (Instr.ldacq 1 2 (.lit 0) { size := 0, ord := 1, scope := 0 }).wf = false ∧
    (Instr.strel 2 (.lit 0) (.reg 1) { size := 0, ord := 0, scope := 6 }).wf = false ∧
    (Instr.amoSwap 1 2 (.lit 0) (.reg 3) { size := 1, ord := 0, scope := 0 }).wf = false ∧
    (Instr.cas 1 2 (.lit 0) (.reg 3) (.reg 4) { size := 3, ord := 0, scope := 7 }).wf = false ∧
    (Instr.ldf 1 2 (.lit 0) { tidx := 11, rnd := 0, ovf := false }).wf = false ∧
    (Instr.ldf 1 2 (.lit 0) { tidx := 2, rnd := 0, ovf := true }).wf = false ∧
    (Instr.stf 2 (.lit 0) 1 { tidx := 2, rnd := 5, ovf := true }).wf = false ∧
    (Instr.stf 2 (.lit 0) 1 { tidx := 2, rnd := 4, ovf := true }).wf = true ∧
    (Instr.vaddInt 1 2 3 { pred := 0, wid := 2, uns := true, satm := false }).wf = false ∧
    (Instr.vminInt 1 2 3 { pred := 0, wid := 1, uns := true, satm := true }).wf = false ∧
    (Instr.vabsInt 1 2 { pred := 0, wid := 0, uns := true, satm := false }).wf = false ∧
    (Instr.vshl 1 2 3 { pred := 0, wid := 0, uns := false, satm := true }).wf = false ∧
    (Instr.vdot4 1 2 3 { pred := 0, wid := 2, uns := false, satm := true }).wf = false ∧
    (Instr.vaddFloat 1 2 3 { pred := 0, fty := 3, rnd := 0 }).wf = false ∧ (Instr.vfma 1 2 3 { pred := 0, fty := 0, rnd := 5 }).wf = false ∧
    (Instr.vminFloat 1 2 3 { pred := 0, fty := 0, rnd := 1 }).wf = false ∧ (Instr.vexp2 1 2 { pred := 0, fty := 1, rnd := 0 }).wf = false ∧
    (Instr.vcvt 1 2 0 { tidx := 0, rnd := 0, ovf := true }).wf = false ∧ (Instr.vpack 1 2 0 3 false).wf = false ∧
    (Instr.vunpk 1 2 0 3 false).wf = false ∧ (Instr.vunpk 1 2 0 6 true).wf = false ∧ (Instr.vo4p 1 2 3 5).wf = false ∧
    (Instr.cpyz (.reg 1) (.reg 2) (.reg 3) (.reg 4) (.lit 1) false).wf = false ∧
    (Instr.mlds (.reg 1) (.reg 2) (.reg 3) (.lit 1) false).wf = false := by
  decide

/-- Events are no heads. -/
theorem test_wf_events : (Instr.takeTrap 0).wf = false ∧ (Instr.exit 0).wf = false ∧ (Instr.dispatch 0).wf = false := by decide

/-! ## Words -/

/-- R160, R162, R163, R173: words that decode to nothing: a TL that the form does not admit, an unassigned function, MAJ 0x7F, a
register slot with bit 5 set, a value in an unused slot, an undefined modifier bit; a marker without a long literal, two of them, one
in form W; a slot of the wrong kind. -/
theorem test_decode_rejects :
    decodeHead 0x0000 [] = .op ∧ decodeHead 0x0080 [0x4443] = .op ∧ decodeHead 0x010F [0x4443, 0x0045] = .op ∧
    decodeHead 0xFE00 [] = .op ∧ decodeHead 0x0100 [0x6443, 0x0045] = .op ∧ decodeHead 0x0700 [0x4443, 0x0045] = .op ∧
    decodeHead 0x0100 [0x4443, 0x0145] = .op ∧ decodeHead 0x0100 [0x4443, 0x00E0] = .operand ∧
    decodeHead 0x0180 [0xE043, 0x00E0, 0x0001, 0x0000] = .operand ∧ decodeHead 0x0180 [0x4443, 0x0045, 0x0001, 0x0000] = .operand ∧
    decodeHead 0x7380 [0x4241, 0x0043, 0xC4E0, 0x0000] = .operand ∧ decodeHead 0x0100 [0x0443, 0x0045] = .operand := by
  decide
/-- R185-R187: words written out from the tables. -/
theorem test_decode_scalar_arithmetic :
    decodeHead 0x0100 [0x4443, 0x0089] = .ok (.add 3 (.reg 4) (.cst 9)) ∧
    decodeHead 0x0101 [0x4443, 0x00FB] = .ok (.sub 3 (.reg 4) (.lit (-5))) ∧
    decodeHead 0x0102 [0x4443, 0x0089] = .ok (.mul 3 (.reg 4) (.cst 9)) ∧
    decodeHead 0x0103 [0x4443, 0x00FB] = .ok (.mulh 3 (.reg 4) (.lit (-5))) ∧
    decodeHead 0x0104 [0x4443, 0x0089] = .ok (.mulhn 3 (.reg 4) (.cst 9)) ∧
    decodeHead 0x0105 [0x4443, 0x00FB] = .ok (.min 3 (.reg 4) (.lit (-5))) ∧
    decodeHead 0x0106 [0x4443, 0x0089] = .ok (.max 3 (.reg 4) (.cst 9)) ∧
    decodeHead 0x0107 [0x4443, 0x00FB] = .ok (.minn 3 (.reg 4) (.lit (-5))) ∧
    decodeHead 0x0108 [0x4443, 0x0089] = .ok (.maxn 3 (.reg 4) (.cst 9)) ∧
    decodeHead 0x0300 [0xBF43, 0x005F] = .ok (.div 3 (.cst 63) (.reg 31)) ∧
    decodeHead 0x0301 [0xBF43, 0x005F] = .ok (.divn 3 (.cst 63) (.reg 31)) ∧
    decodeHead 0x0302 [0xBF43, 0x005F] = .ok (.rem 3 (.cst 63) (.reg 31)) ∧
    decodeHead 0x0303 [0xBF43, 0x005F] = .ok (.remn 3 (.cst 63) (.reg 31)) ∧
    decodeHead 0x0500 [0xC741, 0x0042] = .ok (.and 1 (.lit 7) (.reg 2)) ∧
    decodeHead 0x0511 [0xC741, 0x0042] = .ok (.or 1 (.lit 7) (.reg 2)) ∧
    decodeHead 0x0522 [0xC741, 0x0042] = .ok (.xor 1 (.lit 7) (.reg 2)) ∧
    decodeHead 0x0533 [0xC741, 0x0042] = .ok (.andn 1 (.lit 7) (.reg 2)) ∧
    decodeHead 0x0544 [0xC741, 0x0042] = .ok (.shl 1 (.lit 7) (.reg 2)) ∧
    decodeHead 0x0555 [0xC741, 0x0042] = .ok (.shr 1 (.lit 7) (.reg 2)) ∧
    decodeHead 0x0566 [0xC741, 0x0042] = .ok (.sra 1 (.lit 7) (.reg 2)) ∧
    decodeHead 0x0577 [0xC741, 0x0042] = .ok (.rotl 1 (.lit 7) (.reg 2)) := by
  decide

/-- R188-R194: words written out from the tables. -/
theorem test_decode_scalar_fields_and_moves :
    decodeHead 0x0700 [0x4645, 0x0000] = .ok (.clz 5 (.reg 6)) ∧
    decodeHead 0x0701 [0x4645, 0x0000] = .ok (.ctz 5 (.reg 6)) ∧
    decodeHead 0x0702 [0x4645, 0x0000] = .ok (.popc 5 (.reg 6)) ∧
    decodeHead 0x0703 [0x4645, 0x00C8] = .ok (.sext 5 (.reg 6) (.lit 8)) ∧
    decodeHead 0x0704 [0x4645, 0x00FF] = .ok (.zext 5 (.reg 6) (.lit (-1))) ∧
    decodeHead 0x0705 [0x4546, 0x03C0] = .ok (.bfx 6 (.reg 5) (.lit 0) 3) ∧
    decodeHead 0x0706 [0x4546, 0x3F47] = .ok (.bfi 6 (.reg 5) (.reg 7) 63) ∧
    decodeHead 0x0980 [0xE047, 0x0000, 0x0001, 0x8000] = .ok (.li 7 0x80000001) ∧
    decodeHead 0x0901 [0xC547, 0x0000] = .ok (.lih 7 5) ∧
    decodeHead 0x0902 [0x8047, 0x0000] = .ok (.mov 7 (.cst 0)) ∧
    decodeHead 0x0903 [0x4147, 0x0542] = .ok (.sel 7 5 (.reg 1) (.reg 2)) ∧
    decodeHead 0x0B00 [0xC047, 0x5900] = .ok (.cmp 1 11 (.reg 7) (.lit 0)) ∧
    decodeHead 0x0B01 [0x0000, 0x3200] = .ok (.plAnd 2 6) ∧
    decodeHead 0x0B02 [0x0000, 0x3200] = .ok (.plOr 2 6) ∧
    decodeHead 0x0B03 [0x0000, 0x3200] = .ok (.plNot 2 6) ∧
    decodeHead 0x0D00 [0x4948, 0x004A] = .ok (.ptradd 8 (.reg 9) (.reg 10)) ∧
    decodeHead 0x0D01 [0x4948, 0x004A] = .ok (.ptrfmt 8 (.reg 9) (.reg 10)) ∧
    decodeHead 0x0D02 [0x4948, 0x004A] = .ok (.ptrtag 8 (.reg 9) (.reg 10)) ∧
    decodeHead 0x0D03 [0x4948, 0x004A] = .ok (.ptrfld 8 (.reg 9) (.reg 10)) ∧
    decodeHead 0x0E80 [0x004B] = .ok (.gtc 11) ∧
    decodeHead 0x0E81 [0x004C] = .ok (.ctxid 12) := by
  decide

/-- R195-R207: words written out from the tables. -/
theorem test_decode_control :
    decodeHead 0x2180 [0x00E0, 0x0300, 0x1000, 0x0000] = .ok (.br 3 0x1000) ∧
    decodeHead 0x2101 [0x00E1, 0x0000] = .ok (.bra (-31)) ∧
    decodeHead 0x2102 [0x0085, 0x0000] = .ok (.jmp (.cst 5)) ∧
    decodeHead 0x2083 [0xC241] = .ok (.jmpr (.reg 1) (.lit 2)) ∧
    decodeHead 0x2104 [0x00DF, 0x0000] = .ok (.call 31) ∧
    decodeHead 0x2085 [0x005E] = .ok (.callr (.reg 30)) ∧
    decodeHead 0x2006 [] = .ok (.ret) ∧
    decodeHead 0x2187 [0x4241, 0x00C3, 0x0084, 0x0000] = .ok (.jtab (.reg 1) (.reg 2) (.lit 3) (.cst 4)) ∧
    decodeHead 0x2108 [0xC349, 0x0000] = .ok (.lp (.reg 9) 3) ∧
    decodeHead 0x2200 [] = .ok (.halt) ∧
    decodeHead 0x2281 [0x0049] = .ok (.haltR (.reg 9)) ∧
    decodeHead 0x2282 [0x00C9] = .ok (.trap (.lit 9)) ∧
    decodeHead 0x2203 [] = .ok (.nop) ∧
    decodeHead 0x2384 [0x00E0, 0x0000, 0xFFFF, 0x0000] = .ok (.sigchk 0xFFFF) ∧
    decodeHead 0x2205 [] = .ok (.msgdone) ∧
    decodeHead 0x2500 [0x4241, 0x0000] = .ok (.gform (.reg 1) (.reg 2)) ∧
    decodeHead 0x2401 [] = .ok (.gleave) ∧
    decodeHead 0x2502 [0x00C6, 0x0000] = .ok (.gjoin 6) ∧
    decodeHead 0x2403 [] = .ok (.gbar) ∧
    decodeHead 0x2404 [] = .ok (.sbar) := by
  decide

/-- R208-R215: words written out from the tables. -/
theorem test_decode_system :
    decodeHead 0x2700 [0x4443, 0x00CF] = .ok (.launch 3 (.reg 4) (.lit 15)) ∧
    decodeHead 0x2681 [0xCF44] = .ok (.qdone (.reg 4) (.lit 15)) ∧
    decodeHead 0x2980 [0xE043, 0x0000, 0x0115, 0x0000] = .ok (.csrr 3 0x115) ∧
    decodeHead 0x2901 [0x43C1, 0x0000] = .ok (.csrw 1 (.reg 3)) ∧
    decodeHead 0x2902 [0x43C1, 0x0000] = .ok (.csrset 1 (.reg 3)) ∧
    decodeHead 0x2903 [0x43C1, 0x0000] = .ok (.csrclr 1 (.reg 3)) ∧
    decodeHead 0x2804 [] = .ok (.ifence) ∧
    decodeHead 0x3000 [] = .ok (.eret) ∧
    decodeHead 0x3081 [0xC141] = .ok (.tlbinv (.reg 1) (.lit 1)) ∧
    decodeHead 0x3082 [0x43C2] = .ok (.msave (.lit 2) (.reg 3)) ∧
    decodeHead 0x3083 [0x84C3] = .ok (.mrest (.lit 3) (.cst 4)) ∧
    decodeHead 0x3104 [0x4645, 0x0000] = .ok (.htset (.reg 5) (.reg 6)) := by
  decide

/-- R221-R225: words written out from the tables. -/
theorem test_decode_memory :
    decodeHead 0x4100 [0x4443, 0x06C8] = .ok (.ld 3 4 (.lit 8) 2 true) ∧
    decodeHead 0x4101 [0x8844, 0x0343] = .ok (.st 4 (.cst 8) (.reg 3) 3) ∧
    decodeHead 0x4300 [0x441F, 0x07C0] = .ok (.ldv 31 4 (.lit 0) 7) ∧
    decodeHead 0x4381 [0xE044, 0x001E, 0x0100, 0x0000] = .ok (.stv 4 (.lit 0x100) 30 0) ∧
    decodeHead 0x4500 [0x4443, 0x0E00] = .ok (.ldbit 3 (.reg 4) { b := 2, inc := true, sx := true }) ∧
    decodeHead 0x4501 [0xC544, 0x0500] = .ok (.stbit (.reg 4) (.lit 5) { b := 1, inc := true, sx := false }) ∧
    decodeHead 0x4502 [0x0044, 0x0300] = .ok (.bset 3 (.reg 4)) ∧
    decodeHead 0x4700 [0x4605, 0xCAC1] = .ok (.ldf 5 6 (.lit 1) { tidx := 10, rnd := 4, ovf := true }) ∧
    decodeHead 0x4701 [0xC146, 0x2105] = .ok (.stf 6 (.lit 1) 5 { tidx := 1, rnd := 2, ovf := false }) ∧
    decodeHead 0x4900 [0xFF46, 0x0000] = .ok (.pf 6 (.lit (-1))) ∧
    decodeHead 0x4B00 [0xFF46, 0x0042] = .ok (.tagset 6 (.lit (-1)) (.reg 2)) := by
  decide

/-- R226-R229: words written out from the tables. -/
theorem test_decode_synchronising :
    decodeHead 0x6080 [0x5200] = .ok (.fence 2 5) ∧
    decodeHead 0x6101 [0x4241, 0x43C3] = .ok (.ldacq 1 2 (.lit 3) { size := 3, ord := 0, scope := 4 }) ∧
    decodeHead 0x6102 [0xC342, 0x1141] = .ok (.strel 2 (.lit 3) (.reg 1) { size := 1, ord := 0, scope := 1 }) ∧
    decodeHead 0x6380 [0x4241, 0x5EC3, 0x0044, 0x0000] = .ok (.amoAdd 1 2 (.lit 3) (.reg 4) { size := 2, ord := 3, scope := 5 }) ∧
    decodeHead 0x6381 [0x4241, 0x5EC3, 0x0044, 0x0000] = .ok (.amoAnd 1 2 (.lit 3) (.reg 4) { size := 2, ord := 3, scope := 5 }) ∧
    decodeHead 0x6382 [0x4241, 0x5EC3, 0x0044, 0x0000] = .ok (.amoOr 1 2 (.lit 3) (.reg 4) { size := 2, ord := 3, scope := 5 }) ∧
    decodeHead 0x6383 [0x4241, 0x5EC3, 0x0044, 0x0000] = .ok (.amoXor 1 2 (.lit 3) (.reg 4) { size := 2, ord := 3, scope := 5 }) ∧
    decodeHead 0x6384 [0x4241, 0x5EC3, 0x0044, 0x0000] = .ok (.amoMin 1 2 (.lit 3) (.reg 4) { size := 2, ord := 3, scope := 5 }) ∧
    decodeHead 0x6385 [0x4241, 0x5EC3, 0x0044, 0x0000] = .ok (.amoMax 1 2 (.lit 3) (.reg 4) { size := 2, ord := 3, scope := 5 }) ∧
    decodeHead 0x6386 [0x4241, 0x5EC3, 0x0044, 0x0000] = .ok (.amoMinn 1 2 (.lit 3) (.reg 4) { size := 2, ord := 3, scope := 5 }) ∧
    decodeHead 0x6387 [0x4241, 0x5EC3, 0x0044, 0x0000] = .ok (.amoMaxn 1 2 (.lit 3) (.reg 4) { size := 2, ord := 3, scope := 5 }) ∧
    decodeHead 0x6388 [0x4241, 0x5EC3, 0x0044, 0x0000] = .ok (.amoSwap 1 2 (.lit 3) (.reg 4) { size := 2, ord := 3, scope := 5 }) ∧
    decodeHead 0x6580 [0x4241, 0x07C3, 0x8544, 0x0000] = .ok (.cas 1 2 (.lit 3) (.reg 4) (.cst 5) { size := 3, ord := 1, scope := 0 }) ∧
    decodeHead 0x6700 [0x4241, 0x00C3] = .ok (.ldfe 1 2 (.lit 3)) ∧
    decodeHead 0x6701 [0x4241, 0x00C3] = .ok (.ldfeE 1 2 (.lit 3)) ∧
    decodeHead 0x6702 [0xC342, 0x0041] = .ok (.stfe 2 (.lit 3) (.reg 1)) ∧
    decodeHead 0x6703 [0xC342, 0x0041] = .ok (.stfeW 2 (.lit 3) (.reg 1)) ∧
    decodeHead 0x6704 [0xC342, 0x0000] = .ok (.feSet 2 (.lit 3)) ∧
    decodeHead 0x6705 [0xC342, 0x0000] = .ok (.feClr 2 (.lit 3)) ∧
    decodeHead 0x6706 [0xC342, 0x0400] = .ok (.feTst 4 2 (.lit 3)) := by
  decide

/-- R232-R245: words written out from the tables. -/
theorem test_decode_messages_and_engines :
    decodeHead 0x7100 [0x5655, 0x0001] = .ok (.send (.reg 21) (.reg 22) 1) ∧
    decodeHead 0x7101 [0xC101, 0x0000] = .ok (.inb 1 1) ∧
    decodeHead 0x7182 [0x4241, 0x00C3, 0xC544, 0x00C6] = .ok (.sendl 1 (.reg 2) (.lit 3) (.reg 4) (.lit 5) (.lit 6)) ∧
    decodeHead 0x7380 [0x4241, 0x0043, 0xC4D0, 0x0000] = .ok (.get (.reg 1) (.reg 2) (.reg 3) (.lit 16) (.lit 4)) ∧
    decodeHead 0x7381 [0x5554, 0x0056, 0xC3D0, 0x0000] = .ok (.put (.reg 20) (.reg 21) (.reg 22) (.lit 16) (.lit 3)) ∧
    decodeHead 0x7382 [0x4241, 0x0343, 0xC544, 0x00C6] = .ok (.getx (.reg 1) (.reg 2) (.reg 3) (.reg 4) (.lit 5) (.lit 6) 3) ∧
    decodeHead 0x7383 [0x4241, 0x0043, 0xC544, 0x00C6] = .ok (.putx (.reg 1) (.reg 2) (.reg 3) (.reg 4) (.lit 5) (.lit 6) 0) ∧
    decodeHead 0x7500 [0x42C1, 0x5000] = .ok (.ccSet (.lit 1) (.reg 2) 5) ∧
    decodeHead 0x7501 [0xC241, 0x00C1] = .ok (.ccRd 1 (.lit 2) 1) ∧
    decodeHead 0x7502 [0xC241, 0x0143] = .ok (.ccWait 1 (.lit 2) (.reg 3) true) ∧
    decodeHead 0x7780 [0x42C1, 0x0143, 0x0044, 0x0000] = .ok (.cbCfg (.lit 1) (.reg 2) (.reg 3) (.reg 4) true) ∧
    decodeHead 0x7701 [0xC241, 0x0100] = .ok (.cbAcq 1 (.lit 2) true) ∧
    decodeHead 0x7702 [0x00C2, 0x0000] = .ok (.cbPub (.lit 2)) ∧
    decodeHead 0x7703 [0xC241, 0x0000] = .ok (.cbTake 1 (.lit 2) false) ∧
    decodeHead 0x7704 [0x00C2, 0x0000] = .ok (.cbRel (.lit 2)) ∧
    decodeHead 0x7980 [0x42C1, 0x0143, 0x00C4, 0x0000] = .ok (.cpy (.lit 1) (.reg 2) (.reg 3) (.lit 4) true) ∧
    decodeHead 0x7981 [0x4241, 0x0143, 0xC5C4, 0x0000] = .ok (.cpyz (.reg 1) (.reg 2) (.reg 3) (.lit 4) (.lit 5) true) ∧
    decodeHead 0x7981 [0x4241, 0x0043, 0x00C4, 0x0000] = .ok (.cpyz (.reg 1) (.reg 2) (.reg 3) (.lit 4) (.lit 0) false) := by
  decide

/-- R250-R253: words written out from the tables. -/
theorem test_decode_vector_arithmetic :
    decodeHead 0x8100 [0x0604, 0x6908] = .ok (.vaddInt 4 6 8 { pred := 1, wid := 1, uns := true, satm := true }) ∧
    decodeHead 0x8101 [0x0604, 0x4208] = .ok (.vsubInt 4 6 8 { pred := 2, wid := 0, uns := false, satm := true }) ∧
    decodeHead 0x8102 [0x0604, 0x1B08] = .ok (.vmulInt 4 6 8 { pred := 3, wid := 3, uns := false, satm := false }) ∧
    decodeHead 0x8103 [0x0604, 0x1408] = .ok (.vmulh 4 6 8 { pred := 4, wid := 2, uns := false, satm := false }) ∧
    decodeHead 0x8104 [0x0604, 0x2508] = .ok (.vminInt 4 6 8 { pred := 5, wid := 0, uns := true, satm := false }) ∧
    decodeHead 0x8105 [0x0604, 0x0E08] = .ok (.vmaxInt 4 6 8 { pred := 6, wid := 1, uns := false, satm := false }) ∧
    decodeHead 0x8106 [0x0604, 0x5700] = .ok (.vabsInt 4 6 { pred := 7, wid := 2, uns := false, satm := true }) ∧
    decodeHead 0x8107 [0x0604, 0x1800] = .ok (.vnegInt 4 6 { pred := 0, wid := 3, uns := false, satm := false }) ∧
    decodeHead 0x8300 [0x0604, 0x0008] = .ok (.vaddFloat 4 6 8 { pred := 0, fty := 0, rnd := 0 }) ∧
    decodeHead 0x8301 [0x0604, 0x2908] = .ok (.vsubFloat 4 6 8 { pred := 1, fty := 1, rnd := 1 }) ∧
    decodeHead 0x8302 [0x0604, 0x5208] = .ok (.vmulFloat 4 6 8 { pred := 2, fty := 2, rnd := 2 }) ∧
    decodeHead 0x8303 [0x0604, 0x6308] = .ok (.vfma 4 6 8 { pred := 3, fty := 0, rnd := 3 }) ∧
    decodeHead 0x8304 [0x0604, 0x8C08] = .ok (.vfms 4 6 8 { pred := 4, fty := 1, rnd := 4 }) ∧
    decodeHead 0x8305 [0x0604, 0x0108] = .ok (.vminFloat 4 6 8 { pred := 1, fty := 0, rnd := 0 }) ∧
    decodeHead 0x8306 [0x0604, 0x0908] = .ok (.vmaxFloat 4 6 8 { pred := 1, fty := 1, rnd := 0 }) ∧
    decodeHead 0x8307 [0x0604, 0x1100] = .ok (.vabsFloat 4 6 { pred := 1, fty := 2, rnd := 0 }) ∧
    decodeHead 0x8308 [0x0604, 0x1100] = .ok (.vnegFloat 4 6 { pred := 1, fty := 2, rnd := 0 }) ∧
    decodeHead 0x8500 [0x0604, 0x1908] = .ok (.vdiv 4 6 8 { pred := 1, wid := 3, uns := false, satm := false }) ∧
    decodeHead 0x8501 [0x0604, 0x2108] = .ok (.vrem 4 6 8 { pred := 1, wid := 0, uns := true, satm := false }) ∧
    decodeHead 0x8700 [0x0604, 0x0508] = .ok (.vand 4 6 8 5) ∧
    decodeHead 0x8701 [0x0604, 0x0508] = .ok (.vor 4 6 8 5) ∧
    decodeHead 0x8702 [0x0604, 0x0508] = .ok (.vxor 4 6 8 5) ∧
    decodeHead 0x8703 [0x0604, 0x0508] = .ok (.vandn 4 6 8 5) ∧
    decodeHead 0x8704 [0x0604, 0x0500] = .ok (.vnot 4 6 5) ∧
    decodeHead 0x8705 [0x0604, 0x0108] = .ok (.vshl 4 6 8 { pred := 1, wid := 0, uns := false, satm := false }) ∧
    decodeHead 0x8706 [0x0604, 0x0908] = .ok (.vshr 4 6 8 { pred := 1, wid := 1, uns := false, satm := false }) ∧
    decodeHead 0x8707 [0x0604, 0x1108] = .ok (.vsra 4 6 8 { pred := 1, wid := 2, uns := false, satm := false }) := by
  decide

/-- R254-R263: words written out from the tables. -/
theorem test_decode_vector_moves_and_conversions :
    decodeHead 0x8900 [0x0806, 0x2AC5] = .ok (.vcmpInt 6 8 5 { pred := 2, wid := 1, uns := true, satm := false }) ∧
    decodeHead 0x8901 [0x0806, 0x12C7] = .ok (.vcmpFloat 6 8 7 { pred := 2, fty := 2, rnd := 0 }) ∧
    decodeHead 0x8902 [0x0604, 0x0508] = .ok (.vsel 4 6 8 5) ∧
    decodeHead 0x8D00 [0x0604, 0x0508] = .ok (.vperm 4 6 8 5) ∧
    decodeHead 0x8D01 [0x4D08, 0x0100] = .ok (.vbcast 8 (.reg 13) 1) ∧
    decodeHead 0x8D02 [0x0604, 0x0F08] = .ok (.vext 4 6 8 15) ∧
    decodeHead 0x8D03 [0x4D04, 0x02C3] = .ok (.vins 4 (.reg 13) (.lit 3) 2) ∧
    decodeHead 0x8D04 [0x0604, 0x0500] = .ok (.vmov 4 6 5) ∧
    decodeHead 0x8D05 [0x0144, 0x06C0] = .ok (.vget 4 1 (.lit 0) 2 true) ∧
    decodeHead 0x8F00 [0x0643, 0x5100] = .ok (.vrsumInt 3 6 { pred := 1, wid := 2, uns := false, satm := true }) ∧
    decodeHead 0x8F01 [0x0643, 0x2A00] = .ok (.vrmaxInt 3 6 { pred := 2, wid := 1, uns := true, satm := false }) ∧
    decodeHead 0x8F02 [0x0643, 0x1B00] = .ok (.vrminInt 3 6 { pred := 3, wid := 3, uns := false, satm := false }) ∧
    decodeHead 0x8F03 [0x0604, 0x6908] = .ok (.vdot4 4 6 8 { pred := 1, wid := 1, uns := true, satm := true }) ∧
    decodeHead 0x9100 [0x0643, 0x8100] = .ok (.vrsumFloat 3 6 { pred := 1, fty := 0, rnd := 4 }) ∧
    decodeHead 0x9101 [0x0643, 0x0A00] = .ok (.vrmaxFloat 3 6 { pred := 2, fty := 1, rnd := 0 }) ∧
    decodeHead 0x9102 [0x0643, 0x1300] = .ok (.vrminFloat 3 6 { pred := 3, fty := 2, rnd := 0 }) ∧
    decodeHead 0x9300 [0x0908, 0x93C1] = .ok (.vcvt 8 9 1 { tidx := 3, rnd := 1, ovf := true }) ∧
    decodeHead 0x9301 [0x0908, 0x45C3] = .ok (.vpack 8 9 3 5 true) ∧
    decodeHead 0x9302 [0x0908, 0x0BC3] = .ok (.vunpk 8 9 3 3 true) ∧
    decodeHead 0x9303 [0x0908, 0x800A] = .ok (.vo4p 8 9 10 4) ∧
    decodeHead 0x9500 [0x0604, 0x0000] = .ok (.vexp2 4 6 { pred := 0, fty := 0, rnd := 0 }) ∧
    decodeHead 0x9501 [0x0604, 0x3100] = .ok (.vlog2 4 6 { pred := 1, fty := 2, rnd := 1 }) ∧
    decodeHead 0x9502 [0x0604, 0x4200] = .ok (.vrcp 4 6 { pred := 2, fty := 0, rnd := 2 }) ∧
    decodeHead 0x9503 [0x0604, 0x7300] = .ok (.vrsqrt 4 6 { pred := 3, fty := 2, rnd := 3 }) ∧
    decodeHead 0x9504 [0x0604, 0x8400] = .ok (.vsqrt 4 6 { pred := 4, fty := 0, rnd := 4 }) ∧
    decodeHead 0x9505 [0x0604, 0x1500] = .ok (.vtanh 4 6 { pred := 5, fty := 2, rnd := 0 }) ∧
    decodeHead 0x9700 [0x0908, 0x0A83] = .ok (.vthr 8 9 (.cst 3) { pred := 2, fty := 1, rnd := 0 }) ∧
    decodeHead 0x9701 [0x0604, 0x1900] = .ok (.vclz 4 6 { pred := 1, wid := 3, uns := false, satm := false }) ∧
    decodeHead 0x9702 [0x0604, 0x0200] = .ok (.vpopc 4 6 { pred := 2, wid := 0, uns := false, satm := false }) := by
  decide

/-- R268-R287: words written out from the tables. -/
theorem test_decode_matrix_coding_wde :
    decodeHead 0xC080 [0x0043] = .ok (.mcfg (.reg 3)) ∧
    decodeHead 0xC181 [0xC241, 0x0043, 0x0000, 0x0000] = .ok (.mlds (.reg 1) (.lit 2) (.reg 3) (.lit 0) false) ∧
    decodeHead 0xC181 [0xC241, 0x0143, 0x0044, 0x0000] = .ok (.mlds (.reg 1) (.lit 2) (.reg 3) (.reg 4) true) ∧
    decodeHead 0xC002 [] = .ok (.mswap) ∧
    decodeHead 0xC183 [0xC048, 0x00C0, 0x49C1, 0x0000] = .ok (.mstrm (.reg 8) (.lit 0) (.lit 0) (.lit 1) (.reg 9)) ∧
    decodeHead 0xC184 [0xC14A, 0x00C0, 0x4BC1, 0x00C0] = .ok (.mdrain (.reg 10) (.lit 1) (.lit 0) (.lit 1) (.reg 11) (.lit 0)) ∧
    decodeHead 0xC005 [] = .ok (.mzero) ∧
    decodeHead 0xC006 [] = .ok (.mwait) ∧
    decodeHead 0xC087 [0x4049] = .ok (.mstat 9 (.reg 0)) ∧
    decodeHead 0xC108 [0xC44C, 0x00C0] = .ok (.mmask (.reg 12) (.lit 4) (.lit 0)) ∧
    decodeHead 0xE180 [0x82C1, 0x0043, 0x0000, 0x0000] = .ok (.dload (.lit 1) (.cst 2) (.reg 3)) ∧
    decodeHead 0xE081 [0x00C3] = .ok (.dsel 3) ∧
    decodeHead 0xE102 [0x4241, 0x00C8] = .ok (.pcfg (.reg 1) (.reg 2) (.lit 8)) ∧
    decodeHead 0xE103 [0x4544, 0x0000] = .ok (.penc (.reg 4) (.reg 5) .none) ∧
    decodeHead 0xE103 [0x4544, 0x00C1] = .ok (.penc (.reg 4) (.reg 5) (.lit 1)) ∧
    decodeHead 0xE104 [0x8544, 0x0000] = .ok (.pdec (.reg 4) (.cst 5)) ∧
    decodeHead 0xE185 [0x0241, 0x0043, 0x00C4, 0x0000] = .ok (.aimg 1 2 (.reg 3) (.lit 4)) ∧
    decodeHead 0xE380 [0x4241, 0x00C3, 0xC544, 0x0000] = .ok (.kvcommit (.reg 1) (.reg 2) (.lit 3) (.reg 4) (.lit 5)) ∧
    decodeHead 0xE580 [0x4645, 0x0047, 0x00C0, 0x0000] = .ok (.wdenter 5 (.reg 6) (.reg 7) 0) ∧
    decodeHead 0xE481 [0x0049] = .ok (.wdstat 9) := by
  decide


/-! ## States -/

/-- A task of core 0: context 0 runs at task level with every bank, counter and buffer. -/
def lab : State := State.reset.modCtx 0 fun x =>
  { x with run := .running, csr := { x.csr with lbanks := 0xFFF, ccown := BitVec.allOnes 64, cbown := 0xFFFF } }
/-- The same with a change of its context, or of its core. -/
def labCtx (f : Context → Context) : State := lab.modCtx 0 f
def labCore (f : Core → Core) : State := lab.modCore 0 f
/-- Its supervisor. -/
def sup : State := labCtx fun x => { x with level := .sup }

/-- `State.Ready` as a test. -/
def readyB (s : State) (n : Need) : Bool :=
  !s.splitPending s.cur.ctx && !s.here.interlocked n && !s.here.slotBad n s.cur.ptr && !s.here.stallShort n (s.nowCtx s.cur.ctx) && (s.constFault n).isNone &&
    s.here.caughtUp (s.nowCtx s.cur.ctx)

theorem ready_of {s : State} {n : Need} (h : readyB s n = true) : s.Ready n := by
  simp only [readyB, Bool.and_eq_true, Bool.not_eq_true', Option.isNone_iff_eq_none] at h
  exact ⟨h.1.1.1.1.1, h.1.1.1.1.2, h.1.1.1.2, h.1.1.2, h.1.2, h.2⟩

theorem ready_iff {s : State} {n : Need} : s.Ready n ↔ readyB s n = true :=
  ⟨fun h => by simp [readyB, h.whole, h.unlocked, h.slot, h.stall, h.consts, h.settled], ready_of⟩

/-- The places that the checks of an access find. -/
def foundAt (r : Except Trap (State × List Nat)) (l : List Nat) : Bool := match r with | .ok (_, m) => m == l | .error _ => false

theorem found_of {r : Except Trap (State × List Nat)} {l : List Nat} (h : foundAt r l = true) : ∃ s, r = .ok (s, l) := by
  match r with
  | .ok (s, m) => exact ⟨s, by simp [foundAt] at h; rw [h]⟩
  | .error _ => simp [foundAt] at h

/-- The next state, if there is one, has a property. -/
def next (o : Host.Outcome State Fault Refusal) (f : State → Bool) : Bool := match o with | .next t => f t | _ => false
/-- A register of context 0 once the results on their way are written. -/
def sAt (t : State) (d : SReg) : Word := (t.val 0 (.s d)).setWidth 64

/-- Every byte of the context's local memory lies in a bank it holds. -/
theorem holds_all {g : Agent} (h : g.lbanks = 0xFFF) {va n : Nat} (hv : va + n ≤ 0x30000) : ∀ x ∈ runFrom va n, g.holdsBank x = true := by
  intro x hx
  obtain ⟨i, hi, rfl⟩ := List.mem_map.1 hx
  have hi := List.mem_range.1 hi
  have hk : (va + i) / 16384 < 12 := by omega
  have hb : ∀ k < 12, (0xFFF : BitVec 12).getLsbD k = true := by decide
  simp only [Agent.holdsBank, h]
  exact Bool.or_eq_true_iff.2 (.inr (hb _ hk))

/-- A computation that comes to a value of which a test holds. -/
def okWith {ε α : Type} : Except ε α → (α → Bool) → Bool := fun r f => match r with | .ok a => f a | .error _ => false
theorem okWith_of {ε α : Type} {r : Except ε α} {f : α → Bool} (h : okWith r f = true) : ∃ a, r = .ok a ∧ f a = true := by
  match r with
  | .ok a => exact ⟨a, rfl, h⟩
  | .error _ => simp [okWith] at h

/-- A computation that comes to a value. -/
def okB {ε α : Type} : Except ε α → Bool := fun r => match r with | .ok _ => true | .error _ => false
theorem ok_of {ε α : Type} {r : Except ε α} (h : okB r = true) : ∃ a, r = .ok a := by
  match r with
  | .ok a => exact ⟨a, rfl⟩
  | .error _ => simp [okB] at h
/-- The same where it fails. -/
def errB {ε α : Type} : Except ε α → Bool := fun r => match r with | .ok _ => false | .error _ => true
theorem err_of {ε α : Type} {r : Except ε α} (h : errB r = true) : ∃ e, r = .error e := by
  match r with
  | .ok _ => simp [errB] at h
  | .error e => exact ⟨e, rfl⟩
theorem fst_of {α β : Type} {r : α × Option β} (h : r.2 = none) : ∃ a, r = (a, none) := ⟨r.1, Prod.ext rfl h⟩

/-! ## Scalar heads, the divider and the special-function unit -/

theorem witness_ScalarArithmeticAndLogicResults :
    lab.Ready (needX [.reg 4, .cst 63] [] [.s 3]) ∧ lab.Ready (needX [.lit 5, .reg 31] [] [.s 0]) :=
  ⟨ready_of (by decide), ready_of (by decide)⟩

theorem witness_BitCountAndFieldResults :
    lab.Ready (needX [.reg 4] [] [.s 3]) ∧ lab.Ready (needX [.reg 4, .reg 5] [] [.s 3]) ∧
    lab.Ready (needX [.reg 4, .lit 63] [.s 0] [.s 0]) :=
  ⟨ready_of (by decide), ready_of (by decide), ready_of (by decide)⟩

theorem witness_MoveSelectAndCompareResults :
    lab.Ready (needX [] [] [.s 3]) ∧ lab.Ready (needX [] [.s 3] [.s 3]) ∧ lab.Ready (needX [.reg 4, .reg 5] [.p 1] [.s 3]) ∧
    lab.Ready (needX [.reg 4, .reg 5] [] [.p 0]) ∧ (11 : BitVec 4).toNat ≤ 11 ∧ lab.Ready (needX [] [.p 1, .p 2] [.p 1]) ∧
    lab.Ready (needX [] [.p 0] [.p 7]) := by
  simp only [ready_iff]
  decide

theorem witness_FatPointerResults : lab.Ready (needX [.reg 4, .reg 5] [] [.s 3]) := ready_of (by decide)

/-- A request of context 0. -/
def request (i : Instr) : UnitReq := { ctx := 0, instr := i, h := 0, t := 0, a := 7, b := 2, pred := 0xFFFF, old := 0, seq := 0 }
/-- The divider, and the special-function unit, with n requests. -/
def divWith (n : Nat) : State := labCore fun k => { k with div := { queue := List.replicate n (request (.div 3 (.reg 4) (.reg 5))) } }
def sfuWith (n : Nat) : State :=
  labCore fun k => { k with sfu := { queue := List.replicate n (request (.vexp2 3 4 { pred := 0, fty := 2, rnd := 0 })) } }

theorem witness_UnitHeadsEnterRequests :
    (∀ n ∈ [7, 8], ((divWith n).core 0).div.held = n ∧ ((sfuWith n).core 0).sfu.held = n) ∧
    (divWith 7).Ready (needX [.reg 4, .reg 5] [] [.s 3]) ∧ (divWith 8).Ready (needX [.reg 4, .reg 5] [] [.s 3]) ∧
    (divWith 7).Ready { reads := [.v 4, .v 5] ++ keepRead 1 3, writes := [.v 3] } ∧
    (divWith 8).Ready { reads := [.v 4, .v 5] ++ keepRead 0 3, writes := [.v 3] } ∧
    (sfuWith 7).Ready { reads := .v 4 :: keepRead 0 3, writes := [.v 3] } ∧
    (sfuWith 8).Ready { reads := .v 4 :: keepRead 1 3, writes := [.v 3] } := by
  simp only [ready_iff]
  decide

theorem witness_UnitsServeAndDeliverRequests :
    (let s := { divWith 1 with cycle := 1 }
     let r := request (.div 3 (.reg 4) (.reg 5))
     (s.core 0).div.queue = [r] ∧ (s.core 0).div.service = none ∧ (s.core 0).div.freeAt ≤ s.now 0 ∧ r.since < s.now 0) ∧
    (let s := { sfuWith 1 with cycle := 1 }
     let r := request (.vexp2 3 4 { pred := 0, fty := 2, rnd := 0 })
     (s.core 0).sfu.queue = [r] ∧ (s.core 0).sfu.service = none ∧ (s.core 0).sfu.freeAt ≤ s.now 0 ∧ r.since < s.now 0) ∧
    (let r := request (.div 3 (.reg 4) (.reg 5))
     let s := labCore fun k => { k with div := { service := some (r, 0) } }
     0 ≤ s.now 0 ∧ (∀ q ∈ (s.ctx r.ctx).pend, q.reg ≠ some r.dst) ∧ (s.core 0).div.service = some (r, 0)) ∧
    (let r := request (.vexp2 3 4 { pred := 0, fty := 2, rnd := 0 })
     let s := labCore fun k => { k with sfu := { results := [(r, 0)] } }
     0 ≤ s.now 0 ∧ (∀ q ∈ (s.ctx r.ctx).pend, q.reg ≠ some r.dst) ∧
       (s.core 0).sfu.results.find? (fun e => decide (e.2 ≤ s.now 0)) = some (r, 0)) := by
  decide

/-- The clauses meet at a divisor of zero and at −2^63 ÷ −1. -/
theorem witness_UnitsServeAndDeliverRequests_division :
    (request (.div 3 (.reg 4) (.reg 5))).instr = .div 3 (.reg 4) (.reg 5) ∧ (request (.rem 3 (.reg 4) (.reg 5))).instr = .rem 3 (.reg 4) (.reg 5) ∧
    (request (.divn 3 (.reg 4) (.reg 5))).instr = .divn 3 (.reg 4) (.reg 5) ∧
    (request (.remn 3 (.reg 4) (.reg 5))).instr = .remn 3 (.reg 4) (.reg 5) := by
  decide

/-- R67's corners. -/
theorem test_division_corners :
    ({ request (.div 3 (.reg 4) (.reg 5)) with b := 0 }).result = (0xFFFFFFFFFFFFFFFF, fDZ) ∧
    ({ request (.remn 3 (.reg 4) (.reg 5)) with b := 0 }).result = (7, fDZ) ∧
    ({ request (.div 3 (.reg 4) (.reg 5)) with a := 0x8000000000000000, b := 0xFFFFFFFFFFFFFFFF }).result = (0x8000000000000000, fOF) ∧
    ({ request (.rem 3 (.reg 4) (.reg 5)) with a := 0xFFFFFFFFFFFFFFF9, b := 2 }).result = (0xFFFFFFFFFFFFFFFF, 0) := by
  decide

/-! ## Control -/

/-- A task at head 1 of the worked line of R165 in its local memory. -/
def prog : State :=
  { lab.placeHead 0 (lineBytes ([0x2103, 0x0100, 0x0595, 0x8303] ++ List.replicate 20 0 ++
      [0x1008, 0x0604, 0x0000, 0x0020, 0x00E0, 0x5456, 0x00C8, 0x444C])) with cur := { ctx := 0, ptr := 1, hc := 3 } }

theorem witness_TransfersCallsTablesAndLoops :
    prog.ownStream ∧ prog.Ready (noSlot { reads := [.p 1] }) ∧ prog.Ready (noSlot {}) ∧ prog.Ready (noSlot (needX [scX (.reg 4)] [] [])) ∧
    prog.Ready (noSlot (needX [scX (.reg 4), .reg 5] [] [])) ∧ prog.Ready (noSlot { reads := [.s 31] }) ∧
    prog.ptrLater prog.cur.ctx 3 prog.cur.ptr = some 65 ∧ prog.Ready (noSlot { writes := [.s 31] }) ∧
    prog.Ready (noSlot (needX [scX (.reg 4)] [] [.s 31])) ∧
    prog.Ready (noSlot (needX [.lit 0, scX (.reg 4), .lit 1, scX (.reg 5)] [] [])) :=
  ⟨fun h => absurd h (by decide), by simp only [ready_iff]; decide⟩

/-- `jtab` with its index at the count and one below it; `lp` with a count of 1, and of 0 with a readable end. -/
theorem witness_TransfersCallsTablesAndLoops_clauses :
    (∃ s1, prog.resolve (prog.agent prog.cur.ctx) .load (withVa (prog.sc (.reg 4)) 0) (runFrom 0 8) true true true =
      .ok (s1, runFrom (localAt 0 0) 8)) ∧
    prog.x (.lit 1) ≤ prog.x (.lit 1) ∧ prog.x (.lit 0) < prog.x (.lit 1) ∧ prog.quiet prog.cur.ctx = true ∧
    (prog.sc (.reg 4)).toNat % 8 = 0 ∧ vaOf (prog.sc (.reg 4)) + 8 * (prog.x (.lit 0)).toNat < 2 ^ 52 ∧
    (∀ p ∈ runFrom (localAt 0 0) 8, prog.poisoned p = false) ∧ prog.Ready (needX [.lit 1] [] []) ∧ prog.x (.lit 1) ≠ 0 ∧
    prog.Ready (needX [.lit 0] [] []) ∧ prog.x (.lit 0) = 0 ∧ prog.here.dsn = 0 ∧
    prog.ptrLater prog.cur.ctx 3 (BitVec.ofNat 64 (lineVa prog.cur.ptr) + (1 : Lit).signExtend 64) = some 65 :=
  ⟨found_of (by decide), by simp only [ready_iff]; decide⟩

/-- In sequence, in either delay slot, and at the end of a loop in its last pass and before it. -/
theorem witness_HeadsGoOnInSequence :
    lab.ownStream ∧ lab.Ready {} ∧ (labCtx fun x => { x with dsn := 1 }).Ready {} ∧ (labCtx fun x => { x with dsn := 2 }).Ready {} ∧
    (labCtx fun x => { x with csr := { x.csr with lpcnt := 1 } }).Ready {} ∧
    (labCtx fun x => { x with csr := { x.csr with lpcnt := 1 } }).here.atLoopEnd 0 = true ∧
    (labCtx fun x => { x with csr := { x.csr with lpcnt := 2 } }).Ready {} :=
  ⟨fun h => absurd h (by decide), by simp only [ready_iff]; decide⟩

/-- One register of each kind waits; a source, a destination, a return point, a predicate, an operand of an address. -/
theorem witness_HeadsGoOnInSequence_interlocks :
    let s := labCtx fun x => { x with busy := [.s 3, .s 31, .p 1, .v 5] }
    ∀ n ∈ [needX [.reg 4, .reg 5] [] [.s 3], needX [.reg 3, .reg 5] [] [.s 4], needX [.reg 4, .reg 5] [.p 1] [.s 6],
        needX [] [.p 0, .p 1] [.p 0], noSlot { reads := [.p 1] }, noSlot (needX [.reg 3, scX (.reg 4), .reg 5, scX (.reg 6)] [] []),
        noSlot { reads := [.s 31] }, needX [.reg 3, scX (.reg 4)] [] [], needMem 3 (.lit 0) [] [] [.s 4], needMem 4 (.lit 0) [.reg 3] [] [],
        needMem 4 (.lit 0) [] [.v 5, .p 0] [], { writes := [.v 5] }, { reads := .v 4 :: .v 6 :: keepRead 1 7, writes := [.v 7] },
        { reads := [.v 4, .v 6, .v 5, .p 0], writes := [.v 5] }, needX [scX (.reg 3), scX (.reg 4)] [] []],
      s.here.interlocked n = true := by
  decide

/-- A handler of core 0 with its message. -/
def handler : State :=
  (labCtx fun x => { x with kind := .handler 5, csr := { x.csr with hnd := true } }).modCore 0 fun k =>
    { k with inbox := [{ num := 5, msg := { hdr := 17, p1 := 1, p2 := 2, p3 := 3 }, arrival := 0, runs := some 0 }] }

/-- A group of contexts 0 and 4, on cores 0 and 1. -/
def team : State :=
  let member := fun (x : Context) => { lab.ctx 0 with kind := .launched 0, run := x.run }
  (((lab.modCtx 0 fun _ => member { run := .running }).modCtx 4 fun _ => member { run := .running })).modPart 0 fun q =>
    { q with
      pcl0 := 1
      groups := [(0, { num := 0, wave := 0, index := 0, desc := { cores := 2 }, cluster := 0, holds := [], members := [0, 4] })] }

theorem witness_DelaySlotsRefuseHeads :
    (let s := team.modCtx 0 fun x => { x with dsn := 1 }
     s.here.dsn ≠ 0 ∧ s.here.interlocked (noSlot {}) = false ∧ s.here.interlocked (needX [.reg 4, scX (.reg 5)] [] [.s 3]) = false ∧
       inHandler s = false ∧ 2 ≤ (s.x (.lit 2)).toNat ∧ (s.x (.lit 64)).toNat ≤ 64 ∧ gformOk 2 0 s = true ∧
       s.splitPending s.cur.ctx = false ∧ regionLimit false (s.sc (.reg 4)) 128 = true) ∧
    (let s : State := { labCtx (fun x => { x with dsn := 2, csr := { x.csr with lpcnt := 1, lpend := 3 } }) with cur := { ptr := 3 } }
     s.here.dsn ≠ 0 ∧ s.here.atLoopEnd s.cur.ptr = true ∧ s.here.interlocked {} = false) ∧
    (let s := handler.modCtx 0 fun x => { x with dsn := 1 }
     s.here.dsn ≠ 0 ∧ inHandler s = true) ∧
    (let s := sup.modCtx 0 fun x => { x with dsn := 1, trapRec := some { save := 0, cause := .trap } }
     s.here.dsn ≠ 0 ∧ s.here.level ≠ .task ∧ s.here.trapRec.isSome = true) ∧
    (0 : Int) ≤ (0xFFFF : Lit).toInt ∧ (0xFFFF : Lit).toInt ≤ 0xFFFF ∧ (15 : Lit).toInt ≤ 15 := by
  decide

theorem witness_TasksEndTrapAndCheckSignatures :
    lab.Ready (noSlot {}) ∧ inHandler lab = false ∧ lab.haltReady lab.cur.ctx = true ∧ lab.Ready (noSlot (needX [scX (.reg 4)] [] [])) ∧
    (lab.sc (.reg 4)).toNat % 64 = 0 ∧ ((labCtx fun x => { x with s := x.s.set 4 63 }).sc (.reg 4)).toNat % 64 ≠ 0 ∧
    handler.Ready (noSlot {}) ∧ handler.here.kind = .handler 5 ∧ handler.unitsDone handler.cur.ctx = true ∧ handler.here.sendBuf = [] ∧
    lab.Ready (noSlot (needX [.reg 4] [] [])) ∧
    (let s := labCtx fun x => { x with csr := { x.csr with sig := true } }
     readyB s (noSlot {}) = true ∧ s.here.csr.sig = true ∧ s.here.csr.dsig ≠ (0xFFFF : Lit).setWidth 16 ∧
       s.here.csr.dsig = (0 : Lit).setWidth 16) ∧
    lab.Ready {} ∧ ((lab.fabricOf lab.cur.ctx).any FabReq.writes) = false := by
  simp only [ready_iff]
  decide

/-! ## Gangs, barriers, launches, control registers, privileged heads -/

/-- The first `gform` of the team has arrived, in context 4. -/
def gathering : State := { team with gangs := [{ num := 0, leader := 4, members := [], n := 2, base := 0, arrived := [4], since := some 0 }], seq := 1 }
/-- The team as a gang: context 0 leads, context 4's GANG is as given. -/
def ganged (g : BitVec 2) : State :=
  ({ team with gangs := [{ num := 0, leader := 0, members := [0, 4], n := 2, base := 0, formed := true }] }.modCsr 0 fun r =>
    { r with gang := 1 }).modCsr 4 fun r => { r with gang := g }

theorem witness_GangsFormLeaveAndRejoin :
    team.Ready (noSlot (needX [.lit 2, .lit 0] [] [])) ∧ inHandler team = false ∧ gformOk 2 0 team = true ∧
    team.gformRefused team.cur.ctx (team.x (.lit 2)).toNat (team.x (.lit 0)).toNat = false ∧
    (team.gformGang team.cur.ctx (team.x (.lit 2)).toNat (team.x (.lit 0)).toNat).arrived.length = 1 ∧
    gathering.Ready (noSlot (needX [.lit 2, .lit 0] [] [])) ∧ gformOk 2 0 gathering = true ∧
    gathering.gformRefused gathering.cur.ctx (gathering.x (.lit 2)).toNat (gathering.x (.lit 0)).toNat = false ∧
    (gathering.gformGang gathering.cur.ctx (gathering.x (.lit 2)).toNat (gathering.x (.lit 0)).toNat).arrived.length = 2 := by
  simp only [ready_iff]
  decide

theorem witness_GangsFormLeaveAndRejoin_members :
    team.Ready (noSlot {}) ∧ team.ownStream ∧ team.here.csr.gang = 0 ∧ (ganged 2).Ready (noSlot {}) ∧ (ganged 2).ownStream ∧
    (ganged 2).here.csr.gang = 1 ∧ ((ganged 2).gangWith 0).isSome = true ∧ (∀ g ∈ (ganged 2).gangs, (ganged 2).joinNeeds g = [0]) ∧
    (∀ g ∈ (ganged 3).gangs, (ganged 3).joinNeeds g = [0, 4]) ∧
    (∀ n ∈ [2, 3], ((ganged 2).modCsr 0 fun r => { r with gang := n }).here.csr.gang = n) ∧
    (∃ p, ({ num := 0, leader := 0, members := [0, 4], n := 2, base := 0, joinPtr := some 5 } : Gang).joinPtr = some p ∧
      samePtr p 3 = false) :=
  ⟨ready_of (by decide), fun h => absurd h (by decide), by decide, ready_of (by decide), fun h => absurd h (by decide), by decide,
    by decide, by decide, by decide, by decide, 5, by decide, by decide⟩

/-- Context 0 waits at a barrier of its group. -/
def parked : State := team.modCtx 0 fun x => { x with wait := some { instr := .gbar, issue := {}, seq := 0 } }

theorem witness_BarriersReleaseAndWaitersRetry :
    team.Ready {} ∧ inHandler team = false ∧ team.quiet team.cur.ctx = true ∧ team.barrierPeers 0 false = [0, 4] ∧
    team.arrivedAt false 4 = false ∧
    (team.modCtx 4 fun x => { x with wait := some { instr := .gbar, issue := {}, seq := 0 } }).arrivedAt false 4 = true ∧
    (team.ctx 0).wait = none ∧ (parked.ctx 0).wait = some { instr := .gbar, issue := {}, seq := 0 } ∧ (parked.ctx 0).run = .running ∧
    parked.beforeHead 0 = none ∧ parked.notReady 0 = false ∧
    Instr.gbar ∈ waitingHeads 1 (.reg 2) (.reg 3) 4 (.lit 0) (.reg 5) 0 false := by
  simp only [ready_iff]
  decide

/-- The team with a completion counter in its descriptor, and as a shadow run. -/
def counted (done : Nat) (role : Role) : State :=
  (team.modCtx 0 fun x => { x with role := role }).modPart 0 fun q =>
    { q with groups := q.groups.map fun e => (e.1, { e.2 with role := role, desc := { e.2.desc with done := done } }) }

theorem witness_LaunchesAndWaveCompletions :
    team.Ready (needX [scX (.reg 4), .lit 15] [] [.s 3]) ∧ (team.x (.lit 15)).toNat ≤ 15 ∧ team.quiet team.cur.ctx = true ∧
    (∃ s1, team.resolve (team.agent team.cur.ctx) .load (team.sc (.reg 4)) (runFrom 0 64) true true true =
      .ok (s1, runFrom (localAt 0 0) 64)) ∧
    (∀ p ∈ runFrom (localAt 0 0) 64, team.poisoned p = false) ∧ team.silent team.cur.ctx = false ∧
    (counted 0xFF .shadow).silent team.cur.ctx = true ∧ (counted 0xFF .shadow).Ready (needX [scX (.reg 4), .lit 15] [] [.s 3]) ∧
    team.Ready (needX [.reg 4, .reg 5] [] []) ∧ inHandler team = false ∧ ((team.groupOf 0).map fun g => g.desc.done) = some 0xFF ∧
    (counted 31 .plain).Ready (needX [.reg 4, .reg 5] [] []) ∧
    (((counted 31 .plain).groupOf 0).map fun g => (g.desc.done, g.role)) = some (31, .plain) ∧
    (∀ role ∈ [Role.shadow, .referee, .primary, .rerun], (((counted 31 role).groupOf 0).map fun g => (g.desc.done, g.role)) = some (31, role) ∧
      (counted 31 role).here.level = .task ∧ (counted 31 role).quiet 0 = true ∧ readyB (counted 31 role) (needX [.reg 4, .reg 5] [] []) = true) :=
  ⟨ready_of (by decide), by decide, by decide, found_of (by decide), fun _ _ => rfl, by decide, by decide, ready_of (by decide),
    ready_of (by decide), by decide, by decide, ready_of (by decide), by decide, by decide⟩

/-- The first and the last wave counter; a buffer of the task's; a package with its number. -/
theorem witness_ControlRegistersAreReadAndWritten :
    lab.Ready (needX [] [] [.s 3]) ∧ lab.here.pend.all (fun p => p.flags == 0) = true ∧ lab.Ready (needX [.reg 4] [] []) ∧
    lab.here.level = .task ∧ lab.here.atLoopEnd lab.cur.ptr = false ∧ lab.here.csr.cbown.getLsbD 15 = true ∧
    ((lab.modPkg 0 fun g => { g with pkgid := some 5 }).pkg (pkgOf (coreOf 0))).pkgid = some 5 ∧
    lab.acqPending lab.cur.ctx = false ∧ lab.syncPending lab.cur.ctx = false ∧ sup.Ready (needX [] [] [.s 3]) ∧
    sup.Ready (needX [.reg 4] [] []) ∧ sup.here.level ≠ .task ∧ (∀ e ∈ (sup.part (sup.partOfCtx sup.cur.ctx)).thresholds, e.2.1 ≠ 255) := by
  simp only [ready_iff]
  decide

/-- The hypervisor on the same context. -/
def hyp : State := labCtx fun x => { x with level := .hyp }
/-- A supervisor of a part with cluster 0 and 64 KiB of protected die store from 16 KiB on. -/
def supGuarded : State := (sup.modPart 0 fun q => { q with pcl0 := 1, saprot := 0x0001000000004000 })

/-- Save areas, frames, protected ranges and dump areas inside SAPROT and outside it; a bank that a group holds. -/
theorem witness_PrivilegedRegistersAreReadAndWritten :
    sup.Ready (needX [] [] [.s 3]) ∧ sup.here.level ≠ .task ∧ hyp.Ready (needX [] [] [.s 3]) ∧ hyp.here.level = .hyp ∧
    supGuarded.Ready (needX [.reg 4] [] []) ∧ supGuarded.here.level ≠ .task ∧
    ((labCore fun k => { k with delays := [(15, { valid := true })] }).core 0).delays.any (fun e => e.2.valid) = true ∧
    (let q := supGuarded.part (supGuarded.partOfCtx 0)
     q.savesAt 0x20004000 16384 = true ∧ q.savesAt 0x20014000 16384 = false ∧ q.savesAt 0 16384 = false ∧
       q.savesAt 0x20004000 (Config.frameBytes * (supGuarded.cluster 0).frameCount) = false ∧ q.protectsRange 0x4000 0x1000 = true ∧
       q.protectsRange 0x14000 0x1000 = false) ∧
    (sup.part 0).savesAt 0x20004000 16384 = false ∧ supGuarded.saprotCovers (supGuarded.partOfCtx 0) 0 = true ∧
    ((supGuarded.modCore 0 fun k => { k with sabase := 0x20004000 }).saprotCovers (supGuarded.partOfCtx 0) 0) = false ∧
    (let held := fun i => ((sup.modCore 0 fun k => { k with banks := (Vector.replicate 12 Bank.off).set 11 (.group 0) }).core 0).banks.getD i .off
     ((List.range 12).any fun i => (0x800 : Word).getLsbD i && held i != .off && held i != .handler) = true ∧
       ((List.range 12).any fun i => (0x400 : Word).getLsbD i && held i != .off && held i != .handler) = false) := by
  simp only [ready_iff]
  decide

/-- Command values at the ends of their ranges; a basin of cluster 0, one of a cluster outside the part, and a fenced one. -/
theorem witness_PrivilegedRegistersAreReadAndWritten_commands :
    (sup.x (.lit 0)).toNat = 0 ∧ (sup.x (.lit 1)).toNat = 1 ∧ (sup.x (.lit 5)).toNat = 5 ∧ 5 < (sup.x (.lit 6)).toNat ∧
    ((sup.modPart 0 fun q => { q with dcmd := some (1, 0, 0, false) }).part (sup.partOfCtx 0)).dcmd.isSome = true ∧
    (sup.x (.lit 0x10)).toNat = 0x10 + (0 : Fin 16).val ∧ (sup.x (.lit 0x2F)).toNat = 0x20 + (15 : Fin 16).val ∧
    (sup.x (.lit 0xF)).toNat < 0x10 ∧ 0x30 ≤ (sup.x (.lit 0x30)).toNat ∧ (sup.x (.lit 3)).toNat % 4 = 3 ∧
    (∀ v ∈ [0, 0x4000], supGuarded.basinOk (supGuarded.partOfCtx 0) 15 v = true) ∧
    supGuarded.basinOk (supGuarded.partOfCtx 0) 15 0x7FFF = false := by
  and_intros <;> decide

/-- A resource of an idle part that no other holds, one that another holds, and a part with a task; scores and thresholds. -/
theorem witness_PrivilegedRegistersAreReadAndWritten_resources :
    (∀ k, pkgOfCluster k = 0 → (hyp.cluster k).susp.toNat < max 1 (1 % 256)) ∧
    hyp.Ready (needX [.reg 4] [] []) ∧ hyp.here.level = .hyp ∧ State.reset.partIdle 0 = true ∧ team.partIdle 0 = false ∧
    hyp.setFree 0 0 (fun q => q.pcl0) 1 = true ∧ (hyp.modPart 1 fun q => { q with pcl0 := 1 }).setFree 0 0 (fun q => q.pcl0) 1 = false ∧
    hyp.pmrOk 0 0 0x0000000100000000 = true ∧ hyp.pmrOk 0 0 0x00000002FFFFFFFF = false ∧
    (hyp.modPart 1 fun q => { q with pmr := [(0, 0x0000000100000000)] }).pmrOk 0 0 0x0000000100000000 = false ∧
    2 % 256 < max 1 (hyp.pkg 0).suspth.toNat := by
  refine ⟨fun k _ => ?_, by simp only [ready_iff]; decide⟩
  have h : (hyp.cluster k).susp = 0 := rfl
  rw [h]; decide

/-- Numbers at the ends of the ranges, one that names no register, and those that no 12-bit number holds. -/
theorem witness_AccessAndPrivilegeAreChecked :
    lab.Ready (needX [] [] [.s 3]) ∧ csrNum 0xFFF = some 0xFFF ∧ csrNamed 0xFFF = false ∧ csrNum 0x1000 = none ∧ csrNum (-1) = none ∧
    (∀ n ∈ [0x100, 0x115, 0x200, 0x2FF], csrNum (BitVec.ofNat 32 n) = some n ∧ csrNamed n = true ∧ n < 0x400) ∧
    (∀ n ∈ [0x116, 0x120, 0x150, 0x1C4], csrNum (BitVec.ofNat 32 n) = some n ∧ csrNamed n = true) ∧
    lab.here.level = .task ∧ sup.here.level = .sup ∧ sup.Ready (needX [] [] [.s 3]) ∧ lab.Ready (needX [.reg 4] [] []) ∧
    sup.Ready (needX [.reg 4] [] []) ∧ sup.here.level ≠ .task ∧ lab.here.interlocked (noSlot {}) = false ∧
    lab.here.interlocked (needX [.reg 4, scX (.reg 5)] [] []) = false ∧ sup.here.trapRec = none ∧
    sup.here.interlocked (noSlot {}) = false := by
  simp only [ready_iff]
  decide

/-- A supervisor that has a trap to return from, with a save area of zeros at 0x1000. -/
def trapped : State := sup.modCtx 0 fun x => { x with trapRec := some { save := 0x1000, cause := .trap } }

theorem witness_EretResumesFromTheSaveArea :
    trapped.Ready (noSlot {}) ∧ trapped.here.level ≠ .task ∧ trapped.here.trapRec = some { save := 0x1000, cause := .trap } ∧
    trapped.here.busy = [] ∧ inHandler trapped = false ∧ trapped.here.run = .running ∧
    (∀ a ∈ runFrom (dieAt (dieOf (coreOf trapped.cur.ctx)) 0x1000) 4096, trapped.poisoned a = false) ∧
    bitsOf (fieldAt (trapped.slice (dieAt (dieOf (coreOf trapped.cur.ctx)) 0x1000) 4096) 0 8) 18 2 = 0 ∧
    trapped.returnRoom trapped.cur.ctx { save := 0x1000, cause := .trap } = true :=
  ⟨ready_of (by decide), by decide, by decide, by decide, by decide, by decide, fun _ _ => rfl, by decide, by decide +kernel⟩

def division : UnitReq :=
  { ctx := 1, instr := .div 3 (.reg 4) (.reg 5), h := 0x0300, t := 0x4443, a := 0, b := 0, pred := 0, old := 0, seq := 0 }
/-- The save area holds one request, a division, and the divider of the core has eight. -/
def crowded : State :=
  (((trapped.modCtx 0 fun x => { x with trapRec := some { save := 0x1000, cause := .trap, reqs := [division] } }).writeRun (dieAt 0 0x1002) [16]).writeRun (dieAt 0 0x1400) (bytesOfNat 2 0x0300 ++ bytesOfNat 2 0x4443)).modCore 0 fun k =>
    { k with div := { k.div with queue := List.replicate 8 division } }

theorem witness_EretResumesFromTheSaveArea_waits :
    readyB crowded (noSlot {}) = true ∧ crowded.here.trapRec = some { save := 0x1000, cause := .trap, reqs := [division] } ∧ crowded.here.busy = [] ∧
    inHandler crowded = false ∧ crowded.here.run = .running ∧ crowded.poison = [] ∧
    bitsOf (fieldAt (crowded.slice (dieAt 0 0x1000) 4096) 0 8) 18 2 = 0 ∧
    crowded.returnRoom crowded.cur.ctx { save := 0x1000, cause := .trap, reqs := [division] } = false := by
  decide +kernel

/-- The same with RES n in its save area, of a launched task and of a handler. -/
def ending (n : Nat) (k : State) : State :=
  (k.modCtx 0 fun x => { x with level := .sup, trapRec := some { save := 0x1000, cause := .trap } }).setByte (dieAt 0 0x1002)
    (BitVec.ofNat 8 (4 * n))

theorem witness_EretResumesFromTheSaveArea_ends :
    (∀ n ∈ [1, 2, 3], readyB (ending n lab) (noSlot {}) = true ∧ (ending n lab).here.level ≠ .task ∧
      (ending n lab).here.trapRec = some { save := 0x1000, cause := .trap } ∧ (ending n lab).here.busy = [] ∧
      (ending n lab).here.run = .running ∧ (ending n lab).poison = [] ∧
      bitsOf (fieldAt ((ending n lab).slice (dieAt 0 0x1000) 4096) 0 8) 18 2 = n) ∧
    readyB (ending 0 handler) (noSlot {}) = true ∧ inHandler (ending 0 handler) = true ∧ (ending 0 handler).here.run = .running ∧
    bitsOf (fieldAt ((ending 0 handler).slice (dieAt 0 0x1000) 4096) 0 8) 18 2 = 0 ∧
    (lab.part (lab.partOfCtx 0)).dumpctl.getLsbD 0 = false := by
  decide +kernel

theorem witness_SupervisorHeadsDoTheirWork :
    sup.Ready (needX [.reg 4, .lit 1] [] []) ∧ sup.here.level ≠ .task ∧ (sup.x (.lit 1)).toNat ≤ 1 ∧ (sup.x (.lit 0)).toNat ≤ 1 ∧
    sup.Ready (needX [.reg 4, scX (.reg 5)] [] []) ∧ (sup.x (.lit 1023)).toNat ≤ 1023 ∧ (sup.x (.lit 3)).toNat ≤ 3 ∧
    sup.lockedOut (coreOf 0) = none ∧ (∀ e ∈ (sup.cluster 0).images, e.1 ≠ 3) ∧ sup.here.wait = none ∧ (sup.modCtx 0 fun x => { x with wait := some { instr := .htset (.reg 4) (.reg 5), issue := {}, seq := 0 } }).Ready
      (needX [.reg 4, scX (.reg 5)] [] []) ∧
    sup.quiet sup.cur.ctx = true ∧ (sup.sc (.reg 5)).toNat % 8 = 0 ∧ Memory.wf sup.mem = true ∧ (sup.ctx (sup.coreCtx (.lit 3))).auOpen = false ∧
    (∃ s1, sup.resolve (sup.agent sup.cur.ctx) .store (sup.sc (.reg 5)) (runFrom (vaOf (sup.sc (.reg 5))) 64) true true true =
      .ok (s1, runFrom (localAt 0 0) 64)) ∧
    (∃ s1, sup.resolve (sup.agent sup.cur.ctx) .load (sup.sc (.reg 5)) (runFrom (vaOf (sup.sc (.reg 5))) 64) true true true =
      .ok (s1, runFrom (localAt 0 0) 64)) ∧
    (∀ p ∈ runFrom (localAt 0 0) 64, sup.poisoned p = false) ∧ (runFrom (localAt 0 0) 64).Nodup :=
  ⟨ready_of (by decide), by decide, by decide, by decide, ready_of (by decide), by decide, by decide, by decide, by decide, by decide,
    ready_of (by decide), by decide, by decide, by decide, by decide, found_of (by decide), found_of (by decide), fun _ _ => rfl, by decide⟩

/-- The image of an open AU, which is 135,744 bytes, at 0 of own local memory. -/
theorem witness_SupervisorHeadsDoTheirWork_msave :
    (let s := sup.modCtx 0 fun x => { x with auOpen := true }
     s.Ready (needX [.lit 0, scX (.reg 5)] [] []) ∧ (s.ctx (s.coreCtx (.lit 0))).auOpen = true ∧ s.quiet s.cur.ctx = true ∧
       s.resolve (s.agent s.cur.ctx) .store (s.sc (.reg 5)) (runFrom 0 Config.frameImageBytes) true true true =
         .ok (s, (runFrom 0 Config.frameImageBytes).map (localAt 0)) ∧
       ((runFrom 0 Config.frameImageBytes).map (localAt 0)).Nodup) :=
  ⟨ready_of (by decide), by decide, by decide,
    State.resolve_local _ _ _ _ true true (by decide) (by decide) fun x _ => by simp [Agent.holdsBank]; exact .inl (by decide),
    localAt_run_nodup 0 (by decide)⟩

/-! ## Memory -/

/-- Register s4 of the task holds a pointer. -/
def at4 (p : Word) : State := labCtx fun x => { x with s := x.s.set 4 p }
/-- The bytes of own local memory from an address on. -/
def mine (va n : Nat) : List Nat := (runFrom va n).map (localAt 0)

theorem near_mine (va n : Nat) : ∀ a ∈ mine va n, scratchBase ≤ a := by
  intro a h
  simp only [mine, List.mem_map, localAt, localBase, scratchBase] at *
  obtain ⟨x, _, rfl⟩ := h
  omega

theorem near_of {x : Access} {va n : Nat} (h : x.places = mine va n) (g : x.events.length ≤ 1) : x.Near :=
  ⟨h ▸ near_mine va n, g⟩

/-- p1 holds the lower eight bytes. -/
def masked : State := labCtx fun x => { x with p := x.p.set 1 0x00FF }
/-- Rows of one byte and of sixteen: two lanes of 64 bits of INT4, four of FP32. -/
def row2 : MC := { tidx := 10, rnd := 0, ovf := false }
def row4 : MC := { tidx := 0, rnd := 0, ovf := false }

/-- The first and the last bytes of local memory; of `ldv` the lower half, and nothing; of `ldf` one byte. -/
theorem witness_NearLoadsAndStoresAccessMemory :
    lab.Sound (mine 8 8) ∧ lab.Ready (needMem 4 (.lit 8) [] [] [.s 3]) ∧ lab.Reaches .load 1 8 allBytes 4 (.lit 8) 8 (mine 8 8) ∧
    ({ instr := .ld 3 4 (.lit 8) 3 false, ptr := 8, places := mine 8 8, n := 8 } : Access).Near ∧
    (at4 0x2FFFF).Reaches .load 1 1 allBytes 4 (.lit 0) 0x2FFFF (mine 0x2FFFF 1) ∧
    ({ instr := .ld 3 4 (.lit 0) 0 true, ptr := 0x2FFFF, places := mine 0x2FFFF 1, n := 1 } : Access).Near ∧
    masked.Ready (needMem 4 (.lit 8) [] (keepRead 1 5) [.v 5]) ∧
    masked.Reaches .load 1 16 (masked.pr 1).getLsbD 4 (.lit 8) 8 (mine 8 8) ∧
    ({ instr := .ldv 5 4 (.lit 8) 1, ptr := 8, places := mine 8 8, n := 16, keep := (masked.pr 1).getLsbD } : Access).Near ∧
    lab.Reaches .load 1 16 (lab.pr 1).getLsbD 4 (.lit 8) 8 [] ∧
    ({ instr := .ldv 5 4 (.lit 8) 1, ptr := 8, places := [], n := 16, keep := (lab.pr 1).getLsbD } : Access).Near ∧
    (at4 0x0100000000000000).Ready (needMem 4 (.lit 8) [] [] [.v 5]) ∧
    kindOf (fmtOf ((at4 0x0100000000000000).here.sreg 4)) = some (.int 4 true) ∧
    (at4 0x0100000000000000).Reaches .load 1 (rowBytes (.int 4 true) (lanesOf row2)) allBytes 4 (.lit 8) 0x0100000000000008 (mine 8 1) ∧
    ({ instr := .ldf 5 4 (.lit 8) row2, ptr := 0x0100000000000008, places := mine 8 1, n := rowBytes (.int 4 true) (lanesOf row2)
       bytewise := true } : Access).Near ∧
    lab.syncPending lab.cur.ctx = false ∧ lab.Reaches .load 8 8 allBytes 4 (.lit 8) 8 (mine 8 8) :=
  ⟨fun _ _ => rfl, ready_of (by decide), ⟨by decide, by decide, found_of (by decide)⟩, near_of rfl (by decide), ⟨by decide, by decide, found_of (by decide)⟩, near_of rfl (by decide), ready_of (by decide), ⟨by decide, by decide, found_of (by decide)⟩,
    near_of rfl (by decide), ⟨by decide, by decide, found_of (by decide)⟩, ⟨fun _ h => absurd h List.not_mem_nil, by decide⟩, ready_of (by decide), by decide, ⟨by decide, by decide, found_of (by decide)⟩,
    near_of rfl (by decide), by decide, ⟨by decide, by decide, found_of (by decide)⟩⟩

theorem witness_NearLoadsAndStoresAccessMemory_stores :
    (mine 8 8).Nodup ∧ (mine 8 1).Nodup ∧ Memory.wf lab.mem = true ∧ lab.Ready (needMem 4 (.lit 8) [.reg 5] [] []) ∧
    lab.Reaches .store 1 8 allBytes 4 (.lit 8) 8 (mine 8 8) ∧
    ({ instr := .st 4 (.lit 8) (.reg 5) 3, ptr := 8, places := mine 8 8, n := 8 } : Access).Near ∧
    masked.Ready (needMem 4 (.lit 8) [] [.v 5, .p 1] []) ∧ masked.Reaches .store 1 16 (masked.pr 1).getLsbD 4 (.lit 8) 8 (mine 8 8) ∧
    ({ instr := .stv 4 (.lit 8) 5 1, ptr := 8, places := mine 8 8, n := 16, keep := (masked.pr 1).getLsbD } : Access).Near ∧
    Memory.wf masked.mem = true ∧ (at4 0x0100000000000000).Ready (needMem 4 (.lit 8) [] [.v 5] []) ∧ ovfFits (.int 4 true) false = true ∧
    (at4 0x0100000000000000).Reaches .store 1 (rowBytes (.int 4 true) (lanesOf row2)) allBytes 4 (.lit 8) 0x0100000000000008 (mine 8 1) ∧
    ({ instr := .stf 4 (.lit 8) 5 row2, ptr := 0x0100000000000008, places := mine 8 1, n := rowBytes (.int 4 true) (lanesOf row2)
       bytewise := true } : Access).Near ∧
    lab.syncPending lab.cur.ctx = false ∧ lab.quiet lab.cur.ctx = true ∧ lab.Reaches .store 8 8 allBytes 4 (.lit 8) 8 (mine 8 8) :=
  ⟨by decide, by decide, by decide, ready_of (by decide), ⟨by decide, by decide, found_of (by decide)⟩, near_of rfl (by decide), ready_of (by decide), ⟨by decide, by decide, found_of (by decide)⟩, near_of rfl (by decide),
    by decide, ready_of (by decide), by decide, ⟨by decide, by decide, found_of (by decide)⟩, near_of rfl (by decide), by decide, by decide, ⟨by decide, by decide, found_of (by decide)⟩⟩

/-- A request of context 0 for eight bytes of the die store, in the fabric of its core. -/
def farLoad : FabReq :=
  { seq := 5, ctx := 0, instr := .ld 3 4 (.lit 0) 3 false, ptr := 0x20000000, bytes := (List.range 8).map fun i => (i, dieAt 0 i)
    dst := some (.s 3), head := 5 }
def farStore : FabReq :=
  { seq := 5, ctx := 0, instr := .st 4 (.lit 0) (.reg 3) 3, ptr := 0x20000000, bytes := (List.range 8).map fun i => (i, dieAt 0 i)
    data := [1, 2, 3, 4, 5, 6, 7, 8], head := 5 }
def inFabric (q : FabReq) : State := labCore fun k => { k with fabric := [q] }
/-- The first eight bytes of the die store. -/
def far8 : List Nat := (runFrom 0 8).map (dieAt 0)
def far16 : List Nat := (runFrom 0 16).map (dieAt 0)
/-- A page of global memory at its lowest address, with tags, its translation cached. -/
def paged : State :=
  (at4 0x100000000).modCluster 0 fun k => { k with tlb := [{ part := 0, va := 0x10000, lg := 16, leaf := 0x5C }] }

theorem far8_far : ∀ a ∈ far8, a < scratchBase := by decide
theorem far16_far : ∀ a ∈ far16, a < scratchBase := by decide

theorem witness_FarAccessesGoThroughTheFabric :
    (at4 0x20000000).Ready (needMem 4 (.lit 0) [] [] [.s 3]) ∧
    (at4 0x20000000).Reaches .load 1 8 allBytes 4 (.lit 0) 0x20000000 far8 ∧
    ({ instr := .ld 3 4 (.lit 0) 3 false, ptr := 0x20000000, places := far8, n := 8, dst := some (.s 3) } : Access).Leaves ∧
    paged.Reaches .load 1 8 allBytes 4 (.lit 0) 0x100000000 (runFrom 0 8) ∧
    ({ instr := .ld 3 4 (.lit 0) 3 false, ptr := 0x100000000, places := runFrom 0 8, n := 8, dst := some (.s 3) } : Access).Leaves ∧
    (at4 0x20000000).Ready (needMem 4 (.lit 0) [.reg 5] [] []) ∧ (at4 0x20000000).Reaches .store 1 8 allBytes 4 (.lit 0) 0x20000000 far8 ∧
    ({ instr := .st 4 (.lit 0) (.reg 5) 3, ptr := 0x20000000, places := far8, n := 8, data := [1, 2, 3, 4, 5, 6, 7, 8] } : Access).Leaves ∧
    (at4 0x20000000).Ready (needMem 4 (.lit 0) [] (keepRead 1 5) [.v 5]) ∧
    (at4 0x20000000).Reaches .load 1 16 ((at4 0x20000000).pr 0).getLsbD 4 (.lit 0) 0x20000000 far16 ∧
    (at4 0x20000000).Ready (needMem 4 (.lit 0) [] [.v 5, .p 1] []) ∧
    (at4 0x20000000).Reaches .store 1 16 ((at4 0x20000000).pr 0).getLsbD 4 (.lit 0) 0x20000000 far16 ∧
    (at4 0x07800000200000000).Ready (needMem 4 (.lit 0) [] [] [.v 5]) :=
  ⟨ready_of (by decide), ⟨by decide, by decide, found_of (by decide)⟩, .inl ⟨by decide, far8_far⟩, ⟨by decide, by decide, found_of (by decide)⟩, .inl ⟨by decide, by decide⟩, ready_of (by decide), ⟨by decide, by decide, found_of (by decide)⟩,
    .inl ⟨by decide, far8_far⟩, ready_of (by decide), ⟨by decide, by decide, found_of (by decide)⟩, ready_of (by decide), ⟨by decide, by decide, found_of (by decide)⟩, ready_of (by decide)⟩

/-- An unaligned load, a vector and a row of FP32 in local memory are several events. -/
theorem witness_FarAccessesGoThroughTheFabric_split :
    lab.Ready (needMem 4 (.lit 1) [] [] [.s 3]) ∧ lab.Reaches .load 1 8 allBytes 4 (.lit 1) 1 (mine 1 8) ∧
    ({ instr := .ld 3 4 (.lit 1) 3 false, ptr := 1, places := mine 1 8, n := 8, dst := some (.s 3) } : Access).Leaves ∧
    lab.Reaches .store 1 16 (lab.pr 0).getLsbD 4 (.lit 8) 8 (mine 8 16) ∧
    ({ instr := .stv 4 (.lit 8) 5 0, ptr := 8, places := mine 8 16, n := 16, keep := (lab.pr 0).getLsbD } : Access).Leaves ∧
    kindOf (fmtOf ((at4 0x0780000000000000).here.sreg 4)) = some (.flt fp32) ∧ ovfFits (.flt fp32) false = true ∧
    (at4 0x0780000000000000).Ready (needMem 4 (.lit 8) [] [] [.v 5]) ∧
    (at4 0x0780000000000000).Reaches .load 1 (rowBytes (.flt fp32) (lanesOf row4)) allBytes 4 (.lit 8) 0x0780000000000008 (mine 8 16) ∧
    ({ instr := .ldf 5 4 (.lit 8) row4, ptr := 0x0780000000000008, places := mine 8 16, n := rowBytes (.flt fp32) (lanesOf row4)
       bytewise := true, dst := some (.v 5) } : Access).Leaves ∧
    (at4 0x0780000000000000).Ready (needMem 4 (.lit 8) [] [.v 5] []) ∧
    (at4 0x0780000000000000).Reaches .store 1 (rowBytes (.flt fp32) (lanesOf row4)) allBytes 4 (.lit 8) 0x0780000000000008 (mine 8 16) :=
  ⟨ready_of (by decide), ⟨by decide, by decide, found_of (by decide)⟩, .inr (by decide), ⟨by decide, by decide, found_of (by decide)⟩, .inr (by decide), by decide, by decide, ready_of (by decide), ⟨by decide, by decide, found_of (by decide)⟩, .inr (by decide),
    ready_of (by decide), ⟨by decide, by decide, found_of (by decide)⟩⟩

theorem witness_FarAccessesGoThroughTheFabric_atomics :
    (at4 0x20000000).syncPending 0 = false ∧ (at4 0x20000000).Reaches .load 8 8 allBytes 4 (.lit 0) 0x20000000 far8 ∧
    (at4 0x20000000).quiet 0 = true ∧ (at4 0x20000000).Reaches .store 8 8 allBytes 4 (.lit 0) 0x20000000 far8 ∧
    (at4 0x20000000).Reaches .atomic 8 8 allBytes 4 (.lit 0) 0x20000000 far8 ∧
    ({ instr := .amoAdd 3 4 (.lit 0) (.reg 5) { size := 3, ord := 3, scope := 5 }, ptr := 0x20000000, places := far8, n := 8, acq := true
       sync := true, dst := some (.s 3) } : Access).Leaves ∧
    (at4 0x20000000).Ready (needMem 4 (.lit 0) [.reg 5] [] [.s 3]) ∧ (at4 0x20000000).Ready (needMem 4 (.lit 0) [.reg 5, .reg 6] [] [.s 3]) :=
  ⟨by decide, ⟨by decide, by decide, found_of (by decide)⟩, by decide, ⟨by decide, by decide, found_of (by decide)⟩, ⟨by decide, by decide, found_of (by decide)⟩, .inl ⟨by decide, far8_far⟩, ready_of (by decide), ready_of (by decide)⟩

/-- One request of a load, and the two of a vector; a store; an atomic operation. -/
def farPair : State := labCore fun k => { k with fabric := [{ farLoad with instr := .ldv 3 4 (.lit 0) 0, dst := some (.v 3) },
  { farLoad with instr := .ldv 3 4 (.lit 0) 0, dst := some (.v 3), seq := 6, bytes := (List.range 8).map fun i => (8 + i, dieAt 0 (8 + i)) }] }
def farAdd : FabReq := { farLoad with instr := .amoAdd 3 4 (.lit 0) (.reg 5) { size := 3, ord := 0, scope := 0 } }
def farRow : FabReq := { farStore with instr := .stf 4 (.lit 0) 5 row4, a := 4 }

theorem witness_FarAccessesGoThroughTheFabric_delivery :
    (inFabric farLoad).deliverable 0 5 = some farLoad ∧ farLoad.dst = some (.s 3) ∧ farLoad.data = [] ∧
    (inFabric farLoad).Sound (farLoad.bytes.map (·.2)) ∧
    ((inFabric farLoad).core 0).fabric.filter (fun r => r.seq != 5) = [] ∧
    (byIndex (farLoad.got ++ farLoad.bytes.map fun e => (e.1, (inFabric farLoad).byte e.2))).map (·.1) = List.range (2 ^ (3 : BitVec 2).toNat) ∧
    (∃ q, farPair.deliverable 0 5 = some q ∧ q.dst.isSome = true ∧ farPair.Sound (q.bytes.map (·.2)) ∧
      ∃ o ∈ (farPair.core 0).fabric.filter (fun r => r.seq != 5), o.head = q.head) ∧
    (inFabric farStore).deliverable 0 5 = some farStore ∧ farStore.dst = none ∧ farStore.data.length = farStore.bytes.length ∧
    (farStore.bytes.map (·.2)).Nodup ∧ (∀ a ∈ farStore.bytes.map (·.2), ¬ (isDie a = true ∧ lpctOff ≤ (a - dieBase) % 2 ^ 26)) ∧
    Memory.wf (inFabric farStore).mem = true :=
  ⟨by decide, by decide, by decide, fun _ _ => rfl, by decide, by decide, ⟨_, rfl, rfl, fun _ _ => rfl, _, List.mem_singleton.2 rfl, rfl⟩,
    by decide, by decide, by decide, by decide, by decide, by decide⟩

theorem witness_FarAccessesGoThroughTheFabric_delivery_more :
    (inFabric farAdd).deliverable 0 5 = some farAdd ∧ farAdd.dst = some (.s 3) ∧ farAdd.got = [] ∧ farAdd.data = [] ∧ farAdd.silent = false ∧
    farAdd.bytes.map (·.1) = List.range (2 ^ (3 : BitVec 2).toNat) ∧ (inFabric farRow).deliverable 0 5 = some farRow ∧ farRow.a.toNat = 4 ∧
    ({ farStore with silent := true } : FabReq).silent = true ∧ viaFabric (farStore.bytes.map (·.2)) = true := by
  decide

theorem witness_NearAtomicsReadModifyWrite :
    (∀ p ∈ mine 8 8, scratchBase ≤ p) ∧ (∀ p ∈ mine 8 4, scratchBase ≤ p) ∧ lab.Sound (mine 8 8) ∧ (mine 8 8).Nodup ∧ Memory.wf lab.mem = true ∧ lab.syncPending lab.cur.ctx = false ∧
    lab.quiet lab.cur.ctx = true ∧ lab.Reaches .atomic 8 8 allBytes 4 (.lit 8) 8 (mine 8 8) ∧
    lab.Reaches .atomic 4 4 allBytes 4 (.lit 8) 8 (mine 8 4) ∧ lab.Ready (needMem 4 (.lit 8) [.reg 5] [] [.s 3]) ∧
    lab.Ready (needMem 4 (.lit 8) [.reg 5, .reg 6] [] [.s 0]) :=
  ⟨near_mine 8 8, near_mine 8 4, fun _ _ => rfl, by decide, by decide, by decide, by decide, ⟨by decide, by decide, found_of (by decide)⟩,
    ⟨by decide, by decide, found_of (by decide)⟩, ready_of (by decide), ready_of (by decide)⟩

/-- A sum below 0 and one of 2^52; an access whose last byte leaves local memory, of each kind of head. -/
theorem witness_MemoryHeadsAreChecked :
    (∀ acc ∈ [Acc.load, .store, .atomic], ∃ z, lab.resolve (lab.agent 0) acc 0x2FFFF
      (((List.range 8).filter allBytes).map (vaOf 0x2FFFF + ·)) (decide (vaOf 0x2FFFF % 1 = 0)) true true = .error z) ∧
    lab.acqPending lab.cur.ctx = false ∧ lab.syncPending lab.cur.ctx = false ∧ lab.quiet lab.cur.ctx = true ∧
    lab.Ready (needMem 4 (.lit 0) [] [] [.s 3]) ∧ lab.Ready (needMem 4 (.lit 0) [.reg 5] [] []) ∧
    lab.Ready (needMem 4 (.lit 0) [] (keepRead 1 5) [.v 5]) ∧ lab.Ready (needMem 4 (.lit 0) [] [.v 5, .p 1] []) ∧
    lab.Ready (needMem 4 (.lit 0) [] [] [.v 5]) ∧ lab.Ready (needMem 4 (.lit 0) [] [.v 5] []) ∧
    lab.Ready (needMem 4 (.lit 0) [.reg 5] [] [.s 3]) ∧ lab.Ready (needMem 4 (.lit 0) [.reg 5, .reg 6] [] [.s 3]) ∧
    lab.Ready (needMem 4 (.lit 0) [] [] [.p 1]) ∧ lab.Ready (needMem 4 (.lit 0) [] [] []) ∧ nearOnly 4 (.lit 0) lab = true ∧
    effAddr (lab.here.sreg 4) (lab.off (.lit (-1))) = none ∧
    effAddr ((at4 0xFFFFFFFFFFFFF).here.sreg 4) ((at4 0xFFFFFFFFFFFFF).off (.lit 1)) = none ∧
    effAddr ((at4 0x2FFFF).here.sreg 4) ((at4 0x2FFFF).off (.lit 0)) = some 0x2FFFF :=
  ⟨fun acc h => err_of (by revert acc; decide), by simp only [ready_iff]; decide⟩

/-- Local memory's last byte and a bank not held; the first byte of the protected range; the first byte of the LPCT window. -/
theorem witness_MemoryHeadsAreChecked_windows :
    windowOfRange 0x2FFFF 2 = none ∧ windowOfRange 0x2FFFE 2 = some .loc ∧ windowOfRange 1 2 ≠ none ∧
    (let g := { lab.agent 0 with lbanks := 1 }
     g.level = .task ∧ windowOfRange 0x3FFF 2 = some .loc ∧ ∃ i, i < 2 ∧ g.lbanks.getLsbD ((0x3FFF + i) / 16384) = false) ∧
    (let s := lab.modPart 0 fun q => { q with saprot := 0x0000400000004000 }
     (s.agent 0).level = .task ∧ windowOfRange 0x20003FFF 2 = some .die ∧
       ∃ i, i < 2 ∧ (s.part (s.agent 0).part).protects (0x20003FFF + i - 0x20000000) = true) ∧
    (sup.agent 0).level ≠ .task ∧ windowOfRange 0x23FFF000 8 = some .die ∧ lpctOff ≤ 0x23FFF000 + (8 - 1) - 0x20000000 := by
  refine ⟨by decide, by decide, by decide, ⟨by decide, by decide, 1, by decide, by decide⟩, ⟨by decide, by decide, 1, by decide, by decide⟩, ?_⟩
  decide

/-- A page table of the part with one leaf, a block of 1 GiB, at the lowest address of global memory. -/
def tabled (leaf : Nat) : State :=
  ((lab.modPart 0 fun q => { q with ptroot := 0x10000, pmr := [(0, 0x0010000000000000)] }).writeRun (hbmAt 0 0x10000)
    (bytesOfNat 8 0x20001)).writeRun (hbmAt 0 0x20020) (bytesOfNat 8 leaf)
/-- The walk comes to a leaf of level 1. -/
def walksTo (leaf : Nat) : Bool := okWith ((tabled leaf).walk 0 0x100000000) fun e => e.1 == BitVec.ofNat 64 leaf && e.2 == 1

theorem walk_of {leaf : Nat} (h : walksTo leaf = true) : (tabled leaf).walk 0 0x100000000 = .ok (BitVec.ofNat 64 leaf, 1) := by
  obtain ⟨r, g, k⟩ := okWith_of h
  obtain ⟨w, n⟩ := r
  simp only [Bool.and_eq_true, beq_iff_eq] at k
  rw [g, k.1, k.2]

/-- Pages: none; of the supervisor; without read, write, execute and block permission; of compressed rows. A tag that differs. -/
theorem witness_MemoryHeadsAreChecked_pages :
    windowOfRange 0x100000000 8 = some .glob ∧ (lab.agent 0).part = 0 ∧ lab.cached (lab.agent 0) 0x100000000 true = none ∧
    (∃ r, lab.walk 0 0x100000000 = .error r) ∧ (tabled 3).cached ((tabled 3).agent 0) 0x100000000 true = none ∧
    (tabled (2 ^ 48 + 7)).walk 0 0x100000000 = .ok (BitVec.ofNat 64 (2 ^ 48 + 7), 1) ∧ (BitVec.ofNat 64 (2 ^ 48 + 7)).getLsbD 48 = true ∧
    (∀ leaf ∈ [3, 7, 0x8F], (tabled leaf).walk 0 0x100000000 = .ok (BitVec.ofNat 64 leaf, 1)) ∧
    (BitVec.ofNat 64 3).getLsbD 2 = false ∧ (BitVec.ofNat 64 7).getLsbD 3 = false ∧ (BitVec.ofNat 64 7).getLsbD 4 = false ∧
    (BitVec.ofNat 64 7).getLsbD 5 = false ∧ (BitVec.ofNat 64 0x8F).getLsbD 7 = true ∧
    (∃ s1 e, paged.leafFor (paged.agent 0) .load 0x100000000 true = .ok (s1, e) ∧ e.leaf.getLsbD 6 = true ∧
      paged.tag (hbmAt ((paged.agent 0).part / 16) (e.pa 0x100000000)) ≠ (0x1000000100000000 : Word).extractLsb' 60 4) ∧
    0x100000000 < 2 ^ 52 := by
  refine ⟨by decide, by decide, by decide, err_of (by decide), by decide, walk_of (by decide +kernel), by decide, ?_, by decide, by decide,
    by decide, by decide, by decide, ⟨_, _, rfl, by decide, by decide⟩, by decide⟩
  intro leaf h
  simp only [List.mem_cons, List.not_mem_nil, or_false] at h
  rcases h with rfl | rfl | rfl <;> exact walk_of (by decide +kernel)

/-- A cached leaf that refuses the load, and a walk that comes to another leaf; a page without tags, for `tagset`. -/
def outdated : State := (tabled 0xF).modCluster 0 fun k => { k with tlb := [{ part := 0, va := 4, lg := 30, leaf := 3 }] }

theorem witness_MemoryHeadsAreChecked_cached :
    (∀ e, outdated.cached (outdated.agent 0) 0x100000000 true = some e → leafRefuses e (outdated.agent 0).level .load ≠ none) ∧
    (outdated.cached (outdated.agent 0) 0x100000000 true).isSome = true ∧
    okWith (outdated.walk 0 0x100000000) (fun e => !e.1.getLsbD 6 && e.2 == 1) = true ∧ (outdated.agent 0).level = .task ∧
    (∀ i, i < 8 → (outdated.part (outdated.agent 0).part).protects (0x23FFF000 + i - 0x20000000) = false) := by
  refine ⟨fun e h => ?_, by decide, by decide +kernel, by decide, by decide⟩
  rw [show outdated.cached (outdated.agent 0) 0x100000000 true = some { part := 0, va := 4, lg := 30, leaf := 3 } from by decide] at h
  cases h
  decide

/-- The translation that a tagged granule's checks find. -/
def tagged (s : State) (ptr : Word) : Bool :=
  match s.resolve (s.agent 0) .tag ptr [vaOf ptr] (decide (vaOf ptr % 32 = 0)) false true with
  | .ok (s1, [_]) => ((s1.cached (s1.agent 0) (vaOf ptr) true).map fun e => e.leaf.getLsbD 6) == some true
  | _ => false

/-- The events of a bit-granular access of w bits from bit j (R129). -/
def bitEvents (j w : Nat) : Nat := (eventsOf (j / 8) (bitBytes j w).length false (List.range (bitBytes j w).length)).length

/-- Widths of 1 and 64 bits; fences with nothing, a store and a load outstanding. -/
theorem witness_BitsPrefetchTagsAndFences :
    lab.Ready (needX [.reg 4] [] [.b 3]) ∧ lab.acqPending lab.cur.ctx = false ∧
    lab.Ready (needX [.lit 1] [.b 1] (.s 3 :: mbWrites { b := 1, inc := true, sx := true })) ∧ (lab.x (.lit 1)).toNat = 1 ∧
    (lab.x (.lit 64)).toNat = 64 ∧ bitCheck (lab.agent lab.cur.ctx) .load (bitBytes (lab.here.breg 1).toNat 64) = none ∧
    lab.Sound ((bitBytes (lab.here.breg 1).toNat 64).map (localAt 0)) ∧
    lab.Ready (needX [.reg 4, .lit 64] [.b 1] (mbWrites { b := 1, inc := true, sx := false })) ∧
    bitCheck (lab.agent lab.cur.ctx) .store (bitBytes (lab.here.breg 1).toNat 1) = none ∧ Memory.wf lab.mem = true ∧
    bitEvents 0 1 = 1 ∧ bitEvents 0 64 = 1 ∧ bitEvents 7 64 = 9 ∧ bitEvents 15 2 = 2 ∧
    lab.Ready (needMem 4 (.lit 0) [] [] []) ∧ paged.Ready (needMem 4 (.lit 0) [.reg 5] [] []) ∧ paged.acqPending paged.cur.ctx = false ∧
    effAddr (paged.here.sreg 4) (paged.off (.lit 0)) = some 0x100000000 ∧ windowOf (vaOf 0x100000000) = some .glob ∧
    tagged paged 0x100000000 = true ∧ paged.silent paged.cur.ctx = false :=
  ⟨ready_of (by decide), by decide, ready_of (by decide), by decide, by decide, by decide, fun _ _ => rfl, ready_of (by decide), by decide,
    by decide, by decide, by decide, by decide, by decide, ready_of (by decide), ready_of (by decide), by decide, by decide, by decide,
    by decide, by decide⟩

theorem witness_BitsPrefetchTagsAndFences_fences :
    lab.Ready {} ∧ lab.quiet lab.cur.ctx = true ∧ (inFabric farStore).Ready {} ∧ (inFabric farStore).quiet 0 = false ∧
    (∀ r ∈ (inFabric farStore).fabricOf 0, r.dst = none) ∧ (inFabric farLoad).Ready {} ∧ (inFabric farLoad).quiet 0 = false := by
  simp only [ready_iff]
  decide

/-- The word at local address 8 is full. -/
def filled : State := { lab with full := [wordIx (localAt 0 8)] }

theorem witness_FullEmptyOperations :
    (∀ x ∈ mine 8 8, scratchBase ≤ x) ∧ filled.Sound (mine 8 8) ∧ nearOnly 4 (.lit 8) filled = true ∧ filled.syncPending filled.cur.ctx = false ∧
    filled.Ready (needMem 4 (.lit 8) [] [] [.s 3]) ∧ filled.isFull ((mine 8 8).headD 0) = true ∧ filled.feBefore ((mine 8 8).headD 0) true = false ∧
    filled.Reaches .load 8 8 allBytes 4 (.lit 8) 8 (mine 8 8) ∧ filled.quiet filled.cur.ctx = true ∧
    filled.Ready (needMem 4 (.lit 8) [.reg 5] [] []) ∧
    filled.Reaches .store 8 8 allBytes 4 (.lit 8) 8 (mine 8 8) ∧ filled.Ready (needMem 4 (.lit 8) [] [] []) ∧
    filled.Ready (needMem 4 (.lit 8) [] [] [.p 1]) :=
  ⟨near_mine 8 8, fun _ _ => rfl, by decide, by decide, ready_of (by decide), by decide, by decide,
    ⟨by decide, by decide, found_of (by decide)⟩, by decide, ready_of (by decide),
    ⟨by decide, by decide, found_of (by decide)⟩, ready_of (by decide), ready_of (by decide)⟩

/-- The same word empty, for the heads that wait for full, and for `stfe.w` that need not wait. -/
theorem witness_FullEmptyOperations_empty :
    nearOnly 4 (.lit 8) lab = true ∧ lab.syncPending lab.cur.ctx = false ∧ lab.Ready (needMem 4 (.lit 8) [] [] [.s 3]) ∧
    lab.isFull ((mine 8 8).headD 0) = false ∧ lab.feBefore ((mine 8 8).headD 0) false = false ∧
    lab.Reaches .load 8 8 allBytes 4 (.lit 8) 8 (mine 8 8) ∧ lab.quiet lab.cur.ctx = true ∧
    lab.Ready (needMem 4 (.lit 8) [.reg 5] [] []) ∧
    lab.Reaches .store 8 8 allBytes 4 (.lit 8) 8 (mine 8 8) :=
  ⟨by decide, by decide, ready_of (by decide), by decide, by decide, ⟨by decide, by decide, found_of (by decide)⟩, by decide,
    ready_of (by decide), ⟨by decide, by decide, found_of (by decide)⟩⟩

/-! ## Messages, the copy engine, counters, buffers -/

/-- The task with scalar registers set. -/
def regs (l : List (SReg × Word)) : State := labCtx fun x => { x with s := l.foldl (fun v e => v.set e.1.val e.2 e.1.isLt) x.s }
/-- A message of core 0 to core 1. -/
def mail : Flying := { src := 0, dst := 1, msg := { hdr := 17, p1 := 1, p2 := 2, p3 := 3 }, bank := 0, seq := 0 }

theorem witness_MessagesAreSentAndRead :
    lab.Ready (needX [scX (.reg 4), .lit 9] [.v (vAt 29 0), .v (vAt 29 1), .v (vAt 29 2)] []) ∧ (lab.sc (.reg 4)).toNat < 2 ^ 22 ∧
    ((at4 0x3FFFFF).sc (.reg 4)).toNat < 2 ^ 22 ∧ (lab.x (.lit 1023)).toNat ≤ 1023 ∧ (29 : VReg).val ≤ 29 ∧
    handler.Ready (needX [scX (.reg 4), .lit 9] [.v (vAt 29 0), .v (vAt 29 1), .v (vAt 29 2)] []) ∧ inHandler handler = true ∧
    handler.here.sendBuf.length < Config.sendBufferSlots ∧ inHandler lab = false ∧ lab.quiet lab.cur.ctx = true ∧
    lab.silent lab.cur.ctx = false ∧ (labCtx fun x => { x with role := .referee }).silent lab.cur.ctx = true ∧
    (∀ n ∈ [7, 8], ((labCore fun k => { k with outq := List.replicate n mail }).core 0).outq.length = n) ∧
    handler.Ready { writes := [.v 1] } ∧
    handler.slotOf handler.cur.ctx = some { num := 5, msg := { hdr := 17, p1 := 1, p2 := 2, p3 := 3 }, arrival := 0, runs := some 0 } ∧
    (3 : Lit).toNat ≤ 3 := by
  simp only [ready_iff]
  decide

/-- Registers: s1 an image of FP16 in the die store, s2 the die store, s3 own local memory, s5 the count 2^20's neighbour 4096. -/
def copying : State := (regs [(1, 0x0600000020000000), (2, 0x20000000), (3, 0x1000), (5, 4096)]).modCore 0 fun k =>
  { k with buffers := [(7, { cfg := true, eng := true, base := 0x2000, slot := 4096, count := 2, free := 2 })] }

theorem witness_EngineCommandsEnterThePort :
    copying.portFree ∧ copying.Ready (needX [.reg 3, .lit 0, .reg 2, .reg 5, .lit 9] [] []) ∧ placeOk (copying.x (.lit 0)) = true ∧
    countOk (copying.x (.lit 8)) = true ∧ countOk (copying.x (.lit 0x100000)) = true ∧ countOk (copying.x (.reg 5)) = true ∧
    remoteOk (copying.x (.reg 2)) = true ∧ copying.ownsCounter (copying.x (.lit 63)) = true ∧
    (∀ acc ∈ [Acc.store, .load], regionTraps true (copying.agent 0) acc (copying.x (.reg 3)) 4096 = [] ∧
      regionTraps false (copying.agent 0) acc (copying.x (.reg 3)) 4096 = []) ∧
    regionLimit true (copying.x (.reg 3)) 4096 = true ∧ regionLimit false (copying.x (.reg 3)) 4096 = true ∧ vaOf (copying.x (.reg 2)) % 8 = 0 ∧
    vaOf (copying.x (.reg 3)) % 8 = 0 ∧ vaOf (copying.x (.reg 1)) % 8 = 0 ∧
    (cpyzLimits (.reg 1) (.reg 3) (.reg 5) (.lit 9) (.lit 7) true).all (·.ok copying) = true ∧ (cpyzLimits (.reg 3) (.reg 1) (.reg 5) (.lit 9) (.lit 0) false).all (·.ok copying) = true ∧
    (cpyLimits (.reg 3) (.reg 2) (.reg 5) (.lit 9) false).all (·.ok copying) = true ∧ (cpyLimits (.reg 2) (.reg 3) (.reg 5) (.lit 9) false).all (·.ok copying) = true ∧
    isLoc (copying.x (.reg 3)) = true ∧ isLoc (copying.x (.reg 2)) = false ∧ (cpyLimits (.lit 7) (.reg 2) (.reg 5) (.lit 9) true).all (·.ok copying) = true ∧
    (cpyLimits (.lit 7) (.reg 3) (.reg 5) (.lit 9) true).all (·.ok copying) = true := by
  simp only [ready_iff]
  decide

/-- Lists of 1 and of 1024 entries; an empty list of `sendl`; a path of 1 and of 64 bytes. -/
theorem witness_EngineCommandsEnterThePort_lists :
    (∃ s : State, s.byte (localAt 0 0x1004) = 1 ∧
      sendlEntryOk (wordOfBytes ((runFrom 0x1000 8).map fun x => s.byte (localAt 0 x))) = true) ∧
    copying.Ready (needX [.reg 3, .lit 0, .reg 2, .reg 3, .lit 1, .lit 9] [] []) ∧ listCountOk (copying.x (.lit 1)) = true ∧
    listCountOk (copying.x (.lit 0x10000)) = true ∧ listTraps copying .store (copying.x (.reg 3)) (copying.x (.reg 3)) 1024 4 = [] ∧
    listTraps copying .load (copying.x (.reg 3)) (copying.x (.reg 3)) 1 8 = [] ∧ vaOf (copying.x (.reg 3)) % 4 = 0 ∧
    copying.Ready (needX [.lit 0, .lit 15, .reg 3, .lit 0, .lit 9] [] [.s 4]) ∧ (copying.x (.lit 15)).toNat < 16 ∧
    (copying.x (.lit 4096)).toNat ≤ 4096 ∧ (copying.x (.lit 0)).toNat = 0 ∧
    regionLimit false (copying.x (.reg 3)) (8 * 4096) = true ∧ regionTraps false (copying.agent 0) .load (copying.x (.reg 3)) (8 * 4096) = [] ∧
    sendlEntryOk 0x0000000100000000 = true ∧ sendlEntryOk 0x00000FF800002000 = true ∧ sendlEntryOk 0x00000FF900002000 = false ∧
    copying.silent 0 = false ∧ copying.Ready (needX [scX (.reg 3), scX (.reg 3), .lit 1, .reg 5, .lit 9] [] []) ∧
    1 ≤ (copying.x (.lit 1)).toNat ∧ (copying.x (.lit 64)).toNat ≤ 64 ∧ regionLimit false (copying.sc (.reg 3)) 64 = true ∧
    regionTraps false (copying.agent 0) .load (copying.sc (.reg 3)) 64 = [] ∧ vaOf (copying.sc (.reg 3)) % 8 = 0 :=
  ⟨⟨copying.setByte (localAt 0 0x1004) 1, by decide, by decide⟩, by simp only [ready_iff]; decide⟩

/-- Counter 63 in ERROR, or with a value. -/
def counting (c : Counter) : State := labCore fun k => { k with counters := [(63, c)] }
/-- Buffer 15 of the task. -/
def buffered (b : Buffer) : State := labCore fun k => { k with buffers := [(15, b)] }

theorem witness_CountersAndCircularBuffers :
    lab.Ready (needX [.lit 63, .reg 5] [] []) ∧ lab.ownsCounter (lab.x (.lit 63)) = true ∧ lab.Ready (needX [.lit 63] [] [.s 3]) ∧
    lab.syncPending lab.cur.ctx = false ∧ lab.Ready (needX [.lit 63, .lit 1] [] [.s 3]) ∧
    ((lab.counter 0 63).value - ((lab.x (.lit 0)).setWidth 32)).toNat < 2 ^ 31 ∧
    ¬ ((lab.counter 0 63).value - ((lab.x (.lit 1)).setWidth 32)).toNat < 2 ^ 31 ∧ ((counting { err := true }).counter 0 63).err = true ∧
    (counting { err := true }).Ready (needX [.lit 63, .lit 1] [] [.s 3]) ∧
    lab.Ready (needX [.lit 15, .reg 4, .lit 16, .lit 256] [] []) ∧ (cbCfgLimits (.lit 15) (.reg 4) (.lit 16) (.lit 256)).all (·.ok lab) = true ∧
    (cbCfgLimits (.lit 15) (.reg 4) (.lit 4096) (.lit 1)).all (·.ok lab) = true ∧
    nearRegion (lab.agent lab.cur.ctx) .store (lab.x (.reg 4)) ((lab.x (.lit 16)).toNat * (lab.x (.lit 256)).toNat) = none := by
  simp only [ready_iff]
  decide

theorem witness_CountersAndCircularBuffers_buffers :
    (let s := buffered { cfg := true, slot := 16, count := 2, free := 1, filled := 1, aidx := 1, pidx := 1, tidx := 0, ridx := 0 }
     s.ownsBuffer (s.x (.lit 15)) = true ∧ (s.bufferOf (.lit 15)).cfg = true ∧ s.syncPending s.cur.ctx = false ∧
       readyB s (needX [.lit 15] [] [.s 3]) = true ∧ (s.bufferOf (.lit 15)).eng = false ∧ (s.bufferOf (.lit 15)).free ≠ 0 ∧
       (s.bufferOf (.lit 15)).filled ≠ 0) ∧
    (let s := buffered { cfg := true, slot := 16, count := 2, free := 0, filled := 0, aidx := 2, pidx := 1, tidx := 1, ridx := 0 }
     (s.bufferOf (.lit 15)).free = 0 ∧ (s.bufferOf (.lit 15)).filled = 0 ∧ readyB s (needX [.lit 15] [] []) = true ∧
       s.quiet s.cur.ctx = true ∧ (s.bufferOf (.lit 15)).pidx ≠ (s.bufferOf (.lit 15)).aidx ∧
       (s.bufferOf (.lit 15)).ridx ≠ (s.bufferOf (.lit 15)).tidx) := by
  decide

/-! ## Vectors -/

theorem witness_VectorArithmeticLanes :
    lab.Ready (needVV 4 5 0 3) ∧ lab.Ready (needVV 4 5 1 3) ∧ lab.Ready (needV 4 1 3) ∧
    lab.Ready { reads := [.v 4, .v 5, .v 3, .p 1], writes := [.v 3] } ∧ (1 : BitVec 2).toNat ≤ 1 := by
  simp only [ready_iff]
  decide

/-- The last lane and the first index past it; the last condition; reductions over all lanes and over none. -/
theorem witness_VectorLogicMovesAndCompares :
    lab.Ready (needVV 4 5 1 3) ∧ lab.Ready (needV 4 1 3) ∧ lab.Ready { reads := [.v 4, .v 5, .p 1], writes := [.v 3] } ∧
    lab.Ready { reads := [.v 4, .v 5], writes := [.v 3] } ∧ lab.Ready (needX [.reg 4] [] [.v 3]) ∧
    lab.Ready (needX [.reg 4, .lit 15] [.v 3] [.v 3]) ∧ lab.Ready (needX [.lit 15] [.v 4] [.s 3]) ∧ (lab.x (.lit 15)).toNat < 128 / 8 ∧
    ¬ (lab.x (.lit 16)).toNat < 128 / 8 ∧ lab.Ready (needX [.reg 4, .lit 16] [.v 3] [.v 3]) ∧ lab.Ready (needX [.lit 16] [.v 4] [.s 3]) ∧
    lab.Ready { reads := [.v 4, .v 5], writes := [.p 0] } ∧ lab.Ready { reads := [.v 4, .v 5], writes := [.p 1] } ∧
    lab.Ready { reads := [.v 4, .p 1], writes := [.s 3] } ∧ lab.pr 1 = 0 ∧ lab.pr 0 = 0xFFFF := by
  simp only [ready_iff]
  decide

/-- The highest k of each width of R260; thresholds of +0, −0 and the largest FP16. -/
theorem witness_VectorConversionsAndThresholds :
    lab.Ready { reads := [.v 4], writes := [.v 3] } ∧ lab.Ready { reads := [.v 4, .v 3], writes := [.v 3] } ∧
    (∀ e ∈ [(0, 3), (1, 1), (2, 1), (3, 1), (4, 0), (5, 0)], 16 * e.2 + 16 ≤ 128 / (subKind e.1).width) ∧
    (∀ e ∈ [(0, 7), (1, 3), (2, 3), (3, 3), (4, 1), (5, 1)], 8 * e.2 + 8 ≤ 128 / (subKind e.1).width) ∧
    lab.Ready { reads := [.v 4, .v 5], writes := [.v 3] } ∧ lab.Ready (needX [.reg 5] (.v 4 :: keepRead 1 3) [.v 3]) ∧
    thetaOk ((lab.x (.lit 0)).toNat % 65536) = true ∧ thetaOk ((lab.x (.lit 0x8000)).toNat % 65536) = true ∧
    thetaOk ((lab.x (.lit 0x7BFF)).toNat % 65536) = true := by
  simp only [ready_iff]
  decide

/-! ## The matrix array, the Pilot, weight-driven execution: heads -/

/-- A tile of 32 by 32 with operands of S8 and outputs of FP32; the same with operands of FP16 in its rows. -/
def tile : BitVec 256 := BitVec.ofNat 256 (16 * 7 + 2 ^ 9 * 7 + 2 ^ 32 * 0x0F + 2 ^ 192 * 0x1FE000 + 2 ^ 216 * 3)
def tileF : BitVec 256 := BitVec.ofNat 256 (16 * 12 + 2 ^ 9 * 7 + 2 ^ 32 * 0x0F + 2 ^ 192 * 0x1FE000 + 2 ^ 216 * 3)
def tiled : State := labCtx fun x => { x with tcsb := some tile, s := x.s.set 4 0x1000 }

theorem witness_ArrayHeadsEnterTheQueue :
    tiled.here.tcsb = some tile ∧ tcsbOk tile = true ∧ tiled.Ready {} ∧ tiled.arrayBusy tiled.cur.ctx = false ∧
    (tiled.modCtx 0 fun x => { x with arrayCmds := 16 }).arrayBusy tiled.cur.ctx = true ∧
    tiled.Ready (needX [.reg 4, .lit 3, .reg 5] [] []) ∧ (tiled.x (.lit 3)).toNat < 128 / tCols tile ∧ lineBytesOf tile (tFmtw tile) = 32 ∧
    (tiled.x (.lit 65528)).toNat ≤ 65528 ∧ (windowOf (vaOf (tiled.x (.reg 4)))).isSome = true ∧ vaOf (tiled.x (.reg 4)) % 8 = 0 ∧
    isLoc (tiled.x (.reg 4)) = true ∧ regionLimit false (tiled.x (.reg 4)) ((tCols tile - 1) * 32 + 32) = true ∧
    regionTraps false (tiled.agent 0) .load (tiled.x (.reg 4)) ((tCols tile - 1) * 32 + 32) = [] ∧
    tiled.Ready (needX [.reg 4, .lit 3, .reg 5, .reg 4] [] []) ∧ tFmtw tile ≠ 4 ∧
    regionLimit false (tiled.x (.reg 4)) (ceilDiv (tCols tile * tRows tile) 8) = true ∧
    regionTraps false (tiled.agent 0) .load (tiled.x (.reg 4)) (ceilDiv (tCols tile * tRows tile) 8) = [] ∧
    tiled.Ready (needX [.reg 4, .lit 3, .lit 0, .reg 5, .reg 6] [] []) ∧ mstrmLimits tile 3 0 128 32 = true ∧
    mstrmLimits tile 0 127 1 0 = true ∧ regionLimit true (tiled.x (.reg 4)) (127 * 32 + 32) = true ∧
    regionTraps true (tiled.agent 0) .load (tiled.x (.reg 4)) (127 * 32 + 32) = [] := by
  simp only [ready_iff]
  decide

theorem witness_ArrayHeadsEnterTheQueue_drains :
    tiled.Ready (needX [.reg 4, .lit 15, .lit 0, .lit 8, .reg 5, .reg 6] [] []) ∧ mdrainLimits tile 15 0 8 128 1024 = true ∧
    mdrainLimits tile 8 127 1 0 0 = true ∧ regionLimit false (tiled.x (.reg 4)) (drainBytes tile 15 8 128 1024) = true ∧
    regionTraps false (tiled.agent 0) .store (tiled.x (.reg 4)) (drainBytes tile 15 8 128 1024) = [] ∧
    tiled.Ready (needX [scX (.reg 4), .lit 1, .lit 0x7F7F] [] []) ∧ (tiled.x (.lit 0x7F7F)).toNat < 2 ^ 15 ∧
    (tiled.x (.lit 0x7F7F)).toNat % 128 + 1 ≤ 128 ∧ (tiled.x (.lit 0x7F7F)).toNat / 256 % 128 + 1 ≤ 128 ∧
    (tiled.x (.lit 0)).toNat % 128 + 128 ≤ 128 ∧ regionLimit false (tiled.sc (.reg 4)) 128 = true ∧
    regionTraps false (tiled.agent 0) .load (tiled.sc (.reg 4)) 128 = [] ∧ (tiled.x (.lit 0x7F7F)).getLsbD 7 = false ∧
    lab.here.tcsb = none ∧ lab.Ready {} ∧ lab.Ready (needX [.reg 4, .reg 5, .reg 6] [] []) ∧
    lab.Ready (needX [.reg 4, .reg 5, .reg 6, .reg 7] [] []) ∧ lab.Ready (needX [.reg 4, .reg 5, .reg 6, .reg 7, .reg 8] [] []) ∧
    lab.Ready (needX [.reg 4, .reg 5, .reg 6, .reg 7, .reg 8, .reg 9] [] []) ∧ lab.Ready (needX [scX (.reg 4), .reg 5, .reg 6] [] []) := by
  simp only [ready_iff]
  decide

/-- The tile's TCSB in own local memory, at 0x1000; zeros, which are none, stand at 0. -/
def tileHere : State := tiled.writeRun (localAt 0 0x1000) (bytesOfNat 32 tile.toNat)

theorem witness_ArrayHeadsEnterTheQueue_tcsb :
    tileHere.Ready (needX [scX (.reg 4)] [] []) ∧ regionLimit false (tileHere.sc (.reg 4)) 32 = true ∧
    regionTraps false (tileHere.agent tileHere.cur.ctx) .load (tileHere.sc (.reg 4)) 32 = [] ∧ vaOf (tileHere.sc (.reg 4)) % 8 = 0 ∧
    (∃ s1, tileHere.resolve (tileHere.agent tileHere.cur.ctx) .load (tileHere.sc (.reg 4)) (runFrom 0x1000 32) true true true =
      .ok (s1, mine 0x1000 32)) ∧ tileHere.Sound (mine 0x1000 32) ∧
    BitVec.ofNat 256 (natOfBytes ((mine 0x1000 32).map tileHere.byte)) = tile ∧ tcsbOk 0 = false ∧
    tileHere.here.arrayDone = true ∧ (tileHere.modCtx 0 fun x => { x with arrayCmds := 1 }).here.arrayDone = false ∧
    tileHere.here.auOpen = false ∧ (tileHere.modCtx 0 fun x => { x with auOpen := true }).here.arrayDone = true ∧
    tiled.Ready (needX [.reg 4] [] [.s 3]) ∧ tiled.x (.reg 4) ≠ 0 ∧ tiled.x (.lit 0) = 0 ∧
    regionTraps false (tiled.agent tiled.cur.ctx) .store (tiled.x (.reg 4)) 32 = [] ∧ Memory.wf tileHere.mem = true :=
  ⟨ready_of (by decide), by decide, by decide, by decide, found_of (by decide), fun _ _ => rfl, by decide, by decide, by decide, by decide,
    by decide, by decide, ready_of (by decide), by decide, by decide, by decide, by decide⟩

/-- A Pilot queue with n requests. -/
def pilotWith (n : Nat) : State :=
  (at4 0x1000).modCore 0 fun k => { k with pilotQ := List.replicate n (.pdec 0 0x1000 0x2000 .task) }

theorem witness_PilotHeadsEnterTheirQueues :
    (pilotWith 3).Ready (needX [.lit 3, scX (.reg 4), .lit 63] [] []) ∧ ((pilotWith 3).x (.lit 3)).toNat ≤ 3 ∧
    (pilotWith 3).ownsCounter ((pilotWith 3).x (.lit 63)) = true ∧ (windowOf (vaOf ((pilotWith 3).sc (.reg 4)))).isSome = true ∧
    vaOf ((pilotWith 3).sc (.reg 4)) % 64 = 0 ∧ isLoc ((pilotWith 3).sc (.reg 4)) = true ∧
    regionTraps false ((pilotWith 3).agent 0) .load ((pilotWith 3).sc (.reg 4)) 8 = [] ∧
    ¬ (Config.pilotQueueSlots ≤ ((pilotWith 3).core 0).pilotQ.length ∨ (pilotWith 3).quiet 0 = false) ∧
    Config.pilotQueueSlots ≤ ((pilotWith 4).core 0).pilotQ.length ∧ (pilotWith 4).Ready (needX [.lit 3, scX (.reg 4), .lit 63] [] []) ∧
    lab.Ready {} ∧ lab.Ready (needX [.lit 0, .reg 4, .lit 8] [] []) ∧ pconfOk 0 0x3C00 8 = true ∧ pconfOk 0 0 1 = true ∧
    pconfOk 0 0x3C00 9 = false ∧ (pilotWith 3).Ready (needX [scX (.reg 4), scX (.reg 4)] [] []) ∧
    ((pilotWith 3).dict (coreOf 0) 3).len = 16 ∧ (0 ≤ (3 : Lit).toInt ∧ (3 : Lit).toInt ≤ 3) ∧
    regionLimit false ((pilotWith 3).sc (.reg 4)) (4 * 16) = true ∧ regionLimit false ((pilotWith 3).sc (.reg 4)) (8 + 2 * 16) = true ∧
    regionTraps false ((pilotWith 3).agent 0) .load ((pilotWith 3).sc (.reg 4)) (4 * 16) = [] ∧
    regionTraps false ((pilotWith 3).agent 0) .store ((pilotWith 3).sc (.reg 4)) (8 + 2 * 16) = [] ∧
    regionTraps false ((pilotWith 3).agent 0) .store ((pilotWith 3).sc (.reg 4)) 64 = [] := by
  simp only [ready_iff]
  decide

/-- R283: a descriptor of one record at 0x2000, its table at 0x3000 and scales at 0x4000, its matrix at 0x5000. -/
def aimgHere : State :=
  (labCtx fun x => { x with tcsb := some tileF, s := x.s.set 4 0x1000 }).writeRun (localAt 0 0x1000)
    (bytesOfNat 8 0x2000 ++ bytesOfNat 2 40 ++ bytesOfNat 2 1 ++ bytesOfNat 1 3 ++ bytesOfNat 1 0 ++ bytesOfNat 2 32 ++
      bytesOfNat 8 0x0380000000003000 ++ bytesOfNat 8 0x4000 ++ bytesOfNat 8 0x5000 ++ bytesOfNat 2 64 ++ List.replicate 22 0)

theorem witness_PilotHeadsEnterTheirQueues_aimg :
    aimgHere.Ready (needX [scX (.reg 4), .lit 255] [] [.s 3, .v 3]) ∧ aimgHere.here.tcsb = some tileF ∧
    regionLimit false (aimgHere.sc (.reg 4)) 64 = true ∧
    regionTraps false (aimgHere.agent aimgHere.cur.ctx) .load (aimgHere.sc (.reg 4)) 64 = [] ∧ vaOf (aimgHere.sc (.reg 4)) % 8 = 0 ∧
    (∃ s1, aimgHere.resolve (aimgHere.agent aimgHere.cur.ctx) .load (aimgHere.sc (.reg 4)) (runFrom 0x1000 64) true true true =
      .ok (s1, mine 0x1000 64)) ∧ aimgHere.Sound (mine 0x1000 64) ∧
    (let y := (mine 0x1000 64).map aimgHere.byte
     let x := aimgDescOf y 255
     x.ok tileF = true ∧ fieldAt y 13 1 = 0 ∧ natOfBytes (y.drop 42) = 0 ∧ regionLimit false (BitVec.ofNat 64 x.recs) x.recArea = true ∧
       regionLimit false (BitVec.ofNat 64 x.out) (x.outArea tileF) = true ∧
       regionTraps false (aimgHere.agent aimgHere.cur.ctx) .load (BitVec.ofNat 64 x.recs) x.recArea = [] ∧
       regionTraps false (aimgHere.agent aimgHere.cur.ctx) .store (BitVec.ofNat 64 x.out) (x.outArea tileF) = []) ∧
    aimgHere.arrayBusy aimgHere.cur.ctx = false :=
  ⟨ready_of (by decide), by decide, by decide, by decide, by decide, found_of (by decide), fun _ _ => rfl, by decide, by decide⟩

/-- A context that enters at a block of global memory: alone, as a gang's leader, as a follower. -/
def entering (s : State) : State := s.modCtx 0 fun x => x.setReg (.s 4) 0x100000000
def follower : State := (ganged 2).modCsr 0 fun r => { r with gang := 2 }

theorem witness_WeightDrivenExecutionIsEntered :
    (∀ s ∈ [entering lab, entering (ganged 2), entering follower], readyB s (noSlot (needX [.reg 4, scX (.reg 5)] [] [.s 3])) = true ∧
      0 ≤ (15 : Lit).toInt ∧ (15 : Lit).toInt ≤ 15 ∧ regionLimit false (s.sc (.reg 5)) 128 = true ∧
      regionTraps false (s.agent 0) .load (s.sc (.reg 5)) 128 = [] ∧ vaOf (s.sc (.reg 5)) % 8 = 0 ∧ vaOf (s.x (.reg 4)) % 256 = 0 ∧
      windowOf (vaOf (s.x (.reg 4))) = some .glob) ∧
    (entering lab).here.csr.gang = 0 ∧ (entering follower).here.csr.gang = 2 ∧ (entering (ganged 2)).here.csr.gang = 1 ∧
    ((entering (ganged 2)).gangWith 0).isSome = true ∧ lab.Ready (needX [] [] [.s 3]) := by
  refine ⟨fun s hs => ?_, by decide, by decide, by decide, by decide, ready_of (by decide)⟩
  simp only [List.mem_cons, List.not_mem_nil, or_false] at hs
  rcases hs with rfl | rfl | rfl <;> decide

/-! ## The matrix array and the Pilot at work -/

/-- The array of cluster 0 holds the AU of context 0, whose first command is the image. -/
def serving (t : BitVec 256) (img : BitVec 256) : State :=
  ((labCtx fun x => { x with tcsb := some t, auOpen := true, arrayCmds := 1 }).modCore 0 fun k =>
    { k with arrayQ := [{ ctx := 0, img := img }] }).modArr 0 fun a => { a with owner := some 0 }

theorem serves_of {s : State} {k : ClusterId} {c : CtxId} {q : ACmd} {t : BitVec 256} {n : Nat}
    (h : s.arrayHead k = some (c, q) ∧ clusterOf (coreOf c) = k ∧ (s.ctx c).tcsb = some t ∧ imageKeeps t q = true ∧ q.code = n) :
    s.Serves k c q t n := ⟨h.1, h.2.1, h.2.2.1, h.2.2.2.1, h.2.2.2.2⟩

/-- Four parents of R277's example at 0x100 of own local memory. -/
def parented : State := (serving tile (imageOf [(0, 1, 8), (4, 1, 4), (8, 8, 0x100)])).writeRun (localAt 0 0x100) [0xFF, 0, 0, 1]

theorem witness_ArrayCommandsAndStreamsAreServed :
    (∀ e ∈ [(0x02, imageOf [(0, 1, 2)]), (0x05, imageOf [(0, 1, 5)])],
      (serving tile e.2).Serves 0 0 { ctx := 0, img := e.2 } tile e.1) ∧
    (let img := imageOf [(0, 1, 1), (2, 2, 32), (4, 1, 3), (8, 8, 0x1000)]
     (serving tile img).Serves 0 0 { ctx := 0, img := img } tile 0x01 ∧ ({ ctx := 0, img := img } : ACmd).flag 0 = false ∧
       ∃ r, (serving tile img).readTile ((serving tile img).agent 0) tile (BitVec.ofNat 64 0x1000) 32 none (tCols tile) = .ok r) ∧
    (let q : ACmd := { ctx := 0, img := imageOf [(0, 1, 8), (4, 1, 4), (8, 8, 0x100)] }
     parented.Serves 0 0 q tile 0x08 ∧ localRegion (parented.agent 0) .serviceRead (BitVec.ofNat 64 (q.field 8 8)) (q.field 4 1) = none ∧
       parented.Sound ((runFrom 0x100 4).map (localAt 0)) ∧
       (runFrom 0x100 4).map (fun v => parented.byte (localAt 0 v)) = [0xFF, 0, 0, 1] ∧
       ∀ i, i < 4 → ([0xFF, 0, 0, 1] : List Nat).getD i 0 = 0xFF ∨ ([0xFF, 0, 0, 1] : List Nat).getD i 0 < i) := by
  refine ⟨?_, ⟨serves_of (by decide), by decide,
    ?_⟩,
    serves_of (by decide), by decide, fun _ _ => rfl, by decide, by decide⟩
  · intro e he
    simp only [List.mem_cons, List.not_mem_nil, or_false] at he
    rcases he with rfl | rfl <;> exact serves_of (by decide)
  · have hv : ∀ i < tCols tile, vaOf (withVa (BitVec.ofNat 64 0x1000) (vaOf (BitVec.ofNat 64 0x1000) + i * 32)) + 32 ≤ 0x30000 := by decide
    obtain ⟨c, o, e⟩ := State.readTile_local (serving tile (imageOf [(0, 1, 1), (2, 2, 32), (4, 1, 3), (8, 8, 0x1000)]))
      ((serving tile (imageOf [(0, 1, 1), (2, 2, 32), (4, 1, 3), (8, 8, 0x1000)])).agent 0) tile (BitVec.ofNat 64 0x1000) 32 (by decide) (by decide)
      (tCols tile) fun i hi => ⟨hv i hi, holds_all (by decide) (hv i hi)⟩
    exact ⟨_, e⟩

/-- One row of a stream, the last of its command. -/
theorem witness_ArrayCommandsAndStreamsAreServed_stream :
    (let img := imageOf [(0, 1, 3), (6, 1, 1), (8, 8, 0x1000)]
     let q : ACmd := { ctx := 0, img := img }
     let s := serving tile img
     s.Serves 0 0 q tile 0x03 ∧ (s.cluster 0).arr.row + 1 = q.field 6 1 ∧
       (∃ r, s.svcRead (s.agent 0) (withVa (BitVec.ofNat 64 (q.field 8 8)) 0x1000) 32 true = .ok r)) := by
  exact ⟨serves_of (by decide), by decide, ok_of (by decide)⟩

theorem witness_AccumulationIsExact :
    (([] : List (Nat × Int)).map (·.1)).Nodup ∧ ({} : ACell).sp = 0 ∧
    ∃ st1, addProducts tile 0 ([(5, false), (-7, true)].map fun z => .fin z.1 z.2) ({ bw := [], mstat := 0, spills := [], count := 0 }, {}) =
      .ok st1 := ⟨by decide, by decide, ok_of (by decide)⟩

/-- A drain of one row of the tile's first panel to 0x1000, and of the same to core 3 of the cluster. -/
def drained : ACmd := { ctx := 0, img := imageOf [(0, 1, 4), (4, 1, 1), (6, 1, 1), (8, 8, 0x1000), (16, 4, 4096), (20, 4, 128)] }
def drainedFar : ACmd :=
  { ctx := 0, img := imageOf [(0, 1, 4), (1, 1, 8), (4, 1, 1), (6, 1, 1), (7, 1, 3), (8, 8, 0x8000), (16, 4, 4096), (20, 4, 128)] }
/-- The places of its row, as the statement computes them. -/
def drainPlaces (q : ACmd) (target : Nat) : List Nat :=
  let a := ((serving tile q.img).cluster 0).arr
  let table := fun (i : Nat) => (v16 (fieldAt [] (2 * i) 2), v32 (fieldAt [] (4 * i) 4))
  let places := ((onesOf 8 (q.field 4 1)).zipIdx).flatMap fun e => (List.range (q.field 6 1)).map fun i =>
    (e.1, q.field 5 1 + i, q.field 8 8 + e.2 * q.field 16 4 + i * q.field 20 4)
  let r := places.foldl (fun r e => drainRow tile a (a.bw ++ []) table e.1 e.2.1 e.2.2 r) { rows := [], flags := 0, drop := [], wovf := false }
  (r.rows.flatMap fun e => (List.range e.2.length).map fun j => (localAt target (e.1 + j), e.2.getD j 0)).map (·.1)

/-- The same of a group that holds every bank of core 3. -/
def lending : State := ((serving tile drainedFar.img).modCtx 0 fun x => { x with kind := .launched 0 }).modPart 0 fun q =>
  { q with
    pcl0 := 1
    groups := [(0, { num := 0, wave := 0, index := 0, desc := { cores := 2 }, cluster := 0
                     holds := [{ core := 3, lbanks := 0xFFF, ccown := 0, cbown := 0 }], members := [0, 12] })] }

theorem witness_DrainsAndAtomImagesAreServed :
    (let s := serving tile drained.img
     s.Serves 0 0 drained tile 0x04 ∧ tcsbOk tile = true ∧ Memory.wf s.mem = true ∧ drained.flag 3 = false ∧
       localRegion (s.agent 0) .serviceWrite (BitVec.ofNat 64 (drained.field 8 8))
         (drainBytes tile (drained.field 4 1) (drained.field 6 1) (drained.field 20 4) (drained.field 16 4)) = none ∧
       s.readTable 0 tile = .ok (s, [], []) ∧ s.readSpills 0 tile (s.cluster 0).arr.spills = .ok (s, []) ∧
       (drainPlaces drained 0).Nodup ∧ (drainPlaces drained 0).length = 128) ∧
    (let s := lending
     s.Serves 0 0 drainedFar tile 0x04 ∧ (Memory.wf s.mem = true ∧ drainedFar.flag 3 = true) ∧ s.readTable 0 tile = .ok (s, [], []) ∧
       s.readSpills 0 tile (s.cluster 0).arr.spills = .ok (s, []) ∧ s.groupHolds 0 3 (((onesOf 8 (drainedFar.field 4 1)).zipIdx).flatMap fun e => (List.range (drainedFar.field 6 1)).map fun i =>
         drainedFar.field 8 8 + e.2 * drainedFar.field 16 4 + i * drainedFar.field 20 4) (outBytesOf tile) = true ∧
       (drainPlaces drainedFar 3).Nodup) :=
  ⟨⟨serves_of (by decide), by decide, by decide, by decide, by decide, rfl, rfl, by decide +kernel,
      by decide +kernel⟩, serves_of (by decide), by decide, rfl, rfl, by decide, by decide +kernel⟩

/-- R283: an `aimg` of one record at 0x2000, which has one term; its bytes are those of R79. -/
def imaged : ACmd :=
  { ctx := 0
    img := imageOf [(0, 1, 0x15), (2, 2, 40), (6, 1, 1), (7, 1, 32), (8, 8, 0x0380000000003000), (16, 8, 0x4000), (24, 3, 0x2000), (27, 3, 0x5000),
      (30, 2, 64)] }
def recorded (s : State) : State := s.writeRun (localAt 0 0x2000) (bytesOfNat 8 1 ++ bytesOfNat 8 0 ++ bytesOfNat 8 0x3C00)

theorem witness_DrainsAndAtomImagesAreServed_aimg :
    (let d := aimgOfImage imaged
     let s := recorded (serving tileF imaged.img)
     let t : State := { s with full := [wordIx (localAt 0 0x2000)] }
     s.Serves 0 0 imaged tileF 0x15 ∧ d.ok tileF = true ∧ localRegion (s.agent 0) .serviceRead d.recPtr d.recArea = none ∧
       localRegion (s.agent 0) .serviceWrite d.outPtr (d.outArea tileF) = none ∧
       (∃ b, b < d.nb ∧ s.isFull (localAt 0 (d.recs + b * d.rstr)) = false) ∧ t.Serves 0 0 imaged tileF 0x15 ∧
       (∀ b, b < d.nb → t.isFull (localAt 0 (d.recs + b * d.rstr)) = true) ∧
       ∃ s1 recs, t.readRecs (t.agent 0) d d.nb = .ok (s1, recs) ∧
         ∃ r, s1.readColumns (t.agent 0) tileF d ((atomsOf recs d.start).take (tRows tileF)) = .ok r) := by
  refine ⟨serves_of (by decide), by decide, by decide, by decide, ⟨0, by decide, by decide⟩,
    serves_of (by decide), by decide, ?_⟩
  obtain ⟨⟨s1, recs⟩, h, g⟩ := okWith_of (r := ({ recorded (serving tileF imaged.img) with full := [wordIx (localAt 0 0x2000)] } : State).readRecs ((serving tileF imaged.img).agent 0)
      (aimgOfImage imaged) (aimgOfImage imaged).nb) (f := fun r =>
    okB (r.1.readColumns ((serving tileF imaged.img).agent 0) tileF (aimgOfImage imaged) ((atomsOf r.2 (aimgOfImage imaged).start).take (tRows tileF))))
    (by decide)
  exact ⟨s1, recs, h, ok_of g⟩

/-- A request of context 0 in the Pilot's queue of core 0; at 0x1000 a header of one atom of 16 elements, at 0x1100 one that is none, at
0x2000 a record of one term. -/
def asked (r : PilotReq) : State :=
  (recorded ((labCore fun k => { k with pilotQ := [r] }).writeRun (localAt 0 0x1100) [3])).modCluster 0 fun x => { x with pilotLast := 7 }

theorem witness_PilotRequestsAreServed :
    (let s := asked (.dload 0 3 0x1100 5 .task)
     s.PilotTakes 0 0 (.dload 0 3 0x1100 5 .task) [] ∧
       ∃ s1 h, (s.pilotTakes 0 0 0).svcRead { s.agent 0 with level := .task } 0x1100 8 true = .ok (s1, h) ∧ dictHeader (natOfBytes h) = none) ∧
    (let s := asked (.dload 0 3 0x1000 5 .task)
     s.PilotTakes 0 0 (.dload 0 3 0x1000 5 .task) [] ∧
       ∃ s1 h, (s.pilotTakes 0 0 0).svcRead { s.agent 0 with level := .task } 0x1000 8 true = .ok (s1, h) ∧
         dictHeader (natOfBytes h) = some (16, 1) ∧ ∃ r, s1.readAtoms { s.agent 0 with level := .task } 0x1000 16 1 = .ok r) ∧
    (let s := asked (.penc 0 0x3000 0x4000 0 0 0 8 .task)
     let g : Agent := { s.agent 0 with level := .task }
     s.PilotTakes 0 0 (.penc 0 0x3000 0x4000 0 0 0 8 .task) [] ∧ Memory.wf s.mem = true ∧ (s.dict 0 0).len = 16 ∧
       localRegion g .serviceRead 0x4000 64 = none ∧ localRegion g .serviceWrite 0x3000 40 = none ∧
       (pencRecord (s.dict 0 0) 0 0 0 8 ((List.range 16).map fun i => fieldAt (((runFrom 0x4000 64).map (localAt 0)).map s.byte) (4 * i) 4)).1.length
         ≤ 40 ∧ s.Sound ((runFrom 0x4000 64).map (localAt 0))) ∧
    (let s := asked (.pdec 0 0x3000 0x2000 .task)
     let g : Agent := { s.agent 0 with level := .task }
     s.PilotTakes 0 0 (.pdec 0 0x3000 0x2000 .task) [] ∧
       ∃ s1 len x, (s.pilotTakes 0 0 1).readRec g 0x2000 = .ok (s1, len, x) ∧ localRegion g .serviceWrite 0x3000 (4 * len) = none) := by
  refine ⟨⟨⟨by decide, by decide, by decide, 0, by decide⟩, ?_⟩, ⟨⟨by decide, by decide, by decide, 0, by decide⟩, ?_⟩,
    ⟨⟨by decide, by decide, by decide, 0, by decide⟩, by decide, by decide, by decide, by decide, by decide, fun _ _ => rfl⟩,
    ⟨by decide, by decide, by decide, 0, by decide⟩, ?_⟩
  · obtain ⟨⟨s1, h⟩, e, g⟩ := okWith_of (r := ((asked (.dload 0 3 0x1100 5 .task)).pilotTakes 0 0 0).svcRead { lab.agent 0 with level := .task } 0x1100 8 true)
      (f := fun r => (dictHeader (natOfBytes r.2)).isNone) (by decide)
    exact ⟨s1, h, e, Option.isNone_iff_eq_none.1 g⟩
  · obtain ⟨⟨s1, h⟩, e, g⟩ := okWith_of (r := ((asked (.dload 0 3 0x1000 5 .task)).pilotTakes 0 0 0).svcRead { lab.agent 0 with level := .task } 0x1000 8 true)
      (f := fun r => decide (dictHeader (natOfBytes r.2) = some (16, 1)) &&
      okB (r.1.readAtoms { lab.agent 0 with level := .task } 0x1000 16 1)) (by decide)
    rw [Bool.and_eq_true] at g
    exact ⟨s1, h, e, of_decide_eq_true g.1, ok_of g.2⟩
  · obtain ⟨⟨s1, len, x⟩, e, g⟩ := okWith_of (r := ((asked (.pdec 0 0x3000 0x2000 .task)).pilotTakes 0 0 1).readRec { lab.agent 0 with level := .task } 0x2000)
      (f := fun r =>
      (localRegion { lab.agent 0 with level := .task } .serviceWrite 0x3000 (4 * r.2.1)).isNone) (by decide)
    exact ⟨s1, len, x, e, Option.isNone_iff_eq_none.1 g⟩

/-- Context 0 has an open AU with one command, and the array is free. -/
def ready (f : Context → Context) : State :=
  ((labCtx fun x => f { x with auOpen := true, arrayCmds := 1 }).modCore 0 fun k => { k with arrayQ := [{ ctx := 0, img := imageOf [(0, 1, 2)] }] }).modCluster
    0 fun x => { x with arrayLast := 7, credits := [1, 0, 0, 0, 0, 0, 0, 0] }
/-- It stays frozen in the array, marked for restore. -/
def frozenAu : State := (ready fun x => { x with auMarked := true }).modArr 0 fun a => { a with owner := some 0, frozen := true }

theorem picks_of {s : State} {k : ClusterId} {i : Nat} {c : CtxId} {l : List Nat}
    (h : (s.cluster k).arr.owner = none ∧ i < 8 ∧ s.auReady ((s.cluster k).scanned k i) = some c ∧
      ((∃ j, j < 8 ∧ (s.auReady ((s.cluster k).scanned k j)).isSome = true ∧ 0 < (s.cluster k).credit ((s.cluster k).scanned k j)) →
        l = (s.cluster k).credits) ∧
      ((∀ j, j < 8 → (s.auReady ((s.cluster k).scanned k j)).isSome = true → (s.cluster k).credit ((s.cluster k).scanned k j) = 0) →
        l = (List.range 8).map (mqwOf (s.cluster k).mqw)) ∧
      0 < l.getD ((s.cluster k).scanned k i % 8) 0 ∧
      ∀ j, j < i → (s.auReady ((s.cluster k).scanned k j)).isSome = true → l.getD ((s.cluster k).scanned k j % 8) 0 = 0) :
    s.Picks k i c l := ⟨h.1, h.2.1, h.2.2.1, h.2.2.2.1, h.2.2.2.2.1, h.2.2.2.2.2.1, h.2.2.2.2.2.2⟩

theorem witness_AccumulationUnitsAreGrantedAndRestored :
    ((ready id).Picks 0 0 0 [1, 0, 0, 0, 0, 0, 0, 0] ∧ ((ready id).ctx 0).auMarked = false) ∧
    (let s := (ready id).modCluster 0 fun x => { x with credits := [] }
     s.Picks 0 0 0 ((List.range 8).map (mqwOf (s.cluster 0).mqw))) ∧
    (let s := ready fun x => { x with auMarked := true }
     s.Picks 0 0 0 [1, 0, 0, 0, 0, 0, 0, 0] ∧ (∀ e ∈ (s.cluster 0).images, e.1 ≠ 0) ∧ (s.ctx 0).auMarked = true ∧ (s.ctx 0).auFrame = none) ∧
    (let s := ready fun x => { x with auMarked := true, auFrame := some 0 }
     s.Picks 0 0 0 [1, 0, 0, 0, 0, 0, 0, 0] ∧ (s.ctx 0).auFrame = some 0 ∧ Memory.wf s.mem = true ∧
       0 + Config.frameImageBytes ≤ lpctOff ∧ s.Sound (runFrom (dieAt (dieOf (coreOf 0)) 0) Config.frameImageBytes)) ∧
    (frozenAu.cluster 0).arr.owner = some 0 ∧ (frozenAu.cluster 0).arr.frozen = true ∧ frozenAu.auReady (coreOf 0) = some 0 ∧
    (frozenAu.ctx 0).auMarked = true ∧ (frozenAu.ctx 0).auFrame = none ∧ ∀ e ∈ (frozenAu.cluster 0).images, e.1 ≠ 0 :=
  ⟨⟨picks_of (by decide), by decide⟩,
    picks_of (by decide),
    ⟨picks_of (by decide), by decide, by decide, by decide⟩,
    ⟨picks_of (by decide), by decide, by decide, by decide, fun _ _ => rfl⟩, by decide,
    by decide, by decide, by decide, by decide, by decide⟩

/-! ## The copy engine at work -/

/-- A command of context 0 that moves eight bytes at 0x1000 of own local memory; a buffer; memory that commands read. -/
def order (k : EngKind) : EngCmd :=
  { seq := 9, kind := k, ctx := 0, hkey := 0, lbanks := 0xFFF, level := .task, role := .plain, group := some 0, started := true
    remote := 0x2000, loc := 0x1000, list := 0x3000, count := 8, tab := 7 }
def port (l : List EngCmd) : State :=
  ((labCore fun k => { k with
    port := l, banks := Vector.replicate 12 (.group 0)
    buffers := [(7, { cfg := true, eng := true, base := 0x5000, slot := 64, count := 2, free := 2 })] }).modPart 0 (fun x => { x with pcl0 := 1 })).writeRun (localAt 0 0x3000)
    (bytesOfNat 4 0x4000 ++ bytesOfNat 2 8)
def portFull (l : List EngCmd) : State := (port l).modCore 0 fun k =>
  { k with buffers := [(7, { cfg := true, eng := true, base := 0x5000, slot := 64, count := 2, filled := 2 })] }
/-- The commands of a port, its buffer of n free slots. -/
def begun (e : EngCmd) (n : Nat) : State := labCore fun k =>
  { k with port := [e], buffers := [(7, { cfg := true, eng := true, base := 0x5000, slot := 64, count := 2, free := n })] }
def idle (k : EngKind) : EngCmd := { order k with started := false }
theorem begun_port (e : EngCmd) (n : Nat) : ((begun e n).core 0).port = [e] := by simp [begun, labCore]
theorem next_of {x : Core} {e : EngCmd} (h : e.started = false) (hp : x.port = [e]) : x.Next e := by
  unfold Core.Next
  exact ⟨h, [], [], hp, by simp⟩
/-- To and from the die store. -/
def far (k : EngKind) : EngCmd := { order k with remote := 0x0600000020000000 }
def moving (e : EngCmd) (d : Nat) : State :=
  (port [e]).modCore 0 fun k => { k with transit := [{ cmd := 9, elem := 0, dest := d, bytes := [1, 2, 3, 4, 5, 6, 7, 8] }] }

theorem witness_EngineCommandsStartAndMovePieces :
    ((begun (idle .get) 0).core 0).Next (idle .get) ∧ (¬ ∃ r ∈ ((begun (idle .get) 0).core 0).fabric, r.ctx = 0 ∧ r.seq < 9) ∧
    (let s := (begun (idle .get) 0).modCore 0 fun k => { k with fabric := [farLoad] }
     (s.core 0).Next (idle .get) ∧ ∃ r ∈ (s.core 0).fabric, r.ctx = 0 ∧ r.seq < 9) ∧
    ((begun (idle .cpyCb) 2).core 0).Next (idle .cpyCb) ∧ ((begun (idle .cpyCb) 2).buffer 0 7).free ≠ 0 ∧
    ((begun (idle .cpyCb) 0).core 0).Next (idle .cpyCb) ∧ ((begun (idle .cpyCb) 0).buffer 0 7).free = 0 :=
  ⟨next_of rfl (begun_port _ _), by decide, ⟨next_of rfl (by simp [begun, labCore]), by decide⟩, next_of rfl (begun_port _ _), by decide,
    next_of rfl (begun_port _ _), by decide⟩

/-- The conditions under which a command's next element is read. -/
def reads (s : State) (e : EngCmd) : Prop :=
  s.InPort 0 9 e ∧ e.kind.pieces = true ∧ e.started = true ∧ e.next < e.total ∧ (s.core 0).inTransit + e.elem ≤ 32768 ∧
    (s.core 0).mayFollow e = true ∧
    ∀ va r, e.kind.outward = false → s.farElem 0 e e.next = some va → s.farRoute 0 e va e.elem = some r → s.routeHeld 0 s.seq r = false
theorem reads_of {s : State} {e : EngCmd} (h : s.InPort 0 9 e ∧ e.kind.pieces = true ∧ e.started = true ∧ e.next < e.total ∧
    (s.core 0).inTransit + e.elem ≤ 32768 ∧ (s.core 0).mayFollow e = true)
    (hf : (s.core 0).transit = [] ∧ (s.core 0).fabric = [] ∧ s.messagesOf 0 = []) : reads s e :=
  ⟨h.1, h.2.1, h.2.2.1, h.2.2.2.1, h.2.2.2.2.1, h.2.2.2.2.2, fun _ _ _ _ _ => by
    simp [State.routeHeld, State.routeBusy, hf.1, hf.2.1, hf.2.2]⟩
/-- A `put` to a core of a package that no port leads to. -/
def abroad : EngCmd := { order .put with place := 0x400 }

theorem witness_EngineCommandsStartAndMovePieces_reads :
    (let e := order .put
     reads (port [e]) e ∧ (port [e]).cmdPath 0 e 0x2000 = some [] ∧ ∃ r, (port [e]).readElem 0 e 0 = .ok r) ∧
    (let e := order .get
     reads (port [e]) e ∧ (port [e]).cmdPath 0 e 0x2000 = some [] ∧ ∃ r, (port [e]).readElem 0 e 0 = .ok r) ∧
    (let s := labCore fun k => { k with port := [order .put] }
     reads s (order .put) ∧ ∃ r, s.readElem 0 (order .put) 0 = .error r) ∧
    (reads (port [abroad]) abroad ∧ (port [abroad]).cmdPath 0 abroad 0x2000 = none) := by
  refine ⟨⟨reads_of ?_ ?_, ?_, ok_of ?_⟩, ⟨reads_of ?_ ?_, ?_, ok_of ?_⟩, ⟨reads_of ?_ ?_, err_of ?_⟩, reads_of ?_ ?_, ?_⟩ <;>
    decide

/-- A piece that a port has on its way, and what its statement asks of it. -/
def onWay (s : State) (n : Nat) (e : EngCmd) (blocked : Bool) : Prop :=
  s.InPort 0 9 e ∧ ∃ x, (s.core 0).transit[n]? = some x ∧ x.cmd = 9 ∧ (x.src ≠ none → e.kind = .sendl ∧ x.bytes.length = 8) ∧
    s.pieceBlocked 0 e x = blocked

theorem witness_EngineCommandsStartAndMovePieces_pieces :
    (let e := order .put
     let s := moving e 0x2000
     onWay s 0 e false ∧ (∃ a, s.remotePlace 0 e 0x2000 8 = .ok a) ∧ ∃ r, s.remotePlace 0 e 0x10000000 8 = .error r) ∧
    (let e := far .cpyFrom
     let s := moving e 0x20000000
     onWay s 0 e false ∧ (∃ r, s.farPlace 0 e .serviceWrite 0x20000000 8 = .ok r ∧ r.1.cPage 0 e 0x20000000 = false) ∧
       ∃ r, s.farPlace 0 e .serviceWrite 0x30000000 8 = .error r) ∧
    (let s := moving (order .get) 0x1000
     onWay s 0 (order .get) false ∧ s.nearOn 0 0x1000 = true) ∧
    (let s := (moving (order .get) 0x1000).modCore 0 fun k => { k with banks := Vector.replicate 12 .off }
     onWay s 0 (order .get) false ∧ s.nearOn 0 0x1000 = false) := by
  refine ⟨⟨⟨?_, _, rfl, ?_⟩, ok_of ?_, err_of ?_⟩, ⟨⟨?_, _, rfl, ?_⟩, ?_, err_of ?_⟩, ⟨⟨?_, _, rfl, ?_⟩, ?_⟩, ⟨?_, _, rfl, ?_⟩, ?_⟩
  case refine_7 =>
    obtain ⟨r, h, g⟩ := okWith_of (r := (moving (far .cpyFrom) 0x20000000).farPlace 0 (far .cpyFrom) .serviceWrite 0x20000000 8)
      (f := fun r => r.1.cPage 0 (far .cpyFrom) 0x20000000 == false) (by decide)
    exact ⟨r, h, by simpa using g⟩
  all_goals decide

/-- A word of an entry and the prefix word behind it, which waits for it; a word whose bytes have been written over since; an element
that an earlier entry of a `putx` named; a piece behind another one of its route. -/
def entry (l : List Byte) : State := (moving (order .sendl) 0x5008).modCore 0 fun k =>
  { k with transit := [{ cmd := 9, elem := 0, dest := 0x5008, bytes := l, src := some (localAt 0 0x3000, 8) },
                       { cmd := 9, elem := 0, dest := 0x5000, bytes := bytesOfNat 8 8 }] }
def lastWord : State := (entry []).modCore 0 fun k => { k with transit := k.transit.drop 1 }

theorem witness_EngineCommandsStartAndMovePieces_entries :
    (let s := entry ((port []).readRun (localAt 0 0x3000) 8)
     onWay s 0 (order .sendl) false ∧ onWay s 1 (order .sendl) true ∧ s.unreachable (s.partOf 0 % 16) 0 = false ∧
       s.nearOn 0 0x5008 = true) ∧
    (let s := entry (bytesOfNat 8 5)
     onWay s 0 (order .sendl) false ∧ ∃ x, (s.core 0).transit[0]? = some x ∧
       (x.src.map fun a => bytesAt (s.readRun a.1 a.2) 0 8) ≠ some x.bytes) ∧
    (onWay lastWord 0 (order .sendl) false ∧ lastWord.nearOn 0 0x5000 = true) ∧
    (let e : EngCmd := { order .putx with written := [(0x2000, bytesOfNat 8 7)] }
     onWay (moving e 0x2000) 0 e false ∧ e.wrote { cmd := 9, elem := 0, dest := 0x2000, bytes := bytesOfNat 8 1 } = some (bytesOfNat 8 7)) ∧
    (let s := (moving (order .put) 0x2000).modCore 0 fun k =>
       { k with transit := [{ cmd := 9, elem := 0, dest := 0x2000, bytes := [], seq := 1, route := some (3, 2) },
                            { cmd := 9, elem := 1, dest := 0x2008, bytes := [], seq := 2, route := some (3, 2) }] }
     onWay s 1 (order .put) true) := by
  refine ⟨⟨⟨?_, _, rfl, ?_⟩, ⟨?_, _, rfl, ?_⟩, ?_, ?_⟩, ⟨⟨?_, _, rfl, ?_⟩, _, rfl, ?_⟩, ⟨⟨?_, _, rfl, ?_⟩, ?_⟩, ⟨⟨?_, _, rfl, ?_⟩, ?_⟩, ?_, _, rfl, ?_⟩ <;>
    decide

def endedCmd : EngCmd := { order .get with next := 1 }
def failedCmd : EngCmd := { order .get with next := 1, err := some (0, 5, 0) }
def listed (n : Nat) (sd : Option SReg) : EngCmd := { order .sendl with count := n, sd := sd }

theorem witness_CommandsEndAndListsAndBlocksMove :
    (port [order .get]).InPort 0 9 (order .get) ∧ ¬ (port [order .get]).Ended 0 (order .get) ∧
    (port [endedCmd]).InPort 0 9 endedCmd ∧ (port [endedCmd]).Ended 0 endedCmd ∧
    (port [failedCmd]).InPort 0 9 failedCmd ∧ (port [failedCmd]).Ended 0 failedCmd :=
  ⟨by decide, fun h => absurd h.2.1 (by decide), by decide, ⟨rfl, by decide⟩,
    by decide, rfl, by decide⟩

/-- A list may move: its next entry has its place in the remote buffer. -/
abbrev lists (s : State) (e : EngCmd) : Prop := s.InPort 0 9 e ∧ e.kind = .sendl ∧ e.started = true ∧ (s.core 0).mayFollow e = true
abbrev receives (s : State) (e : EngCmd) : Prop :=
  e.next < e.count ∧ s.refused 0 0 0 = false ∧ (s.buffer 0 7).cfg = true ∧ (s.buffer 0 7).eng = true ∧
    s.nearOn 0 (vaOf (s.buffer 0 7).base) = true
/-- The same where the entry's bytes lie in a bank without power. -/
def darkEntry (l : List EngCmd) : State := (port l).modCore 0 fun k =>
  { k with banks := (Vector.replicate 12 (.group 0)).set 1 .off }

theorem witness_CommandsEndAndListsAndBlocksMove_lists :
    (let e := listed 1 (some 3)
     let s := port [e]
     (lists s e ∧ receives s e ∧ (s.buffer 0 7).free ≠ 0) ∧ (∃ l, s.entryBytes 0 e 0x4000 8 = .ok l) ∧
       ∃ w, s.nearRead 0 e 0x3000 8 = .ok w ∧ fieldAt w 0 4 = 0x4000 ∧ fieldAt w 4 2 = 8 ∧ 8 + 8 ≤ (s.buffer 0 7).slot ∧
         (s.core 0).inTransit + roundUp 8 8 + 8 ≤ 32768) ∧
    (let e := listed 1 (some 3)
     let s := darkEntry [e]
     (lists s e ∧ ((localRegion (s.engAgent 0 e) .load (BitVec.ofNat 64 0x4000) 8).isNone && (regionProbes 0x4000 8).all (s.bankOn 0)) = false) ∧
       ∃ w, s.nearRead 0 e 0x3000 8 = .ok w ∧ fieldAt w 0 4 = 0x4000 ∧ fieldAt w 4 2 = 8) ∧
    (let e := listed 1 (some 3)
     lists (portFull [e]) e ∧ receives (portFull [e]) e ∧ ((portFull [e]).buffer 0 7).free = 0) ∧
    (let e : EngCmd := { listed 1 (some 3) with next := 1, taken := 1 }
     lists (port [e]) e ∧ e.count ≤ e.next ∧ e.sd ≠ none) ∧
    (let e := listed 0 none
     lists (port [e]) e ∧ e.count ≤ e.next) := by
  have hw : ∀ s : State, okWith (s.nearRead 0 (listed 1 (some 3)) 0x3000 8)
      (fun w => decide (fieldAt w 0 4 = 0x4000) && decide (fieldAt w 4 2 = 8)) = true →
      ∃ w, s.nearRead 0 (listed 1 (some 3)) 0x3000 8 = .ok w ∧ fieldAt w 0 4 = 0x4000 ∧ fieldAt w 4 2 = 8 := fun s hs => by
    obtain ⟨w, h, g⟩ := okWith_of hs
    rw [Bool.and_eq_true] at g
    exact ⟨w, h, of_decide_eq_true g.1, of_decide_eq_true g.2⟩
  obtain ⟨w, h, ha, hl⟩ := hw (port [listed 1 (some 3)]) (by decide)
  refine ⟨⟨?_, ok_of (by decide), w, h, ha, hl, by decide⟩, ⟨?_, hw _ (by decide)⟩, ?_, ?_, ?_⟩ <;>
    decide

/-- A byte of the entry with an uncorrectable error; a remote buffer in package 1, where of two ports one leads on to nowhere. -/
def rottenEntry (l : List EngCmd) : State := { port l with poison := [wordIx (localAt 0 0x4000)] }
def crossed (e : EngCmd) : State :=
  (((port [e]).modPkg 0 fun g => { g with ports := [(0, { up := true, peerPkg := 1 }), (1, { up := true, peerPkg := 2 })], routes := [(1, 3)] }).modPart 16
    fun x => { x with pcl0 := 1 }).modCore 1024 fun k => { k with
      banks := Vector.replicate 12 (.group 0)
      buffers := [(7, { cfg := true, eng := true, base := 0x5000, slot := 64, count := 2, free := 2 })] }

theorem witness_CommandsEndAndListsAndBlocksMove_stops :
    (let e := listed 1 (some 3)
     let s := rottenEntry [e]
     (lists s e ∧ receives s e ∧ (s.buffer 0 7).free ≠ 0) ∧
       ((localRegion (s.engAgent 0 e) .load (BitVec.ofNat 64 0x4000) 8).isNone && (regionProbes 0x4000 8).all (s.bankOn 0)) = true ∧
       (runFrom 0x4000 8).find? (fun x => s.poisoned (localAt 0 x)) = some 0x4000) ∧
    (let e : EngCmd := { listed 1 (some 3) with place := 1024 }
     let s := crossed e
     let b := s.buffer 1024 7
     lists s e ∧ s.refused 0 1024 0 = false ∧ b.cfg = true ∧ b.eng = true ∧ s.nearOn 1024 (vaOf b.base) = true ∧ b.free ≠ 0 ∧
       okB (s.entryBytes 0 e 0x4000 8) = true ∧ ∃ i, i ≤ ceilDiv 8 8 ∧ s.cmdPath 0 e (b.slotVa b.aidx + 8 * i) = none) := by
  decide

/-- A record of eight bytes as they stand, in the die store. -/
def raw (l : List EngCmd) : State := (port l).writeRun (dieAt 0 0) (bytesOfNat 8 (32 + 2 ^ 16 * 8) ++ [1, 2, 3, 4, 5, 6, 7, 8])
/-- The next block of a command may move. -/
abbrev blockMay (s : State) (e : EngCmd) : Prop :=
  s.InPort 0 9 e ∧ e.started = true ∧ e.next < e.total ∧ (s.core 0).mayFollow e = true ∧
    s.runHeld 0 e (vaOf e.remote + e.imgOff) (8 + roundUp (e.blockLen e.next) 8) = false

theorem witness_CommandsEndAndListsAndBlocksMove_cpyz :
    (let e := far .cpyzC
     let s := port [e]
     blockMay s e ∧ ∃ block, s.entryBytes 0 e 0x1000 (e.blockLen 0) = .ok block ∧
       s.suppressed 0 e 0x20000000 = false ∧
       let z := (s.zTable 0 7).forCommand 9
       let y := zRecord (fmtOf e.remote) 7 z.1 z.2 block
       ∃ s1, s.farWriteWords 0 e 0x20000000 y 0x20000000 y.length (y.length / 8) = (s1, none)) ∧
    (let e := far .cpyzE
     let s := raw [e]
     blockMay s e ∧ ((∀ v ∈ regionProbes 0x1000 (e.blockLen 0), s.bankOn 0 v = true) ∧ Memory.wf s.mem = true) ∧
       ∃ r, s.readRecord 0 e (e.blockLen 0) = .ok r ∧ r.2.1.length % 8 = 0 ∧ r.2.1.length ≤ 4096) ∧
    (let e := far .cpyzE
     blockMay (port [e]) e ∧ ∃ r, (port [e]).readRecord 0 e (e.blockLen 0) = .error r) := by
  refine ⟨⟨by decide, ?_⟩, ⟨by decide, by decide, ?_⟩,
    by decide, err_of (by decide)⟩
  · refine ⟨List.replicate 8 0, ?_, by decide, fst_of (by decide)⟩
    obtain ⟨b, h, g⟩ := okWith_of (r := (port [far .cpyzC]).entryBytes 0 (far .cpyzC) 0x1000 ((far .cpyzC).blockLen 0))
      (f := fun b => decide (b = List.replicate 8 0)) (by decide)
    exact h.trans (by rw [of_decide_eq_true g])
  · obtain ⟨r, h, g⟩ := okWith_of (r := (raw [far .cpyzE]).readRecord 0 (far .cpyzE) ((far .cpyzE).blockLen 0))
      (f := fun r => decide (r.2.1.length % 8 = 0 ∧ r.2.1.length ≤ 4096)) (by decide)
    exact ⟨r, h, of_decide_eq_true g⟩

/-- R284: a descriptor at 0x1000 whose rows of eight bytes stand in the die store, and a path of its one speculative row. -/
def kvBytes : List Byte :=
  bytesOfNat 8 0x20000000 ++ bytesOfNat 4 8 ++ bytesOfNat 4 4 ++ bytesOfNat 4 4 ++ bytesOfNat 2 1 ++ bytesOfNat 2 0 ++ bytesOfNat 8 0 ++ bytesOfNat 32 1
def kept (l : List EngCmd) : State :=
  (port l).writeRun (localAt 0 0x1000) kvBytes
def kv : EngCmd := { order .kvcommit with count := 1 }

/-- A commit may be served, as its descriptor and path are read. -/
abbrev commitMay (s : State) (e : EngCmd) : Prop :=
  s.InPort 0 9 e ∧ e.kind = .kvcommit ∧ e.started = true ∧ e.next = 0 ∧ (s.core 0).mayFollow e = true ∧ s.kvHeld 0 e = false

theorem witness_CommandsEndAndListsAndBlocksMove_kvcommit :
    (let s := kept [{ kv with seq := 5, next := 1 }, kv]
     (commitMay s kv ∧ ∃ f ∈ (s.core 0).port, f.kind = .kvcommit ∧ vaOf f.loc = vaOf kv.loc ∧ f.seq < 9) ∧
       (∃ r, s.entryBytes 0 kv 0x1000 64 = .ok r) ∧ ∃ r, s.entryBytes 0 kv 0x3000 1 = .ok r) ∧
    (let s := port [kv]
     commitMay s kv ∧ (∃ desc, s.entryBytes 0 kv 0x1000 64 = .ok desc ∧ kvDescOk desc 0 1 = false) ∧
       ∃ r, s.entryBytes 0 kv 0x3000 1 = .ok r) ∧
    (let s := kept [{ kv with list := 0x3002 }]
     let e : EngCmd := { kv with list := 0x3002 }
     commitMay s e ∧ ∃ desc path, s.entryBytes 0 e 0x1000 64 = .ok desc ∧ s.entryBytes 0 e 0x3002 1 = .ok path ∧ kvDescOk desc 0 1 = true ∧
       (∀ b ∈ path, b.toNat < (kvDescOf desc).nspec ∧ bitOf (kvDescOf desc).live b.toNat = true) ∧
       ∃ s1, s.moveRows 0 { e with remote := (kvDescOf desc).rows } (kvDescOf desc) 0 path = (s1, none) ∧ s1.command 0 9 = some e ∧
         Memory.wf s1.mem = true) := by
  refine ⟨⟨by decide, ok_of (by decide), ok_of (by decide)⟩, ?_, by decide, ?_⟩
  · obtain ⟨b, h, g⟩ := okWith_of (r := (port [kv]).entryBytes 0 kv 0x1000 64) (f := fun b => decide (kvDescOk b 0 1 = false)) (by decide)
    exact ⟨by decide, ⟨b, h, of_decide_eq_true g⟩, ok_of (by decide)⟩
  · obtain ⟨b, h, g⟩ := okWith_of (r := (kept [{ kv with list := 0x3002 }]).entryBytes 0 { kv with list := 0x3002 } 0x1000 64)
      (f := fun b => decide (b = kvBytes)) (by decide)
    obtain ⟨p, hp, gp⟩ := okWith_of (r := (kept [{ kv with list := 0x3002 }]).entryBytes 0 { kv with list := 0x3002 } 0x3002 1)
      (f := fun b => decide (b = [0])) (by decide)
    obtain rfl := of_decide_eq_true g
    obtain rfl := of_decide_eq_true gp
    exact ⟨_, _, h, hp, by decide, by decide, _, Prod.ext rfl (by decide), by decide⟩

/-! ## Weight-driven execution -/

/-- A block's bytes, without its CRC and the rest of its 256 bytes. -/
def blockBytes (opc plen bfmt route dcore dslot succ : Nat) (pay : List Byte) : List Byte :=
  bytesOfNat 2 opc ++ bytesOfNat 2 plen ++ bytesOfNat 1 bfmt ++ bytesOfNat 1 route ++ bytesOfNat 1 dcore ++ bytesOfNat 1 dslot ++
    bytesOfNat 4 succ ++ bytesOfNat 4 0 ++ pay
/-- Context 0 is in weight-driven execution, at unit n of a block. -/
def chained (t : BitVec 256) (l : Option (List Byte)) (n : Nat) (f : Wde → Wde) : State := labCtx fun x =>
  { x with
    tcsb := some t, csr := { x.csr with wde := true }
    wde := f { block := 0x100000000, slots := 0x6000, fetched := l, unit := n, sd := 3 } }
theorem at_unit {s : State} {l : List Byte} {opc n : Nat} (h0 : (s.ctx 0).run = .running) (h1 : (s.ctx 0).inChain = true)
    (h2 : s.beforeHead 0 = none) (h3 : (s.ctx 0).wde.fetched = some l) (h4 : (s.ctx 0).wde.unit = n) (h : (wblockOf l).opc = opc)
    (hn : n < (wblockOf l).units) : s.AtUnit 0 (wblockOf l) opc n := ⟨h0, h1, h2, ⟨l, h3, rfl⟩, h, h4, hn⟩

/-- R112: the chain's next block, in a page of weights at the lowest address: a no-op, or an opcode that is none. -/
def fetching (opc crc : Nat) : State :=
  ((chained tile none 0 id).modCluster 0 fun k => { k with tlb := [{ part := 0, va := 0x10000, lg := 16, leaf := 0x7C }] }).writeRun 0
    (bytesOfNat 12 opc ++ bytesOfNat 4 crc)

/-- A slot of the table in own local memory reads as the word there. -/
theorem slot_of (s : State) (k : Nat) (h : vaOf (BitVec.ofNat 64 (vaOf (s.ctx 0).wde.slots + 8 * k)) + 8 ≤ 0x30000) (hb : (s.agent 0).lbanks = 0xFFF)
    (hp : s.poison = []) : ∃ w, s.slotEntry 0 k = .ok (s, w) ∧
      w = wordOfBytes (s.bytesOf ((runFrom (vaOf (BitVec.ofNat 64 (vaOf (s.ctx 0).wde.slots + 8 * k))) 8).map (localAt (s.agent 0).core))) := by
  refine ⟨_, ?_, rfl⟩
  unfold State.slotEntry
  rw [State.svcRead_local _ _ _ _ (by decide) h (holds_all hb h) hp]

theorem witness_WeightBlocksAreFetchedAndCommandTheArray :
    (∀ s ∈ [chained tile none 0 id, fetching 0 0xA66359F1, fetching 0xFF 0x2B12D691],
      (s.ctx 0).run = .running ∧ (s.ctx 0).inChain = true ∧ s.beforeHead 0 = none ∧ (s.ctx 0).wde.fetched = none) ∧
    (∃ e, (chained tile none 0 id).fetchBlock 0 = .error e) ∧
    (∃ r, (fetching 0xFF 0x2B12D691).fetchBlock 0 = .ok r ∧ headerKind (wblockOf r.2) (coreOf 0 % 8) = some 0) ∧
    ∃ r, (fetching 0 0xA66359F1).fetchBlock 0 = .ok r ∧ headerKind (wblockOf r.2) (coreOf 0 % 8) = none := by
  refine ⟨?_, err_of (by decide), ?_, ?_⟩
  · intro s hs
    simp only [List.mem_cons, List.not_mem_nil, or_false] at hs
    rcases hs with rfl | rfl | rfl <;> exact ⟨rfl, rfl, rfl, rfl⟩
  · obtain ⟨r, h, g⟩ := okWith_of (r := (fetching 0xFF 0x2B12D691).fetchBlock 0)
      (f := fun r => decide (headerKind (wblockOf r.2) (coreOf 0 % 8) = some 0)) (by decide +kernel)
    exact ⟨r, h, of_decide_eq_true g⟩
  · obtain ⟨r, h, g⟩ := okWith_of (r := (fetching 0 0xA66359F1).fetchBlock 0)
      (f := fun r => decide (headerKind (wblockOf r.2) (coreOf 0 % 8) = none)) (by decide +kernel)
    exact ⟨r, h, of_decide_eq_true g⟩

/-- A command of the chain stands in its core's queue. -/
def waiting (s : State) : State := s.modCore 0 fun k => { k with arrayQ := [{ ctx := 0, img := imageOf [(1, 1, 4)] }] }

def noOpBlock : List Byte := blockBytes 0 0 0 0 0 0 1 []
def swapBlock : List Byte := blockBytes 2 0 0 0 0 0 1 []
/-- One row to panel 0 from the address in slot 0, and a payload that breaks a limit. -/
def streamBlock (bad : Nat) : List Byte := blockBytes 3 8 0 0 0 0 1 (bytesOfNat 8 (2 ^ 16 * 1 + 2 ^ 24 * bad))
/-- One row of panel 0 to the address in slot 0, on a core of the cluster. -/
def drainBlock (core : Nat) : List Byte := blockBytes 4 8 0 0 core 0 1 (bytesOfNat 8 (2 ^ 16 * 1))
/-- Eight weights of the tile's row 0 and column block 0; seven, which are no whole row of elements. -/
def loadBlock (n : Nat) : List Byte := blockBytes 1 n 0x07 0 0 0 1 (bytesOfNat n 0x0807060504030201)
/-- Accumulate-atoms on the record whose address is in slot 0, its coefficient row to the address in slot 1. -/
def atomsScaled (scl : Nat) : List Byte :=
  blockBytes 8 32 0 0 0 0 1 (bytesOfNat 8 0x0380000000003000 ++ bytesOfNat 8 scl ++ bytesOfNat 8 0x3000 ++ bytesOfNat 1 0 ++ bytesOfNat 1 0 ++
    bytesOfNat 2 32 ++ bytesOfNat 2 32 ++ bytesOfNat 1 1 ++ bytesOfNat 1 0)
def atomsBlock : List Byte := atomsScaled 0x4000
/-- Slot 0 holds an address; context 0 is a launched group's, which holds bank 0 of core 1. -/
def slottedAt (l : List Byte) (a : Nat) : State :=
  (((chained tile (some l) 0 id).modCtx 0 fun x => { x with kind := .launched 0 }).modPart 0 fun q => { q with
    pcl0 := 1
    groups := [(0, { num := 0, wave := 0, index := 0, desc := { cores := 2 }, cluster := 0
                     holds := [{ core := 1, lbanks := 1, ccown := 0, cbown := 0 }], members := [0, 4] })] }).writeRun (localAt 0 0x6000) (bytesOfNat 8 a)
def slotted (l : List Byte) : State := slottedAt l 0x1000

theorem at_end {s : State} {l : List Byte} {opc : Nat} (h0 : (s.ctx 0).run = .running) (h1 : (s.ctx 0).inChain = true)
    (h2 : s.beforeHead 0 = none) (h3 : (s.ctx 0).wde.fetched = some l) (h4 : (wblockOf l).units ≤ (s.ctx 0).wde.unit)
    (h : (wblockOf l).opc = opc) (hx : (wblockOf l).expand.isSome = true) : s.AtEnd 0 (wblockOf l) opc := ⟨h0, h1, h2, ⟨l, h3, rfl⟩, h, h4, hx⟩

/-- A unit whose command is in the queue, and a block whose units are done. -/
theorem witness_WeightBlocksAreFetchedAndCommandTheArray_queued :
    (∀ e ∈ [(swapBlock, 0x02, 0), (streamBlock 0, 0x03, 0), (drainBlock 0, 0x04, 0), (atomsBlock, 0x08, 1)],
      let s := waiting (chained tile (some e.1) e.2.2 id)
      s.AtUnit 0 (wblockOf e.1) e.2.1 e.2.2 ∧ s.unitQueued 0 = true) ∧
    ∀ e ∈ [(swapBlock, 0x02, 1), (streamBlock 0, 0x03, 1), (drainBlock 0, 0x04, 1), (atomsBlock, 0x08, 2)],
      let s := chained tile (some e.1) e.2.2 id
      s.AtEnd 0 (wblockOf e.1) e.2.1 ∧ ∃ r, afterBlock (s.ctx 0).wde (wblockOf e.1) ((wblockOf e.1).beat ((wblockOf e.1).units - 1)) = .ok r := by
  refine ⟨fun e he => ?_, fun e he => ?_⟩ <;> simp only [List.mem_cons, List.not_mem_nil, or_false] at he <;>
    rcases he with rfl | rfl | rfl | rfl
  all_goals first
    | exact ⟨at_unit rfl rfl rfl rfl rfl rfl (by decide), by decide⟩
    | exact ⟨at_end rfl rfl rfl rfl (by decide) rfl (by decide), ok_of (by decide)⟩

theorem witness_WeightBlocksAreFetchedAndCommandTheArray_blocks :
    (chained tile (some swapBlock) 0 id).unitQueued 0 = false ∧ (slotted (streamBlock 1)).unitQueued 0 = false ∧
    (chained tile (some noOpBlock) 0 id).AtUnit 0 (wblockOf noOpBlock) 0x00 0 ∧
    (chained tile (some swapBlock) 0 id).AtUnit 0 (wblockOf swapBlock) 0x02 0 ∧ ((chained tile (some swapBlock) 0 id).ctx 0).tcsb = some tile ∧
    (slotted (streamBlock 1)).AtUnit 0 (wblockOf (streamBlock 1)) 0x03 0 ∧ (wblockOf (streamBlock 1)).num 3 1 ≠ 0 :=
  ⟨by decide, by decide, at_unit rfl rfl rfl rfl rfl rfl (by decide), at_unit rfl rfl rfl rfl rfl rfl (by decide), rfl,
    at_unit rfl rfl rfl rfl rfl rfl (by decide), by decide⟩

/-- What a unit of a stream block asks, with the address that slot 0 holds. -/
theorem slotted_entry (l : List Byte) (a : Nat) (hl : (wblockOf l).dslot = 0)
    (h : wordOfBytes ((slottedAt l a).bytesOf ((runFrom 0x6000 8).map (localAt 0))) = BitVec.ofNat 64 a) :
    (slottedAt l a).slotEntry 0 (wblockOf l).dslot = .ok (slottedAt l a, BitVec.ofNat 64 a) := by
  obtain ⟨w, e, g⟩ := slot_of (slottedAt l a) 0 (of_decide_eq_true rfl) rfl rfl
  rw [hl, e, g]
  exact congrArg (fun w => Except.ok (slottedAt l a, w)) h

theorem witness_WeightBlocksAreFetchedAndCommandTheArray_stream :
    (let b := wblockOf (streamBlock 0)
     let s := slotted (streamBlock 0)
     s.AtUnit 0 b 0x03 0 ∧ s.slotEntry 0 b.dslot = .ok (s, 0x1000) ∧ s.unitQueued 0 = false ∧
       ¬ (b.num 3 1 ≠ 0 ∨ b.num 4 4 % 8 ≠ 0 ∨ mstrmLimits tile (b.num 0 1) (b.num 1 1) (b.num 2 1) (b.num 4 4) = false ∨
         vaOf 0x1000 % 8 ≠ 0 ∨
         regionTraps true (s.agent 0) .load 0x1000 (spanBytes (b.num 2 1) (b.num 4 4) (lineBytesOf tile (tFmts tile))) ≠ [])) ∧
    (let s := slottedAt (streamBlock 0) 0x1004
     s.AtUnit 0 (wblockOf (streamBlock 0)) 0x03 0 ∧ s.slotEntry 0 0 = .ok (s, 0x1004) ∧ s.unitQueued 0 = false) ∧
    (∀ e ∈ [(loadBlock 8, 0x01), (swapBlock, 0x02), (streamBlock 0, 0x03), (drainBlock 0, 0x04), (atomsBlock, 0x08)],
      let s := (chained tile (some e.1) 0 id).modCtx 0 fun x => { x with tcsb := none }
      s.AtUnit 0 (wblockOf e.1) e.2 0 ∧ (s.ctx 0).tcsb = none ∧ s.unitQueued 0 = false) := by
  refine ⟨⟨at_unit rfl rfl rfl rfl rfl rfl (by decide), slotted_entry _ 0x1000 rfl (by decide), by decide, by decide⟩,
    ⟨at_unit rfl rfl rfl rfl rfl rfl (by decide), slotted_entry _ 0x1004 rfl (by decide), by decide⟩, fun e he => ?_⟩
  simp only [List.mem_cons, List.not_mem_nil, or_false] at he
  rcases he with rfl | rfl | rfl | rfl | rfl <;> exact ⟨at_unit rfl rfl rfl rfl rfl rfl (by decide), rfl, by decide⟩

/-- What breaks the limits of a drain of one row to 0x1000. -/
def drainBad (s : State) (b : WBlock) : Prop :=
  b.num 3 1 ≠ 0 ∨ b.num 4 4 % 8 ≠ 0 ∨ 128 / tCols tile ≤ b.num 0 1 ∨
    mdrainLimits tile (2 ^ b.num 0 1) (b.num 1 1) (b.num 2 1) (b.num 4 4) 0 = false ∨ vaOf 0x1000 % 8 ≠ 0 ∨
    (b.dcore = coreOf 0 % 8 ∧
      regionTraps false (s.agent 0) .store 0x1000 (drainBytes tile (2 ^ b.num 0 1) (b.num 2 1) (b.num 4 4) 0) ≠ []) ∨
    (b.dcore ≠ coreOf 0 % 8 ∧ s.groupHolds 0 (8 * clusterOf (coreOf 0) + b.dcore)
      ((List.range (b.num 2 1)).map fun i => vaOf 0x1000 + i * b.num 4 4) (outBytesOf tile) = false)

theorem witness_WeightBlocksAreFetchedAndCommandTheArray_drain :
    ∀ core, core < 2 → let b := wblockOf (drainBlock core)
      let s := slotted (drainBlock core)
      (s.AtUnit 0 b 0x04 0 ∧ s.slotEntry 0 b.dslot = .ok (s, 0x1000) ∧ s.unitQueued 0 = false) ∧ ¬ drainBad s b ∧ (b.dcore = coreOf 0 % 8 ↔ core = 0) ∧
      let q := s.modPart 0 fun q => { q with groups := [] }
      core = 1 → q.AtUnit 0 b 0x04 0 ∧ drainBad q b := by
  intro core h
  have h' : core = 0 ∨ core = 1 := by omega
  rcases h' with rfl | rfl <;> refine ⟨⟨at_unit rfl rfl rfl rfl rfl rfl (by decide), slotted_entry _ 0x1000 rfl (by decide), by decide⟩, ?_, by decide, fun _ => ?_⟩
  · unfold drainBad; decide
  · contradiction
  · unfold drainBad; decide
  · exact ⟨at_unit rfl rfl rfl rfl rfl rfl (by decide), by unfold drainBad; decide⟩

/-- The record at 0x2000: full or not, of one term or an escape record; the array holds the context's AU, or not. -/
def atomsAt (n : Nat) (full idle esc : Bool) : State :=
  let s := (chained tileF (some atomsBlock) n id).modCluster 0 fun k => { k with arr := { k.arr with owner := if idle then some 0 else none } }
  { (s.writeRun (localAt 0 0x6000) (bytesOfNat 8 0x2000 ++ bytesOfNat 8 0x5000)).writeRun (localAt 0 0x2000)
      (if esc then bytesOfNat 8 0x11 ++ List.replicate 32 0 else bytesOfNat 8 1 ++ bytesOfNat 8 0 ++ bytesOfNat 8 0x3C00) with
    full := if full then [wordIx (localAt 0 0x2000)] else [] }

/-- A zero-run coded payload whose one literal run passes its end (R113). -/
def runBlock : List Byte := blockBytes (1 + 2 ^ 8) 1 0x07 0 0 0 1 [5]

theorem witness_AtomBlocksAndBlockLinks_load :
    (∀ n, n = 7 ∨ n = 8 → (chained tile (some (loadBlock n)) 0 id).AtUnit 0 (wblockOf (loadBlock n)) 0x01 0 ∧
      (wblockOf (loadBlock n)).bfmt = tFmtw tile ∧ ∃ x, (wblockOf (loadBlock n)).expand = some x ∧ 8 * (x.map (·.1)).length / 8 = n) ∧
    (chained tile (some (loadBlock 8)) 0 id).auIdle 0 = false ∧
    (let s := (chained tile (some (loadBlock 8)) 0 id).modCluster 0 fun k => { k with arr := { k.arr with owner := some 0 } }
     s.AtUnit 0 (wblockOf (loadBlock 8)) 0x01 0 ∧ s.auIdle 0 = true) ∧
    ((chained tile (some runBlock) 0 id).AtUnit 0 (wblockOf runBlock) 0x01 0 ∧ (wblockOf runBlock).bfmt = tFmtw tile ∧
      (wblockOf runBlock).expand = none) := by
  refine ⟨?_, by decide, ⟨at_unit rfl rfl rfl rfl rfl rfl (by decide), by decide⟩, at_unit rfl rfl rfl rfl rfl rfl (by decide), by decide⟩
  rintro n (rfl | rfl) <;> exact ⟨at_unit rfl rfl rfl rfl rfl rfl (by decide), by decide, _, rfl, by decide⟩

theorem witness_AtomBlocksAndBlockLinks_atoms :
    (∀ n full idle esc, n < 2 → let s := atomsAt n full idle esc
      s.AtUnit 0 (wblockOf atomsBlock) 0x08 n ∧ (s.ctx 0).tcsb = some tileF ∧ s.slotEntry 0 0 = .ok (s, 0x2000) ∧ s.slotEntry 0 1 = .ok (s, 0x5000) ∧
        localRegion (s.agent 0) .store 0x5000 (2 * tRows tileF) = none ∧ localRegion (s.agent 0) .load 0x2000 8 = none ∧
        s.Sound (runFrom (localAt 0 0x2000) 8) ∧ s.quiet 0 = true ∧ s.isFull (localAt 0 0x2000) = full ∧ s.auIdle 0 = idle ∧
        (let h := (runFrom (localAt 0 0x2000) 8).map s.byte
         lOf (fieldAt h 1 1) = some 16 ∧ bitOf (fieldAt h 0 1) 4 = esc)) ∧
    (atomsPay (wblockOf atomsBlock) 0x2000 0x5000).ok tileF (wblockOf atomsBlock) = true ∧ 16 ≤ tRows tileF ∧
    (atomsAt 1 true true false).unitQueued 0 = false := by
  refine ⟨?_, by decide, by decide, by decide⟩
  intro n full idle esc hn
  have hn : n = 0 ∨ n = 1 := by omega
  have h0 := slot_of (atomsAt n full idle esc) 0 (of_decide_eq_true rfl) rfl rfl
  have h1 := slot_of (atomsAt n full idle esc) 1 (of_decide_eq_true rfl) rfl rfl
  obtain ⟨w0, h0, e0⟩ := h0
  obtain ⟨w1, h1, e1⟩ := h1
  refine ⟨?_, rfl, h0.trans (by rw [e0]; clear e0 e1 h0 h1; rcases hn with rfl | rfl <;> cases full <;> cases idle <;> cases esc <;> decide), h1.trans (by rw [e1]; clear e0 e1 h0 h1; rcases hn with rfl | rfl <;> cases full <;> cases idle <;> cases esc <;> decide), ?_, ?_, fun _ _ => rfl, ?_, ?_, ?_, ?_, ?_⟩
  · rcases hn with rfl | rfl <;> exact at_unit rfl rfl rfl rfl rfl rfl (by decide)
  all_goals (rcases hn with rfl | rfl <;> cases full <;> cases idle <;> cases esc <;> decide)

/-- A scale address that is odd, for a code record. -/
theorem witness_AtomBlocksAndBlockLinks_odd :
    (let s := (atomsAt 0 true true false).modCtx 0 fun x => { x with wde := { x.wde with fetched := some (atomsScaled 0x4001) } }
     let a := atomsPay (wblockOf (atomsScaled 0x4001)) 0x2000 0x5000
     s.AtUnit 0 (wblockOf (atomsScaled 0x4001)) 0x08 0 ∧ a.ok tileF (wblockOf (atomsScaled 0x4001)) = true ∧ a.scl.toNat % 2 ≠ 0 ∧
       s.auIdle 0 = true ∧ s.quiet 0 = true ∧ s.isFull (localAt 0 0x2000) = true ∧
       bitOf (fieldAt ((runFrom (localAt 0 0x2000) 8).map s.byte) 0 1) 4 = false) :=
  ⟨at_unit rfl rfl rfl rfl rfl rfl (by decide), by decide⟩

/-- What an array service comes to, if it is done. -/
def doneWith (r : Svc) (f : State → Bool) : Bool := match r with | .done s => f s | _ => false
theorem done_of {r : Svc} {f : State → Bool} (h : doneWith r f = true) : ∃ s, r = .done s ∧ f s = true := by
  match r with
  | .done s => exact ⟨s, rfl, h⟩
  | .fault _ => simp [doneWith] at h
  | .full .. => simp [doneWith] at h
  | .wait => simp [doneWith] at h

theorem witness_AtomBlocksAndBlockLinks_gather :
    (let s := atomsAt 0 true true false
     let a := atomsPay (wblockOf atomsBlock) 0x2000 0x5000
     ∃ s1, s.serveAimg 0 tileF { ctx := 0, img := aimgImage (a.aimg tileF 16) } = .done s1 ∧ (s1.ctx 0).wde = (s.ctx 0).wde) := by
  obtain ⟨s1, h, g⟩ := done_of (r := (atomsAt 0 true true false).serveAimg 0 tileF
    { ctx := 0, img := aimgImage ((atomsPay (wblockOf atomsBlock) 0x2000 0x5000).aimg tileF 16) })
    (f := fun s1 => decide ((s1.ctx 0).wde = ((atomsAt 0 true true false).ctx 0).wde)) (by decide +kernel)
  exact ⟨s1, h, of_decide_eq_true g⟩

theorem witness_AtomBlocksAndBlockLinks_escape :
    (let s := atomsAt 0 true true true
     let a := atomsPay (wblockOf atomsBlock) 0x2000 0x5000
     mldsLimits tileF (vaOf a.wt) a.p a.stride false = true ∧ a.wt.toNat % 8 = 0 ∧
       ∃ s1, s.serveMlds 0 tileF { ctx := 0, img := imageOf [(0, 1, 1), (2, 2, a.stride), (4, 1, a.p), (8, 8, a.wt.toNat)] } = .done s1 ∧
         (s1.ctx 0).wde = (s.ctx 0).wde) ∧
    (∀ n ∈ [0, 16], ((atomsAt 1 true true true).modCtx 0 fun x => { x with arrayCmds := n }).arrayBusy 0 = decide (n = 16)) := by
  refine ⟨⟨by decide, by decide, ?_⟩, by decide⟩
  have hv : ∀ i < tCols tileF, vaOf (withVa (BitVec.ofNat 64 0x3000) (vaOf (BitVec.ofNat 64 0x3000) + i * 32)) + 32 ≤ 0x30000 := by decide
  obtain ⟨c, o, e⟩ := State.readTile_local (atomsAt 0 true true true) ((atomsAt 0 true true true).agent 0) tileF (BitVec.ofNat 64 0x3000) 32 rfl
    (by decide) (tCols tileF) fun i hi => ⟨hv i hi, holds_all (by decide) (hv i hi)⟩
  unfold State.serveMlds
  rw [if_neg (by decide)]
  refine ⟨_, by dsimp only; rw [show ACmd.field _ 8 8 = 0x3000 from by decide, show ACmd.field _ 2 2 = 32 from by decide, e], ?_⟩
  rfl

/-- A branch on program flag 0 with sense v; a call and a tail to an address; a return; an exit with the value 7. -/
def branchBlock (v taken : Nat) : List Byte := blockBytes 0x10 8 0 0 0 0 1 (bytesOfNat 8 (2 + 2 ^ 8 * v + 2 ^ 32 * taken))
def linkBlock (opc succ va : Nat) : List Byte := blockBytes opc 8 0 0 0 0 succ (bytesOfNat 8 va)
def returnBlock : List Byte := blockBytes 0x12 0 0 0 0 0 0 []
/-- A link stack of n. -/
def stacked (l : List Byte) (n : Nat) : State := chained tile (some l) 0 fun w => { w with stack := List.replicate n 0x100000200 }

theorem witness_AtomBlocksAndBlockLinks_links :
    (∀ v taken, v < 2 → taken = 1 ∨ taken = 0xFFFFFFFF → let b := wblockOf (branchBlock v taken)
      (stacked (branchBlock v taken) 0).AtUnit 0 b 0x10 0 ∧ b.num 0 1 ≤ 5 ∧ b.num 1 1 < 2 ∧ signedOf 32 (b.num 4 4) ≠ 0 ∧
        (stacked (branchBlock v taken) 0).branchCond 0 b = some false ∧ bitOf (b.num 1 1) 0 = decide (v = 1) ∧
        (0x100000000 ≤ (0x100000000 : Int) + 256 * signedOf 32 (b.num 4 4) ↔ taken = 1) ∧
        ∃ r, afterBlock ((stacked (branchBlock v taken) 0).ctx 0).wde b 1 = .ok r) ∧
    (stacked (branchBlock 2 1) 0).AtUnit 0 (wblockOf (branchBlock 2 1)) 0x10 0 ∧ 2 ≤ (wblockOf (branchBlock 2 1)).num 1 1 ∧
    (∀ n, n = 0 ∨ n = 8 → let l := linkBlock 0x11 1 0x100000200
      (stacked l n).AtUnit 0 (wblockOf l) 0x11 0 ∧ vaOf (wordOfBytes (wblockOf l).pay) = 0x100000200 ∧ ((stacked l n).ctx 0).wde.stack.length = n ∧
        (0x100000000 : Int) + 256 * (wblockOf l).succ = 0x100000100) ∧
    (∀ n, n = 0 ∨ n = 1 → (stacked returnBlock n).AtUnit 0 (wblockOf returnBlock) 0x12 0 ∧ ((stacked returnBlock n).ctx 0).wde.stack.length = n) ∧
    (∀ va, va = 0x100000200 ∨ va = 0x100000208 → (stacked (linkBlock 0x13 0 va) 0).AtUnit 0 (wblockOf (linkBlock 0x13 0 va)) 0x13 0 ∧
      vaOf (wordOfBytes (wblockOf (linkBlock 0x13 0 va)).pay) = va) ∧
    (∀ n, n = 0 ∨ n = 1 → let s := (stacked (linkBlock 0x14 0 7) 0).modCtx 0 fun x => { x with arrayCmds := n }
      s.AtUnit 0 (wblockOf (linkBlock 0x14 0 7)) 0x14 0 ∧ (s.ctx 0).arrayDone = decide (n = 0) ∧ (s.ctx 0).wde.sd ≠ 0) := by
  refine ⟨?_, at_unit rfl rfl rfl rfl rfl rfl (by decide), by decide, ?_, ?_, ?_, ?_⟩
  · intro v taken hv ht
    have hv : v = 0 ∨ v = 1 := by omega
    rcases hv with rfl | rfl <;> rcases ht with rfl | rfl <;>
      exact ⟨at_unit rfl rfl rfl rfl rfl rfl (by decide), by decide, by decide, by decide, by decide, by decide, by decide, ok_of (by decide)⟩
  · rintro n (rfl | rfl) <;> exact ⟨at_unit rfl rfl rfl rfl rfl rfl (by decide), by decide, by decide, by decide⟩
  · rintro n (rfl | rfl) <;> exact ⟨at_unit rfl rfl rfl rfl rfl rfl (by decide), by decide⟩
  · rintro n (rfl | rfl) <;> exact ⟨at_unit rfl rfl rfl rfl rfl rfl (by decide), by decide⟩
  · rintro n (rfl | rfl) <;> exact ⟨at_unit rfl rfl rfl rfl rfl rfl (by decide), by decide, by decide⟩

/-! ## Traps, fetch and messages -/

/-- The task whose core saves at offset 0, inside SAPROT. -/
def guarded (s : State) : State :=
  (s.modPart 0 fun x => { x with saprot := 0x10000000000000 }).modCore 0 fun k => { k with sabase := 0x20000000 }
def saved : State := guarded lab

theorem witness_TrapsEnterTheHandler :
    (let s := saved.modCtx 0 fun x => { x with due := some { cause := .trap } }
     (s.ctx 0).run = .running ∧ (s.ctx 0).due = some { cause := .trap }) ∧ (sup.ctx 0).level ≠ .task ∧
    (let s := saved.modCtx 0 fun x => { x with busy := [.s 3] }
     (s.ctx 0).level = .task ∧ s.outstanding 0 = true) ∧
    (∀ s ∈ [saved, guarded handler], (s.ctx 0).level = .task ∧ s.outstanding 0 = false ∧ s.canSave 0 (s.saveOff 0) 4096 = true ∧
      (s.ctx 0).auOpen = false ∧ Memory.wf s.mem = true ∧ s.saveOff 0 + 4096 ≤ lpctOff ∧ (s.ctx 0).dsn = 0 ∧
      (s.part (s.partOfCtx 0)).trctl.getLsbD 2 = false) ∧
    Cause.trap ≠ .uncorrectable ∧ Cause.trap ≠ .sigMismatch ∧ ((guarded handler).ctx 0).kind = .handler 5 ∧
    (let x := (saved.modCtx 0 fun x => { x with dsn := 1, npc := some 5 }).ctx 0
     x.dsn ≠ 0 ∧ x.npc = some 5) := by
  decide

/-- A result is outstanding, or none is; the save area can be written, or not; an AU is open, or none is. -/
theorem witness_SignatureMismatchesRaiseTheScore :
    ({ cause := .sigMismatch } : Trap).cause = .sigMismatch ∧
    (let s := saved.modCtx 0 fun x => { x with busy := [.s 3] }
     (s.ctx 0).level = .task ∧ s.outstanding 0 = true) ∧
    (lab.ctx 0).level = .task ∧ lab.outstanding 0 = false ∧ lab.canSave 0 (lab.saveOff 0) 4096 = false ∧
    (saved.ctx 0).level = .task ∧ saved.outstanding 0 = false ∧ saved.canSave 0 (saved.saveOff 0) 4096 = true ∧ (saved.ctx 0).auOpen = false ∧
    (let s := saved.modCtx 0 fun x => { x with auOpen := true }
     (s.ctx 0).level = .task ∧ s.outstanding 0 = false) := by
  decide

/-- A task whose budget is spent; one at a line of global memory, whose page its cluster knows or not. -/
def spent : State := labCtx fun x => { x with csr := { x.csr with budgetSpent := true } }
def aloft (known : Bool) : State := (labCtx fun x => { x with pc := 0x100000001 }).modCluster 0 fun k =>
  { k with tlb := if known then [{ part := 0, va := 0x10000, lg := 16, leaf := 0x5C }] else [] }
/-- A gang whose follower, context 4, has a forwarded head. -/
def followed : State := (ganged 2).modCtx 4 fun x => { x with fwd := [{ instr := .nop, issue := {}, due := 0, out := none }] }

theorem witness_WatchdogGangTimeoutAndFetchAhead :
    ((spent.ctx 0).run = .running ∧ (spent.ctx 0).level = .task ∧ spent.budgetOver 0 = true ∧ (spent.ctx 0).due = none ∧
      (spent.ctx 0).imageFault = none ∧ (spent.ctx 0).stepDue = none ∧ spent.arithHolds 0 = false ∧ lab.budgetOver 0 = false) ∧
    (∀ s ∈ [lab, aloft true, aloft false], (s.ctx 0).run = .running ∧ (s.ctx 0).lines.length < 2 ∧
      (s.ctx 0).lines.any (fun e => e.1 == lineVa (s.ctx 0).pc) = false ∧ (s.ctx 0).fwd = []) ∧
    ((∃ r, lab.fetchLine 0 0 = .ok r) ∧ (∃ r, (aloft true).fetchLine 0 0x100000000 = .ok r) ∧
      ∃ e, (aloft false).fetchLine 0 0x100000000 = .error e) ∧
    ((followed.ctx 4).run = .running ∧ (followed.ctx 4).inChain = false ∧ followed.onStream 4 = true ∧ (followed.ctx 4).fwd ≠ [] ∧
      (.issue 4) ∉ followed.agenda) ∧
    (∃ g, gathering.gangs.find? (fun h => h.num == 0) = some g ∧ g.arrived = 4 :: [] ∧ g.since = some 0) ∧
    (let late : State := { gathering with cycle := 65536 }
     let due := fun (s : State) => (s.ctx 4).csr.gjto ≠ 0 ∧ 0 + (s.ctx 4).csr.gjto.toNat ≤ s.nowCtx 4
     ¬ due gathering ∧ due late ∧ ¬ due (late.modCsr 4 fun r => { r with gjto := 0 })) := by
  refine ⟨by decide, ?_, ⟨ok_of (by decide), ok_of (by decide), err_of (by decide)⟩, by decide, ⟨_, rfl, rfl, rfl⟩, by decide⟩
  intro s hs
  simp only [List.mem_cons, List.not_mem_nil, or_false] at hs
  rcases hs with rfl | rfl | rfl <;> decide

/-- Partition 0 owns cluster 0, and a message is on its way to a core, whose inbox holds n; no port led there, or it left from a queue. -/
def onItsWay (dst n : Nat) : State :=
  { ((lab.modPart 0 fun x => { x with pcl0 := 1 }).modCore 1 fun k =>
      { k with inbox := List.replicate n { num := 5, msg := mail.msg, arrival := 0 } }) with flying := [{ mail with dst := dst, seq := 3 }] }
def stranded : State := { onItsWay 1 0 with flying := [{ mail with seq := 3, path := none }] }
def queuedMail : State := ({ onItsWay 1 0 with flying := [] } : State).modCore 0 fun k => { k with outq := [{ mail with seq := 3 }] }

/-- A message that may move, and whether no way leads to its destination. -/
abbrev mayMove (s : State) (f : Flying) (lost : Bool) : Prop :=
  s.messages.find? (fun g => g.seq == f.seq) = some f ∧ (f.msg.bnc = 0 → s.routeHeld f.src f.seq (messageRoute f.dst) = false) ∧
    f.msg.bnc = 0 ∧ s.unreachable f.bank f.msg.splace = false ∧
    (s.unreachable f.bank f.dst = true ∨
      (if ∃ g ∈ s.flying, g.seq = f.seq then f.path else s.path (pkgOf f.src) (pkgOf f.dst) 0) = none ↔ lost = true)

theorem witness_MessagesAreDeliveredAndHandled :
    (∀ n, n = 0 ∨ n = 64 → mayMove (onItsWay 1 n) { mail with seq := 3 } false ∧ ((onItsWay 1 n).core 1).inbox.length = n) ∧
    mayMove (onItsWay 8 0) { mail with dst := 8, seq := 3 } true ∧ mayMove stranded { mail with seq := 3, path := none } true ∧
    mayMove queuedMail { mail with seq := 3 } false := by
  refine ⟨?_, by decide, by decide, by decide⟩
  rintro n (rfl | rfl) <;> decide

/-- A message with index 17 at the head of core 0's inbox; its entry, its lock, and what holds the inbox. -/
def headSlot (locked : Bool) : InSlot := { num := 5, msg := mail.msg, arrival := 0, headAt := if locked then some 0 else none }
def received (entry : Word) (locked held : Bool) : State :=
  ((lab.modPart 0 fun x => { x with pcl0 := 1, handlers := [(17, entry)], locked := if locked then [17] else [] }).modCore 0 fun k =>
    { k with inbox := [headSlot locked], inboxHeld := held })

theorem witness_MessagesAreDeliveredAndHandled_heads :
    (∀ entry locked held, (entry = (0 : Word) ∨ entry = 0x100000001) → let s := received entry locked held
      (s.core 0).headMsg = some (headSlot locked) ∧ mail.msg.hidx = 17 ∧
        SMap.look (s.part (s.partOf 0)).handlers 17 (0 : Word) = entry ∧ (s.part (s.partOf 0)).locked.contains 17 = locked ∧
        (s.core 0).inboxHeld = held ∧ s.startedNow 0 = false ∧ s.freeContexts 0 = [1, 2, 3] ∧ mail.msg.bnc = 0 ∧
        s.unreachable (s.partOf 0 % 16) mail.msg.splace = false) ∧
    (headSlot true).headAt = some 0 ∧
    (∀ n, n = 4096 ∨ n = 4097 → (({ received 1 true false with cycle := n } : State).now 0 ≤ 0 + 4096 ↔ n = 4096)) := by
  refine ⟨?_, rfl, ?_⟩
  · intro entry locked held h
    rcases h with rfl | rfl <;> cases locked <;> cases held <;> decide
  · rintro n (rfl | rfl) <;> decide

/-- A context that releases the operations of its handler, where its core has room for them and where it has none. -/
def letting (o : SendOp) (full : Bool) : State := (labCtx fun x => { x with run := .releasing, sendBuf := [o] }).modCore 0 fun k =>
  if full then { k with outq := List.replicate 8 mail, port := List.replicate 32 (order .put) } else k

theorem witness_MessagesAreDeliveredAndHandled_releases :
    (∀ o full, ((letting o full).ctx 0).run = .releasing ∧ ((letting o full).ctx 0).sendBuf = [o]) ∧
    (∀ full, (((letting (.committed mail) full).core 0).outq.length < Config.outQueueSlots ↔ full = false) ∧
      (((letting (.engine (order .put)) full).core 0).port.length < 32 ↔ full = false)) := by
  refine ⟨fun o full => ⟨rfl, rfl⟩, fun full => ?_⟩
  cases full <;> decide

/-! ## The dispatcher, tables, repair, outside, the machine -/

/-- A descriptor: one core, one context, one bank, one group, entry at head 1 of a line of global memory, no counter, no dependences. -/
def descBytes : List Byte :=
  bytesOfNat 8 0x100000001 ++ bytesOfNat 16 0 ++ [0, 0, 1, 0] ++ bytesOfNat 4 1 ++ bytesOfNat 5 0 ++ [0xFF] ++ bytesOfNat 10 0 ++
    [0xFF, 0, 0, 0, 0xFF, 0, 0, 0] ++ bytesOfNat 8 0
/-- Partition 0 with cluster 0: queue 0 enabled for both slots, waves in it, a launch of a descriptor on its way. -/
def launching (n : Nat) (bytes : List Byte) : State := lab.modPart 0 fun x =>
  { x with
    pcl0 := 1, pqm := 1, qcfg := [(0, 0x0D)], launching := [{ ctx := 0, sd := 3, queue := 0, bytes := bytes }]
    waves := (List.range n).map fun i => { num := i, queue := 0, desc := descOf descBytes } }

/-- The same a cycle later, when the waves may be placed; without one; with the wave held back by another that was chosen. -/
def placing (n : Nat) (chosen : Option Nat) : State :=
  { (launching n []).modPart 0 fun x => { x with chosen := chosen } with cycle := 1 }

theorem witness_LaunchesAreAnsweredAndPlaced :
    (∀ n bytes, (n = 0 ∨ n = 32) → bytes = descBytes ∨ bytes = [] → let s := launching n bytes; let x := s.part 0
      x.launching = [{ ctx := 0, sd := 3, queue := 0, bytes := bytes }] ∧ x.pqm.getLsbD 0 = true ∧
        (SMap.look x.qcfg 0 (0 : BitVec 8)).getLsbD 0 = true ∧ (x.waves.filter fun w => w.queue == 0).length = n) ∧
    ((launching 0 []).checkDesc 0 false descBytes).isSome = true ∧ ((launching 0 []).checkDesc 0 false []).isSome = false ∧
    (((launching 0 []).modPart 0 fun x => { x with pqm := 0 }).part 0).pqm.getLsbD 0 = false := by
  refine ⟨?_, by decide +kernel⟩
  intro n bytes hn hb
  rcases hn with rfl | rfl <;> rcases hb with rfl | rfl <;> exact ⟨rfl, by decide⟩

theorem witness_LaunchesAreAnsweredAndPlaced_places :
    (∀ chosen, chosen = none ∨ chosen = some 0 → ((placing 1 chosen).part 0).succs = [] ∧
      ∃ w, ((placing 1 chosen).part 0).choose (placing 1 chosen).cycle = some w) ∧
    ((launching 1 []).part 0).choose (launching 1 []).cycle = none ∧ ((launching 1 []).part 0).succs = [] ∧
    ((placing 1 none).deal 0 { num := 0, queue := 0, desc := descOf descBytes }).isSome = true ∧
    (((placing 1 none).modCluster 0 fun k => { k with fenced := true }).deal 0 { num := 0, queue := 0, desc := descOf descBytes }).isSome = false ∧
    ([(0, [0])] : List (Place × List Nat)).map (·.1) = [0] ∧ (descOf descBytes).clen = 0 ∧
    (∀ e ∈ ([(0, [0])] : List (Place × List Nat)), (descOf descBytes).cpc ≤ ((placing 1 none).freeContexts e.1).length) ∧
    0 < (descOf descBytes).cpc := by
  refine ⟨?_, by decide +kernel⟩
  rintro chosen (rfl | rfl) <;> exact ⟨rfl, _, rfl⟩

/-- A checked run whose digests are as given. -/
def checked (p d : Word) (at_ : Option (List ClusterId)) (r : Option Word) : Checked :=
  { wave := 0, index := 0, desc := { done := 31 }, ids := [], first := 0, primary := [0], shadow := [1], referee := at_, dP := some p, dS := some d, dR := r
    dN := some 0 }
def comparing (k : Checked) : State := lab.modPart 0 fun x => { x with pcl0 := 1, checked := [k] }

/-- Context 0 of a task that runs or has stopped, and a command of the dispatcher; a bank of core 1 retained under slot 1, tag 0. -/
def commanded (n : Nat) (v : Word) (hyp : Bool) (run : Run) : State :=
  ((team.modPart 0 fun x => { x with dcmd := some (n, v, 0, hyp) }).modCtx 0 fun x => { x with run := run }).modCore 1 fun k =>
    { k with banks := k.banks.set 2 (.retained 1 0) }

theorem witness_CheckedRunsAndDispatcherCommands :
    (∀ k, k = checked 1 1 none none ∨ k = checked 1 2 (some [2]) (some 1) ∨ k = checked 1 2 (some [2]) (some 3) → let s := comparing k
      (s.part 0).checked[0]? = some k ∧ s.endedRun 0 k = none ∧ k.desc.done ≠ 0xFF) ∧
    (∀ n v hyp run, ((commanded n v hyp run).part 0).dcmd = some (n, v, 0, hyp) ∧ ((commanded n v hyp run).ctx 0).run = run ∧
      pkgOf (coreOf 0) = 0 / 16 ∧ ((commanded n v hyp run).part 0).owns (clusterOf (coreOf 0)) = true) ∧
    (4 ∈ (commanded 2 0 false .running).groupCtxs 0 ∧ ((commanded 2 0 false .running).ctx 4).run = .running) ∧
    ((commanded 1 64 true .stopped).part 0).owns (clusterOf (coreOf (ctxAt 64 0))) = false ∧
    (let s := commanded 5 1 false .running
     ∃ e ∈ s.cores, e.1 = 1 ∧ (s.core 1).banks.getD 2 .off = .retained ((1 : Word).toNat % 2) (BitVec.ofNat 16 ((1 : Word).toNat / 2 ^ 16 % 2 ^ 16))) := by
  refine ⟨?_, fun n v hyp run => ⟨rfl, rfl, rfl, by simp [commanded, team, Part.owns, clusterOf, coreOf]⟩, by decide⟩
  rintro k (rfl | rfl | rfl) <;> exact ⟨by decide, by decide⟩

/-- A decode table's image of zeros, in the die store, named by CZT; and one where nothing is. -/
def named (v : Word) : State := lab.modPart 0 fun x => { x with cztPending := some (v, 0) }
/-- A basin of cluster 0. -/
def basin (fenced : Bool) : State :=
  (lab.modPart 0 fun x => { x with pcl0 := 1, basins := [(0, 0x4000)] }).modCluster 0 fun k => { k with fenced := fenced, resetDone := fenced }

theorem witness_TablesLoadAndBasinsReset :
    (lab.part 0).cztPending = none ∧ ((named 0x20000000).part 0).cztPending = some (0x20000000, 0) ∧
    (∃ r, (named 0x20000000).resolve ((named 0x20000000).agent 0) .load (BitVec.ofNat 64 0x20000000) (runFrom 0x20000000 1024) true false true = .ok r) ∧
    (∃ e, (named 0x30000).resolve ((named 0x30000).agent 0) .load (BitVec.ofNat 64 0x30000) (runFrom 0x30000 1024) true false true = .error e) ∧
    (∀ i, fieldAt (List.replicate 1024 (0 : Byte)) (4 * i) 4 = 0) ∧ (named 0x20000000).poison = [] ∧ lab.basinClusters 0 0 = [] ∧
    (∀ f, (basin f).basinClusters 0 0 = [0] ∧ ((basin f).cluster 0).fenced = f ∧ ((basin f).cluster 0).resetDone = f) := by
  refine ⟨by decide, rfl, ok_of (by decide +kernel), err_of (by decide +kernel), ?_, rfl, by decide, ?_⟩
  · intro i
    have h : ∀ k, (List.replicate 1024 (0 : Byte)).getD k 0 = 0 := by
      intro k
      rw [List.getD_eq_getElem?_getD, List.getElem?_replicate]
      split <;> rfl
    simp only [fieldAt, bytesAt, h]
    decide
  · intro f
    cases f <;> decide

/-- An error that core 0 consumed in its cluster. -/
def struck : State := (basin false).modCluster 0 fun k => { k with consumed := some (0, 0x1000) }

theorem witness_TablesLoadAndBasinsReset_consumed :
    (∀ f, ((basin f).cluster (clusterOf (coreOf 0))).fenced = f ∧ (0x1000 : Nat) < 2 ^ 48 ∧ pkgOf (coreOf 0) < 4096) ∧
    isSystem (coreOf 0) = false ∧ isSystem (coreOf (ctxAt (systemCore 0 0) 0)) = true ∧
    (struck.cluster 0).consumed = some (0, 0x1000) ∧ (struck.cluster 0).fenced = false ∧ 0 ∈ (struck.basinOf 0).2 ∧
    ∀ j, j ≠ 0 → (struck.cluster j).consumed = none := by
  refine ⟨fun f => by cases f <;> decide, by decide, by decide, by decide, by decide, by decide, fun j hj => ?_⟩
  rw [show struck = (basin false).modCluster 0 _ from rfl, State.modCluster_ne _ _ hj]
  rw [show basin false = State.modCluster _ 0 _ from rfl, State.modCluster_ne _ _ hj]
  rfl

/-- Partition 0 has the stack and a range from address 0, and a page of 1 GiB at the first address of global memory. -/
def walked : State := ((lab.modPart 0 fun x => { x with pcl0 := 1, phbm := 1, pmr := [(0, 0x100000000)] }).writeRun (hbmAt 0 0) [0x01, 0x10]).writeRun
  (hbmAt 0 0x1020) [0x5F]

/-- The unit of a range that the Tug stands at, or beyond the last one. -/
def tugged (bnd : Nat) : State := walked.modPkg 0 fun x => { x with tugActive := true, tugbnd := bnd }

theorem witness_RepairAndSupply :
    (∀ b, ¬ (b < 16 ∧ (lab.part (16 * 0 + b)).phbm.getLsbD (0 % 8) = true)) ∧ (walked.part 0).phbm.getLsbD 0 = true ∧
    (walked.pkg 0).tugActive = false ∧ 0 ∉ (walked.pkg 0).dropped ∧
    (∀ n, ((tugged n).pkg 0).tugActive = true ∧ (tugged n).stackOwner 0 ((tugged n).pkg 0).tugStack = some 0 ∧
      ((tugged n).pkg 0).tugbnd = n) ∧
    (let inside := fun (u : Nat) => ∃ i, i < 8 ∧ (let r := (SMap.look ((tugged 0).part 0).pmr i (0 : Word)).toNat;
       r % 2 ^ 32 * 65536 ≤ u ∧ u < (r % 2 ^ 32 + r / 2 ^ 32 % 2 ^ 31) * 65536)
     inside 0 ∧ ∀ u, 65536 ≤ u → ¬ inside u) := by
  refine ⟨?_, by decide, by decide, by decide, fun n => ⟨rfl, show walked.stackOwner 0 0 = some 0 by decide, rfl⟩, ⟨0, by decide⟩, ?_⟩
  · have h : ∀ b < 16, (lab.part (16 * 0 + b)).phbm.getLsbD (0 % 8) = false := by decide
    rintro b ⟨hb, hn⟩
    exact Bool.noConfusion ((h b hb).symm.trans hn)
  · rintro u hu ⟨i, hi, -, h⟩
    have g : ∀ i < 8, ((SMap.look ((tugged 0).part 0).pmr i (0 : Word)).toNat % 2 ^ 32 +
      (SMap.look ((tugged 0).part 0).pmr i (0 : Word)).toNat / 2 ^ 32 % 2 ^ 31) * 65536 ≤ 65536 := by decide
    exact absurd (Nat.lt_of_lt_of_le h (g i hi)) (Nat.not_lt.2 hu)

theorem witness_RepairAndSupply_supply :
    0 ≤ (lab.pkg (0 / 128)).pfth.toNat ∧ (lab.pkg (0 / 128)).pfth.toNat < 1 ∧ (lab.cluster 0).passes < 10 ∧
    10 ≤ ((lab.modCluster 0 fun k => { k with passes := 10 }).cluster 0).passes ∧ walked.partOf (8 * 0) = 0 ∧
    windowOf 0x100000000 = some .glob ∧ (walked.cluster 0).tlb = [] ∧ (walked.core (8 * 0)).tlb = [] ∧
    ∃ r, walked.walk 0 0x100000000 = .ok r :=
  have h : _ ∧ _ ∧ _ ∧ _ ∧ _ ∧ _ ∧ _ ∧ _ := by decide
  ⟨h.1, h.2.1, h.2.2.1, h.2.2.2.1, h.2.2.2.2.1, h.2.2.2.2.2.1, h.2.2.2.2.2.2.1, h.2.2.2.2.2.2.2, ok_of (by decide)⟩

/-- Context 0 is sampled; the ring of its die has one place, or two. -/
def sampled (n : Nat) : State :=
  { (((labCtx fun x => { x with kind := .launched 0 }).modPart 0 fun x => { x with trctl := 0x10001 }).modDie 0 fun d =>
      { d with trb := BitVec.ofNat 64 (n * 2 ^ 28) }) with cycle := 6 }
/-- A dump of a context is asked for, with its frame and banks. -/
def dumping : State := (lab.modPart 0 fun x => { x with dumpctl := 6 }).modDie 0 fun d =>
  { d with
    dumpb := 0x800000000000000
    dumps := [{ ctx := 0, cause := 0x12, taskid := 0, saved := true, save := 0x1000, frame := some 0x10000, lbanks := 0xFFF }] }

theorem witness_SamplesAndDumpsAreWritten :
    (lab.part (lab.partOf 0)).trctl.getLsbD 0 = false ∧
    (∀ n, n = 0 ∨ n = 1 → let s := sampled n; let q := s.part (s.partOf 0); let x := s.ctx (ctxAt 0 0)
      q.trctl.getLsbD 0 = true ∧ q.trctl.toNat / 2 ^ 16 % 2 ^ 16 = 1 ∧ s.gtc % 1 = 0 ∧ (s.core 0).sampledAt ≠ some s.gtc ∧ x.run = .running ∧
        x.kind ≠ .none ∧ x.role = .plain ∧ (∀ j, j < 4 → j ≠ 0 → (s.ctx (ctxAt 0 j)).run ≠ .running) ∧
        (decide (((s.die 0).trpHead + 1) % 2 ^ n = (s.die 0).trpTail) = decide (n = 0))) ∧
    (lab.die 0).dumps = [] ∧
    (let s := dumping
     let x : Dump := { ctx := 0, cause := 0x12, taskid := 0, saved := true, save := 0x1000, frame := some 0x10000, lbanks := 0xFFF }
     let body := (runFrom (dieAt 0 0x1000) 4096).map s.byte ++ (keptRun x.kept (dieAt 0 0x10000) Config.frameBytes ++
       ((List.range 12).filter x.lbanks.getLsbD).flatMap fun i => keptRun x.kept (localAt 0 (16384 * i)) 16384)
     (s.die 0).dumps = [x] ∧ x.extra = none ∧ (s.cluster (clusterOf (coreOf x.ctx))).consumed = none ∧
       (s.part (s.partOf 0)).dumpctl = 6 ∧ Memory.wf s.mem = true ∧ (s.ctx 0).csr.lbanks.getLsbD 11 = true ∧
       (s.die 0).dumpp.toNat + (64 + body.length) ≤ (s.die 0).dumpb.toNat / 2 ^ 32 % 2 ^ 28 ∧
       (s.die 0).dumpb.toNat % 2 ^ 28 + (s.die 0).dumpp.toNat + (64 + body.length) ≤ lpctOff ∧ 0x1000 + 4096 ≤ lpctOff) := by
  refine ⟨by decide, ?_, by decide, by decide, rfl, by decide, by decide, by decide, by decide, ?_, ?_, by decide⟩
  · rintro n (rfl | rfl) <;> decide
  all_goals
    simp only [List.length_append, List.length_map, List.length_flatMap, runFrom, List.length_range, keptRun, sliceFrom_length]
    decide +kernel

/-- Function 0 is enabled; partition 0 has the first 64 KiB of memory, and its queue takes launches. -/
def hosted (n : Nat) (v : BitVec 8) : State := ((launching n descBytes).modPart 0 fun x => { x with pmr := [(0, 0x100000000)], qcfg := [(0, v)] }).modPkg 0
  fun x => { x with fns := [(0, { enabled := true, slots := (descBytes.zipIdx).map fun e => (e.2, e.1) })] }

theorem witness_TheHostReachesItsPartition_doorbells :
    (∀ n v, (n = 0 ∨ n = 32) → v = (0x0C : BitVec 8) ∨ v = 0x0D → let s := hosted n v; let f : VirtFn := SMap.look (s.pkg 0).fns 0 {}
      f.enabled = true ∧ (s.pkg 0).powered = true ∧ (s.pkg 0).recovery = false ∧
        (SMap.look f.status 0 (0x80000000 : BitVec 32)).getLsbD 31 = true ∧ (s.part 0).pqm.getLsbD 0 = true ∧
        ((SMap.look (s.part 0).qcfg 0 (0 : BitVec 8)).getLsbD 0 = decide (v = 0x0D)) ∧
        ((s.part 0).waves.filter fun w => w.queue == 0).length = n) ∧
    (let s := hosted 0 0x0D; let f : VirtFn := SMap.look (s.pkg 0).fns 0 {}
     (s.checkDesc 0 false ((List.range 64).map fun i => SMap.look f.slots (64 * 0 + i) (0 : Byte))).isSome = true ∧
       (s.checkDesc 0 false []).isSome = false) ∧
    (let s := (hosted 0 0x0D).modPkg 0 fun x => { x with fns := [(0, { enabled := true, status := [(0, 0)] })] }
     (SMap.look (SMap.look (s.pkg 0).fns 0 ({} : VirtFn)).status 0 (0x80000000 : BitVec 32)).getLsbD 31 = false) := by
  refine ⟨?_, by decide +kernel⟩
  intro n v hn hv
  rcases hn with rfl | rfl <;> rcases hv with rfl | rfl <;> exact ⟨rfl, rfl, rfl, by decide⟩

theorem witness_TheHostReachesItsPartition :
    (SMap.look (lab.pkg 0).fns 0 {} : VirtFn).enabled = false ∧ ((hosted 0 0x0D).pkg 0).powered = true ∧
    ((hosted 0 0x0D).pkg 0).recovery = false ∧ (((hosted 0 0x0D).modPkg 0 fun x => { x with recovery := true }).pkg 0).recovery = true ∧
    (((hosted 0 0x0D).modPkg 0 fun x => { x with powered := false }).pkg 0).powered = false ∧
    (let s := hosted 0 0x0D
     (runFrom 0xFFFC 4).map (barAddr (s.part (16 * 0 + 0)).ranges 0) = [0xFFFC, 0xFFFD, 0xFFFE, 0xFFFF].map some ∧
       none ∈ (runFrom 0xFFFD 4).map (barAddr (s.part (16 * 0 + 0)).ranges 0) ∧
       (([0xFFFC, 0xFFFD, 0xFFFE, 0xFFFF] : List Nat).map (hbmAt 0)).Nodup ∧
       (∀ a ∈ ([0xFFFC, 0xFFFD, 0xFFFE, 0xFFFF] : List Nat), hbmAt 0 a < dieBase) ∧ Memory.wf s.mem = true) ∧
    64 < 61 + ([1, 2, 3, 4] : List Byte).length ∧ 60 + ([1, 2, 3, 4] : List Byte).length ≤ 64 := by
  decide

/-- A package without power, with a journal, and in flash copy A an image of firmware. -/
def image (typ : Nat) : List Byte := bytesOfNat 4 0x5746474E ++ bytesOfNat 2 typ ++ List.replicate 1606 0
def unpowered (j : List JRec) : State := lab.modPkg 0 fun x => { x with powered := false, journal := j, flash := [(0, image 1)] }
/-- Two starts that ended in step 3; two failed attempts of step 1. -/
def halfway : List JRec :=
  [(1, 0, 1), (1, 1, 1), (2, 0, 1), (2, 1, 1), (3, 0, 1), (1, 0, 2), (1, 1, 2), (2, 0, 2), (2, 1, 2), (3, 0, 2)].map fun r =>
    mkRec r.1 1 r.2.1 r.2.2
def failing : List JRec := [mkRec 1 1 0 1, mkRec 1 1 2 1, mkRec 1 2 0 1, mkRec 1 2 2 1]
/-- A start's input with the supervisor's image. -/
def starting (g : BitVec 12) : BootInput :=
  { attempts := [], badCores := [], failedCores := [], badClusters := [], pkgid := g, links := [(0, 1, 0)], images := [(8, image 2)] }

/-- An image whose form is right is accepted where both verdicts, which are free, are for it. -/
theorem witness_StartsAndPowerLoss_images (j : List JRec) (typ : Nat) (h : typ = 1 ∨ typ = 2)
    (he : Config.ecdsaOk typ (image typ) = true) (hl : Config.lmsOk typ (image typ) = true) :
    ((unpowered j).pkg 0).accepts typ (image typ) = true := by
  have hm : ((unpowered j).pkg 0).minSvn = [] := rfl
  have ok : ∀ t, t = 1 ∨ t = 2 → bootImageOk t (image t) = true := by
    rintro t (rfl | rfl) <;> decide +kernel
  simp [Package.accepts, ok typ h, he, hl, hm]

theorem witness_StartsAndPowerLoss :
    (lab.pkg 0).powered = true ∧ (∀ j, ((unpowered j).pkg 0).powered = false ∧ ((unpowered j).pkg 0).journal = j ∧
      SMap.look ((unpowered j).pkg 0).flash 0 [] = image 1) ∧
    2 ≤ (failsOf failing 1).plain ∧
    (let recs := fun (k : Nat) (l : List Nat) => l.flatMap fun i => [mkRec i 1 0 k, mkRec i 1 1 k]
     halfway = recs 1 [1, 2] ++ [mkRec 3 1 0 1] ++ recs 2 [1, 2] ++ [mkRec 3 1 0 2]) ∧
    (∀ g, (starting g).attempts = [] ∧ (starting g).images = [(8, image 2)] ∧ (starting g).links = [(0, 1, 0)]) ∧
    ((starting 0).pkgid.toNat = 0 ∧ (starting 1).pkgid.toNat ≠ 0) ∧
    ((unpowered []).modPkg 1 fun x => { x with powered := true }).onFabric (starting 1).pkgid.toNat = true ∧ (0 : PkgId) < 4096 ∧
    ((lab.pkg 0).powered = true ∧ 1 ≤ 8) :=
  ⟨rfl, fun _ => ⟨rfl, rfl, rfl⟩, by decide +kernel, rfl, fun _ => ⟨rfl, rfl, rfl⟩, by decide, by decide, by decide, by decide⟩

/-- Port 0 of package 0 is up and leads to package 1, to which a piece of core 0 is on its way. -/
def linked : State :=
  { (lab.modPkg 0 fun x => { x with ports := [(0, { up := true, peerPkg := 1 })], routes := [(1, 1)] }).modCore 0 (fun k =>
      { k with port := [{ order .put with place := 1024 }], transit := [{ cmd := 9, elem := 0, dest := 0x2000, bytes := [1], path := [(0, 0)] }] }) with
    flying := [{ mail with dst := 1024, path := some [(0, 0)] }] }

theorem witness_LinksFail :
    (SMap.look (lab.pkg 0).ports 0 {} : Port).up = false ∧ (SMap.look (linked.pkg 0).ports 0 {} : Port).up = true ∧
    (∃ x ∈ (linked.core 0).transit, ∃ e, linked.command 0 x.cmd = some e ∧ (0, 0) ∈ x.path) ∧
    (∀ q, (linked.part q).elogm.getLsbD 63 = false) ∧ (linked.flying.map (·.seq)).Nodup :=
  ⟨by decide, by decide, ⟨_, .head _, _, rfl, by decide⟩, fun q => by rw [show linked.part q = {} from rfl]; decide, by decide⟩

/-! ## The machine -/

/-- The line of R164's example whose heads are an `add` and a `shr`, and a line whose head 1 is no head. -/
def workedLine : Line := [0x2103, 0x0100, 0x0595, 0x8303] ++ List.replicate 20 0 ++ [0x1008, 0x0604, 0x0000, 0x0020, 0x00E0, 0x5456, 0x00C8, 0x444C]
def emptyLine : Line := [0x0001] ++ List.replicate 31 0
/-- It is context 0's turn, at head 1 of a line. -/
def turn (f : Context → Context) : State := { labCtx (fun x => f { x with pc := 1 }) with agenda := [.issue 0] }

theorem witness_StepRunsTheDecodedHead :
    (∀ f, f = id ∨ f = (fun x : Context => { x with wait := some { instr := .gbar, issue := {}, seq := 0 } }) ∨
        f = (fun x : Context => { x with lines := [(0, workedLine)] }) → let s := turn f
      let u : State := { s with agenda := [] }
      let v := u.modCtx 0 fun x => x.settle (u.nowCtx 0)
      let x := v.ctx 0
      (s.pkg (pkgOf (coreOf 0))).powered = true ∧ x.run = .running ∧ x.inChain = false ∧ v.beforeHead 0 = none ∧ v.notReady 0 = false ∧
        x.csr.gang ≠ 2 ∧ v.onStream 0 = false ∧ v.breakAt 0 x.pc = false) := by
  rintro f (rfl | rfl | rfl) <;> exact ⟨rfl, rfl, rfl, rfl, rfl, by decide, rfl, rfl⟩

theorem witness_StepRunsTheDecodedHead_lines :
    (let s := turn fun x => { x with lines := [(0, workedLine)] }
     (s.ctx 0).lines.find? (fun e => e.1 == lineVa 1) = some (0, workedLine) ∧ lineTrap (s.ctx 0) 1 workedLine = none ∧
       decodeHead (workedLine.getD (headIx 1) 0) (headTail workedLine (headIx 1)) = .ok (.add 12 (.reg 4) (.lit 8)) ∧
       lineTrap (s.ctx 0) 1 emptyLine = none ∧ decodeHead (emptyLine.getD (headIx 1) 0) (headTail emptyLine (headIx 1)) = .op ∧
       lineTrap (s.ctx 0) 1 (List.replicate 32 0) = some .illegalLine) ∧
    (let s := turn id
     (s.ctx 0).lines.find? (fun e => e.1 == lineVa 1) = none ∧
       ∃ r, s.resolve (s.agent 0) .fetch (BitVec.ofNat 64 (lineVa 1)) (runFrom (lineVa 1) 64) true false true = .ok r ∧ r.1.Sound r.2) := by
  refine ⟨by decide, by decide, ?_⟩
  obtain ⟨r, h, g⟩ := okWith_of (r := (turn id).resolve ((turn id).agent 0) .fetch (BitVec.ofNat 64 (lineVa 1)) (runFrom (lineVa 1) 64) true false true)
    (f := fun r => decide (r.1.poison = [])) (by decide)
  exact ⟨r, h, fun a _ => by simp [State.poisoned, of_decide_eq_true g]⟩

theorem witness_TailsArePlacedDownward : lineFormed workedLine = true := by decide

theorem witness_DecodingUndoesEncoding :
    (Instr.add 12 (.reg 4) (.lit 8)).wf = true ∧ [0x444C, 0x00C8].length = tailLength (headTl 0x0100) ∧
    decodeHead 0x0100 [0x444C, 0x00C8] = .ok (.add 12 (.reg 4) (.lit 8)) := by decide

theorem witness_StepsKeepMemoryCanonical :
    Memory.wf (State.reset.withFetchWord 16 0x2203).mem = true ∧ next (step (State.reset.withFetchWord 16 0x2203)) (fun t => t.mem.length != 0) = true := by
  decide

/-! ## Single steps and worked examples -/

/-- R156, R159 and log 12: after a load of the program, the first step runs its head, and the program counter goes to the next line after the last
head of its line. -/
theorem test_step_runs_the_loaded_head :
    next (step (State.reset.withFetchWord 16 0x2203)) (fun t => decide ((t.ctx 0).pc = 0x41)) = true := by decide
/-- The result of a head on scalar registers, in register 3. -/
def after (i : Instr) (l : List (SReg × Word)) (v : Word) : Bool := next (exec i (regs l)) fun t => decide (sAt t 3 = v)
/-- By hand, from R185: sums wrap, mulh takes the signed product's high half. -/
theorem test_add_wraps : after (.add 3 (.reg 4) (.lit 1)) [(4, 0xFFFFFFFFFFFFFFFF)] 0 = true := by decide
theorem test_sub_borrows : after (.sub 3 (.reg 4) (.reg 5)) [(4, 3), (5, 5)] 0xFFFFFFFFFFFFFFFE = true := by decide
theorem test_mulh_signs : after (.mulh 3 (.reg 4) (.reg 5)) [(4, 0xFFFFFFFFFFFFFFFF), (5, 2)] 0xFFFFFFFFFFFFFFFF = true := by decide
theorem test_mulhn_unsigned : after (.mulhn 3 (.reg 4) (.reg 5)) [(4, 0xFFFFFFFFFFFFFFFF), (5, 2)] 1 = true := by decide
theorem test_min_signed : after (.min 3 (.reg 4) (.reg 5)) [(4, 0xFFFFFFFFFFFFFFFF), (5, 2)] 0xFFFFFFFFFFFFFFFF = true := by decide
/-- R187: shift counts are taken modulo 64. -/
theorem test_shl_counts : after (.shl 3 (.reg 4) (.lit 65)) [(4, 3)] 6 = true := by decide
theorem test_sra_fills : after (.sra 3 (.reg 4) (.lit 63)) [(4, 0x8000000000000000)] 0xFFFFFFFFFFFFFFFF = true := by decide
theorem test_rotl_wraps : after (.rotl 3 (.reg 4) (.lit 4)) [(4, 0xF000000000000001)] 0x1F = true := by decide
theorem test_clz_zero : after (.clz 3 (.reg 4)) [] 64 = true := by decide
theorem test_bfx_field : after (.bfx 3 (.reg 4) (.lit 8) 7) [(4, 0xABCD)] 0xAB = true := by decide
theorem test_lih_replaces_the_high_half : after (.lih 3 0x12345678) [(3, 0xFFFFFFFFFFFFFFFF)] 0x12345678FFFFFFFF = true := by decide
/-- Register 0 discards writes (R22). -/
theorem test_s0_reads_zero : next (exec (.add 0 (.lit 1) (.lit 1)) lab) (fun t => decide (sAt t 0 = 0)) = true := by decide
/-- An overlapping source and destination. -/
theorem test_add_source_is_destination : after (.add 3 (.reg 3) (.reg 3)) [(3, 21)] 42 = true := by decide

/-- A signed load of a byte of own local memory. -/
theorem test_ld_extends :
    next (exec (.ld 3 4 (.lit 0) 0 true) ((regs [(4, 0x100)]).writeRun (localAt 0 0x100) [0x80])) (fun t => decide (sAt t 3 = 0xFFFFFFFFFFFFFF80)) =
      true := by decide
/-- A store writes its low bytes, lowest first (R4). -/
theorem test_st_is_little_endian :
    next (exec (.st 4 (.lit 0) (.reg 5) 1) (regs [(4, 0x100), (5, 0xABCD)]))
      (fun t => t.byte (localAt 0 0x100) == 0xCD && t.byte (localAt 0 0x101) == 0xAB && t.byte (localAt 0 0x102) == 0) = true := by decide
/-- R225's example: a granule given the tags 0x2, 0xA, 0x7 and 0x5 has TAG 5 and HIST 0x2A7. -/
theorem test_tagset_history :
    (let s := (((lab.setTag 0 2).setTag 0 0xA).setTag 0 7).setTag 0 5
     s.tag 0 = 5 ∧ s.hist 0 = 0x2A7) := by decide


/-- Vector registers of the task. -/
def vregs (l : List (VReg × Vec)) : State := labCtx fun x => { x with v := l.foldl (fun v e => v.set e.1.val e.2 e.1.isLt) x.v }
/-- The example of `vdot4` (R258): accumulator 0 is 2. -/
theorem test_vdot4_example :
    next (exec (.vdot4 2 3 4 { pred := 0, wid := 0, uns := false, satm := false }) (vregs [(3, 0x7F04030201), (4, 0x7F01FF01FF)]))
      (fun t => decide (laneAt 32 (t.val 0 (.v 2)) 0 = 2)) = true := by decide
/-- The example of `vo4p` (R261): its bytes, IX and SAT. -/
theorem test_vo4p_example :
    next (exec (.vo4p 5 3 4 0) (vregs [(3, 0x3C00C7000000000045005600C0004200), (4, 0x00005CB0000000000000000000004100)]))
      (fun t => decide (t.val 0 (.v 5) = 0x07000002197458E3) && decide (t.sw 0 = fIX ||| fSAT)) = true := by decide
/-- The examples of R70: 2^3 is 8 exactly, 1/3 is truncated, the root of 2 is rounded. -/
theorem test_special_functions :
    (let r := fun (i : MF → Instr) (a : Vec) => ({ request (i { pred := 0, fty := 2, rnd := 0 }) with a := a, pred := 0x000F }).result
     r (.vexp2 3 4) 0x40400000 = (0x41000000, 0) ∧ r (.vlog2 3 4) 0x3F800000 = (0, 0) ∧ r (.vrcp 3 4) 0x40400000 = (0x3EAAAAAA, fIX) ∧
       r (.vsqrt 3 4) 0x40000000 = (0x3FB504F3, fIX)) := by decide +kernel

/-- The example of the Breakwater (R99): product 521 of 16,129 leaves A = -8,374,007 and a count of 1 for cell 261. -/
theorem test_breakwater_example :
    (match addProducts tile 261 [.fin 16129 false] ({ bw := [], mstat := 0, spills := [], count := 0 }, { a := 8387080 }) with
      | .ok (b, c) => decide (c.a.toInt = -8374007) && decide (b.bw = [(261, 1)])
      | .error _ => false) = true := by decide
/-- The example of `mmask` (R277): the mask bits of four nodes. -/
theorem test_mmask_example :
    next (exec (.mmaskService 0) parented) (fun t =>
      (List.range 4).map (fun i => (List.range 4).map fun j => ((t.cluster 0).arr.masked (128 * i + j)).toNat) ==
        [[0, 1, 1, 1], [0, 0, 1, 1], [0, 1, 0, 1], [0, 0, 1, 0]]) = true := by decide

end Sys2Proof.Tests
end

/-! # Encoding and assembly: where a line's tails stand, and what a delay slot refuses -/

section
namespace Sys2Proof

/-! ## The tails of a line (R157) -/

/-- T of head k: the halfword that holds the first halfword of its tail (R157). -/
def tailTop (l : Line) (k : Nat) : Nat := 31 - tailSum l (k - 1)

theorem tailSum_eq_add_tailLength (l : Line) {k : Nat} (hk : 1 ≤ k) :
    tailSum l k = tailSum l (k - 1) + tailLength (headTl (l.getD k 0)) := by
  obtain ⟨n, rfl⟩ := Nat.exists_eq_add_of_le' hk
  rfl

theorem tailSum_monotone (l : Line) : Monotone (tailSum l) :=
  monotone_nat_of_le_succ fun _ => Nat.le_add_right ..

/-- Header, heads and tails of a formed line fit into its 32 halfwords (R156). -/
theorem tailSum_add_lineHc_le {l : Line} (h : lineFormed l = true) {k : Nat} (hk : k ≤ lineHc l) :
    tailSum l k + lineHc l ≤ 31 := by
  simp only [lineFormed, Bool.and_eq_true, decide_eq_true_eq] at h
  obtain ⟨⟨_, hfit⟩, _⟩ := h
  have := tailSum_monotone l hk
  omega

theorem tailTop_succ_add_tailLength {l : Line} (h : lineFormed l = true) {k : Nat} (hk : 1 ≤ k) (hc : k ≤ lineHc l) :
    tailTop l (k + 1) + tailLength (headTl (l.getD k 0)) = tailTop l k := by
  have hfit := tailSum_add_lineHc_le h hc
  rw [tailSum_eq_add_tailLength l hk] at hfit
  simp only [tailTop, Nat.add_sub_cancel, tailSum_eq_add_tailLength l hk]
  omega

/-- The tail of a head ends above the heads, so above h0 too. -/
theorem lineHc_add_tailLength_le_tailTop {l : Line} (h : lineFormed l = true) {k : Nat} (hk : 1 ≤ k) (hc : k ≤ lineHc l) :
    lineHc l + tailLength (headTl (l.getD k 0)) ≤ tailTop l k := by
  have hfit := tailSum_add_lineHc_le h hc
  rw [tailSum_eq_add_tailLength l hk] at hfit
  unfold tailTop
  omega

theorem headTail_length (l : Line) (k : Nat) : (headTail l k).length = tailLength (headTl (l.getD k 0)) := by
  simp [headTail]

theorem headTail_getElem? (l : Line) (k : Nat) {i : Nat} (hi : i < tailLength (headTl (l.getD k 0))) :
    (headTail l k)[i]? = some (l.getD (tailTop l k - i) 0) := by
  simp only [headTail, tailTop, List.getElem?_map, List.getElem?_range hi, Option.map_some]

/-- Settles O56: T of head k is `tailTop l k`, which the line's fit keeps above the heads. -/
theorem tailsArePlacedDownward : Obligations.TailsArePlacedDownward := by
  intro l h
  refine ⟨tailTop l, rfl, fun k hk hc => tailTop_succ_add_tailLength h hk hc, fun k hk hc => ⟨headTail_length l k, fun i hi => ?_⟩⟩
  have hroom := lineHc_add_tailLength_le_tailTop h hk hc
  exact ⟨by omega, by omega, headTail_getElem? l k hi⟩

end Sys2Proof
end

section
namespace Sys2Proof.Machine

/-! ## DELAY_SLOT (R171, R197) -/

theorem Context.slotBad_noSlot {x : Context} {n : Need} {ptr : Word} (hd : x.dsn ≠ 0) : x.slotBad (noSlot n) ptr = true := by
  simp [slotBad, noSlot, hd]

/-- The return from a loop's end must not stand in a delay slot, whatever the head (R197). -/
theorem Context.slotBad_atLoopEnd {x : Context} {n : Need} {ptr : Word} (hd : x.dsn ≠ 0) (hl : x.atLoopEnd ptr = true) :
    x.slotBad n ptr = true := by
  simp [slotBad, hd, hl]

/-- A head that its place refuses traps DELAY_SLOT once the checks before that one pass (R165). -/
theorem head_slotBad {i : Instr} {n : Need} {early limit : State → Option Cause} {eff : State → Eff} {s : State}
    (hb : s.here.slotBad n s.cur.ptr = true) (hu : s.here.interlocked n = false) (hw : s.splitPending s.cur.ctx = false)
    (he : early s = none) (hl : limit s = none) :
    head i n early limit eff s = .next (s.raiseTrap s.cur.ctx { cause := .delaySlot }) := by
  simp [head, hb, hu, hw, he, hl]

/-- A head of R171 in a delay slot. The mark `noSlot` names no register, so the interlocks are those of `n`. -/
theorem exec_noSlot_inSlot {i : Instr} {n : Need} {early limit : State → Option Cause} {eff : State → Eff} {s : State}
    (hx : exec i s = head i (noSlot n) early limit eff s) (hd : s.here.dsn ≠ 0) (he : early s = none) (hl : limit s = none)
    (hu : s.here.interlocked n = false) (hw : s.splitPending s.cur.ctx = false) :
    exec i s = .next (s.raiseTrap s.cur.ctx { cause := .delaySlot }) :=
  hx.trans (head_slotBad (Context.slotBad_noSlot hd) hu hw he hl)

/-! ## The checks that come before DELAY_SLOT -/

theorem handlerOp_eq_none {s : State} (h : inHandler s = false) : handlerOp s = none := by
  simp [handlerOp, h]

theorem launchedOp_eq_none {s : State} (h : inHandler s = true) : launchedOp s = none := by
  simp [launchedOp, h]

theorem eretEarly_eq_none {s : State} (hl : s.here.level ≠ .task) (hr : s.here.trapRec.isSome = true) : eretEarly s = none := by
  simp [eretEarly, privOp, hl, Option.isNone_eq_false_iff.2 hr]

theorem operandOk_eq_none {l : List Limit} {s : State} (h : ∀ m ∈ l, m.ok s = true) : operandOk l s = none := by
  have hall : l.any (·.broken s) = false := List.any_eq_false.2 fun m hm => by simp [Limit.broken, h m hm]
  simp [operandOk, hall]

/-- The limits of `gform` on the count alone and on the leader's position alone follow from those on both (R205). -/
theorem gformLimits_hold {a b : XOp} {s : State} (h2 : 2 ≤ (s.x a).toNat) (h64 : (s.x a).toNat ≤ 64)
    (hok : gformOk (s.x a).toNat (s.x b).toNat s = true) : operandOk (gformLimits a b) s = none := by
  refine operandOk_eq_none ?_
  have hcases : s.here.wait.isSome = true ∨
      (s.x b).toNat + (s.x a).toNat - 1 < 8 * s.spanSize s.cur.ctx ∧ (s.x b).toNat ≤ s.positionOf s.cur.ctx := by
    simp only [gformOk, Bool.or_eq_true, Bool.and_eq_true, decide_eq_true_eq] at hok
    exact hok.imp_right fun ⟨⟨⟨hspan, hbase⟩, _⟩, _⟩ => ⟨hspan, hbase⟩
  simp only [gformLimits, List.forall_mem_cons, Bool.and_eq_true, Bool.or_eq_true, decide_eq_true_eq]
  exact ⟨⟨h2, h64⟩, hcases.imp_right fun h => by omega, hcases.imp_right And.right, hok, List.forall_mem_nil _⟩

/-- A limit on a value that the head itself carries. -/
theorem operandOk_litRange {s : State} {k : Lit} {n : Int} {l : List Limit} (h0 : 0 ≤ k.toInt) (hn : k.toInt ≤ n)
    (hl : ∀ m ∈ l, m.ok s = true) :
    operandOk ({ ok := fun _ => decide (0 ≤ k.toInt) && decide (k.toInt ≤ n) } :: l) s = none :=
  operandOk_eq_none (List.forall_mem_cons.2 ⟨by simp [h0, hn], hl⟩)

/-- Settles O9: every head of R171 is a `noSlot` head, so it is enough that its own earlier checks pass; `nop` stands for the
return from a loop's end, which any head may carry. -/
theorem delaySlotsRefuseHeads : Obligations.DelaySlotsRefuseHeads := by
  intro s hd
  dsimp only
  refine ⟨?br, ?bra, ?jmp, ?jmpr, ?call, ?callr, ?ret, ?jtab, ?loopEnd, ?launchedOnly, ?msgdone, ?trap, ?eret, ?gleave, ?gjoin,
    ?sigchk, ?wdenter⟩
  case br => exact fun _ _ => exec_noSlot_inSlot (exec_br s) hd rfl rfl
  case bra => exact fun _ => exec_noSlot_inSlot (exec_bra s) hd rfl rfl
  case jmp => exact fun _ => exec_noSlot_inSlot (exec_jmp s) hd rfl rfl
  case jmpr => exact fun _ _ => exec_noSlot_inSlot (exec_jmpr s) hd rfl rfl
  case call => exact fun _ => exec_noSlot_inSlot (exec_call s) hd rfl rfl
  case callr => exact fun _ => exec_noSlot_inSlot (exec_callr s) hd rfl rfl
  case ret => exact exec_noSlot_inSlot (exec_ret s) hd rfl rfl
  case jtab => exact fun _ _ _ _ => exec_noSlot_inSlot (exec_jtab s) hd rfl rfl
  case loopEnd => exact fun hend hu hw => (exec_nop s).trans (head_slotBad (Context.slotBad_atLoopEnd hd hend) hu hw rfl rfl)
  case launchedOnly =>
    intro hk
    have hop := handlerOp_eq_none hk
    exact ⟨exec_noSlot_inSlot (exec_halt s) hd hop rfl, fun _ => exec_noSlot_inSlot (exec_haltR s) hd hop rfl,
      fun _ _ h2 h64 hok => exec_noSlot_inSlot (exec_gform s) hd hop (gformLimits_hold h2 h64 hok)⟩
  case msgdone => exact fun hk => exec_noSlot_inSlot (exec_msgdone s) hd (launchedOp_eq_none hk) rfl
  case trap => exact fun _ => exec_noSlot_inSlot (exec_trap s) hd rfl rfl
  case eret => exact fun hl hr => exec_noSlot_inSlot (exec_eret s) hd (eretEarly_eq_none hl hr) rfl
  case gleave => exact exec_noSlot_inSlot (exec_gleave s) hd rfl rfl
  case gjoin => exact fun _ => exec_noSlot_inSlot (exec_gjoin s) hd rfl rfl
  case sigchk => exact fun _ h0 hn => exec_noSlot_inSlot (exec_sigchk s) hd rfl (operandOk_litRange h0 hn (List.forall_mem_nil _))
  case wdenter =>
    exact fun _ _ _ _ h0 hn hr =>
      exec_noSlot_inSlot (exec_wdenter s) hd rfl (operandOk_litRange h0 hn (List.forall_mem_singleton.2 hr))

end Sys2Proof.Machine
end

/-! # Partitions and reliability: the suspect scores, and the entry of a trap -/

section
namespace Sys2Proof.Machine

/-! ## What leaves the suspect scores (R348, R352) -/

@[simp] theorem State.modCluster_susp (s : State) (j k : ClusterId) {f : Cluster → Cluster} (hf : ∀ x, (f x).susp = x.susp) :
    ((s.modCluster j f).cluster k).susp = (s.cluster k).susp := by
  rw [modCluster_cluster]
  split
  · subst k; exact hf _
  · rfl

@[simp] theorem State.modArr_susp (s : State) (j k : ClusterId) (f : MArray → MArray) :
    ((s.modArr j f).cluster k).susp = (s.cluster k).susp :=
  s.modCluster_susp j k fun _ => rfl

/-- Scores that every step of a loop leaves, the loop leaves. -/
theorem State.foldl_susp {α : Type} {f : State → α → State} (h : ∀ t a k, ((f t a).cluster k).susp = (t.cluster k).susp)
    (l : List α) (s : State) (k : ClusterId) : ((l.foldl f s).cluster k).susp = (s.cluster k).susp := by
  induction l generalizing s with
  | nil => rfl
  | cons a l ih => rw [List.foldl_cons, ih, h]

@[simp] theorem State.commitMsg_cluster (s : State) (p dst : Place) (hidx : Nat) (p1 p2 p3 : Vec) (k : ClusterId) :
    ((s.commitMsg p dst hidx p1 p2 p3).1.cluster k) = s.cluster k := rfl

@[simp] theorem State.logEvent_cluster (s : State) (q : PartId) (d : DieId) (e : EventRec) (k : ClusterId) :
    (s.logEvent q d e).cluster k = s.cluster k := by
  unfold logEvent
  dsimp only
  split
  · simp
  · split <;> rfl

@[simp] theorem State.quarantine_cluster (s : State) (j : ClusterId) (reason : Nat) (k : ClusterId) :
    (s.quarantine j reason).cluster k = s.cluster k := by
  unfold quarantine
  split <;> simp

@[simp] theorem State.discardBounce_cluster (s : State) (p : Place) (m : Msg) (a b : Place) (k : ClusterId) :
    (s.discardBounce p m a b).cluster k = s.cluster k :=
  s.logEvent_cluster ..

@[simp] theorem State.bounce_cluster (s : State) (b : Nat) (p dst : Place) (m : Msg) (n : Nat) (k : ClusterId) :
    (s.bounce b p dst m n).cluster k = s.cluster k := by
  unfold bounce
  split
  · simp
  · dsimp only
    split
    · simp
    · rfl

@[simp] theorem State.trace_cluster (s : State) (r : TraceRec) (k : ClusterId) : (s.trace r).cluster k = s.cluster k := by
  unfold trace
  dsimp only
  split <;> simp

@[simp] theorem State.traceIf_cluster (s : State) (n : Nat) (r : TraceRec) (k : ClusterId) :
    (s.traceIf n r).cluster k = s.cluster k := by
  unfold traceIf
  dsimp only
  split <;> simp

@[simp] theorem State.traceEnd_cluster (s : State) (c : CtxId) (p : Word) (k : ClusterId) :
    (s.traceEnd c p).cluster k = s.cluster k := by
  unfold traceEnd
  dsimp only
  split <;> simp

@[simp] theorem State.refuseHead_cluster (s : State) (p : Place) (m : InSlot) (n : Nat) (k : ClusterId) :
    (s.refuseHead p m n).cluster k = s.cluster k :=
  State.bounce_cluster ..

@[simp] theorem State.bounceLocked_susp (s : State) (q : PartId) (n : Nat) (k : ClusterId) :
    ((s.bounceLocked q n).cluster k).susp = (s.cluster k).susp := by
  unfold bounceLocked
  split
  · rfl
  · refine foldl_susp (fun t p k => ?_) _ _ _
    split
    · split <;> simp
    · rfl

@[simp] theorem State.finishHtset_susp (s : State) (c : CtxId) (k : ClusterId) :
    ((s.finishHtset c).cluster k).susp = (s.cluster k).susp := by
  unfold finishHtset
  split
  · split
    · exact bounceLocked_susp ..
    · rfl
  · rfl

/-! ### Accumulation units (R92, R107, R330) -/

@[simp] theorem State.takeAu_susp (s : State) (c : CtxId) (k : ClusterId) :
    ((s.takeAu c).1.cluster k).susp = (s.cluster k).susp := by
  unfold takeAu
  dsimp only
  split <;> simp

@[simp] theorem State.freeFrames_susp (s : State) (c : CtxId) (k : ClusterId) :
    ((s.freeFrames c).cluster k).susp = (s.cluster k).susp := by
  simp [freeFrames]

@[simp] theorem State.discardAu_susp (s : State) (c : CtxId) (k : ClusterId) :
    ((s.discardAu c).cluster k).susp = (s.cluster k).susp := by
  unfold discardAu
  split <;> simp

@[simp] theorem State.unmarkAu_susp (s : State) (c : CtxId) (k : ClusterId) :
    ((s.unmarkAu c).cluster k).susp = (s.cluster k).susp := by
  simp [unmarkAu]

@[simp] theorem State.holdAu_susp (s : State) (c : CtxId) (k : ClusterId) :
    ((s.holdAu c).cluster k).susp = (s.cluster k).susp := by
  unfold holdAu
  dsimp only
  split <;> simp

@[simp] theorem State.writePieces_susp (s : State) (a n : Nat) (l : List (Nat × List Byte)) (k : ClusterId) :
    ((s.writePieces a n l).cluster k).susp = (s.cluster k).susp := by
  unfold writePieces
  exact (foldl_susp (fun _ _ _ => by rw [writeRun_cluster]) l _ k).trans rfl

@[simp] theorem State.setMarks_cluster (s : State) (place : Nat) (m : CellMarks) (k : ClusterId) :
    (s.setMarks place m).cluster k = s.cluster k := rfl

@[simp] theorem State.scanTo_susp (s : State) (c : CtxId) (place : Nat) (k : ClusterId) :
    ((s.scanTo c place).cluster k).susp = (s.cluster k).susp := by
  simp [scanTo]

@[simp] theorem State.scanOut_susp (s : State) (c : CtxId) (k : ClusterId) :
    ((s.scanOut c).1.cluster k).susp = (s.cluster k).susp := by
  unfold scanOut
  dsimp only
  split
  · simp
  · split
    · simp
    · split
      · simp
      · split <;> simp

/-! ### Gangs -/

@[simp] theorem State.withdraw_cluster (s : State) (c : CtxId) (k : ClusterId) : (s.withdraw c).cluster k = s.cluster k := rfl
@[simp] theorem State.setGang_cluster (s : State) (g : Gang) (k : ClusterId) : (s.setGang g).cluster k = s.cluster k := rfl
@[simp] theorem State.dropGang_cluster (s : State) (n : Nat) (k : ClusterId) : (s.dropGang n).cluster k = s.cluster k := rfl

@[simp] theorem State.dissolveGang_susp (s : State) (g : Gang) (p : Option Word) (k : ClusterId) :
    ((s.dissolveGang g p).cluster k).susp = (s.cluster k).susp := by
  refine foldl_susp (fun t m k => ?_) _ _ _
  split <;> simp

@[simp] theorem State.quitGang_susp (s : State) (c : CtxId) (k : ClusterId) :
    ((s.quitGang c).cluster k).susp = (s.cluster k).susp := by
  unfold quitGang
  dsimp only
  split
  · simp
  · split <;> simp

@[simp] theorem State.detachOutside_susp (s : State) (c : CtxId) (l : List ClusterId) (k : ClusterId) :
    ((s.detachOutside c l).cluster k).susp = (s.cluster k).susp := by
  unfold detachOutside
  split
  · rfl
  · have hout : ∀ l : List CtxId,
        ((l.foldl (fun t m => t.modCtx m fun x => if x.csr.gang == 0 then x else x.detach) s).cluster k).susp = (s.cluster k).susp :=
      fun l => foldl_susp (fun _ _ _ => by simp) l s k
    dsimp only
    split
    · rw [dropGang_cluster, hout]
    · rw [setGang_cluster, hout]

/-! ### The end of a task, its group and its banks -/

@[simp] theorem State.dropUnitReqs_cluster (s : State) (c : CtxId) (k : ClusterId) :
    (s.dropUnitReqs c).cluster k = s.cluster k := rfl
@[simp] theorem State.dropResults_cluster (s : State) (c : CtxId) (k : ClusterId) :
    (s.dropResults c).cluster k = s.cluster k := rfl
@[simp] theorem State.freeCtx_cluster (s : State) (c : CtxId) (k : ClusterId) : (s.freeCtx c).cluster k = s.cluster k := rfl
@[simp] theorem State.modInbox_cluster (s : State) (p : Place) (f : Core → Core) (k : ClusterId) :
    (s.modInbox p f).cluster k = s.cluster k := rfl
@[simp] theorem State.clearBank_cluster (s : State) (p : Place) (i : Nat) (k : ClusterId) :
    (s.clearBank p i).cluster k = s.cluster k := rfl
@[simp] theorem State.setBank_cluster (s : State) (p : Place) (i : Nat) (b : Bank) (k : ClusterId) :
    (s.setBank p i b).cluster k = s.cluster k := rfl
@[simp] theorem State.bankOff_cluster (s : State) (p : Place) (i : Nat) (k : ClusterId) :
    (s.bankOff p i).cluster k = s.cluster k := rfl
@[simp] theorem State.setGroup_cluster (s : State) (q : PartId) (g : Group) (k : ClusterId) :
    (s.setGroup q g).cluster k = s.cluster k := rfl
@[simp] theorem State.logSuccessor_cluster (s : State) (q : PartId) (p : Place) (c : CtxId) (a : Word) (k : ClusterId) :
    (s.logSuccessor q p c a).cluster k = s.cluster k :=
  s.logEvent_cluster ..

@[simp] theorem State.dropSlot_cluster (s : State) (c : CtxId) (k : ClusterId) : (s.dropSlot c).cluster k = s.cluster k := by
  unfold dropSlot
  split <;> simp

@[simp] theorem State.banksOff_susp (s : State) (p : Place) (l : List Nat) (k : ClusterId) :
    ((s.banksOff p l).cluster k).susp = (s.cluster k).susp := by
  unfold banksOff
  exact foldl_susp (fun _ _ _ => by simp) l s k

@[simp] theorem State.banksTo_susp (s : State) (p : Place) (l : List Nat) (b : Bank) (k : ClusterId) :
    ((s.banksTo p l b).cluster k).susp = (s.cluster k).susp := by
  refine foldl_susp (fun t i k => ?_) l s k
  unfold bankTo
  split <;> simp

@[simp] theorem State.trimHandlerBanks_susp (s : State) (p : Place) (k : ClusterId) :
    ((s.trimHandlerBanks p).cluster k).susp = (s.cluster k).susp :=
  State.banksOff_susp ..

@[simp] theorem State.dropPending_susp (s : State) (j : ClusterId) (g : Nat) (k : ClusterId) :
    ((s.dropPending j g).cluster k).susp = (s.cluster k).susp :=
  foldl_susp (fun _ _ _ => State.banksOff_susp ..) _ s k

@[simp] theorem State.endOnCore_susp (s : State) (q : PartId) (g : Group) (p : Place) (k : ClusterId) :
    ((s.endOnCore q g p).cluster k).susp = (s.cluster k).susp := by
  unfold endOnCore
  simp only [setGroup_cluster, apply_ite fun t : State => (t.cluster k).susp, banksTo_susp, banksOff_susp, ite_self]

@[simp] theorem State.endGroup_susp (s : State) (q : PartId) (g : Group) (c : CtxId) (how : EndKind) (k : ClusterId) :
    ((s.endGroup q g c how).cluster k).susp = (s.cluster k).susp := by
  have hkeep : ((if g.role = .plain then s.modPart q fun x => { x with groups := SMap.drop x.groups g.num } else s).cluster k).susp =
      (s.cluster k).susp := by split <;> simp
  unfold endGroup
  dsimp only
  split
  · split
    · exact hkeep
    · have hbanks : ∀ (t : State) (l : List Place), ((l.foldl (fun t p =>
          t.banksOff p ((t.core p).banksWhere (· == .pending g.num))) t).cluster k).susp = (t.cluster k).susp :=
        fun t l => foldl_susp (fun _ _ _ => by simp) l t k
      split
      · rw [dropPending_susp, logSuccessor_cluster, hbanks, hkeep]
      · rw [modPart_cluster, hbanks, hkeep]
  · rw [dropPending_susp, hkeep]

@[simp] theorem State.leaveGroup_susp (s : State) (c : CtxId) (how : EndKind) (k : ClusterId) :
    ((s.leaveGroup c how).cluster k).susp = (s.cluster k).susp := by
  unfold leaveGroup
  split
  · rfl
  · dsimp only
    split <;> split <;> simp

@[simp] theorem State.askDump_cluster (s : State) (c : CtxId) (cause : Nat) (saved : Bool) (save : Nat) (k : ClusterId) :
    (s.askDump c cause saved save).1.cluster k = s.cluster k := by
  unfold askDump
  dsimp only
  split
  · rfl
  · split
    · split <;> simp
    · split <;> simp

@[simp] theorem State.awaitDump_cluster (s : State) (c : CtxId) (taken : Bool) (k : ClusterId) :
    (s.awaitDump c taken).cluster k = s.cluster k := by
  unfold awaitDump
  split <;> simp

@[simp] theorem State.kill_susp (s : State) (c : CtxId) (k : ClusterId) :
    ((s.kill c).cluster k).susp = (s.cluster k).susp := by
  unfold kill
  dsimp only
  split
  · rfl
  · split
    · simp
    · split <;> simp

/-! ### The reset of a basin -/

@[simp] theorem State.killForReset_susp (s : State) (c : CtxId) (l : List ClusterId) (k : ClusterId) :
    ((s.killForReset c l).cluster k).susp = (s.cluster k).susp := by
  unfold killForReset
  dsimp only
  split
  · rfl
  · split <;> split <;> simp

@[simp] theorem State.resetCore_susp (s : State) (p : Place) (l : List ClusterId) (k : ClusterId) :
    ((s.resetCore p l).cluster k).susp = (s.cluster k).susp := by
  unfold resetCore
  dsimp only
  rw [modCore_cluster, foldl_susp fun _ _ _ => by simp, foldl_susp fun _ _ _ => by simp]

@[simp] theorem State.clearScratch_cluster (s : State) (j k : ClusterId) : (s.clearScratch j).cluster k = s.cluster k := rfl

@[simp] theorem State.resetCluster_susp (s : State) (j : ClusterId) (l : List ClusterId) (k : ClusterId) :
    ((s.resetCluster j l).cluster k).susp = (s.cluster k).susp := by
  unfold resetCluster Cluster.reload
  dsimp only
  rw [modCluster_susp _ _ _ fun _ => by rfl, clearScratch_cluster, foldl_susp fun _ _ _ => by simp]

@[simp] theorem State.resetBasin_susp (s : State) (j : ClusterId) (place pa : Nat) (k : ClusterId) :
    ((s.resetBasin j place pa).cluster k).susp = (s.cluster k).susp := by
  unfold resetBasin
  dsimp only
  split
  · rfl
  · have hloop : ∀ l : List ClusterId, ((l.foldl (fun t j => t.resetCluster j l) s).cluster k).susp = (s.cluster k).susp :=
      fun l => foldl_susp (fun _ _ _ => by simp) l s k
    rw [logEvent_cluster]
    split
    · rw [useFree_cluster, hloop]
    · rw [hloop]

/-! ### The parts of taking a trap -/

@[simp] theorem State.saveFault_susp (s : State) (c : CtxId) (k : ClusterId) :
    ((s.saveFault c).cluster k).susp = (s.cluster k).susp := by
  simp [saveFault]

@[simp] theorem State.spoilDigest_cluster (s : State) (c : CtxId) (k : ClusterId) :
    (s.spoilDigest c).cluster k = s.cluster k := by
  unfold spoilDigest
  split
  · rfl
  · split <;> simp

@[simp] theorem State.abortHandler_susp (s : State) (c : CtxId) (k : ClusterId) :
    ((s.abortHandler c).cluster k).susp = (s.cluster k).susp := by
  unfold abortHandler
  split <;> simp

@[simp] theorem State.saveParts_cluster (s : State) (c : CtxId) (t : Trap) (f : Option Nat) (l : List UnitReq) (k : ClusterId) :
    (s.saveParts c t f l).2.cluster k = s.cluster k := by
  unfold saveParts
  dsimp only
  split <;> simp

/-- A cluster's score gains one, at most to 255, and no other does. -/
theorem State.suspect_susp (s : State) (j k : ClusterId) :
    ((s.suspect j).cluster k).susp.toNat = if k = j then min 255 ((s.cluster j).susp.toNat + 1) else (s.cluster k).susp.toNat := by
  have hfit : min 255 ((s.cluster j).susp.toNat + 1) % 2 ^ 8 = min 255 ((s.cluster j).susp.toNat + 1) :=
    Nat.mod_eq_of_lt (by omega)
  have hmod : ((s.suspect j).cluster k) =
      (s.modCluster j fun x => { x with susp := BitVec.ofNat 8 (min 255 ((s.cluster j).susp.toNat + 1)) }).cluster k := by
    unfold suspect
    dsimp only
    split
    · exact State.quarantine_cluster ..
    · rfl
  rw [hmod, modCluster_cluster]
  split
  · rw [BitVec.toNat_ofNat, hfit]
  · rfl

end Sys2Proof.Machine
end

section
namespace Sys2Proof.Machine

/-! ## What a save reads, and what leaves it (R326-R333) -/

/-- Everything that decides where and whether a context's save area is written, and what its registers hold, is as before. -/
structure SaveKept (s t : State) : Prop where
  regs : ∀ c r, (t.ctx c).readReg r = (s.ctx c).readReg r
  pend : ∀ c, (t.ctx c).pend = (s.ctx c).pend
  auOpen : ∀ c, (t.ctx c).auOpen = (s.ctx c).auOpen
  sabase : ∀ p, (t.core p).sabase = (s.core p).sabase
  part : ∀ q, { t.part q with groups := [] } = { s.part q with groups := [] }
  hpsel : ∀ g, (t.pkg g).hpsel = (s.pkg g).hpsel
  poison : t.poison = s.poison

namespace SaveKept

variable {s t u : State}

theorem refl (s : State) : SaveKept s s := by constructor <;> intros <;> rfl

theorem trans (h : SaveKept s t) (g : SaveKept t u) : SaveKept s u where
  regs c r := (g.regs c r).trans (h.regs c r)
  pend c := (g.pend c).trans (h.pend c)
  auOpen c := (g.auOpen c).trans (h.auOpen c)
  sabase p := (g.sabase p).trans (h.sabase p)
  part q := (g.part q).trans (h.part q)
  hpsel k := (g.hpsel k).trans (h.hpsel k)
  poison := g.poison.trans h.poison

/-! ### What follows for the save -/

theorem val (h : SaveKept s t) (c : CtxId) (r : RegName) : t.val c r = s.val c r := by
  rw [State.val, State.val, Context.flush_readReg, Context.flush_readReg, h.pend, h.regs]

theorem tvec (h : SaveKept s t) (q : PartId) : (t.part q).tvec = (s.part q).tvec :=
  (congrArg Part.tvec (h.part q) :)

theorem protectsRange (h : SaveKept s t) (q : PartId) (off n : Nat) :
    (t.part q).protectsRange off n = (s.part q).protectsRange off n :=
  (congrArg (Part.protectsRange · off n) (h.part q) :)

theorem owns (h : SaveKept s t) (q : PartId) (k : ClusterId) : (t.part q).owns k = (s.part q).owns k :=
  (congrArg (Part.owns · k) (h.part q) :)

theorem bankOf (h : SaveKept s t) (k : ClusterId) : t.bankOf k = s.bankOf k := by
  simp only [State.bankOf, h.owns]

theorem partOf (h : SaveKept s t) (p : Place) : t.partOf p = s.partOf p := by
  simp only [State.partOf, h.hpsel, h.bankOf]

theorem partOfCtx (h : SaveKept s t) (c : CtxId) : t.partOfCtx c = s.partOfCtx c := h.partOf _

theorem saveOff (h : SaveKept s t) (c : CtxId) : t.saveOff c = s.saveOff c := by
  simp only [State.saveOff, h.sabase]

theorem canSave (h : SaveKept s t) (c : CtxId) (off n : Nat) : t.canSave c off n = s.canSave c off n := by
  simp only [State.canSave, h.partOfCtx, h.protectsRange, h.poison]

/-! ### The updates that leave it -/

/-- An update outside the contexts, the cores, the parts, the packages and the uncorrectable errors. -/
theorem of_eq (hx : t.ctxs = s.ctxs) (hk : t.cores = s.cores) (hq : t.parts = s.parts) (hg : t.pkgs = s.pkgs)
    (hp : t.poison = s.poison) : SaveKept s t := by
  constructor <;> intros <;> simp only [State.ctx, State.core, State.part, State.pkg, hx, hk, hq, hg, hp]

theorem modCtx (s : State) (c : CtxId) {f : Context → Context} (hr : ∀ r, (f (s.ctx c)).readReg r = (s.ctx c).readReg r)
    (hp : (f (s.ctx c)).pend = (s.ctx c).pend) (ha : (f (s.ctx c)).auOpen = (s.ctx c).auOpen) : SaveKept s (s.modCtx c f) := by
  have key : ∀ (α : Type) (g : Context → α), g (f (s.ctx c)) = g (s.ctx c) → ∀ u, g ((s.modCtx c f).ctx u) = g (s.ctx u) := by
    intro α g hg u
    rw [State.modCtx_ctx]
    split
    · subst u; exact hg
    · rfl
  exact { refl s with
    regs := fun u r => key _ (·.readReg r) (hr r) u
    pend := key _ Context.pend hp
    auOpen := key _ Context.auOpen ha }

/-- A change of a context's place, its part in a gang or its streams. -/
theorem modCtx_still (s : State) (c : CtxId) {f : Context → Context} (h : (f (s.ctx c)).still = (s.ctx c).still) :
    SaveKept s (s.modCtx c f) :=
  modCtx s c (Context.still_readReg h) (Context.still_pend h) (congrArg Context.auOpen h :)

theorem modCore (s : State) (p : Place) {f : Core → Core} (h : ∀ x, (f x).sabase = x.sabase) : SaveKept s (s.modCore p f) :=
  { refl s with
    sabase := fun q => by
      rw [State.modCore_core]
      split
      · subst q; exact h _
      · rfl }

theorem modPkg (s : State) (g : PkgId) {f : Package → Package} (h : ∀ x, (f x).hpsel = x.hpsel) : SaveKept s (s.modPkg g f) :=
  { refl s with
    hpsel := fun k => by
      rw [State.modPkg_pkg]
      split
      · subst k; exact h _
      · rfl }

theorem setGroup (s : State) (q : PartId) (g : Group) : SaveKept s (s.setGroup q g) :=
  { refl s with
    part := fun k => by
      rw [State.setGroup, State.modPart_part]
      split
      · subst k; rfl
      · rfl }

theorem fold {α : Type} {f : State → α → State} (h : ∀ t a, SaveKept t (f t a)) (l : List α) (s : State) :
    SaveKept s (l.foldl f s) := by
  induction l generalizing s with
  | nil => exact refl s
  | cons a l ih => exact (h s a).trans (ih _)

theorem modCluster (s : State) (k : ClusterId) (f : Cluster → Cluster) : SaveKept s (s.modCluster k f) := of_eq rfl rfl rfl rfl rfl
theorem modDie (s : State) (d : DieId) (f : Die → Die) : SaveKept s (s.modDie d f) := of_eq rfl rfl rfl rfl rfl
theorem writeRun (s : State) (a : Nat) (l : List Byte) : SaveKept s (s.writeRun a l) := of_eq rfl rfl rfl rfl rfl
theorem useFree (s : State) : SaveKept s s.useFree := of_eq rfl rfl rfl rfl rfl
theorem withdraw (s : State) (c : CtxId) : SaveKept s (s.withdraw c) := of_eq rfl rfl rfl rfl rfl
theorem setGang (s : State) (g : Gang) : SaveKept s (s.setGang g) := of_eq rfl rfl rfl rfl rfl
theorem dropGang (s : State) (n : Nat) : SaveKept s (s.dropGang n) := of_eq rfl rfl rfl rfl rfl

/-- The fixed-latency results of a context that awaits none are written. -/
theorem flush (s : State) {c : CtxId} (h : (s.ctx c).pend = []) : SaveKept s (s.modCtx c Context.flush) := by
  have he : (s.ctx c).flush = s.ctx c := by
    rw [Context.flush, h, List.foldl_nil, ← h]
  exact modCtx s c (fun r => by rw [he]) (by rw [he]) (by rw [he])

theorem dissolveGang (s : State) (g : Gang) (p : Option Word) : SaveKept s (s.dissolveGang g p) := by
  refine (fold (fun t m => ?_) _ _).trans (dropGang _ _)
  split
  · exact modCtx_still t m rfl
  · refine modCtx_still t m ?_
    split
    · rw [Context.endStream_still]; rfl
    · rfl

theorem quitGang (s : State) (c : CtxId) : SaveKept s (s.quitGang c) := by
  refine (withdraw s c).trans ?_
  unfold State.quitGang
  dsimp only
  split
  · exact refl _
  · split
    · exact dissolveGang ..
    · exact (setGang ..).trans (modCtx_still _ _ rfl)

theorem commitMsg (s : State) (p dst : Place) (hidx : Nat) (p1 p2 p3 : Vec) :
    SaveKept s (s.commitMsg p dst hidx p1 p2 p3).1 := by
  have hseq : SaveKept s { s with seq := s.seq + 1 } := of_eq rfl rfl rfl rfl rfl
  exact hseq.trans (modCore _ p (f := fun x => { x with msgid := x.msgid + 1 }) fun _ => rfl)

theorem setFlying (s : State) (l : List Flying) : SaveKept s { s with flying := l } := of_eq rfl rfl rfl rfl rfl

theorem logEvent (s : State) (q : PartId) (d : DieId) (e : EventRec) : SaveKept s (s.logEvent q d e) := by
  unfold State.logEvent
  dsimp only
  split
  · exact modDie ..
  · have hrec := fun a l f g => ((writeRun s a l).trans (modDie _ d f)).trans
      (modPkg _ (q / 16) (f := fun x => { x with msix := x.msix ++ g }) fun _ => rfl)
    split
    · exact (hrec _ _ _ _).trans ((commitMsg ..).trans (setFlying ..))
    · exact hrec _ _ _ _

theorem suspect (s : State) (k : ClusterId) : SaveKept s (s.suspect k) := by
  have hquar : ∀ t : State, SaveKept t (t.quarantine k 1) := by
    intro t
    unfold State.quarantine
    split
    · exact refl t
    · exact (modDie ..).trans (logEvent ..)
  unfold State.suspect
  dsimp only
  split
  · exact (modCluster ..).trans (hquar _)
  · exact modCluster ..

theorem spoilDigest (s : State) (c : CtxId) : SaveKept s (s.spoilDigest c) := by
  unfold State.spoilDigest
  split
  · exact refl s
  · split
    · exact refl s
    · exact setGroup ..

theorem dropUnitReqs (s : State) (c : CtxId) : SaveKept s (s.dropUnitReqs c) := modCore s _ fun _ => rfl

theorem modInbox (s : State) (p : Place) {f : Core → Core} (h : ∀ x, (f x).sabase = x.sabase) : SaveKept s (s.modInbox p f) :=
  modCore s p fun x => h x

/-- The abort of a handler without an open AU. -/
theorem abortHandler (s : State) {c : CtxId} (h : (s.ctx c).auOpen = false) : SaveKept s (s.abortHandler c) := by
  have hno : s.discardAu c = s := by simp [State.discardAu, h]
  unfold State.abortHandler
  split
  · dsimp only
    rw [hno]
    exact (modCtx s c (fun r => by cases r <;> rfl) rfl rfl).trans (modInbox _ _ fun _ => rfl)
  · exact refl s

theorem unmarkAu (s : State) (c : CtxId) : SaveKept s (s.unmarkAu c) :=
  (modCluster ..).trans (modCtx _ c (fun r => by cases r <;> rfl) rfl rfl)

theorem saveParts (s : State) (c : CtxId) (t : Trap) (f : Option Nat) (l : List UnitReq) :
    SaveKept s (s.saveParts c t f l).2 := by
  unfold State.saveParts
  dsimp only
  split
  · exact useFree s
  · exact refl s

theorem traceIf (s : State) (n : Nat) (r : TraceRec) : SaveKept s (s.traceIf n r) := by
  unfold State.traceIf
  dsimp only
  split
  · unfold State.trace
    dsimp only
    split
    · exact modDie ..
    · exact (writeRun ..).trans (modDie ..)
  · exact refl s

end SaveKept

/-- The scan-out of a context without an open AU finds no frame and no fault. -/
theorem State.scanOut_auClosed {s : State} {c : CtxId} (h : (s.ctx c).auOpen = false) :
    s.scanOut c = (s.unmarkAu c, false, none) := by
  have hau : ((s.unmarkAu c).ctx c).auOpen = false := ((SaveKept.unmarkAu s c).auOpen c).trans h
  simp [scanOut, hau]

/-- The first byte of the record's first word is the cause (R327). -/
theorem State.saveParts_word0_mod (s : State) (c : CtxId) (t : Trap) (f : Option Nat) (l : List UnitReq) :
    (s.saveParts c t f l).1.word0 % 256 = t.cause.code := by
  have hcode : t.cause.code < 256 := by cases t.cause <;> decide
  unfold saveParts recordWord
  dsimp only
  omega

theorem dieOff_lt (w : Word) : dieOff w < 2 ^ 52 := by
  unfold dieOff vaOf
  split <;> omega

/-! ## Entering supervisor level (R326, R348) -/

/-- What a trap has done before the save area is looked at: a follower has left its gang, the score of the core's cluster has risen
at SIG_MISMATCH, a checked run gives no digest, and the unit requests are gone. -/
def State.suspend (s : State) (c : CtxId) (cause : Cause) : State :=
  let s1 := s.modCtx c Context.flush
  let s2 := if (s1.ctx c).csr.gang == 2 then s1.quitGang c else s1
  ((if cause = .sigMismatch then s2.suspect (clusterOf (coreOf c)) else s2).spoilDigest c).dropUnitReqs c

theorem SaveKept.suspend (s : State) {c : CtxId} (cause : Cause) (h : (s.ctx c).pend = []) : SaveKept s (s.suspend c cause) := by
  have hgang : ∀ t : State, SaveKept t (if (t.ctx c).csr.gang == 2 then t.quitGang c else t) := by
    intro t
    split
    · exact quitGang ..
    · exact refl t
  have hscore : ∀ t : State, SaveKept t (if cause = .sigMismatch then t.suspect (clusterOf (coreOf c)) else t) := by
    intro t
    split
    · exact suspect ..
    · exact refl t
  exact (flush s h).trans ((hgang _).trans ((hscore _).trans ((spoilDigest ..).trans (dropUnitReqs ..))))

/-- SIG_MISMATCH adds one to the score of the core's cluster (R348). -/
theorem State.suspend_susp (s : State) (c : CtxId) (k : ClusterId) :
    ((s.suspend c .sigMismatch).cluster k).susp.toNat =
      if k = clusterOf (coreOf c) then min 255 ((s.cluster k).susp.toNat + 1) else (s.cluster k).susp.toNat := by
  have hgang : ∀ (t : State) (j : ClusterId),
      ((if (t.ctx c).csr.gang == 2 then t.quitGang c else t).cluster j).susp = (t.cluster j).susp := by
    intro t j
    split
    · exact quitGang_susp ..
    · rfl
  unfold suspend
  simp only [if_true, dropUnitReqs_cluster, spoilDigest_cluster, suspect_susp, hgang, modCtx_cluster]
  split
  · subst k; rfl
  · rfl

/-- Whatever becomes of the save, the scores stay as they were when the save area was looked at. -/
theorem State.enterTrap_susp (s : State) (c : CtxId) (t : Trap) (k : ClusterId) :
    ((s.enterTrap c t).cluster k).susp = ((s.suspend c t.cause).cluster k).susp := by
  unfold enterTrap
  dsimp only
  generalize hu : State.dropUnitReqs _ c = u
  have hs : s.suspend c t.cause = u := hu
  rw [hs]
  split
  · exact saveFault_susp ..
  · split
    · simp
    · simp

theorem Context.enter_readReg (x : Context) (tvec save : Word) (word0 : Nat) (r : TrapRec) (now : Nat) (left : Word) (q : RegName) :
    (x.enter tvec save word0 r now left).readReg q =
      if q = .s 2 then BitVec.ofNat 128 (word0 % 2 ^ 64) else if q = .s 1 then save.setWidth 128 else x.readReg q := by
  have hfit : fitReg (.s 2) (BitVec.ofNat 128 (word0 % 2 ^ 64)) = BitVec.ofNat 128 (word0 % 2 ^ 64) := by
    apply BitVec.eq_of_toNat_eq
    simp [fitReg]
  have hregs : (x.enter tvec save word0 r now left).readReg q =
      ((x.setReg (.s 1) (save.setWidth 128)).setReg (.s 2) (BitVec.ofNat 128 (word0 % 2 ^ 64))).readReg q := by
    cases q <;> rfl
  rw [hregs, readReg_setReg, readReg_setReg, hfit, fitReg_s]
  simp [RegName.wired]

theorem Context.enter_pend (x : Context) (tvec save : Word) (word0 : Nat) (r : TrapRec) (now : Nat) (left : Word) :
    (x.enter tvec save word0 r now left).pend = x.pend := by
  simp [enter]

/-- A context that awaits no result and has no open AU enters supervisor level once its save area can be written: all that led
there has left its registers, and the record's first word tells the cause. -/
theorem State.enterTrap_of_canSave {s : State} {c : CtxId} (t : Trap) (hp : (s.ctx c).pend = []) (ha : (s.ctx c).auOpen = false)
    (hc : s.canSave c (s.saveOff c) 4096 = true) :
    ∃ (u : State) (word0 : Nat) (r : TrapRec) (now : Nat) (left : Word), SaveKept s u ∧ word0 % 256 = t.cause.code ∧
      s.enterTrap c t = u.modCtx c fun x =>
        x.enter (s.part (s.partOfCtx c)).tvec (BitVec.ofNat 64 (0x20000000 + s.saveOff c)) word0 r now left := by
  unfold enterTrap
  dsimp only
  generalize hsusp : State.dropUnitReqs _ c = t1
  have h1 : SaveKept s t1 := hsusp ▸ SaveKept.suspend s t.cause hp
  have hab : SaveKept s (t1.abortHandler c) := h1.trans (SaveKept.abortHandler t1 ((h1.auOpen c).trans ha))
  rw [h1.saveOff, h1.canSave, hc, scanOut_auClosed ((hab.auOpen c).trans ha)]
  simp only [Bool.not_true, Bool.false_eq_true, if_false]
  generalize hout : (t1.abortHandler c).unmarkAu c = t2
  have h2 : SaveKept s t2 := hout ▸ hab.trans (SaveKept.unmarkAu ..)
  generalize hparts : State.saveParts t2 c t none _ = parts
  have hcode : parts.1.word0 % 256 = t.cause.code := hparts ▸ saveParts_word0_mod ..
  have h3 : SaveKept s parts.2 := hparts ▸ h2.trans (SaveKept.saveParts ..)
  have hall := fun l n r => h3.trans ((SaveKept.writeRun parts.2 (dieAt (dieOf (coreOf c)) (s.saveOff c)) l).trans
    (SaveKept.traceIf _ n r))
  rw [(hall _ _ _).tvec]
  exact ⟨_, _, _, _, _, hall _ _ _, hcode, rfl⟩

theorem State.pend_of_settled {s : State} {c : CtxId} (h : s.outstanding c = false) : (s.ctx c).pend = [] := by
  simp only [outstanding, Bool.or_eq_false_iff, Bool.not_eq_false', List.isEmpty_iff] at h
  exact h.1

/-- While a result is outstanding the trap is due (R326 step 1). -/
theorem State.takeTrap_of_outstanding {s : State} {c : CtxId} (t : Trap) (hl : (s.ctx c).level = .task)
    (ho : s.outstanding c = true) :
    s.takeTrap c t = (s.withdraw c).modCtx c fun x => { x with due := some t, wait := none, heldAt := some s.cycle } := by
  simp [takeTrap, hl, ho]

theorem State.takeTrap_of_settled {s : State} {c : CtxId} (t : Trap) (hl : (s.ctx c).level = .task)
    (ho : s.outstanding c = false) : s.takeTrap c t = (s.withdraw c).enterTrap c t := by
  simp [takeTrap, hl, ho]

/-- The address of a save area fits a word. -/
theorem State.saveVa_fits (s : State) (c : CtxId) :
    (BitVec.ofNat 64 (0x20000000 + s.saveOff c)).setWidth 128 = BitVec.ofNat 128 (0x20000000 + s.saveOff c) := by
  have hoff : s.saveOff c < 2 ^ 53 := by
    have := dieOff_lt (s.core (coreOf c)).sabase
    unfold saveOff ctxNo
    omega
  apply BitVec.eq_of_toNat_eq
  simp only [BitVec.toNat_setWidth, BitVec.toNat_ofNat]
  omega

/-- Supervisor level is entered with the save area's address in s1, the record's first word in s2, and every other register as it was
(R326 step 4). -/
theorem State.enterTrap_entered {s : State} {c : CtxId} (t : Trap) (hp : (s.ctx c).pend = []) (ha : (s.ctx c).auOpen = false)
    (hc : s.canSave c (s.saveOff c) 4096 = true) :
    ((s.enterTrap c t).ctx c).level = .sup ∧ ((s.enterTrap c t).ctx c).pc = (s.part (s.partOfCtx c)).tvec ∧
      (s.enterTrap c t).val c (.s 1) = BitVec.ofNat 128 (0x20000000 + s.saveOff c) ∧
      ((s.enterTrap c t).val c (.s 2)).toNat % 256 = t.cause.code ∧ RegsKept s (s.enterTrap c t) [(c, .s 1), (c, .s 2)] := by
  obtain ⟨u, word0, r, now, left, hu, hw, he⟩ := enterTrap_of_canSave t hp ha hc
  have hval : ∀ q, (s.enterTrap c t).val c q = if q = .s 2 then BitVec.ofNat 128 (word0 % 2 ^ 64)
      else if q = .s 1 then BitVec.ofNat 128 (0x20000000 + s.saveOff c) else s.val c q := by
    intro q
    have hnil : (u.ctx c).pend = [] := (hu.pend c).trans hp
    rw [← hu.val, he, val, val, modCtx_same, Context.flush_readReg, Context.flush_readReg, Context.enter_pend, hnil]
    simp only [pendVal, List.foldl_nil, Context.enter_readReg, saveVa_fits]
  refine ⟨by rw [he, modCtx_same]; rfl, by rw [he, modCtx_same]; rfl, by simp [hval], ?_, fun d q hq => ?_⟩
  · rw [hval, if_pos rfl, BitVec.toNat_ofNat]
    omega
  · by_cases hd : d = c
    · subst d
      simp only [List.mem_cons, Prod.mk.injEq, true_and, List.not_mem_nil, or_false, not_or] at hq
      rw [hval, if_neg hq.2, if_neg hq.1]
    · rw [← hu.val, he, val, val, modCtx_ne _ _ hd]

/-- Settles O44: the score rises as the task is suspended, before the save area is looked at, and nothing after that touches a score;
the entry itself is that of every trap. -/
theorem signatureMismatchesRaiseTheScore : Obligations.SignatureMismatchesRaiseTheScore := by
  intro s c z hz hl
  dsimp only
  refine ⟨fun ho => ?outstanding, fun ho => ?settled⟩
  case outstanding =>
    rw [State.takeTrap_of_outstanding z hl ho, State.modCtx_same]
    exact ⟨rfl, hl, fun _ => rfl⟩
  case settled =>
    have hw := SaveKept.withdraw s c
    rw [State.takeTrap_of_settled z hl ho]
    refine ⟨fun j => ?score, fun hc ha => ?entered⟩
    case score => rw [State.enterTrap_susp, hz, State.suspend_susp, State.withdraw_cluster]
    case entered =>
      obtain ⟨hlevel, hpc, hs1, hs2, hregs⟩ := State.enterTrap_entered (s := s.withdraw c) (c := c) z (State.pend_of_settled ho) ha
        (by rw [hw.saveOff, hw.canSave, hc])
      refine ⟨hlevel, ?_, ?_, ?_, fun d q hq => (hregs d q hq).trans (hw.val d q)⟩
      · rw [hpc, hw.partOfCtx, hw.tvec]
      · rw [hs1, hw.saveOff]
      · rw [hs2, hz]; rfl

end Sys2Proof.Machine
end
